-- ==== Sys2Proof/Word.lean ====
section
/-!
DEFINITION. The words of the machine (spec/00_scope.md R23, R24; spec/10_state.md R48, R49).
-/

namespace Sys2Proof

/-- An 8-bit unsigned value (R24). -/
abbrev Byte := BitVec 8

/-- A 4-bit unsigned value (R24). -/
abbrev Nib := BitVec 4

/-- A command or response word, 32 bits (30_encoding.md R110). -/
abbrev Word := BitVec 32

/-- An engine operation word, 16 bits (30_encoding.md R126). -/
abbrev UWord := BitVec 16

/-- A packet-memory address as the host encodes it, 64 bits (00_scope.md R12). -/
abbrev Addr := BitVec 64

/-- `Bytes k`: a sequence of k bytes, indexed from 0 (R24). -/
abbrev Bytes (k : Nat) := Vector Byte k

/-- An 8-byte block of a payload (20_memory.md R84). -/
abbrev Block := Bytes 8

/-- How many lanes the model's registers hold: the largest LANES of R10. A build of N lanes uses
lanes 0 .. N-1 and keeps the others at zero (log 11). -/
abbrev maxLanes : Nat := 128

/-- A group (R48): lane i is bit i. -/
abbrev Group := BitVec maxLanes

/-- A byte slice (R49): byte i is the byte of lane i. -/
abbrev Slice := Vector Byte maxLanes

end Sys2Proof
end

