-- ==== Sys2Proof/Config.lean ====
section
/-!
DEFINITION. What a build of the block fixes (spec/00_scope.md section 3) and the free values.

The build parameters that are plain data, the CSA constant tables among them, are the structure
`Build`, which `State` carries as `cfg`; no step changes it (log 1). The supplied values of the
tables and the build at reset are in Sys2Proof/Machine/Tables.lean. The substitute ciphers (R22) and the free values are constants without a body: nothing is known of them.
-/

namespace Sys2Proof

/-- `LANES` (R10): the lane count N of a group, 32, 64 or 128. -/
inductive Lanes where
  | l32 | l64 | l128
  deriving DecidableEq, Repr, Inhabited

/-- The lane count as a number. -/
def Lanes.toNat : Lanes → Nat
  | .l32 => 32
  | .l64 => 64
  | .l128 => 128

/-- `AES_ECB_KEY_BYTES` (R19): 8 or 16. -/
inductive AesEcbKey where
  | k8 | k16
  deriving DecidableEq, Repr, Inhabited

/-- The key length of kind AES_ECB in bytes. -/
def AesEcbKey.toNat : AesEcbKey → Nat
  | .k8 => 8
  | .k16 => 16

/-- An interval of packet-memory addresses, `hi` exclusive. -/
structure Region where
  lo : Nat
  hi : Nat
  deriving DecidableEq, Repr, Inhabited

/-- Values for the CSA constant tables (R21; 10_state.md R47). In `sboxIn` and `extraB`, `(m, b)` is
bit b of the logical register A[m] or B[m]. -/
structure TableData where
  /-- `KEY_PERM` (41_key_schedule.md R181): input bit m moves to output bit `KEY_PERM[m] - 1`. -/
  keyPerm : List Nat
  /-- `BLOCK_SBOX` (43_block_cipher.md R246), entries 0 to 255. -/
  blockSbox : List Byte
  /-- `PERM_BIT` (R248): input bit i moves to output bit `PERM_BIT[i]`. -/
  permBit : List Nat
  /-- `STREAM_SBOX[1..7]` (42_stream_cipher.md R203): seven tables of 32 two-bit entries. -/
  streamSbox : List (List (BitVec 2))
  /-- `SBOX_IN` (R204): the input bits i4, i3, i2, i1, i0 of each S-box. -/
  sboxIn : List (List (Nat × Nat))
  /-- `EXTRA_B` (R206): the bits XORed for extra.3, extra.2, extra.1, extra.0. -/
  extraB : List (List (Nat × Nat))
  deriving DecidableEq, Repr, Inhabited

/-- `(m, b)` names a bit of the registers A[1..10] or B[1..10] (42_stream_cipher.md R200). -/
def registerBit (mb : Nat × Nat) : Bool :=
  decide (1 ≤ mb.1) && decide (mb.1 ≤ 10) && decide (mb.2 < 4)

/-- The tables have the shapes of their rules: KEY_PERM is a permutation of 1..64 (R181) and PERM_BIT
one of 0..7 (R248), and every table has the entries its rule counts (R203, R204, R206, R246). -/
def TableData.wf (d : TableData) : Bool :=
  decide (d.keyPerm.length = 64) && decide d.keyPerm.Nodup
    && d.keyPerm.all (fun v => decide (1 ≤ v) && decide (v ≤ 64))
    && decide (d.blockSbox.length = 256)
    && decide (d.permBit.length = 8) && decide d.permBit.Nodup
    && d.permBit.all (fun v => decide (v < 8))
    && decide (d.streamSbox.length = 7) && d.streamSbox.all (fun t => decide (t.length = 32))
    && decide (d.sboxIn.length = 7)
    && d.sboxIn.all (fun bits => decide (bits.length = 5) && bits.all registerBit)
    && decide (d.extraB.length = 4) && d.extraB.all (fun bits => bits.all registerBit)

/-- The CSA constant tables of a build: configuration, of any values of the right shape (R21). -/
structure Tables extends TableData where
  wf : toTableData.wf = true
  deriving DecidableEq, Repr

/-- `BATCH_CAP` (R11): a positive integer that the 32-bit CSR CAP_BATCH can report. -/
abbrev BatchCap := { w : BitVec 32 // w ≠ 0 }

/-- The build parameters that are plain data (R10, R11, R18 to R21). `memMap` is `MEM_VALID` as a
list of intervals: every predicate on the 2^64 addresses is one. DESIGN CHOICE (log 1): they are
fields of the state, so that a statement about every state holds for every build. -/
structure Build where
  lanes : Lanes
  batchCap : BatchCap
  tscClear : Bool
  aesEcbKey : AesEcbKey
  memMap : List Region
  tables : Tables
  deriving DecidableEq, Repr

/-- N, the lane count of the build. -/
abbrev Build.n (c : Build) : Nat := c.lanes.toNat

/-- `DES_DEC` (R22): key, block. An open parameter function (log 2). -/
opaque Config.desDec : Bytes 8 → Bytes 8 → Bytes 8

/-- `AES_ECB_DEC` (R22): key of `AES_ECB_KEY_BYTES` bytes, block. An open parameter function (log 2). -/
opaque Config.aesEcbDec : (k : AesEcbKey) → Bytes k.toNat → Bytes 16 → Bytes 16

/-- `AES128_DEC` (R22): key, block. An open parameter function (log 2). -/
opaque Config.aes128Dec : Bytes 16 → Bytes 16 → Bytes 16

/-- FREE VALUE (log 8): how many host steps pass between a DECRYPT's issue and its completion
(45_commands.md R352, R359). The argument is the number of the draw. -/
opaque Config.completionDelay : Nat → Nat

/-- FREE VALUE (log 7): what a byte of the latched ranges of a dropped or abandoned DECRYPT holds
(45_commands.md R356, 70_reset_and_hazards.md R431). The arguments are the number of the draw and
the byte's address, so that the bytes are independent. -/
opaque Config.unspecifiedByte : Nat → Nat → Byte

end Sys2Proof
end

