-- ==== Sys2Proof/Syntax.lean ====
section
/-!
DEFINITION. The instructions: one constructor for each row of spec/opcode_table.json, 4 commands
(spec/30_encoding.md R113 to R117) and 37 engine operations (R127).
-/

namespace Sys2Proof

/-- The parity of a packet or key (00_scope.md R27). -/
inductive Parity where
  | even | odd
  deriving DecidableEq, Repr, Inhabited

/-- A value for each parity. -/
structure PerParity (α : Type) where
  even : α
  odd : α
  deriving DecidableEq, Repr, Inhabited

/-- The value of parity `p`. -/
def PerParity.get {α : Type} (v : PerParity α) : Parity → α
  | .even => v.even
  | .odd => v.odd

/-- A cipher kind (10_state.md R31). -/
inductive Kind where
  | none | csa | desNcb | aesEcb | aes128Ecb
  deriving DecidableEq, Repr, Inhabited

/-- A range of a DECRYPT (00_scope.md R28): `stop` is exclusive. -/
structure Range where
  start : Addr
  stop : Addr
  deriving DecidableEq, Repr, Inhabited

/-- The mode of an S_STEP (42_stream_cipher.md R210): IMM bit 0. -/
inductive StepMode where
  | generating | initializing
  deriving DecidableEq, Repr, Inhabited

/-- The round of an SC_ROUND, 1 to 22 (R127, R128: other values have no term). -/
abbrev SchedRound := { it : Nat // 1 ≤ it ∧ it ≤ 22 }

/-- The instructions. A command carries its ARGS fields, the reserved ones too (a nonzero reserved
field is the command's fault BAD_OPERAND, 60_exceptions.md R391), and its operand words: the key
words of SET_CW as words (R114), the ranges of DECRYPT as pairs (R115; NR is their number). An
engine operation carries its IMM; IMM values that R128 reserves have no term. -/
inductive Instr where
  -- commands (format C)
  | setKind (rsvd : BitVec 21) (k : BitVec 3)
  | setCw (rsvd : BitVec 22) (pmask : BitVec 2) (keys : List Word)
  | decrypt (rsvd : BitVec 8) (ranges : List Range)
  | csrRead (rsvd : BitVec 16) (index : BitVec 8)
  -- group primitive and transposer
  | gZero
  | gOnes
  | gAnd
  | gOr
  | gXor
  | gNot
  | gBcast1 (v : Bool)
  | bBcast8 (c : Byte)
  | bShl8 (k : BitVec 3)
  | bShr8 (k : BitVec 3)
  | bSbox
  | tInBits
  | tOutBits
  | tInBytes
  | tOutBytes
  -- key scheduler
  | kStream
  | kBlock
  | kBcast (p : Parity)
  -- stream cipher
  | sLoad
  | sStep (mode : StepMode) (jOdd : Bool)
  | sInit
  | sGen
  | sAdvance
  -- block cipher
  | bcLoad
  | bcRound (t : Fin 56)
  | bcDecipher
  | bcStore
  -- batch scheduler
  | scScan
  | scSort
  | scAlive
  | scRound0
  | scRound (it : SchedRound)
  | scRound23
  | scCompact
  -- single-packet ciphers
  | pDesNcb
  | pAesEcb
  | pAes128Ecb
  deriving DecidableEq, Repr

end Sys2Proof
end

