-- ==== Sys2Proof/WellFormed.lean ====
section
/-!
DEFINITION. Which terms are instructions of the encoding (spec/30_encoding.md R114, R115, R118).
The engine operations need no check: an IMM that R128 reserves has no term.
-/

namespace Sys2Proof

/-- The number of parities PMASK selects, popcount(PMASK) (R118). -/
def pmaskCount (m : BitVec 2) : Nat := (m.getLsbD 0).toNat + (m.getLsbD 1).toNat

/-- `i` is a well-formed instruction while a key is `kw` words long (keylen(KIND)/4, and 0 while
KIND = NONE: R118): a SET_CW carries exactly the key words its PMASK selects, and the number of
ranges of a DECRYPT fits the 16-bit NR. -/
def Instr.wf (kw : Nat) : Instr → Bool
  | .setCw _ pmask keys => keys.length == pmaskCount pmask * kw
  | .decrypt _ ranges => decide (ranges.length < 2 ^ 16)
  | _ => true

end Sys2Proof
end

