-- ==== Sys2Proof/Decode.lean ====
section
/-!
DEFINITION. The decoder and, after it, the encoder (spec/30_encoding.md).

There are two encoding spaces: commands, words of 32 bits at the command port (format C, R110 to
R118), and engine operations, words of 16 bits that only the sequencer issues (format U, R126 to
R128).
-/

namespace Sys2Proof

/-- The 3-bit code of a kind (10_state.md R31). -/
def Kind.code : Kind → BitVec 3
  | .none => 0
  | .csa => 1
  | .desNcb => 2
  | .aesEcb => 3
  | .aes128Ecb => 4

/-- The kind a legal SET_KIND code names: 1 to 4; 0 and 5 to 7 are reserved (R113). -/
def Kind.ofCode (k : BitVec 3) : Option Kind :=
  if k = 1 then some .csa
  else if k = 2 then some .desNcb
  else if k = 3 then some .aesEcb
  else if k = 4 then some .aes128Ecb
  else Option.none

/-! ## Commands -/

/-- What stands at the head of the command port. -/
inductive Decoded where
  /-- A command, and its length in words (R118). -/
  | instr (i : Instr) (len : Nat)
  /-- A word with a reserved opcode: 0x00 or 0x05 to 0xFF, one word long (R116, R118). -/
  | reservedOpcode (opc : Byte)
  /-- No word, or a command whose operand words have not all arrived. -/
  | incomplete
  deriving DecidableEq, Repr

/-- `n` ranges of four words each, low word first (R112, R115); `none` if words are missing. -/
def takeRanges : Nat → List Word → Option (List Range)
  | 0, _ => some []
  | n + 1, startLo :: startHi :: stopLo :: stopHi :: rest =>
    (takeRanges n rest).map (⟨startHi ++ startLo, stopHi ++ stopLo⟩ :: ·)
  | _ + 1, _ => none

/-- The command at the head of the words `ws`, while a key is `kw` words long (R111 to R118). -/
def decodeCommand (kw : Nat) : List Word → Decoded
  | [] => .incomplete
  | w :: ops =>
    let opc : Byte := w.extractLsb' 24 8
    if opc = 0x01 then .instr (.setKind (w.extractLsb' 3 21) (w.extractLsb' 0 3)) 1
    else if opc = 0x02 then
      let pmask : BitVec 2 := w.extractLsb' 0 2
      let n := pmaskCount pmask * kw
      if ops.length < n then .incomplete
      else .instr (.setCw (w.extractLsb' 2 22) pmask (ops.take n)) (1 + n)
    else if opc = 0x03 then
      let nr := (w.extractLsb' 0 16).toNat
      match takeRanges nr ops with
      | none => .incomplete
      | some ranges => .instr (.decrypt (w.extractLsb' 16 8) ranges) (1 + 4 * nr)
    else if opc = 0x04 then .instr (.csrRead (w.extractLsb' 8 16) (w.extractLsb' 0 8)) 1
    else .reservedOpcode opc

/-- How many operand words follow the command word `w` (R118). -/
def operandCount (kw : Nat) (w : Word) : Nat :=
  let opc : Byte := w.extractLsb' 24 8
  if opc = 0x02 then pmaskCount (w.extractLsb' 0 2) * kw
  else if opc = 0x03 then 4 * (w.extractLsb' 0 16).toNat
  else 0

/-! ## Engine operations -/

/-- An operation whose IMM is 0 (R127); another IMM is reserved (R128). -/
def plainOp (imm : BitVec 8) (i : Instr) : Option Instr := if imm = 0 then some i else none

/-- An operation whose IMM bit 0 is a value and whose other IMM bits are 0. -/
def bitOp (imm : BitVec 8) (i : Bool → Instr) : Option Instr :=
  if imm.extractLsb' 1 7 = 0 then some (i (imm.getLsbD 0)) else none

/-- An operation whose IMM bits 2:0 are a shift count and whose other IMM bits are 0. -/
def shiftOp (imm : BitVec 8) (i : BitVec 3 → Instr) : Option Instr :=
  if imm.extractLsb' 3 5 = 0 then some (i (imm.extractLsb' 0 3)) else none

/-- The engine operation of a word (R127). `none`: the word is reserved (R128). -/
def decodeEngine (w : UWord) : Option Instr :=
  let imm : BitVec 8 := w.extractLsb' 0 8
  match (w.extractLsb' 8 8).toNat with
  | 0x01 => plainOp imm .gZero
  | 0x02 => plainOp imm .gOnes
  | 0x03 => plainOp imm .gAnd
  | 0x04 => plainOp imm .gOr
  | 0x05 => plainOp imm .gXor
  | 0x06 => plainOp imm .gNot
  | 0x07 => bitOp imm .gBcast1
  | 0x08 => some (.bBcast8 imm)
  | 0x09 => shiftOp imm .bShl8
  | 0x0A => shiftOp imm .bShr8
  | 0x0B => plainOp imm .bSbox
  | 0x0C => plainOp imm .tInBits
  | 0x0D => plainOp imm .tOutBits
  | 0x0E => plainOp imm .tInBytes
  | 0x0F => plainOp imm .tOutBytes
  | 0x20 => plainOp imm .kStream
  | 0x21 => plainOp imm .kBlock
  | 0x22 => bitOp imm (fun b => .kBcast (if b then .odd else .even))
  | 0x30 => plainOp imm .sLoad
  | 0x31 =>
    if imm.extractLsb' 2 6 = 0 then
      some (.sStep (if imm.getLsbD 0 then .initializing else .generating) (imm.getLsbD 1))
    else none
  | 0x32 => plainOp imm .sInit
  | 0x33 => plainOp imm .sGen
  | 0x34 => plainOp imm .sAdvance
  | 0x40 => plainOp imm .bcLoad
  | 0x41 => if h : imm.toNat < 56 then some (.bcRound ⟨imm.toNat, h⟩) else none
  | 0x42 => plainOp imm .bcDecipher
  | 0x43 => plainOp imm .bcStore
  | 0x50 => plainOp imm .scScan
  | 0x51 => plainOp imm .scSort
  | 0x52 => plainOp imm .scAlive
  | 0x53 => plainOp imm .scRound0
  | 0x54 =>
    if h : 1 ≤ imm.toNat ∧ imm.toNat ≤ 22 then some (.scRound ⟨imm.toNat, h⟩) else none
  | 0x55 => plainOp imm .scRound23
  | 0x56 => plainOp imm .scCompact
  | 0x60 => plainOp imm .pDesNcb
  | 0x61 => plainOp imm .pAesEcb
  | 0x62 => plainOp imm .pAes128Ecb
  | _ => none

/-! ## The encoder -/

/-- The four words of a range (R112, R115). -/
def encodeRange (r : Range) : List Word :=
  [r.start.extractLsb' 0 32, r.start.extractLsb' 32 32,
    r.stop.extractLsb' 0 32, r.stop.extractLsb' 32 32]

/-- An encoded instruction: the words of a command, or the word of an engine operation. -/
inductive Encoded where
  | command (ws : List Word)
  | engine (w : UWord)
  deriving DecidableEq, Repr

/-- An engine operation word: UOP in bits 15:8, IMM in bits 7:0 (R126). -/
def uword (uop : BitVec 8) (imm : BitVec 8) : UWord := uop ++ imm

/-- The words of an instruction (R113 to R117, R127). -/
def encode : Instr → Encoded
  | .setKind rsvd k => .command [((0x01#8 ++ rsvd) ++ k : BitVec (8 + 21 + 3))]
  | .setCw rsvd pmask keys => .command (((0x02#8 ++ rsvd) ++ pmask : BitVec (8 + 22 + 2)) :: keys)
  | .decrypt rsvd ranges =>
    .command (((0x03#8 ++ rsvd) ++ BitVec.ofNat 16 ranges.length : BitVec (8 + 8 + 16))
      :: ranges.flatMap encodeRange)
  | .csrRead rsvd index => .command [((0x04#8 ++ rsvd) ++ index : BitVec (8 + 16 + 8))]
  | .gZero => .engine (uword 0x01 0)
  | .gOnes => .engine (uword 0x02 0)
  | .gAnd => .engine (uword 0x03 0)
  | .gOr => .engine (uword 0x04 0)
  | .gXor => .engine (uword 0x05 0)
  | .gNot => .engine (uword 0x06 0)
  | .gBcast1 v => .engine (uword 0x07 (if v then 1 else 0))
  | .bBcast8 c => .engine (uword 0x08 c)
  | .bShl8 k => .engine (uword 0x09 (0#5 ++ k))
  | .bShr8 k => .engine (uword 0x0A (0#5 ++ k))
  | .bSbox => .engine (uword 0x0B 0)
  | .tInBits => .engine (uword 0x0C 0)
  | .tOutBits => .engine (uword 0x0D 0)
  | .tInBytes => .engine (uword 0x0E 0)
  | .tOutBytes => .engine (uword 0x0F 0)
  | .kStream => .engine (uword 0x20 0)
  | .kBlock => .engine (uword 0x21 0)
  | .kBcast p => .engine (uword 0x22 (match p with | .even => 0 | .odd => 1))
  | .sLoad => .engine (uword 0x30 0)
  | .sStep mode jOdd =>
    .engine (uword 0x31
      ((match mode with | .generating => 0 | .initializing => 1) ||| (if jOdd then 2 else 0)))
  | .sInit => .engine (uword 0x32 0)
  | .sGen => .engine (uword 0x33 0)
  | .sAdvance => .engine (uword 0x34 0)
  | .bcLoad => .engine (uword 0x40 0)
  | .bcRound t => .engine (uword 0x41 (BitVec.ofNat 8 t.val))
  | .bcDecipher => .engine (uword 0x42 0)
  | .bcStore => .engine (uword 0x43 0)
  | .scScan => .engine (uword 0x50 0)
  | .scSort => .engine (uword 0x51 0)
  | .scAlive => .engine (uword 0x52 0)
  | .scRound0 => .engine (uword 0x53 0)
  | .scRound it => .engine (uword 0x54 (BitVec.ofNat 8 it.val))
  | .scRound23 => .engine (uword 0x55 0)
  | .scCompact => .engine (uword 0x56 0)
  | .pDesNcb => .engine (uword 0x60 0)
  | .pAesEcb => .engine (uword 0x61 0)
  | .pAes128Ecb => .engine (uword 0x62 0)

/-- The instruction that `e` encodes, all of it: `none` if a word is left over or missing, or the
word is reserved. -/
def decode (kw : Nat) : Encoded → Option Instr
  | .command ws =>
    match decodeCommand kw ws with
    | .instr i len => if len = ws.length then some i else none
    | _ => none
  | .engine w => decodeEngine w

/-! ## The host's table words -/

/-- The command words of a number whose bit 0 is the least significant bit of the first word: the
command word and as many operand words as it says follow (R118). -/
def tableWords (kw w : Nat) : List Word :=
  (List.range (1 + operandCount kw (BitVec.ofNat 32 w))).map
    fun k => BitVec.ofNat 32 (w >>> (32 * k))

/-- The instruction the decoder reads from the bits `w`, `nbits` of them: an engine operation word
when the row has 16 bits, else a command. A command's length depends on KIND (R118); here KIND is
NONE, as it is after reset (log 19). -/
def decodeTableWord (nbits w : Nat) : Option Instr :=
  let w := w % 2 ^ nbits
  if nbits ≤ 16 then decode 0 (.engine (BitVec.ofNat 16 w))
  else decode 0 (.command (tableWords 0 w))

end Sys2Proof
end

