-- ==== Sys2Proof/Machine/Tables.lean ====
section
/-!
DEFINITION. The supplied values of the CSA constant tables (spec/00_scope.md R21), the defaults of the
configuration, and the build at reset. The spec marks the values "from general knowledge, not in
source": UNVERIFIED (log 3). They are copied from the rules named at each table.
-/

namespace Sys2Proof

/-- `KEY_PERM` (41_key_schedule.md R181): input bit m moves to output bit `KEY_PERM[m] - 1`. -/
def Config.keyPerm : List Nat :=
    [0x12, 0x24, 0x09, 0x07, 0x2A, 0x31, 0x1D, 0x15, 0x1C, 0x36, 0x3E, 0x32, 0x13, 0x21, 0x3B, 0x40,
     0x18, 0x14, 0x25, 0x27, 0x02, 0x35, 0x1B, 0x01, 0x22, 0x04, 0x0D, 0x0E, 0x39, 0x28, 0x1A, 0x29,
     0x33, 0x23, 0x34, 0x0C, 0x16, 0x30, 0x1E, 0x3A, 0x2D, 0x1F, 0x08, 0x19, 0x17, 0x2F, 0x3D, 0x11,
     0x3C, 0x05, 0x38, 0x2B, 0x0B, 0x06, 0x0A, 0x2C, 0x20, 0x3F, 0x2E, 0x0F, 0x03, 0x26, 0x10, 0x37]

/-- `STREAM_SBOX[1..7]` (42_stream_cipher.md R203): seven tables of 32 two-bit entries. -/
def Config.streamSbox : List (List (BitVec 2)) :=
    [[2, 0, 1, 1, 2, 3, 3, 0, 3, 2, 2, 0, 1, 1, 0, 3, 0, 3, 3, 0, 2, 2, 1, 1, 2, 2, 0, 3, 1, 1, 3, 0],
     [3, 1, 0, 2, 2, 3, 3, 0, 1, 3, 2, 1, 0, 0, 1, 2, 3, 1, 0, 3, 3, 2, 0, 2, 0, 0, 1, 2, 2, 1, 3, 1],
     [2, 0, 1, 2, 2, 3, 3, 1, 1, 1, 0, 3, 3, 0, 2, 0, 1, 3, 0, 1, 3, 0, 2, 2, 2, 0, 1, 2, 0, 3, 3, 1],
     [3, 1, 2, 3, 0, 2, 1, 2, 1, 2, 0, 1, 3, 0, 0, 3, 1, 0, 3, 1, 2, 3, 0, 3, 0, 3, 2, 0, 1, 2, 2, 1],
     [2, 0, 0, 1, 3, 2, 3, 2, 0, 1, 3, 3, 1, 0, 2, 1, 2, 3, 2, 0, 0, 3, 1, 1, 1, 0, 3, 2, 3, 1, 0, 2],
     [0, 1, 2, 3, 1, 2, 2, 0, 0, 1, 3, 0, 2, 3, 1, 3, 2, 3, 0, 2, 3, 0, 1, 1, 2, 1, 1, 2, 0, 3, 3, 0],
     [0, 3, 2, 2, 3, 0, 0, 1, 3, 0, 1, 3, 1, 2, 2, 1, 1, 0, 3, 3, 0, 1, 1, 2, 2, 3, 1, 0, 2, 3, 0, 2]]

/-- `SBOX_IN` (R204): the input bits i4, i3, i2, i1, i0 of each S-box; `(m, b)` is `A[m].b`. -/
def Config.sboxIn : List (List (Nat × Nat)) :=
    [[(4, 0), (1, 2), (6, 1), (7, 3), (9, 0)],
     [(2, 1), (3, 2), (6, 3), (7, 0), (9, 1)],
     [(1, 3), (2, 0), (5, 1), (5, 3), (6, 2)],
     [(3, 3), (1, 1), (2, 3), (4, 2), (8, 0)],
     [(5, 2), (4, 3), (6, 0), (8, 1), (9, 2)],
     [(3, 1), (4, 1), (5, 0), (7, 2), (9, 3)],
     [(2, 2), (3, 0), (7, 1), (8, 2), (8, 3)]]

/-- `EXTRA_B` (R206): the bits XORed for extra.3, extra.2, extra.1, extra.0; `(m, b)` is `B[m].b`. -/
def Config.extraB : List (List (Nat × Nat)) :=
    [[(3, 0), (6, 1), (7, 2), (9, 3)],
     [(6, 0), (8, 1), (3, 3), (4, 2)],
     [(5, 3), (8, 2), (4, 0), (5, 1)],
     [(9, 2), (6, 3), (3, 1), (8, 0)]]

/-- `BLOCK_SBOX` (43_block_cipher.md R246), entries 0 to 255. -/
def Config.blockSbox : List Byte :=
    [0x3a, 0xea, 0x68, 0xfe, 0x33, 0xe9, 0x88, 0x1a, 0x83, 0xcf, 0xe1, 0x7f, 0xba, 0xe2, 0x38, 0x12,
     0xe8, 0x27, 0x61, 0x95, 0x0c, 0x36, 0xe5, 0x70, 0xa2, 0x06, 0x82, 0x7c, 0x17, 0xa3, 0x26, 0x49,
     0xbe, 0x7a, 0x6d, 0x47, 0xc1, 0x51, 0x8f, 0xf3, 0xcc, 0x5b, 0x67, 0xbd, 0xcd, 0x18, 0x08, 0xc9,
     0xff, 0x69, 0xef, 0x03, 0x4e, 0x48, 0x4a, 0x84, 0x3f, 0xb4, 0x10, 0x04, 0xdc, 0xf5, 0x5c, 0xc6,
     0x16, 0xab, 0xac, 0x4c, 0xf1, 0x6a, 0x2f, 0x3c, 0x3b, 0xd4, 0xd5, 0x94, 0xd0, 0xc4, 0x63, 0x62,
     0x71, 0xa1, 0xf9, 0x4f, 0x2e, 0xaa, 0xc5, 0x56, 0xe3, 0x39, 0x93, 0xce, 0x65, 0x64, 0xe4, 0x58,
     0x6c, 0x19, 0x42, 0x79, 0xdd, 0xee, 0x96, 0xf6, 0x8a, 0xec, 0x1e, 0x85, 0x53, 0x45, 0xde, 0xbb,
     0x7e, 0x0a, 0x9a, 0x13, 0x2a, 0x9d, 0xc2, 0x5e, 0x5a, 0x1f, 0x32, 0x35, 0x9c, 0xa8, 0x73, 0x30,
     0x29, 0x3d, 0xe7, 0x92, 0x87, 0x1b, 0x2b, 0x4b, 0xa5, 0x57, 0x97, 0x40, 0x15, 0xe6, 0xbc, 0x0e,
     0xeb, 0xc3, 0x34, 0x2d, 0xb8, 0x44, 0x25, 0xa4, 0x1c, 0xc7, 0x23, 0xed, 0x90, 0x6e, 0x50, 0x00,
     0x99, 0x9e, 0x4d, 0xd9, 0xda, 0x8d, 0x6f, 0x5f, 0x3e, 0xd7, 0x21, 0x74, 0x86, 0xdf, 0x6b, 0x05,
     0x8e, 0x5d, 0x37, 0x11, 0xd2, 0x28, 0x75, 0xd6, 0xa7, 0x77, 0x24, 0xbf, 0xf0, 0xb0, 0x02, 0xb7,
     0xf8, 0xfc, 0x81, 0x09, 0xb1, 0x01, 0x76, 0x91, 0x7d, 0x0f, 0xc8, 0xa0, 0xf2, 0xcb, 0x78, 0x60,
     0xd1, 0xf7, 0xe0, 0xb5, 0x98, 0x22, 0xb3, 0x20, 0x1d, 0xa6, 0xdb, 0x7b, 0x59, 0x9f, 0xae, 0x31,
     0xfb, 0xd3, 0xb6, 0xca, 0x43, 0x72, 0x07, 0xf4, 0xd8, 0x41, 0x14, 0x55, 0x0d, 0x54, 0x8b, 0xb9,
     0xad, 0x46, 0x0b, 0xaf, 0x80, 0x52, 0x2c, 0xfa, 0x8c, 0x89, 0x66, 0xfd, 0xb2, 0xa9, 0x9b, 0xc0]

/-- `PERM_BIT` (43_block_cipher.md R248): input bit i moves to output bit `PERM_BIT[i]`. -/
def Config.permBit : List Nat := [1, 7, 5, 4, 2, 6, 0, 3]

/-- The tables with the values this spec supplies (R21). -/
def Config.suppliedTables : Tables :=
  { keyPerm := Config.keyPerm, blockSbox := Config.blockSbox, permBit := Config.permBit,
    streamSbox := Config.streamSbox, sboxIn := Config.sboxIn, extraB := Config.extraB,
    wf := by decide +kernel }

/-- The build that `State.reset` carries. DESIGN CHOICE (log 1): LANES 32, BATCH_CAP 32, TSC_CLEAR
false (the default of R313), AES_ECB_KEY_BYTES 16, and every address of packet memory valid; the
tables are the supplied ones, their default (R21). -/
def Build.atReset : Build :=
  { lanes := .l32, batchCap := ⟨32, by decide⟩, tscClear := false, aesEcbKey := .k16,
    memMap := [⟨0, 2 ^ 64⟩], tables := Config.suppliedTables }

end Sys2Proof
end

