-- ==== Sys2Proof/Machine/State.lean ====
section
/-!
DEFINITION. The state of one instance of the block (spec/10_state.md), the reasons a step stops, and
the state after reset (spec/70_reset_and_hazards.md R430). INVENTORY.md lists every field with its
rule and reset value.
-/

namespace Sys2Proof.Machine

/-! ## Packet memory -/

/-- Packet memory (R46, 20_memory.md R80): the bytes that differ from what an unlisted address reads
as, addresses strictly rising. `Memory.wf` (Ops.lean) is that form. -/
structure Memory where
  cells : List Host.Cell
  deriving DecidableEq, Repr, Inhabited

/-! ## Context state (10_state.md section 1) -/

/-- The inputs latched by the DECRYPT in flight (R37). -/
structure Pending where
  ranges : List Range
  kind : Kind
  cw : PerParity (List Byte)
  valid : PerParity Bool
  deriving DecidableEq, Repr, Inhabited

/-- The empty PENDING (R37, R430). -/
def Pending.empty : Pending :=
  { ranges := [], kind := .none, cw := ⟨[], []⟩, valid := ⟨false, false⟩ }

/-- A response record (30_encoding.md R125). -/
structure Response where
  opc : Byte
  status : Byte
  payload : List Word
  deriving DecidableEq, Repr, Inhabited

/-! ## Engine datapath (10_state.md section 2) -/

/-- A nibble per lane, one group per bit (R50): `b0` is the group of bit 0. -/
structure NibbleG where
  b0 : Group
  b1 : Group
  b2 : Group
  b3 : Group
  deriving DecidableEq, Repr, Inhabited

/-- The nibble 0 in every lane. -/
def NibbleG.zero : NibbleG := ⟨0, 0, 0, 0⟩

/-- The stream generator's registers (R50 to R54), and the output of the last S_STEP (R212). -/
structure StreamRegs where
  /-- SA (R50). -/
  sa : Vector NibbleG 42
  /-- SB (R51). -/
  sb : Vector NibbleG 42
  /-- SOFF, 0..32 (R52). -/
  soff : Fin 33
  x : NibbleG
  y : NibbleG
  z : NibbleG
  d : NibbleG
  e : NibbleG
  f : NibbleG
  /-- the carry r (R53). -/
  r : Group
  /-- the control bits p, q (R53). -/
  p : Group
  q : Group
  /-- iA, iB: the lane-broadcast stream key (R54). -/
  iA : Vector NibbleG 8
  iB : Vector NibbleG 8
  /-- bit 1 and bit 0 of the output o of the last S_STEP (R210, R212). -/
  out1 : Group
  out0 : Group
  deriving DecidableEq, Repr, Inhabited

/-- The block cipher's registers (R55, R56). -/
structure BlockRegs where
  /-- KK[0..55] (R55). -/
  kk : Vector Slice 56
  /-- BR[0..63] (R56). -/
  br : Vector Slice 64
  /-- BOFF, 0..56 (R56). -/
  boff : Fin 57
  deriving DecidableEq, Repr, Inhabited

/-- The operand and the results of K_STREAM and K_BLOCK (41_key_schedule.md R180, R184; log 21). -/
structure KeySched where
  /-- the control word. -/
  cw : Bytes 8
  /-- iA[0..7]. -/
  a : Vector Nib 8
  /-- iB[0..7]. -/
  b : Vector Nib 8
  /-- kk[0..55]. -/
  kk : Vector Byte 56
  deriving DecidableEq, Repr, Inhabited

/-- The transposer's planes and slices and the lane count operand (40_group_primitive.md R162, R164). -/
structure PrimRegs where
  /-- P[0..63]. -/
  planes : Vector Group 64
  /-- S[0..7]. -/
  slices : Vector Slice 8
  /-- c, 0..N. -/
  count : Nat
  deriving DecidableEq, Repr, Inhabited

/-- The working blocks, 8 bytes per lane (R61). -/
structure WorkBlocks where
  /-- IB: the block-cipher input. -/
  ib : Vector Block maxLanes
  /-- BO: the block-cipher output. -/
  bo : Vector Block maxLanes
  /-- SO: the stream-cipher output. -/
  so : Vector Block maxLanes
  /-- SI: the stream-cipher seed. -/
  si : Vector Block maxLanes
  deriving DecidableEq, Repr, Inhabited

/-- A packet descriptor (R57). -/
structure Desc where
  pkt : Nat
  off : Nat
  len : Nat
  n : Nat
  res : Nat
  deriving DecidableEq, Repr, Inhabited

/-- The batch scheduler's registers (R57 to R60, R62, R63) and SC_COMPACT's result (R311). -/
structure SchedRegs where
  desc : Vector Desc maxLanes
  grouped : Nat
  gpar : Parity
  alive : Vector Nat 24
  /-- encp[g] (R60). -/
  encp : Vector Nat maxLanes
  adv : BitVec 32
  stop : Bool
  /-- cur: the range index and the address of the scan position (R62). -/
  curRange : Nat
  curAddr : Nat
  /-- start'[j] (R62). -/
  starts : List Nat
  diagInc : Nat
  /-- the result `(advanced, remaining)` (R311; log 26). -/
  advanced : BitVec 32
  remaining : List Range
  deriving DecidableEq, Repr, Inhabited

/-- An item of the ECB work list (46_single_packet_ciphers.md R374). -/
structure Work where
  pkt : Nat
  off : Nat
  nb : Nat
  par : Parity
  deriving DecidableEq, Repr, Inhabited

/-- The operands of P_DES_NCB, P_AES_ECB and P_AES128_ECB (R376 to R378; log 25). -/
structure PacketOp where
  pkt : Nat
  off : Nat
  nb : Nat
  key : List Byte
  deriving DecidableEq, Repr, Inhabited

/-- The ECB completion's work list and the operands of the packet in work (R374; log 25). -/
structure EcbRegs where
  work : List Work
  op : PacketOp
  /-- a packet operation was issued and its packet is not finished yet. -/
  active : Bool
  deriving DecidableEq, Repr, Inhabited

/-! ## Sequencer and operand selection -/

/-- The sequencer's phase (R64): its four names, and idle for no DECRYPT in work (R430). Which step of a
completion is in which phase is a DESIGN CHOICE (log 30). -/
inductive Phase where
  | idle | scan | sort | rounds | writeback
  deriving DecidableEq, Repr, Inhabited

/-- The accumulators of R53. -/
inductive Acc where
  | x | y | z | d | e | f
  deriving DecidableEq, Repr, Inhabited

/-- A group register of the datapath: an operand d, a or b of a group operation. -/
inductive GroupReg where
  | sa (slot : Fin 42) (bit : Fin 4)
  | sb (slot : Fin 42) (bit : Fin 4)
  | acc (a : Acc) (bit : Fin 4)
  | carry
  | ctlP
  | ctlQ
  | iA (m : Fin 8) (bit : Fin 4)
  | iB (m : Fin 8) (bit : Fin 4)
  | plane (m : Fin 64)
  deriving DecidableEq, Repr, Inhabited

/-- A byte-slice register of the datapath. -/
inductive SliceReg where
  | kk (i : Fin 56)
  | br (i : Fin 64)
  | slice (j : Fin 8)
  deriving DecidableEq, Repr, Inhabited

/-- The eight byte slices of a byte transposer operation: S[0..7], or BR[base .. base + 7] (R242, R251). -/
inductive SliceBank where
  | slices
  | br (base : Fin 57)
  deriving DecidableEq, Repr, Inhabited

/-- The working blocks of a transposer operation (R61). -/
inductive BlockBank where
  | ib | bo | so | si
  deriving DecidableEq, Repr, Inhabited

/-- Whether a bitwise operation acts on groups or on byte slices (R150). -/
inductive OperandForm where
  | groups | slices
  deriving DecidableEq, Repr, Inhabited

/-- Which registers the operands of a primitive operation are. R126: they are "named by the
operation's rule, not encoded". DESIGN CHOICE (log 10): the sequencer's selection, a field no
operation writes, so that a statement holds for every selection. -/
structure Operands where
  form : OperandForm
  gd : GroupReg
  ga : GroupReg
  gb : GroupReg
  sd : SliceReg
  sa : SliceReg
  sb : SliceReg
  bank : SliceBank
  blocks : BlockBank
  deriving DecidableEq, Repr, Inhabited

/-- What the host does at the block's pins (00_scope.md R26; log 16). -/
inductive HostAction where
  /-- issue these words to the command port (R110). -/
  | issue (ws : List Word)
  /-- take the response at the head of RESP, waiting for one if there is none (R44). -/
  | take
  /-- write a byte of packet memory (R46, R92). -/
  | poke (a : Addr) (v : Byte)
  /-- reset the block (R430, R431). -/
  | reset
  deriving DecidableEq, Repr, Inhabited

/-! ## The reasons a step stops -/

/-- The model stops. No fault of the block is here: those are states (60_exceptions.md R396). -/
inductive Fault where
  /-- An engine operation would access a byte that does not exist or is not MEM_VALID
  (20_memory.md R80 defines MemRead and MemWrite only on valid bytes). Raised by SC_SCAN, SC_ROUND0,
  SC_ROUND, SC_ROUND23, P_* and the sequencer. Safe (log 13). -/
  | invalidAccess
  /-- A push would go below slot 0 of a ring, against the precondition of R213, R220, R221, R245 or
  R250. Raised by S_STEP, S_INIT, S_GEN, SC_ROUND, BC_ROUND and BC_DECIPHER. Safe (log 12). -/
  | ringUnderflow
  deriving DecidableEq, Repr

/-- The model has no meaning for what it is given. -/
inductive Refusal where
  /-- Raised by an arm of `exec` whose instruction has no meaning yet. Safe. -/
  | notModelled (mnemonic : String)
  /-- The sequencer holds a word that R128 reserves and that it never issues. Raised by `step`.
  Safe (log 27). -/
  | reservedEngineOp (w : UWord)
  /-- The host writes a byte of the latched ranges while BUSY = 1; it is assumed never to do so
  (R440, R454). Raised by `step`. Safe (log 17). -/
  | hostHazard (a : Addr)
  deriving DecidableEq, Repr

/-! ## The state -/

/-- One instance of the block, the packet memory and the host at its pins. -/
structure State where
  -- build parameters (00_scope.md section 3)
  cfg : Build
  -- context state (10_state.md section 1)
  kind : Kind
  cw : PerParity (List Byte)
  keyValid : PerParity Bool
  busy : Bool
  pending : Pending
  faulted : Bool
  faultCode : Byte
  faultOpcode : Byte
  diagMalformed : BitVec 32
  lastAdvanced : BitVec 32
  resp : List Response
  -- packet memory
  mem : Memory
  -- sequencer (R64)
  phase : Phase
  iter : Fin 24
  -- engine datapath (10_state.md section 2)
  st : StreamRegs
  bk : BlockRegs
  ks : KeySched
  pr : PrimRegs
  wb : WorkBlocks
  sc : SchedRegs
  ecb : EcbRegs
  -- the model's own fields
  opnd : Operands
  uops : List UWord
  port : List Word
  host : List HostAction
  delivered : List Response
  fireIn : Nat
  draws : Nat
  deriving DecidableEq, Repr

/-! ## Reset

R430 calls the control words and every datapath register unspecified. DESIGN CHOICE (log 4, log 5):
they are zero at reset, but for SOFF = 32 and BOFF = 56, from which S_STEP and BC_ROUND can run. -/

def StreamRegs.reset : StreamRegs :=
  { sa := Vector.replicate 42 .zero, sb := Vector.replicate 42 .zero, soff := 32,
    x := .zero, y := .zero, z := .zero, d := .zero, e := .zero, f := .zero,
    r := 0, p := 0, q := 0,
    iA := Vector.replicate 8 .zero, iB := Vector.replicate 8 .zero, out1 := 0, out0 := 0 }

def BlockRegs.reset : BlockRegs :=
  { kk := Vector.replicate 56 (Vector.replicate maxLanes 0),
    br := Vector.replicate 64 (Vector.replicate maxLanes 0), boff := 56 }

def KeySched.reset : KeySched :=
  { cw := Vector.replicate 8 0, a := Vector.replicate 8 0, b := Vector.replicate 8 0,
    kk := Vector.replicate 56 0 }

def PrimRegs.reset : PrimRegs :=
  { planes := Vector.replicate 64 0, slices := Vector.replicate 8 (Vector.replicate maxLanes 0),
    count := 0 }

def WorkBlocks.reset : WorkBlocks :=
  { ib := Vector.replicate maxLanes (Vector.replicate 8 0),
    bo := Vector.replicate maxLanes (Vector.replicate 8 0),
    so := Vector.replicate maxLanes (Vector.replicate 8 0),
    si := Vector.replicate maxLanes (Vector.replicate 8 0) }

def SchedRegs.reset : SchedRegs :=
  { desc := Vector.replicate maxLanes ⟨0, 0, 0, 0, 0⟩, grouped := 0, gpar := .even,
    alive := Vector.replicate 24 0, encp := Vector.replicate maxLanes 0, adv := 0, stop := false,
    curRange := 0, curAddr := 0, starts := [], diagInc := 0, advanced := 0, remaining := [] }

def EcbRegs.reset : EcbRegs := { work := [], op := ⟨0, 0, 0, []⟩, active := false }

/-- The operand selection at reset: planes 0, 1, 2 and slices 0, 1, 2 (log 10). -/
def Operands.reset : Operands :=
  { form := .groups, gd := .plane 0, ga := .plane 1, gb := .plane 2,
    sd := .slice 0, sa := .slice 1, sb := .slice 2, bank := .slices, blocks := .ib }

/-- The machine right after reset (R430), with nothing at its pins. -/
def State.reset : State :=
  { cfg := .atReset,
    kind := .none,
    cw := ⟨List.replicate 16 0, List.replicate 16 0⟩,
    keyValid := ⟨false, false⟩,
    busy := false,
    pending := .empty,
    faulted := false,
    faultCode := 0,
    faultOpcode := 0,
    diagMalformed := 0,
    lastAdvanced := 0,
    resp := [],
    mem := ⟨[]⟩,
    phase := .idle,
    iter := 0,
    st := .reset,
    bk := .reset,
    ks := .reset,
    pr := .reset,
    wb := .reset,
    sc := .reset,
    ecb := .reset,
    opnd := .reset,
    uops := [],
    port := [],
    host := [],
    delivered := [],
    fireIn := 0,
    draws := 0 }

end Sys2Proof.Machine
end

