-- ==== Sys2Proof/Machine/Ops.lean ====
section
/-!
DEFINITION. The named operations the meanings share: packet memory (spec/20_memory.md), group and
byte-slice operations lane by lane (spec/40_group_primitive.md), responses (spec/30_encoding.md R120
to R125), and taking a fault (spec/60_exceptions.md R396), with the drop of the DECRYPT in flight
(spec/45_commands.md R356).
-/

namespace Sys2Proof.Machine

/-! ## Packet memory -/

/-- The number of bytes of packet memory (R80). -/
def memSize : Nat := 2 ^ 64

/-- What a byte that nothing has written reads as. DESIGN CHOICE (log 6): the spec gives packet memory
no contents at reset. -/
def Memory.unlisted : Byte := 0x00

/-- The byte a list of cells holds at `a`. -/
def lookupCell (a : Nat) : List Host.Cell → Byte
  | [] => Memory.unlisted
  | (k, v) :: rest => if k = a then v else lookupCell a rest

/-- The list with no cell at `a`. -/
def removeCell (a : Nat) : List Host.Cell → List Host.Cell
  | [] => []
  | (k, w) :: rest => if k = a then removeCell a rest else (k, w) :: removeCell a rest

/-- The list with the cell `(a, v)` at its place. -/
def placeCell (a : Nat) (v : Byte) : List Host.Cell → List Host.Cell
  | [] => [(a, v)]
  | (k, w) :: rest =>
    if a < k then (a, v) :: (k, w) :: rest
    else if a = k then (a, v) :: rest
    else (k, w) :: placeCell a v rest

/-- The list with the byte at `a` set to `v`, in canonical form if it was. -/
def insertCell (a : Nat) (v : Byte) (l : List Host.Cell) : List Host.Cell :=
  if v = Memory.unlisted then removeCell a l else placeCell a v l

/-- The cells from address `lo` up are in canonical form: rising, below 2^64, none equal to what an
unlisted address reads as. -/
def cellsWf : Nat → List Host.Cell → Bool
  | _, [] => true
  | lo, (k, v) :: rest =>
    decide (lo ≤ k) && decide (k < memSize) && (v != Memory.unlisted) && cellsWf (k + 1) rest

/-- The memory is in canonical form, so that equal memories are equal data. -/
def Memory.wf (m : Memory) : Bool := cellsWf 0 m.cells

/-- The byte at address `a` (R80, R91). -/
def Memory.get (m : Memory) (a : Nat) : Byte := lookupCell a m.cells

/-- The memory with byte `v` at address `a`. An address that is not below 2^64 does not exist. -/
def Memory.set (m : Memory) (a : Nat) (v : Byte) : Memory :=
  if a < memSize then ⟨insertCell a v m.cells⟩ else m

/-- `MemRead(a, n)` (00_scope.md R25) where the access is valid. -/
def Memory.read (m : Memory) (a n : Nat) : Bytes n := Vector.ofFn fun i => m.get (a + i.val)

/-- `MemWrite(a, n, v)` (R25) where the access is valid, byte by byte in address order. -/
def Memory.write (m : Memory) (a : Nat) : List Byte → Memory
  | [] => m
  | b :: rest => (m.set a b).write (a + 1) rest

/-- `MEM_VALID` (R20) of an address of packet memory. -/
def memValid (c : Build) (a : Nat) : Bool :=
  decide (a < memSize) && c.memMap.any fun r => decide (r.lo ≤ a) && decide (a < r.hi)

/-- Every address from `cur` to `stop - 1` lies in one of the regions; `fuel` bounds how many regions
the walk crosses. -/
def coversFrom (rs : List Region) : Nat → Nat → Nat → Bool
  | fuel, cur, stop =>
    if stop ≤ cur then true
    else match fuel with
      | 0 => false
      | fuel + 1 =>
        match rs.find? fun r => decide (r.lo ≤ cur) && decide (cur < r.hi) with
        | none => false
        | some r => coversFrom rs fuel r.hi stop

/-- `MEM_VALID(a + k)` for every k < n: the condition under which R80 defines MemRead and MemWrite. -/
def accessOk (c : Build) (a n : Nat) : Bool :=
  n == 0 || (decide (a + n ≤ memSize) && coversFrom c.memMap c.memMap.length a (a + n))

/-! ## Group operations, lane by lane (R150) -/

/-- The lanes 0 .. n-1. -/
def laneMask (n : Nat) : Group := BitVec.ofNat maxLanes (2 ^ n - 1)

/-- NOT on the lanes of the build (R156). -/
def groupNot (n : Nat) (a : Group) : Group := ~~~a &&& laneMask n

/-- The value `v` in every lane of the build (R151, R152, R157). -/
def groupBcast (n : Nat) (v : Bool) : Group := if v then laneMask n else 0

/-- Lane-wise selection, `(m & u) | (~m & v)` (42_stream_cipher.md R223). -/
def groupSel (m u v : Group) : Group := (m &&& u) ||| (~~~m &&& v)

/-- The lanes below `k` hold `f`, the others 0. -/
def groupOfAux (f : Nat → Bool) : Nat → Group
  | 0 => 0
  | k + 1 => groupOfAux f k ||| (if f k then BitVec.ofNat maxLanes (2 ^ k) else 0)

/-- The group whose lane i is `f i`, for the lanes of the build. -/
def groupOf (n : Nat) (f : Nat → Bool) : Group := groupOfAux f (min n maxLanes)

/-! ## Byte-slice operations, lane by lane (R150) -/

/-- The byte slice whose lane i is `f i`, for the lanes of the build. -/
def sliceOf (n : Nat) (f : Fin maxLanes → Byte) : Slice :=
  Vector.ofFn fun i => if i.val < n then f i else 0

/-- A bytewise operation on a slice. -/
def sliceMap (n : Nat) (f : Byte → Byte) (a : Slice) : Slice := sliceOf n fun i => f a[i]

/-- A bytewise operation on two slices. -/
def sliceMap2 (n : Nat) (f : Byte → Byte → Byte) (a b : Slice) : Slice :=
  sliceOf n fun i => f a[i] b[i]

/-- The byte `c` in every lane (R158). -/
def sliceBcast (n : Nat) (c : Byte) : Slice := sliceOf n fun _ => c

/-- XOR of two slices (R155, R150). -/
def sliceXor (n : Nat) (a b : Slice) : Slice := sliceMap2 n (· ^^^ ·) a b

/-- AND of two slices (R153, R150). -/
def sliceAnd (n : Nat) (a b : Slice) : Slice := sliceMap2 n (· &&& ·) a b

/-- OR of two slices (R154, R150). -/
def sliceOr (n : Nat) (a b : Slice) : Slice := sliceMap2 n (· ||| ·) a b

/-- NOT of a slice (R156, R150). -/
def sliceNot (n : Nat) (a : Slice) : Slice := sliceMap n (~~~ ·) a

/-- Left shift of every byte, bits past bit 7 lost (R159). -/
def sliceShl (n k : Nat) (a : Slice) : Slice := sliceMap n (· <<< k) a

/-- Right shift of every byte, zeros entering at bit 7 (R160). -/
def sliceShr (n k : Nat) (a : Slice) : Slice := sliceMap n (· >>> k) a

/-- XOR of two blocks. -/
def blockXor {k : Nat} (a b : Bytes k) : Bytes k := Vector.ofFn fun i => a[i] ^^^ b[i]

/-- The first `k` bytes of a byte sequence; a byte that is not there is 0. -/
def toBytes (k : Nat) (l : List Byte) : Bytes k := Vector.ofFn fun i => l.getD i.val 0

/-! ## Responses (R120 to R125) -/

/-- The status codes of response word 0 (60_exceptions.md R395). -/
inductive Status where
  | ok | illegalCommand | badOperand | noKind | kindChangeBusy | busyViolation | badRange
  | keyNotSet | faulted
  deriving DecidableEq, Repr

/-- The code of a status (R395). -/
def statusCode : Status → Byte
  | .ok => 0x00
  | .illegalCommand => 0x01
  | .badOperand => 0x02
  | .noKind => 0x03
  | .kindChangeBusy => 0x04
  | .busyViolation => 0x05
  | .badRange => 0x06
  | .keyNotSet => 0x07
  | .faulted => 0xFF

/-- Append a response record to RESP (R44, R120). -/
def State.respond (s : State) (opc : Byte) (st : Status) (payload : List Word) : State :=
  { s with resp := s.resp ++ [⟨opc, statusCode st, payload⟩] }

/-- The words of a response (R121 to R124). -/
def responseWords (r : Response) : List Word :=
  ((r.opc ++ 0#16 ++ r.status : BitVec (8 + 16 + 8))) :: r.payload

/-! ## Opcodes of the commands (R116) -/

def opcSetKind : Byte := 0x01
def opcSetCw : Byte := 0x02
def opcDecrypt : Byte := 0x03
def opcCsrRead : Byte := 0x04

/-! ## Control-word length (10_state.md R32) -/

/-- `keylen(kind)` in bytes; KIND = NONE has none, and the length rule R118 then counts no key word. -/
def keylen (c : Build) : Kind → Nat
  | .none => 0
  | .csa => 8
  | .desNcb => 8
  | .aesEcb => c.aesEcbKey.toNat
  | .aes128Ecb => 16

/-- How many words a key is while the block holds its present KIND (R118). -/
def State.keyWords (s : State) : Nat := keylen s.cfg s.kind / 4

/-! ## Faults (60_exceptions.md) -/

/-- Every byte from `a` on, `n` of them, holds a free value (R356; log 7). -/
def scrambleBytes (draw : Nat) (a : Nat) : Nat → Memory → Memory
  | 0, m => m
  | n + 1, m => scrambleBytes draw (a + 1) n (m.set a (Config.unspecifiedByte draw a))

/-- Every byte of the ranges holds a free value (R356). -/
def scrambleRanges (draw : Nat) : List Range → Memory → Memory
  | [], m => m
  | r :: rest, m =>
    scrambleRanges draw rest
      (scrambleBytes draw r.start.toNat (r.stop.toNat - r.start.toNat) m)

/-- Drop the DECRYPT in flight (R356): BUSY <- 0, PENDING is discarded, no response, and every byte of
its latched ranges holds an unspecified value. -/
def State.dropDecrypt (s : State) : State :=
  { s with
    busy := false, pending := .empty, fireIn := 0,
    mem := scrambleRanges s.draws s.pending.ranges s.mem, draws := s.draws + 1 }

/-- The sticky part of fault entry (R396): the first fault's code and opcode are recorded. -/
def State.recordFault (s : State) (code : Byte) (opc : Byte) : State :=
  if s.faulted then s
  else { s with faulted := true, faultCode := code, faultOpcode := opc }

/-- Fault entry, raised by a host command (R396): record the fault, drop the DECRYPT in flight, and
respond. There is no return from it but reset (R399). -/
def State.raiseFault (s : State) (st : Status) (opc : Byte) : State :=
  let s := s.recordFault (statusCode st) opc
  let s := if s.busy then s.dropDecrypt else s
  s.respond opc st []

/-- Fault entry, raised by a DECRYPT completion (R396, R352): as above, but BUSY <- 0 and the DECRYPT's
own response is the fault. The completion is over. -/
def State.completionFault (s : State) (st : Status) : State :=
  let s := s.recordFault (statusCode st) opcDecrypt
  let s := { s with busy := false, phase := .idle, uops := [] }
  s.respond opcDecrypt st []

/-- A command other than CSR_READ while FAULTED = 1 (45_commands.md R331): no effect, answered with
status FAULTED. -/
def State.refuseFaulted (s : State) (opc : Byte) : State := s.respond opc .faulted []

end Sys2Proof.Machine
end

