-- ==== Sys2Proof/Machine/Flags.lean ====
section
/-!
DEFINITION. The STATUS register and the CSRs (spec/10_state.md R41, R42). The block has no condition
codes: the STATUS fields are its only flags.
-/

namespace Sys2Proof.Machine

/-- STATUS (R42), most significant field first: reserved 31:24, FAULT_OPCODE 23:16, FAULT_CODE 15:8,
reserved 7, KIND 6:4, KEY_VALID_ODD 3, KEY_VALID_EVEN 2, FAULTED 1, BUSY 0. -/
def State.status (s : State) : Word :=
  (0#8 ++ s.faultOpcode ++ s.faultCode ++ 0#1 ++ s.kind.code
    ++ BitVec.ofBool s.keyValid.odd ++ BitVec.ofBool s.keyValid.even
    ++ BitVec.ofBool s.faulted ++ BitVec.ofBool s.busy :
    BitVec (8 + 8 + 8 + 1 + 3 + 1 + 1 + 1 + 1))

/-- The value of CSR `index` (R41); `none`: the index is unmapped. -/
def State.csrValue (s : State) (index : BitVec 8) : Option Word :=
  match index.toNat with
  | 0x00 => some (BitVec.ofNat 32 s.cfg.n)
  | 0x01 => some s.cfg.batchCap.val
  | 0x02 => some s.status
  | 0x03 => some s.diagMalformed
  | 0x04 => some s.lastAdvanced
  | _ => none

end Sys2Proof.Machine
end

