-- ==== Sys2Proof/Machine/Operands.lean ====
section
/-!
DEFINITION. The operand forms: nibbles as four groups (spec/10_state.md R50), the registers that the
operands d, a, b of a primitive operation select (spec/30_encoding.md R126), the banks of a
transposer operation, and the operand words of a command (R112).
-/

namespace Sys2Proof.Machine

/-! ## Nibbles per lane -/

/-- The group of bit `b`. -/
def NibbleG.bit (v : NibbleG) (b : Nat) : Group :=
  match b with
  | 0 => v.b0
  | 1 => v.b1
  | 2 => v.b2
  | _ => v.b3

/-- The nibble with the group of bit `b` replaced. -/
def NibbleG.setBit (v : NibbleG) (b : Nat) (g : Group) : NibbleG :=
  match b with
  | 0 => { v with b0 := g }
  | 1 => { v with b1 := g }
  | 2 => { v with b2 := g }
  | _ => { v with b3 := g }

/-- The nibble of lane `i`. -/
def NibbleG.lane (v : NibbleG) (i : Nat) : Nib :=
  BitVec.ofBool (v.b3.getLsbD i) ++ BitVec.ofBool (v.b2.getLsbD i)
    ++ BitVec.ofBool (v.b1.getLsbD i) ++ BitVec.ofBool (v.b0.getLsbD i)

/-- The nibble whose lane i is `f i`, for the lanes of the build. -/
def nibbleOf (n : Nat) (f : Nat → Nib) : NibbleG :=
  { b0 := groupOf n fun i => (f i).getLsbD 0, b1 := groupOf n fun i => (f i).getLsbD 1,
    b2 := groupOf n fun i => (f i).getLsbD 2, b3 := groupOf n fun i => (f i).getLsbD 3 }

/-- The nibble `v` in every lane: each bit by G_BCAST1 (41_key_schedule.md R186). -/
def nibbleBcast (n : Nat) (v : Nib) : NibbleG :=
  { b0 := groupBcast n (v.getLsbD 0), b1 := groupBcast n (v.getLsbD 1),
    b2 := groupBcast n (v.getLsbD 2), b3 := groupBcast n (v.getLsbD 3) }

/-! ## Group and slice registers -/

/-- The accumulator `a` (R53). -/
def StreamRegs.getAcc (st : StreamRegs) : Acc → NibbleG
  | .x => st.x
  | .y => st.y
  | .z => st.z
  | .d => st.d
  | .e => st.e
  | .f => st.f

/-- The registers with accumulator `a` replaced. -/
def StreamRegs.setAcc (st : StreamRegs) (a : Acc) (v : NibbleG) : StreamRegs :=
  match a with
  | .x => { st with x := v }
  | .y => { st with y := v }
  | .z => { st with z := v }
  | .d => { st with d := v }
  | .e => { st with e := v }
  | .f => { st with f := v }

/-- The value of a group register. -/
def State.readGroup (s : State) : GroupReg → Group
  | .sa slot bit => s.st.sa[slot].bit bit
  | .sb slot bit => s.st.sb[slot].bit bit
  | .acc a bit => (s.st.getAcc a).bit bit
  | .carry => s.st.r
  | .ctlP => s.st.p
  | .ctlQ => s.st.q
  | .iA m bit => s.st.iA[m].bit bit
  | .iB m bit => s.st.iB[m].bit bit
  | .plane m => s.pr.planes[m]

/-- The state with a group register replaced. -/
def State.writeGroup (s : State) (r : GroupReg) (v : Group) : State :=
  match r with
  | .sa slot bit =>
    { s with st := { s.st with sa := s.st.sa.set slot (s.st.sa[slot].setBit bit v) } }
  | .sb slot bit =>
    { s with st := { s.st with sb := s.st.sb.set slot (s.st.sb[slot].setBit bit v) } }
  | .acc a bit => { s with st := s.st.setAcc a ((s.st.getAcc a).setBit bit v) }
  | .carry => { s with st := { s.st with r := v } }
  | .ctlP => { s with st := { s.st with p := v } }
  | .ctlQ => { s with st := { s.st with q := v } }
  | .iA m bit =>
    { s with st := { s.st with iA := s.st.iA.set m (s.st.iA[m].setBit bit v) } }
  | .iB m bit =>
    { s with st := { s.st with iB := s.st.iB.set m (s.st.iB[m].setBit bit v) } }
  | .plane m => { s with pr := { s.pr with planes := s.pr.planes.set m v } }

/-- The value of a byte-slice register. -/
def State.readSlice (s : State) : SliceReg → Slice
  | .kk i => s.bk.kk[i]
  | .br i => s.bk.br[i]
  | .slice j => s.pr.slices[j]

/-- The state with a byte-slice register replaced. -/
def State.writeSlice (s : State) (r : SliceReg) (v : Slice) : State :=
  match r with
  | .kk i => { s with bk := { s.bk with kk := s.bk.kk.set i v } }
  | .br i => { s with bk := { s.bk with br := s.bk.br.set i v } }
  | .slice j => { s with pr := { s.pr with slices := s.pr.slices.set j v } }

/-! ## Banks of the transposer -/

/-- BR[base .. base + 7]. -/
def BlockRegs.bank (bk : BlockRegs) (base : Fin 57) : Vector Slice 8 :=
  Vector.ofFn fun j => bk.br[base.val + j.val]

/-- The block registers with BR[base .. base + 7] replaced. -/
def BlockRegs.setBank (bk : BlockRegs) (base : Fin 57) (v : Vector Slice 8) : BlockRegs :=
  { bk with br := Vector.ofFn fun i =>
      if h : base.val ≤ i.val ∧ i.val < base.val + 8 then v[i.val - base.val] else bk.br[i] }

/-- The eight byte slices of a bank. -/
def State.readBank (s : State) : SliceBank → Vector Slice 8
  | .slices => s.pr.slices
  | .br base => s.bk.bank base

/-- The state with the eight byte slices of a bank replaced. -/
def State.writeBank (s : State) (b : SliceBank) (v : Vector Slice 8) : State :=
  match b with
  | .slices => { s with pr := { s.pr with slices := v } }
  | .br base => { s with bk := s.bk.setBank base v }

/-- The working blocks of a bank (R61). -/
def State.readBlocks (s : State) : BlockBank → Vector Block maxLanes
  | .ib => s.wb.ib
  | .bo => s.wb.bo
  | .so => s.wb.so
  | .si => s.wb.si

/-- The state with the working blocks of a bank replaced. -/
def State.writeBlocks (s : State) (b : BlockBank) (v : Vector Block maxLanes) : State :=
  match b with
  | .ib => { s with wb := { s.wb with ib := v } }
  | .bo => { s with wb := { s.wb with bo := v } }
  | .so => { s with wb := { s.wb with so := v } }
  | .si => { s with wb := { s.wb with si := v } }

/-! ## Operand words of a command -/

/-- The bytes of a word, least significant first (R112). -/
def wordBytes (w : Word) : List Byte :=
  [w.extractLsb' 0 8, w.extractLsb' 8 8, w.extractLsb' 16 8, w.extractLsb' 24 8]

/-- The bytes of a key: key byte m is byte m mod 4 of word m div 4 (R112). -/
def keyBytes (ws : List Word) : List Byte := ws.flatMap wordBytes

end Sys2Proof.Machine
end

