-- ==== Sys2Proof/Machine/Commands.lean ====
section
/-!
DEFINITION. The host commands (spec/45_commands.md) and the command port's answer to a reserved opcode
(spec/60_exceptions.md R390). Every meaning applies the checks of R398 in order. A command's words
are already consumed (Step.lean).
-/

namespace Sys2Proof.Machine

/-- The outcome of a command. -/
abbrev CmdResult := Host.Outcome State Fault Refusal

/-! ## SET_KIND -/

/-- SET_KIND to the legal kind `k` (R335). -/
def State.setKindTo (s : State) (k : Kind) : State :=
  if k = s.kind then s.respond opcSetKind .ok []
  else if s.busy then s.raiseFault .kindChangeBusy opcSetKind
  else { s with kind := k, keyValid := ⟨false, false⟩ }.respond opcSetKind .ok []

/-- SET_KIND (R335). -/
def execSetKind (rsvd : BitVec 21) (k : BitVec 3) (s : State) : CmdResult :=
  if s.faulted then .next (s.refuseFaulted opcSetKind)
  else if rsvd ≠ 0 then .next (s.raiseFault .badOperand opcSetKind)
  else
    match Kind.ofCode k with
    | none => .next (s.raiseFault .badOperand opcSetKind)
    | some k => .next (s.setKindTo k)

/-! ## SET_CW -/

/-- The state with the control word of parity `p` written (R340, R34). -/
def State.setKey (s : State) (p : Parity) (key : List Byte) : State :=
  match p with
  | .even => { s with cw := { s.cw with even := key }, keyValid := { s.keyValid with even := true } }
  | .odd => { s with cw := { s.cw with odd := key }, keyValid := { s.keyValid with odd := true } }

/-- The keys that PMASK selects, the even key's words first (R340). -/
def State.setKeys (s : State) (pmask : BitVec 2) (keys : List Word) : State :=
  let kw := s.keyWords
  let s1 := if pmask.getLsbD 0 then s.setKey .even (keyBytes (keys.take kw)) else s
  let rest := if pmask.getLsbD 0 then keys.drop kw else keys
  if pmask.getLsbD 1 then s1.setKey .odd (keyBytes (rest.take kw)) else s1

/-- SET_CW (R340). -/
def execSetCw (rsvd : BitVec 22) (pmask : BitVec 2) (keys : List Word) (s : State) : CmdResult :=
  if s.faulted then .next (s.refuseFaulted opcSetCw)
  else if rsvd ≠ 0 ∨ pmask = 0 then .next (s.raiseFault .badOperand opcSetCw)
  else if s.kind = .none then .next (s.raiseFault .noKind opcSetCw)
  else .next ((s.setKeys pmask keys).respond opcSetCw .ok [])

/-! ## CSR_READ -/

/-- CSR_READ (R345). It is served while FAULTED = 1 too. -/
def execCsrRead (rsvd : BitVec 16) (index : BitVec 8) (s : State) : CmdResult :=
  if rsvd ≠ 0 then .next (s.raiseFault .badOperand opcCsrRead)
  else
    match s.csrValue index with
    | none => .next (s.raiseFault .badOperand opcCsrRead)
    | some v => .next (s.respond opcCsrRead .ok [v])

/-! ## DECRYPT issue -/

/-- Two ranges do not overlap; an empty range overlaps nothing (R351, check 4). -/
def rangesDisjoint (r q : Range) : Bool :=
  decide (r.start = r.stop) || decide (q.start = q.stop)
    || decide (r.stop.toNat ≤ q.start.toNat) || decide (q.stop.toNat ≤ r.start.toNat)

/-- Checks 1 to 3 of R351 on one range. -/
def rangeOk (c : Build) (r : Range) : Bool :=
  decide (r.start.toNat ≤ r.stop.toNat)
    && decide ((r.stop.toNat - r.start.toNat) % 188 = 0)
    && accessOk c r.start.toNat (r.stop.toNat - r.start.toNat)

/-- Check 4 of R351: the ranges are pairwise disjoint. -/
def pairwiseDisjoint : List Range → Bool
  | [] => true
  | r :: rest => rest.all (rangesDisjoint r) && pairwiseDisjoint rest

/-- The number of packets of the ranges (R351, check 5). -/
def packetCount (ranges : List Range) : Nat :=
  (ranges.map fun r => (r.stop.toNat - r.start.toNat) / 188).sum

/-- `ranges_ok` (R351). -/
def rangesOk (c : Build) (ranges : List Range) : Bool :=
  ranges.all (rangeOk c) && pairwiseDisjoint ranges && decide (packetCount ranges < 2 ^ 32)

/-- The inputs a DECRYPT latches (R350, R355). -/
def State.latch (s : State) (ranges : List Range) : Pending :=
  { ranges := ranges, kind := s.kind, cw := s.cw, valid := s.keyValid }

/-- The issue of a legal DECRYPT (R350). When the completion fires is a free value (log 8). -/
def State.issueDecrypt (s : State) (ranges : List Range) : State :=
  { s with
    pending := s.latch ranges, busy := true,
    fireIn := Config.completionDelay s.draws, draws := s.draws + 1 }

/-- DECRYPT (R350): the issue step. The completion is the sequencer's (Sequencer.lean). -/
def execDecrypt (rsvd : BitVec 8) (ranges : List Range) (s : State) : CmdResult :=
  if s.faulted then .next (s.refuseFaulted opcDecrypt)
  else if rsvd ≠ 0 then .next (s.raiseFault .badOperand opcDecrypt)
  else if s.busy then .next (s.raiseFault .busyViolation opcDecrypt)
  else if s.kind = .none then .next (s.raiseFault .noKind opcDecrypt)
  else if rangesOk s.cfg ranges then .next (s.issueDecrypt ranges)
  else .next (s.raiseFault .badRange opcDecrypt)

/-! ## A reserved opcode -/

/-- A command word whose opcode is reserved (R390, R398). -/
def reservedCommand (opc : Byte) (s : State) : State :=
  if s.faulted then s.refuseFaulted opc else s.raiseFault .illegalCommand opc

end Sys2Proof.Machine
end

