-- ==== Sys2Proof/Machine/Primitive.lean ====
section
/-!
DEFINITION. The group primitive and the transposer (spec/40_group_primitive.md). Which registers d, a,
b and the blocks are is the sequencer's selection `opnd` (log 10); c is `pr.count`.
-/

namespace Sys2Proof.Machine

/-- The outcome of a meaning of this file. -/
abbrev Result := Host.Outcome State Fault Refusal

/-! ## Transposer functions -/

/-- The lanes below `c` of `new`, the other lanes of `old`. -/
def mergeLanes (c : Nat) (old new : Group) : Group :=
  (new &&& laneMask c) ||| (old &&& ~~~laneMask c)

/-- The byte whose bit b is `f b`. -/
def byteOf (f : Nat → Bool) : Byte :=
  BitVec.ofBool (f 7) ++ BitVec.ofBool (f 6) ++ BitVec.ofBool (f 5) ++ BitVec.ofBool (f 4)
    ++ BitVec.ofBool (f 3) ++ BitVec.ofBool (f 2) ++ BitVec.ofBool (f 1) ++ BitVec.ofBool (f 0)

/-- The 8-byte block of lane `i`. -/
def laneBlock (v : Vector Block maxLanes) (i : Nat) : Block := v.getD i (Vector.replicate 8 0)

/-- Bit b of byte j of lane `i`'s block. -/
def blockBit (v : Vector Block maxLanes) (i j b : Nat) : Bool :=
  ((laneBlock v i).getD j 0).getLsbD b

/-- T_IN_BITS (R162): P[8j + b][i] <- M_i[j].b for i < c; the other lanes keep their values. -/
def transposeInBits (n c : Nat) (m : Vector Block maxLanes) (planes : Vector Group 64) :
    Vector Group 64 :=
  Vector.ofFn fun k =>
    mergeLanes (min c n) planes[k] (groupOf n fun i => blockBit m i (k.val / 8) (k.val % 8))

/-- T_OUT_BITS (R163): M_i[j] <- the byte of bits P[8j + b][i], for i < c. -/
def transposeOutBits (n c : Nat) (planes : Vector Group 64) (m : Vector Block maxLanes) :
    Vector Block maxLanes :=
  Vector.ofFn fun i =>
    if i.val < min c n then
      Vector.ofFn fun j => byteOf fun b => (planes.getD (8 * j.val + b) 0).getLsbD i.val
    else m[i]

/-- T_IN_BYTES (R164): S[j][i] <- M_i[j] for i < c; the other lanes keep their values. -/
def transposeInBytes (n c : Nat) (m : Vector Block maxLanes) (slices : Vector Slice 8) :
    Vector Slice 8 :=
  Vector.ofFn fun j => Vector.ofFn fun i =>
    if i.val < min c n then m[i][j] else slices[j][i]

/-- T_OUT_BYTES (R165): M_i[j] <- S[j][i] for i < c. -/
def transposeOutBytes (n c : Nat) (slices : Vector Slice 8) (m : Vector Block maxLanes) :
    Vector Block maxLanes :=
  Vector.ofFn fun i =>
    if i.val < min c n then Vector.ofFn fun j => slices[j][i] else m[i]

/-- The block cipher's substitution of one byte (R161, 43_block_cipher.md R246). -/
def sboxByte (t : Tables) (b : Byte) : Byte := t.blockSbox.getD b.toNat 0

/-- B_SBOX on a slice (R161). -/
def sliceSbox (t : Tables) (n : Nat) (a : Slice) : Slice := sliceMap n (sboxByte t) a

/-! ## Bitwise operations on groups or byte slices (R150) -/

/-- d <- f a b on groups, or d <- g a b on byte slices, as the operand form says. -/
def State.bitwise (s : State) (f : Group → Group → Group) (g : Slice → Slice → Slice) : State :=
  match s.opnd.form with
  | .groups => s.writeGroup s.opnd.gd (f (s.readGroup s.opnd.ga) (s.readGroup s.opnd.gb))
  | .slices => s.writeSlice s.opnd.sd (g (s.readSlice s.opnd.sa) (s.readSlice s.opnd.sb))

/-! ## Meanings -/

/-- G_ZERO (R151). -/
def execGZero (s : State) : Result := .next (s.writeGroup s.opnd.gd (groupBcast s.cfg.n false))

/-- G_ONES (R152). -/
def execGOnes (s : State) : Result := .next (s.writeGroup s.opnd.gd (groupBcast s.cfg.n true))

/-- G_AND (R153). -/
def execGAnd (s : State) : Result := .next (s.bitwise (· &&& ·) (sliceAnd s.cfg.n))

/-- G_OR (R154). -/
def execGOr (s : State) : Result := .next (s.bitwise (· ||| ·) (sliceOr s.cfg.n))

/-- G_XOR (R155). -/
def execGXor (s : State) : Result := .next (s.bitwise (· ^^^ ·) (sliceXor s.cfg.n))

/-- G_NOT (R156). -/
def execGNot (s : State) : Result :=
  .next (s.bitwise (fun a _ => groupNot s.cfg.n a) (fun a _ => sliceNot s.cfg.n a))

/-- G_BCAST1 (R157). -/
def execGBcast1 (v : Bool) (s : State) : Result :=
  .next (s.writeGroup s.opnd.gd (groupBcast s.cfg.n v))

/-- B_BCAST8 (R158). -/
def execBBcast8 (c : Byte) (s : State) : Result :=
  .next (s.writeSlice s.opnd.sd (sliceBcast s.cfg.n c))

/-- B_SHL8 (R159). -/
def execBShl8 (k : BitVec 3) (s : State) : Result :=
  .next (s.writeSlice s.opnd.sd (sliceShl s.cfg.n k.toNat (s.readSlice s.opnd.sa)))

/-- B_SHR8 (R160). -/
def execBShr8 (k : BitVec 3) (s : State) : Result :=
  .next (s.writeSlice s.opnd.sd (sliceShr s.cfg.n k.toNat (s.readSlice s.opnd.sa)))

/-- B_SBOX (R161). -/
def execBSbox (s : State) : Result :=
  .next (s.writeSlice s.opnd.sd (sliceSbox s.cfg.tables s.cfg.n (s.readSlice s.opnd.sa)))

/-- T_IN_BITS (R162). -/
def execTInBits (s : State) : Result :=
  .next { s with pr := { s.pr with
    planes := transposeInBits s.cfg.n s.pr.count (s.readBlocks s.opnd.blocks) s.pr.planes } }

/-- T_OUT_BITS (R163). -/
def execTOutBits (s : State) : Result :=
  .next (s.writeBlocks s.opnd.blocks
    (transposeOutBits s.cfg.n s.pr.count s.pr.planes (s.readBlocks s.opnd.blocks)))

/-- T_IN_BYTES (R164). -/
def execTInBytes (s : State) : Result :=
  .next (s.writeBank s.opnd.bank
    (transposeInBytes s.cfg.n s.pr.count (s.readBlocks s.opnd.blocks) (s.readBank s.opnd.bank)))

/-- T_OUT_BYTES (R165). -/
def execTOutBytes (s : State) : Result :=
  .next (s.writeBlocks s.opnd.blocks
    (transposeOutBytes s.cfg.n s.pr.count (s.readBank s.opnd.bank) (s.readBlocks s.opnd.blocks)))

end Sys2Proof.Machine
end

