-- ==== Sys2Proof/Machine/KeySchedule.lean ====
section
/-!
DEFINITION. The key scheduler (spec/41_key_schedule.md). K_STREAM and K_BLOCK take the control word
from `ks.cw` and leave their results in `ks` (log 21); K_BCAST loads `ks.cw` from PENDING, runs both
and broadcasts the results.
-/

namespace Sys2Proof.Machine

/-- The stream key schedule of nibbles m = 0..7 taken from four bytes, high nibble first (R180). -/
def nibbles (bytes : Fin 4 → Byte) : Vector Nib 8 :=
  Vector.ofFn fun m =>
    (bytes ⟨m.val / 2, by omega⟩).extractLsb' (if m.val % 2 = 0 then 4 else 0) 4

/-- iA of K_STREAM: bytes 0 to 3 (R180). -/
def streamKeyA (cw : Bytes 8) : Vector Nib 8 := nibbles fun m => cw[m.val]

/-- iB of K_STREAM: bytes 4 to 7 (R180). -/
def streamKeyB (cw : Bytes 8) : Vector Nib 8 := nibbles fun m => cw[4 + m.val]

/-- The input bit position that `perm64` moves to output position `o` (R182). -/
def permSource (t : Tables) (o : Nat) : Nat := t.keyPerm.findIdx (· == o + 1)

/-- Bit position m of eight bytes, most significant bit of byte 0 first (R183). -/
def keyBit (kb : Bytes 8) (m : Nat) : Bool := (kb.getD (m / 8) 0).getLsbD (7 - m % 8)

/-- `perm64` (R182): input bit position m moves to output bit position KEY_PERM[m] - 1. -/
def perm64 (t : Tables) (kb : Bytes 8) : Bytes 8 :=
  Vector.ofFn fun j => byteOf fun b => keyBit kb (permSource t (8 * j.val + (7 - b)))

/-- kb[i] of K_BLOCK: kb[6] is the control word, kb[i] = perm64(kb[i+1]); `k` is 6 - i (R184). -/
def keyStage (t : Tables) (cw : Bytes 8) : Nat → Bytes 8
  | 0 => cw
  | k + 1 => perm64 t (keyStage t cw k)

/-- K_BLOCK (R184): kk[8i + j] = kb[i][j] ^ i. -/
def blockKey (t : Tables) (cw : Bytes 8) : Vector Byte 56 :=
  Vector.ofFn fun k =>
    (keyStage t cw (6 - k.val / 8)).getD (k.val % 8) 0 ^^^ BitVec.ofNat 8 (k.val / 8)

/-! ## Meanings -/

/-- The results of K_STREAM in the key-schedule registers. -/
def KeySched.stream (ks : KeySched) : KeySched :=
  { ks with a := streamKeyA ks.cw, b := streamKeyB ks.cw }

/-- The result of K_BLOCK in the key-schedule registers. -/
def KeySched.block (t : Tables) (ks : KeySched) : KeySched := { ks with kk := blockKey t ks.cw }

/-- K_STREAM (R180). -/
def execKStream (s : State) : Result := .next { s with ks := s.ks.stream }

/-- K_BLOCK (R184). -/
def execKBlock (s : State) : Result := .next { s with ks := s.ks.block s.cfg.tables }

/-- The lane-broadcast stream key of a key schedule (R186, 10_state.md R54). -/
def StreamRegs.loadKey (n : Nat) (ks : KeySched) (st : StreamRegs) : StreamRegs :=
  { st with
    iA := Vector.ofFn fun m => nibbleBcast n ks.a[m],
    iB := Vector.ofFn fun m => nibbleBcast n ks.b[m] }

/-- The lane-broadcast block key of a key schedule (R186, 10_state.md R55). -/
def BlockRegs.loadKey (n : Nat) (ks : KeySched) (bk : BlockRegs) : BlockRegs :=
  { bk with kk := Vector.ofFn fun i => sliceBcast n ks.kk[i] }

/-- The effect of K_BCAST (R186). -/
def State.bcastKey (s : State) (p : Parity) : State :=
  let ks := ({ s.ks with cw := toBytes 8 (s.pending.cw.get p) } : KeySched).stream.block s.cfg.tables
  { s with ks := ks, st := s.st.loadKey s.cfg.n ks, bk := s.bk.loadKey s.cfg.n ks }

/-- K_BCAST (R186). -/
def execKBcast (p : Parity) (s : State) : Result := .next (s.bcastKey p)

end Sys2Proof.Machine
end

