-- ==== Sys2Proof/Machine/BlockCipher.lean ====
section
/-!
DEFINITION. The block-cipher engine (spec/43_block_cipher.md), in the ring form of R245.
-/

namespace Sys2Proof.Machine

/-- The mask of the input bits that `hit` selects. -/
def maskOf (hit : Nat → Bool) : Byte :=
  (List.range 8).foldl (fun m i => if hit i then m ||| 1#8 <<< i else m) 0

/-- The shift counts and masks of PERM that select a bit: the bits of each mask move by its count. -/
def permMasks (moves : Nat → Nat → Bool) : List (Nat × Byte) :=
  ((List.range 8).map fun k => (k, maskOf (moves k))).filter fun km => km.2 != 0

/-- The left shifts of PERM (R247): bit i moves up by `PERM_BIT[i] - i`. -/
def permLeft (t : Tables) : List (Nat × Byte) :=
  permMasks fun k i => t.permBit.getD i 0 == i + k

/-- The right shifts of PERM (R247): bit i moves down by `i - PERM_BIT[i]`, at least 1. -/
def permRight (t : Tables) : List (Nat × Byte) :=
  permMasks fun k i => decide (1 ≤ k) && i == t.permBit.getD i 0 + k

/-- PERM on a byte slice in the shift-and-mask form of R247, with the byte-slice operations. -/
def slicePerm (c : Build) (x : Slice) : Slice :=
  let masked (m : Byte) : Slice := sliceAnd c.n x (sliceBcast c.n m)
  (((permLeft c.tables).map fun km => sliceShl c.n km.1 (masked km.2))
      ++ (permRight c.tables).map fun km => sliceShr c.n km.1 (masked km.2)).foldl
    (sliceOr c.n) (sliceBcast c.n 0)

/-- BC_LOAD (R242): BOFF <- 56 and T_IN_BYTES of the first `c` blocks to BR[56..63]. The slots below 56 may
hold any value; the model keeps what they held (DESIGN CHOICE, log 31). -/
def BlockRegs.load (n c : Nat) (ib : Vector Block maxLanes) (bk : BlockRegs) : BlockRegs :=
  { bk.setBank 56 (transposeInBytes n c ib (bk.bank 56)) with boff := 56 }

/-- The slots of BR after one round, `b` = b' = BOFF - 1 and `k` the key slice (R245). -/
def roundSlots (c : Build) (k : Slice) (br : Vector Slice 64) (b : Fin 56) : Vector Slice 64 :=
  let so := sliceSbox c.tables c.n (sliceXor c.n k br[b.val + 7])
  let po := slicePerm c so
  let r1 := sliceXor c.n br[b.val + 8] so
  let br := br.set b.val r1
  let br := br.set (b.val + 6) (sliceXor c.n br[b.val + 6] po)
  let br := br.set (b.val + 4) (sliceXor c.n br[b.val + 4] br[b.val])
  let br := br.set (b.val + 3) (sliceXor c.n br[b.val + 3] br[b.val])
  br.set (b.val + 2) (sliceXor c.n br[b.val + 2] br[b.val])

/-- BC_ROUND (R244, R245) with round index `t`. Its push needs BOFF ≥ 1; the meanings check it.
Slots outside the logical register keep what they held (DESIGN CHOICE, log 31). -/
def BlockRegs.round (c : Build) (t : Fin 56) (bk : BlockRegs) : BlockRegs :=
  { bk with
    br := roundSlots c bk.kk[55 - t.val] bk.br ⟨bk.boff.val - 1, by omega⟩,
    boff := ⟨bk.boff.val - 1, by omega⟩ }

/-- Rounds `t`, `t + 1`, ..., 55; `k` is 56 - t. -/
def BlockRegs.rounds (c : Build) : (k : Nat) → k ≤ 56 → BlockRegs → BlockRegs
  | 0, _, bk => bk
  | k + 1, h, bk => (bk.round c ⟨55 - k, by omega⟩).rounds c k (by omega)

/-- BC_DECIPHER (R250) from BOFF = 56: rounds 0 to 55. -/
def BlockRegs.decipher (c : Build) (bk : BlockRegs) : BlockRegs := bk.rounds c 56 (by omega)

/-- BC_STORE (R251): T_OUT_BYTES of BR[0..7] to the first `c` output blocks. -/
def BlockRegs.store (n c : Nat) (bk : BlockRegs) (bo : Vector Block maxLanes) :
    Vector Block maxLanes :=
  transposeOutBytes n c (bk.bank 0) bo

/-! ## Meanings -/

/-- BC_LOAD (R242), c lanes of IB. -/
def execBcLoad (s : State) : Result :=
  .next { s with bk := s.bk.load s.cfg.n s.pr.count s.wb.ib }

/-- BC_ROUND (R244). A push below slot 0 is outside the rule's precondition (log 12). -/
def execBcRound (t : Fin 56) (s : State) : Result :=
  if s.bk.boff.val = 0 then .fault .ringUnderflow
  else .next { s with bk := s.bk.round s.cfg t }

/-- BC_DECIPHER (R250). Its 56 rounds need BOFF = 56 (log 12). -/
def execBcDecipher (s : State) : Result :=
  if s.bk.boff.val < 56 then .fault .ringUnderflow
  else .next { s with bk := s.bk.decipher s.cfg }

/-- BC_STORE (R251), c lanes to BO. -/
def execBcStore (s : State) : Result :=
  .next { s with wb := { s.wb with bo := s.bk.store s.cfg.n s.pr.count s.wb.bo } }

end Sys2Proof.Machine
end

