-- ==== Sys2Proof/Machine/Framing.lean ====
section
/-!
DEFINITION. TS packet framing and classification (spec/44_batch_scheduler.md R270 to R274, R313).
-/

namespace Sys2Proof.Machine

/-- PKT (00_scope.md R13). -/
def pktBytes : Nat := 188

/-- One byte of a valid access; `none` where the byte is not valid (R80). -/
def readByte? (c : Build) (m : Memory) (a : Nat) : Option Byte :=
  if memValid c a then some (m.get a) else none

/-- The framing of a packet (R270, R271), before its payload is divided into blocks. -/
inductive Frame where
  /-- TSC = 00. -/
  | clear
  /-- TSC = 01. -/
  | reserved
  /-- Encrypted, and the payload offset is past the packet. -/
  | malformed
  /-- Encrypted with parity `p`, payload offset `off` (4 to 188). -/
  | payload (p : Parity) (off : Nat)
  deriving DecidableEq, Repr

/-- The parity of an encrypted packet from byte 3 (R270). -/
def headerParity (h3 : Byte) : Parity := if h3.getLsbD 6 then .odd else .even

/-- The framing of the packet at `a`. Byte 4 is read only for an encrypted packet with the
adaptation-field flag (R274); `none`: a byte it needs is not valid. -/
def frame (c : Build) (m : Memory) (a : Nat) : Option Frame :=
  match readByte? c m (a + 3) with
  | none => none
  | some h3 =>
    if h3.extractLsb' 6 2 = 0 then some .clear
    else if h3.extractLsb' 6 2 = 1 then some .reserved
    else
      match (if h3.getLsbD 5 then (readByte? c m (a + 4)).map (fun b => 4 + 1 + b.toNat)
        else some 4) with
      | none => none
      | some off => if off ≤ pktBytes then some (.payload (headerParity h3) off) else some .malformed

/-- The class of a packet for the batch scheduler (R274). -/
inductive Cls where
  | clear
  | reserved
  | malformed
  | zero
  | cand (p : Parity) (off n res : Nat)
  deriving DecidableEq, Repr

/-- Classification of a frame: len = 188 - off, n = len div 8, res = len mod 8 (R272, R274). -/
def Frame.cls : Frame → Cls
  | .clear => .clear
  | .reserved => .reserved
  | .malformed => .malformed
  | .payload p off =>
    if (pktBytes - off) / 8 = 0 then .zero
    else .cand p off ((pktBytes - off) / 8) ((pktBytes - off) % 8)

/-- `cls(a)` (R274). -/
def classify (c : Build) (m : Memory) (a : Nat) : Option Cls := (frame c m a).map Frame.cls

/-- Mark the packet at `a` clear: byte 3 becomes h3 & 0x3F (R313). -/
def clearTsc (m : Memory) (a : Nat) : Memory := m.set (a + 3) (m.get (a + 3) &&& 0x3F)

end Sys2Proof.Machine
end

