-- ==== Sys2Proof/Machine/StreamCipher.lean ====
section
/-!
DEFINITION. The stream-cipher keystream generator (spec/42_stream_cipher.md), in the group form of
R223: every rule is evaluated on all lanes at once. The scalar rules are in Scalar.lean.
-/

namespace Sys2Proof.Machine

/-! ## Nibbles as four groups -/

/-- XOR of two nibbles, lane by lane. -/
def NibbleG.xor (u v : NibbleG) : NibbleG :=
  ⟨u.b0 ^^^ v.b0, u.b1 ^^^ v.b1, u.b2 ^^^ v.b2, u.b3 ^^^ v.b3⟩

/-- Rotation left by one bit within the nibble: t'[b] = t[(b + 3) mod 4] (R223). -/
def NibbleG.rotl (t : NibbleG) : NibbleG := ⟨t.b3, t.b0, t.b1, t.b2⟩

/-- Lane-wise selection of nibbles (R223). -/
def NibbleG.sel (m : Group) (u v : NibbleG) : NibbleG :=
  ⟨groupSel m u.b0 v.b0, groupSel m u.b1 v.b1, groupSel m u.b2 v.b2, groupSel m u.b3 v.b3⟩

/-! ## Registers (R201) -/

/-- A[m] = SA[SOFF + m - 1], m = 1..10. -/
def StreamRegs.regA (st : StreamRegs) (m : Nat) : NibbleG := st.sa.getD (st.soff.val + m - 1) .zero

/-- B[m] = SB[SOFF + m - 1], m = 1..10. -/
def StreamRegs.regB (st : StreamRegs) (m : Nat) : NibbleG := st.sb.getD (st.soff.val + m - 1) .zero

/-! ## S-boxes (R203 to R205) -/

/-- The leaf of `leaves` that the selectors pick in each lane, the first selector the most
significant: the Boolean formula of an S-box over groups. -/
def muxGroup : List Group → List Group → Group
  | [], leaves => leaves.headD 0
  | i :: is, leaves =>
    groupSel i (muxGroup is (leaves.drop (2 ^ is.length))) (muxGroup is leaves)

/-- Output bit `b` of S-box k + 1, read from the state before the step (R205). -/
def StreamRegs.sbox (c : Build) (st : StreamRegs) (k b : Nat) : Group :=
  muxGroup ((c.tables.sboxIn.getD k []).map fun mb => (st.regA mb.1).bit mb.2)
    ((c.tables.streamSbox.getD k []).map fun v => groupBcast c.n (v.getLsbD b))

/-- XOR of the listed bits of B. -/
def StreamRegs.xorB (st : StreamRegs) (bits : List (Nat × Nat)) : Group :=
  bits.foldl (fun acc mb => acc ^^^ (st.regB mb.1).bit mb.2) 0

/-- The nibble `extra` (R206). -/
def StreamRegs.extra (t : Tables) (st : StreamRegs) : NibbleG :=
  ⟨st.xorB (t.extraB.getD 3 []), st.xorB (t.extraB.getD 2 []),
    st.xorB (t.extraB.getD 1 []), st.xorB (t.extraB.getD 0 [])⟩

/-! ## The adder (R209, R223) -/

/-- One bit of the carry-propagating adder: the sum and the carry out. -/
def addBit (z e c : Group) : Group × Group := (z ^^^ e ^^^ c, (z &&& e) ||| (c &&& (z ^^^ e)))

/-- Z + E + r lane by lane: the sum modulo 16 and the carry out. -/
def addNibble (z e : NibbleG) (r : Group) : NibbleG × Group :=
  let s0 := addBit z.b0 e.b0 r
  let s1 := addBit z.b1 e.b1 s0.2
  let s2 := addBit z.b2 e.b2 s1.2
  let s3 := addBit z.b3 e.b3 s2.2
  (⟨s0.1, s1.1, s2.1, s3.1⟩, s3.2)

/-! ## One internal step -/

/-- The new A[1] (R207). -/
def StreamRegs.newA (st : StreamRegs) (mode : StepMode) (aIn : NibbleG) : NibbleG :=
  let v := (st.regA 10).xor st.x
  match mode with
  | .generating => v
  | .initializing => (v.xor st.d).xor aIn

/-- The new B[1] (R208). -/
def StreamRegs.newB (st : StreamRegs) (mode : StepMode) (bIn : NibbleG) : NibbleG :=
  let v := ((st.regB 7).xor (st.regB 10)).xor st.y
  let t := match mode with
    | .generating => v
    | .initializing => v.xor bIn
  NibbleG.sel st.p t.rotl t

/-- push (R213): SOFF decrements and the new A[1] and B[1] go to the slots it names. Its precondition
is SOFF ≥ 1; the meanings check it (log 12). -/
def StreamRegs.push (st : StreamRegs) (a b : NibbleG) : StreamRegs :=
  { st with
    soff := ⟨st.soff.val - 1, by omega⟩,
    sa := st.sa.set (st.soff.val - 1) a,
    sb := st.sb.set (st.soff.val - 1) b }

/-- One internal step (R210): every right-hand side reads the state before the step. -/
def StreamRegs.step (c : Build) (mode : StepMode) (aIn bIn : NibbleG) (st : StreamRegs) : StreamRegs :=
  let d := (st.e.xor st.z).xor (st.extra c.tables)
  let sum := addNibble st.z st.e st.r
  { st.push (st.newA mode aIn) (st.newB mode bIn) with
    d := d,
    e := st.f,
    f := NibbleG.sel st.q sum.1 st.e,
    r := groupSel st.q sum.2 st.r,
    x := ⟨st.sbox c 0 1, st.sbox c 1 1, st.sbox c 2 0, st.sbox c 3 0⟩,
    y := ⟨st.sbox c 2 1, st.sbox c 3 1, st.sbox c 4 0, st.sbox c 5 0⟩,
    z := ⟨st.sbox c 4 1, st.sbox c 5 1, st.sbox c 0 0, st.sbox c 1 0⟩,
    p := st.sbox c 6 1,
    q := st.sbox c 6 0,
    out1 := d.b3 ^^^ d.b2,
    out0 := d.b1 ^^^ d.b0 }

/-! ## Seeds (R214) -/

/-- in1 (`hi`) or in2 of external iteration `i`: the high or low nibble of seed byte i, per lane. -/
def seedNibble (n : Nat) (si : Vector Block maxLanes) (i : Nat) (hi : Bool) : NibbleG :=
  nibbleOf n fun g => ((laneBlock si g).getD i 0).extractLsb' (if hi then 4 else 0) 4

/-- An initializing step of external iteration `i`: a_in = in1, b_in = in2 when j is even, the other way
round when j is odd (R214). -/
def StreamRegs.initStep (c : Build) (si : Vector Block maxLanes) (i : Nat) (jOdd : Bool)
    (st : StreamRegs) : StreamRegs :=
  st.step c .initializing (seedNibble c.n si i !jOdd) (seedNibble c.n si i jOdd)

/-- The external iteration i of the internal step at hand: internal step 4i + j of a call is the one
at SOFF = 32 - (4i + j) (R213, R214, R220; log 22). -/
def StreamRegs.extIter (st : StreamRegs) : Nat := (32 - st.soff.val) / 4

/-- A generate step. -/
def StreamRegs.genStep (c : Build) (st : StreamRegs) : StreamRegs := st.step c .generating .zero .zero

/-! ## Load, advance and the two calls -/

/-- S_LOAD (R202). R202 leaves slots 0 to 31 unspecified; the model keeps what they held (DESIGN CHOICE,
log 31). -/
def StreamRegs.load (st : StreamRegs) : StreamRegs :=
  { st with
    soff := 32,
    sa := Vector.ofFn fun i =>
      if i.val < 32 then st.sa[i] else st.iA.getD (i.val - 32) .zero,
    sb := Vector.ofFn fun i =>
      if i.val < 32 then st.sb[i] else st.iB.getD (i.val - 32) .zero,
    x := .zero, y := .zero, z := .zero, d := .zero, e := .zero, f := .zero,
    p := 0, q := 0, r := 0 }

/-- S_ADVANCE (R222): slots 0 to 9 are copied to slots 32 to 41, and SOFF is 32 again. -/
def StreamRegs.advance (st : StreamRegs) : StreamRegs :=
  { st with
    sa := Vector.ofFn fun i => if h : 32 ≤ i.val then st.sa[i.val - 32] else st.sa[i],
    sb := Vector.ofFn fun i => if h : 32 ≤ i.val then st.sb[i.val - 32] else st.sb[i],
    soff := 32 }

/-- External iteration `i` of S_INIT: internal steps j = 0, 1, 2, 3 (R220). -/
def StreamRegs.initIter (c : Build) (si : Vector Block maxLanes) (i : Nat) (st : StreamRegs) :
    StreamRegs :=
  (((st.initStep c si i false).initStep c si i true).initStep c si i false).initStep c si i true

/-- External iterations `i`, `i + 1`, ..., `k` of them. -/
def StreamRegs.initIters (c : Build) (si : Vector Block maxLanes) (i : Nat) : Nat → StreamRegs → StreamRegs
  | 0, st => st
  | k + 1, st => (st.initIter c si i).initIters c si (i + 1) k

/-- S_INIT (R220) from SOFF = 32. -/
def StreamRegs.init (c : Build) (si : Vector Block maxLanes) (st : StreamRegs) : StreamRegs :=
  (st.initIters c si 0 8).advance

/-- The output o of the last step in lane `g`, as a byte 0..3. -/
def StreamRegs.outLane (st : StreamRegs) (g : Nat) : Byte :=
  (if st.out1.getLsbD g then 2 else 0) ||| (if st.out0.getLsbD g then 1 else 0)

/-- acc <- (acc << 2) | o in every lane (R221). -/
def StreamRegs.accum (n : Nat) (st : StreamRegs) (acc : Slice) : Slice :=
  sliceOf n fun g => (acc[g] <<< 2) ||| st.outLane g.val

/-- One external iteration of S_GEN: four generate steps and the byte of every lane (R221). -/
def StreamRegs.genIter (c : Build) (st : StreamRegs) : StreamRegs × Slice :=
  let st1 := st.genStep c
  let st2 := st1.genStep c
  let st3 := st2.genStep c
  let st4 := st3.genStep c
  (st4, st4.accum c.n (st3.accum c.n (st2.accum c.n (st1.accum c.n (sliceBcast c.n 0)))))

/-- `k` external iterations of S_GEN: the registers after them and the bytes of every lane in order. -/
def StreamRegs.genIters (c : Build) : Nat → StreamRegs → StreamRegs × List Slice
  | 0, st => (st, [])
  | k + 1, st =>
    let r := st.genIter c
    let rest := r.1.genIters c k
    (rest.1, r.2 :: rest.2)

/-- The blocks whose byte i in lane g is lane g of the i-th slice. -/
def blocksOf (slices : List Slice) : Vector Block maxLanes :=
  Vector.ofFn fun g => Vector.ofFn fun i => (slices.getD i.val (Vector.replicate maxLanes 0))[g]

/-- S_GEN (R221) from SOFF = 32: the registers after it, and SO. -/
def StreamRegs.gen (c : Build) (st : StreamRegs) : StreamRegs × Vector Block maxLanes :=
  let r := st.genIters c 8
  (r.1.advance, blocksOf r.2)

/-! ## Meanings -/

/-- S_LOAD (R202). -/
def execSLoad (s : State) : Result := .next { s with st := s.st.load }

/-- S_STEP (R210). In initializing mode the seed nibbles are those of the external iteration that
SOFF tells (R214; log 22). A push below slot 0 is outside the rule's precondition (log 12). -/
def execSStep (mode : StepMode) (jOdd : Bool) (s : State) : Result :=
  if s.st.soff.val = 0 then .fault .ringUnderflow
  else
    match mode with
    | .initializing => .next { s with st := s.st.initStep s.cfg s.wb.si s.st.extIter jOdd }
    | .generating => .next { s with st := s.st.genStep s.cfg }

/-- S_INIT (R220). Its 32 pushes need SOFF = 32 (log 12). -/
def execSInit (s : State) : Result :=
  if s.st.soff.val < 32 then .fault .ringUnderflow
  else .next { s with st := s.st.init s.cfg s.wb.si }

/-- S_GEN (R221). Its 32 pushes need SOFF = 32 (log 12). -/
def execSGen (s : State) : Result :=
  if s.st.soff.val < 32 then .fault .ringUnderflow
  else
    let r := s.st.gen s.cfg
    .next { s with st := r.1, wb := { s.wb with so := r.2 } }

/-- S_ADVANCE (R222). -/
def execSAdvance (s : State) : Result := .next { s with st := s.st.advance }

end Sys2Proof.Machine
end

