-- ==== Sys2Proof/Machine/Scheduler.lean ====
section
/-!
DEFINITION. The batch scheduler and packet transposer (spec/44_batch_scheduler.md).
-/

namespace Sys2Proof.Machine

/-! ## Scan (R278 to R284) -/

/-- The packet at `cur` is advanced: adv, the scan position and start'[j] move past it, and the scan
stops when the batch is full (R280). -/
def SchedRegs.advancePacket (n : Nat) (sc : SchedRegs) : SchedRegs :=
  { sc with
    adv := sc.adv + 1,
    curAddr := sc.curAddr + pktBytes,
    starts := sc.starts.set sc.curRange (sc.curAddr + pktBytes),
    stop := sc.stop || decide (sc.grouped = n) }

/-- The packet at `cur` is admitted to the batch in the next slot (R280). g_len is its payload length
(10_state.md R57; log 24). -/
def SchedRegs.admitPacket (p : Parity) (off n res : Nat) (sc : SchedRegs) : SchedRegs :=
  { sc with
    gpar := if sc.grouped = 0 then p else sc.gpar,
    desc := sc.desc.setIfInBounds sc.grouped
      { pkt := sc.curAddr, off := off, len := pktBytes - off, n := n, res := res },
    grouped := sc.grouped + 1 }

/-- One packet of the scan, classified `cl` (R280, R281). -/
def SchedRegs.scanPacket (n : Nat) (cl : Cls) (sc : SchedRegs) : SchedRegs :=
  match cl with
  | .cand p off k res =>
    if sc.grouped > 0 ∧ p ≠ sc.gpar then { sc with stop := true }
    else (sc.admitPacket p off k res).advancePacket n
  | .malformed => { sc with diagInc := sc.diagInc + 1 }.advancePacket n
  | _ => sc.advancePacket n

/-- The packets of one range from `cur` on, until `stop` or the range's end; `fuel` bounds them. -/
def scanPackets (c : Build) (m : Memory) (stop : Nat) : Nat → SchedRegs → Option SchedRegs
  | 0, sc => some sc
  | fuel + 1, sc =>
    if sc.stop = false ∧ sc.curAddr < stop then
      match classify c m sc.curAddr with
      | none => none
      | some cl => scanPackets c m stop fuel (sc.scanPacket c.n cl)
    else some sc

/-- The number of packets a range can hold. -/
def rangePackets (start stop : Nat) : Nat := (stop - start + (pktBytes - 1)) / pktBytes

/-- The ranges from number `j` on (R278). -/
def scanRanges (c : Build) (m : Memory) : Nat → List Range → SchedRegs → Option SchedRegs
  | _, [], sc => some sc
  | j, r :: rest, sc =>
    match scanPackets c m r.stop.toNat (rangePackets r.start.toNat r.stop.toNat)
        { sc with curRange := j, curAddr := r.start.toNat } with
    | none => none
    | some sc => scanRanges c m (j + 1) rest sc

/-- The registers at the start of a scan: adv, grouped, stop and diag_inc are 0, start'[j] = start_j
(R280). -/
def SchedRegs.scanInit (ranges : List Range) (sc : SchedRegs) : SchedRegs :=
  { sc with
    adv := 0, grouped := 0, stop := false, diagInc := 0,
    starts := ranges.map fun r => r.start.toNat }

/-- The scan of R280 over all ranges; `none`: it needs a byte that is not valid. -/
def scanAll (c : Build) (m : Memory) (ranges : List Range) (sc : SchedRegs) : Option SchedRegs :=
  scanRanges c m 0 ranges (sc.scanInit ranges)

/-! ## Sort and liveness (R290 to R294) -/

/-- g_n of slot `g`. -/
def slotN (d : Vector Desc maxLanes) (g : Nat) : Nat := (d.getD g ⟨0, 0, 0, 0, 0⟩).n

/-- Swap two slots, all their fields together (R290). -/
def swapSlots (d : Vector Desc maxLanes) (i k : Nat) : Vector Desc maxLanes :=
  (d.setIfInBounds i (d.getD k ⟨0, 0, 0, 0, 0⟩)).setIfInBounds k (d.getD i ⟨0, 0, 0, 0, 0⟩)

/-- while t23 < grouped and g_n[t23] = 23: t23 <- t23 + 1. -/
def skipFull (d : Vector Desc maxLanes) (grouped : Nat) : Nat → Nat → Nat
  | 0, t => t
  | fuel + 1, t => if t < grouped ∧ slotN d t = 23 then skipFull d grouped fuel (t + 1) else t

/-- while ts >= 0 and g_n[ts] ≠ 23: ts <- ts - 1, with `t` = ts + 1. -/
def skipShort (d : Vector Desc maxLanes) : Nat → Nat
  | 0 => 0
  | t + 1 => if slotN d t ≠ 23 then skipShort d t else t + 1

/-- The two-pointer partition of R290; `ts1` is ts + 1. It ends with t23. -/
def partitionFull (grouped : Nat) : Nat → Nat → Nat → Vector Desc maxLanes →
    Nat × Vector Desc maxLanes
  | 0, t23, _, d => (t23, d)
  | fuel + 1, t23, ts1, d =>
    let t23 := skipFull d grouped grouped t23
    let ts1 := skipShort d ts1
    if ts1 < t23 + 2 then (t23, d)
    else partitionFull grouped fuel (t23 + 1) (ts1 - 1) (swapSlots d t23 (ts1 - 1))

/-- for k in i+1 .. : if g_n[k] > g_n[i] then swap slots i and k; `m` slots from `k` on (R290). -/
def exchangeRow (i : Nat) : Nat → Nat → Vector Desc maxLanes → Vector Desc maxLanes
  | 0, _, d => d
  | m + 1, k, d =>
    exchangeRow i m (k + 1) (if slotN d k > slotN d i then swapSlots d i k else d)

/-- The exchange sort of slots i .. grouped - 1; `m` rows from `i` on (R290). -/
def exchangeSort (grouped : Nat) : Nat → Nat → Vector Desc maxLanes → Vector Desc maxLanes
  | 0, _, d => d
  | m + 1, i, d => exchangeSort grouped m (i + 1) (exchangeRow i (grouped - (i + 1)) (i + 1) d)

/-- SC_SORT on the descriptors (R290). -/
def sortSlots (grouped : Nat) (d : Vector Desc maxLanes) : Vector Desc maxLanes :=
  let r := partitionFull grouped (grouped + 1) 0 grouped d
  exchangeSort grouped (grouped - r.1) r.1 r.2

/-- #{ g < grouped : g_n[g] > i } (R293). -/
def aliveCount (d : Vector Desc maxLanes) (grouped i : Nat) : Nat :=
  ((List.range grouped).filter fun g => decide (slotN d g > i)).length

/-- alive[0..23] (R293). -/
def aliveCounts (d : Vector Desc maxLanes) (grouped : Nat) : Vector Nat 24 :=
  Vector.ofFn fun i => aliveCount d grouped i.val

/-! ## The round loop (R300 to R310) -/

/-- The descriptor of slot `g`; from 128 on one of zeros (DESIGN CHOICE, log 32). -/
def SchedRegs.slot (sc : SchedRegs) (g : Nat) : Desc := sc.desc.getD g ⟨0, 0, 0, 0, 0⟩

/-- encp[g]; 0 from slot 128 on (DESIGN CHOICE, log 32). -/
def SchedRegs.encpAt (sc : SchedRegs) (g : Nat) : Nat := sc.encp.getD g 0

/-- The address of slot g's payload. -/
def SchedRegs.payloadAt (sc : SchedRegs) (g : Nat) : Nat := (sc.slot g).pkt + (sc.slot g).off

/-- SI[g] <- the first block of slot g for g < grouped; the lanes above are filled with zeros, as R66
allows (R300; log 14). -/
def loadSeeds (m : Memory) (sc : SchedRegs) : Vector Block maxLanes :=
  Vector.ofFn fun g =>
    if g.val < sc.grouped then m.read (sc.payloadAt g.val) 8 else Vector.replicate 8 0

/-- SC_ROUND0's stream and key part: K_BCAST(gpar); S_LOAD; SI; S_INIT (R300). -/
def State.round0Seed (s : State) : State :=
  let s := s.bcastKey s.sc.gpar
  let si := loadSeeds s.mem s.sc
  { s with
    st := s.st.load.init s.cfg si, wb := { s.wb with si := si } }

/-- SC_ROUND0's last loop: IB[g] <- SI[g] and encp[g] for g < alive[0] (R300). -/
def State.round0Load (s : State) : State :=
  { s with
    wb := { s.wb with ib := Vector.ofFn fun g =>
      if g.val < s.sc.alive[0] then s.wb.si[g] else s.wb.ib[g] },
    sc := { s.sc with encp := Vector.ofFn fun g =>
      if g.val < s.sc.alive[0] then s.sc.payloadAt g.val + 8 else s.sc.encp[g] } }

/-- The accesses of SC_ROUND0: the first 8 payload bytes of every admitted packet. -/
def round0AccessOk (s : State) : Bool :=
  (List.range s.sc.grouped).all fun g => accessOk s.cfg (s.sc.payloadAt g) 8

/-- BC_LOAD(c, IB); BC_DECIPHER; BC_STORE(c) -> BO (R302, R308). The lane count operand is `c`. -/
def State.blockPass (s : State) (c : Nat) : State :=
  let bk := (s.bk.load s.cfg.n c s.wb.ib).decipher s.cfg
  { s with
    pr := { s.pr with count := c }, bk := bk,
    wb := { s.wb with bo := bk.store s.cfg.n c s.wb.bo } }

/-- S_GEN -> SO (R302). -/
def State.streamPass (s : State) : State :=
  let r := s.st.gen s.cfg
  { s with st := r.1, wb := { s.wb with so := r.2 } }

/-- A slot that continues (R302): its next block is read, the plaintext of the block before it is
written, IB and encp move on. -/
def State.continueSlot (s : State) (g : Nat) : State :=
  let a := s.sc.encpAt g
  let ibn := blockXor (s.mem.read a 8) (laneBlock s.wb.so g)
  { s with
    mem := s.mem.write (a - 8) (blockXor ibn (laneBlock s.wb.bo g)).toList,
    wb := { s.wb with ib := s.wb.ib.setIfInBounds g ibn },
    sc := { s.sc with encp := s.sc.encp.setIfInBounds g (a + 8) } }

/-- The residue of a finishing slot: byte m from `a + m` on, XORed with SO[g][m], `k` of them (R302). A byte
of SO from 8 on, which no g_res of R57 asks for, reads 00 (DESIGN CHOICE, log 32). -/
def residue (so : Block) (a : Nat) (m : Nat) : Nat → Memory → Memory
  | 0, mem => mem
  | k + 1, mem => residue so a (m + 1) k (mem.set (a + m) (mem.get (a + m) ^^^ so.getD m 0))

/-- A slot that finishes (R302): its last block is written and its residue XORed. -/
def State.finishSlot (s : State) (g : Nat) : State :=
  let a := s.sc.encpAt g
  let written := s.mem.write (a - 8) (laneBlock s.wb.bo g).toList
  { s with mem := residue (laneBlock s.wb.so g) a 0 (s.sc.slot g).res written }

/-- A slot that round 23 drains (R308): its last block is written. -/
def State.drainSlot (s : State) (g : Nat) : State :=
  { s with mem := s.mem.write (s.sc.encpAt g - 8) (laneBlock s.wb.bo g).toList }

/-- `f` for the slots g, g + 1, ..., `k` of them. -/
def State.forSlots (f : State → Nat → State) (g : Nat) : Nat → State → State
  | 0, s => s
  | k + 1, s => State.forSlots f (g + 1) k (f s g)

/-- The counts of SC_ROUND `it`: alive[it - 1], the slots live in it, and alive[it], those that
continue (R294). -/
def SchedRegs.aliveBefore (sc : SchedRegs) (it : Nat) : Nat := sc.alive.getD (it - 1) 0

/-- alive[it]. -/
def SchedRegs.aliveAfter (sc : SchedRegs) (it : Nat) : Nat := sc.alive.getD it 0

/-- The effect of SC_ROUND `it` (R302). DESIGN CHOICE (log 32): where alive[it] > alive[it - 1] the slots
below alive[it] continue, as the pseudocode has it, and no slot finishes. -/
def State.schedRound (s : State) (it : Nat) : State :=
  let before := s.sc.aliveBefore it
  let after := s.sc.aliveAfter it
  let s := (s.blockPass before).streamPass
  let s := State.forSlots State.continueSlot 0 after s
  State.forSlots State.finishSlot after (before - after) s

/-- The accesses of SC_ROUND `it` (R302): a continuing slot reads the block at encp and writes the one
before it; a finishing slot writes the block before encp and its residue. DESIGN CHOICE: every slot that
is worked is checked before anything changes (log 13), also the slots from alive[it - 1] on that continue
where alive[it] > alive[it - 1], which no sorted batch has (log 32). -/
def roundAccessOk (s : State) (it : Nat) : Bool :=
  let before := s.sc.aliveBefore it
  let after := s.sc.aliveAfter it
  (List.range (max before after)).all fun g =>
    let a := s.sc.encpAt g
    decide (8 ≤ a) && accessOk s.cfg (a - 8) (8 + if g < after then 8 else (s.sc.slot g).res)

/-- The effect of SC_ROUND23 (R308). -/
def State.schedDrain (s : State) : State :=
  let before := s.sc.alive[22]
  let after := s.sc.alive[23]
  let s := s.blockPass before
  State.forSlots State.drainSlot after (before - after) s

/-- The accesses of SC_ROUND23. -/
def drainAccessOk (s : State) : Bool :=
  (List.range' s.sc.alive[23] (s.sc.alive[22] - s.sc.alive[23])).all fun g =>
    decide (8 ≤ s.sc.encpAt g) && accessOk s.cfg (s.sc.encpAt g - 8) 8

/-! ## Compaction (R283, R311) -/

/-- The remaining list (R283): what is left of every range that is not fully consumed. -/
def remainingRanges : List Range → List Nat → List Range
  | r :: ranges, a :: starts =>
    if a < r.stop.toNat then
      { start := BitVec.ofNat 64 a, stop := r.stop } :: remainingRanges ranges starts
    else remainingRanges ranges starts
  | _, _ => []

/-! ## Meanings -/

/-- SC_SCAN (R280). -/
def execScScan (s : State) : Result :=
  match scanAll s.cfg s.mem s.pending.ranges s.sc with
  | none => .fault .invalidAccess
  | some sc => .next { s with sc := sc }

/-- SC_SORT (R290). -/
def execScSort (s : State) : Result :=
  .next { s with sc := { s.sc with desc := sortSlots s.sc.grouped s.sc.desc } }

/-- SC_ALIVE (R293). -/
def execScAlive (s : State) : Result :=
  .next { s with sc := { s.sc with alive := aliveCounts s.sc.desc s.sc.grouped } }

/-- SC_ROUND0 (R300). -/
def execScRound0 (s : State) : Result :=
  if round0AccessOk s then .next s.round0Seed.round0Load else .fault .invalidAccess

/-- SC_ROUND (R302). Its S_GEN needs SOFF = 32 (log 12). -/
def execScRound (it : SchedRound) (s : State) : Result :=
  if s.st.soff.val < 32 then .fault .ringUnderflow
  else if roundAccessOk s it.val then .next (s.schedRound it.val)
  else .fault .invalidAccess

/-- SC_ROUND23 (R308). -/
def execScRound23 (s : State) : Result :=
  if drainAccessOk s then .next s.schedDrain else .fault .invalidAccess

/-- SC_COMPACT (R311). -/
def execScCompact (s : State) : Result :=
  .next { s with sc := { s.sc with
    advanced := s.sc.adv, remaining := remainingRanges s.pending.ranges s.sc.starts } }

end Sys2Proof.Machine
end

