-- ==== Sys2Proof/Machine/SinglePacket.lean ====
section
/-!
DEFINITION. The single-packet cipher paths (spec/46_single_packet_ciphers.md).
-/

namespace Sys2Proof.Machine

/-- The block size B of a kind (R370); the kinds that are not of this file have none. -/
def blockSize : Kind → Nat
  | .desNcb => 8
  | .aesEcb => 16
  | .aes128Ecb => 16
  | _ => 0

/-- Blocks k, k + 1, ... of a payload at `a`, `nb` of them of `b` bytes: each is read, deciphered and
written back (R376 to R378). -/
def decipherBlocks (b : Nat) (dec : Bytes b → Bytes b) (a : Nat) : Nat → Memory → Memory
  | 0, m => m
  | nb + 1, m => decipherBlocks b dec (a + b) nb (m.write a (dec (m.read a b)).toList)

/-- A packet operation with blocks of `b` bytes on the operands a, off, nb. -/
def State.packetOp (s : State) (b : Nat) (dec : Bytes b → Bytes b) : Result :=
  let a := s.ecb.op.pkt + s.ecb.op.off
  if accessOk s.cfg a (b * s.ecb.op.nb) then
    .next { s with mem := decipherBlocks b dec a s.ecb.op.nb s.mem }
  else .fault .invalidAccess

/-! ## Meanings -/

/-- P_DES_NCB (R376). -/
def execPDesNcb (s : State) : Result :=
  s.packetOp 8 (Config.desDec (toBytes 8 s.ecb.op.key))

/-- P_AES_ECB (R377). -/
def execPAesEcb (s : State) : Result :=
  s.packetOp 16 (Config.aesEcbDec s.cfg.aesEcbKey (toBytes s.cfg.aesEcbKey.toNat s.ecb.op.key))

/-- P_AES128_ECB (R378). -/
def execPAes128Ecb (s : State) : Result :=
  s.packetOp 16 (Config.aes128Dec (toBytes 16 s.ecb.op.key))

/-! ## The ECB completion's scan (R372 to R374) -/

/-- One packet of the scan: the count of malformed packets and the work list after it (R374). -/
def ecbPacket (b : Nat) (a : Nat) (f : Frame) (diag : Nat) (work : List Work) : Nat × List Work :=
  match f with
  | .malformed => (diag + 1, work)
  | .payload p off =>
    if (pktBytes - off) / b = 0 then (diag, work)
    else (diag, work ++ [{ pkt := a, off := off, nb := (pktBytes - off) / b, par := p }])
  | _ => (diag, work)

/-- What the ECB scan gathers. -/
structure EcbScan where
  adv : BitVec 32
  diag : Nat
  work : List Work
  deriving DecidableEq, Repr

/-- The packets of one range from address `a`, `k` of them. -/
def ecbPackets (c : Build) (m : Memory) (b : Nat) : Nat → Nat → EcbScan → Option EcbScan
  | 0, _, e => some e
  | k + 1, a, e =>
    match frame c m a with
    | none => none
    | some f =>
      let r := ecbPacket b a f e.diag e.work
      ecbPackets c m b k (a + pktBytes) { adv := e.adv + 1, diag := r.1, work := r.2 }

/-- All the ranges, in order (R374). -/
def ecbRanges (c : Build) (m : Memory) (b : Nat) : List Range → EcbScan → Option EcbScan
  | [], e => some e
  | r :: rest, e =>
    match ecbPackets c m b ((r.stop.toNat - r.start.toNat) / pktBytes) r.start.toNat e with
    | none => none
    | some e => ecbRanges c m b rest e

/-- The scan of an ECB completion. -/
def ecbScan (c : Build) (m : Memory) (b : Nat) (ranges : List Range) : Option EcbScan :=
  ecbRanges c m b ranges { adv := 0, diag := 0, work := [] }

end Sys2Proof.Machine
end

