-- ==== Sys2Proof/Machine/Dispatch.lean ====
section
/-!
DEFINITION. One arm for each instruction.
-/

namespace Sys2Proof.Machine

def exec (i : Instr) (s : State) : Host.Outcome State Fault Refusal :=
  match i with
  | .setKind rsvd k => Sys2Proof.Machine.execSetKind rsvd k s
  | .setCw rsvd pmask keys => Sys2Proof.Machine.execSetCw rsvd pmask keys s
  | .decrypt rsvd ranges => Sys2Proof.Machine.execDecrypt rsvd ranges s
  | .csrRead rsvd index => Sys2Proof.Machine.execCsrRead rsvd index s
  | .gZero => Sys2Proof.Machine.execGZero s
  | .gOnes => Sys2Proof.Machine.execGOnes s
  | .gAnd => Sys2Proof.Machine.execGAnd s
  | .gOr => Sys2Proof.Machine.execGOr s
  | .gXor => Sys2Proof.Machine.execGXor s
  | .gNot => Sys2Proof.Machine.execGNot s
  | .gBcast1 v => Sys2Proof.Machine.execGBcast1 v s
  | .bBcast8 c => Sys2Proof.Machine.execBBcast8 c s
  | .bShl8 k => Sys2Proof.Machine.execBShl8 k s
  | .bShr8 k => Sys2Proof.Machine.execBShr8 k s
  | .bSbox => Sys2Proof.Machine.execBSbox s
  | .tInBits => Sys2Proof.Machine.execTInBits s
  | .tOutBits => Sys2Proof.Machine.execTOutBits s
  | .tInBytes => Sys2Proof.Machine.execTInBytes s
  | .tOutBytes => Sys2Proof.Machine.execTOutBytes s
  | .kStream => Sys2Proof.Machine.execKStream s
  | .kBlock => Sys2Proof.Machine.execKBlock s
  | .kBcast p => Sys2Proof.Machine.execKBcast p s
  | .sLoad => Sys2Proof.Machine.execSLoad s
  | .sStep mode jOdd => Sys2Proof.Machine.execSStep mode jOdd s
  | .sInit => Sys2Proof.Machine.execSInit s
  | .sGen => Sys2Proof.Machine.execSGen s
  | .sAdvance => Sys2Proof.Machine.execSAdvance s
  | .bcLoad => Sys2Proof.Machine.execBcLoad s
  | .bcRound t => Sys2Proof.Machine.execBcRound t s
  | .bcDecipher => Sys2Proof.Machine.execBcDecipher s
  | .bcStore => Sys2Proof.Machine.execBcStore s
  | .scScan => Sys2Proof.Machine.execScScan s
  | .scSort => Sys2Proof.Machine.execScSort s
  | .scAlive => Sys2Proof.Machine.execScAlive s
  | .scRound0 => Sys2Proof.Machine.execScRound0 s
  | .scRound it => Sys2Proof.Machine.execScRound it s
  | .scRound23 => Sys2Proof.Machine.execScRound23 s
  | .scCompact => Sys2Proof.Machine.execScCompact s
  | .pDesNcb => Sys2Proof.Machine.execPDesNcb s
  | .pAesEcb => Sys2Proof.Machine.execPAesEcb s
  | .pAes128Ecb => Sys2Proof.Machine.execPAes128Ecb s

end Sys2Proof.Machine
end

