-- ==== Sys2Proof/Machine/HostPort.lean ====
section
/-!
DEFINITION. The command port and the host's actions at the block's pins (spec/00_scope.md R26,
spec/45_commands.md R330, spec/70_reset_and_hazards.md R430, R431, R440, R454).
-/

namespace Sys2Proof.Machine

/-- The first `len` words at the command port are consumed (R118): one host step has passed. -/
def State.consume (s : State) (len : Nat) : State :=
  { s with port := s.port.drop len, fireIn := s.fireIn - 1 }

/-- What stands at the head of the command port. -/
def State.portHead (s : State) : Decoded := decodeCommand s.keyWords s.port

/-- The host has nothing to do but to wait for the engine: no whole command at the port, and the host
is done or waits for a response. -/
def State.hostWaits (s : State) : Bool :=
  (match s.portHead with
    | .incomplete => true
    | _ => false) &&
  (match s.host with
    | [] => true
    | .take :: _ => s.resp.isEmpty
    | _ => false)

/-- The completion fires now (R352, R359): BUSY = 1 and either the host waits, or as many host steps
have passed as the free value says (log 8). -/
def State.completionDue (s : State) : Bool := s.busy && (s.hostWaits || s.fireIn == 0)

/-- `a` is a byte of one of the ranges. -/
def inRanges (ranges : List Range) (a : Nat) : Bool :=
  ranges.any fun r => decide (r.start.toNat ≤ a) && decide (a < r.stop.toNat)

/-- Reset of a block that may be running (R430, R431; log 18): every piece of the block's state has its
reset value; the build, packet memory and the host are not the block's state. The bytes of the
latched ranges of an abandoned DECRYPT hold unspecified values. -/
def State.hardReset (s : State) : State :=
  { State.reset with
    cfg := s.cfg, opnd := s.opnd, host := s.host, delivered := s.delivered,
    mem := if s.busy then scrambleRanges s.draws s.pending.ranges s.mem else s.mem,
    draws := s.draws + 1 }

/-- The host's next action; with none, the block is idle (R432). -/
def State.hostStep (s : State) : CmdResult :=
  match s.host with
  | [] => .next s
  | .issue ws :: rest =>
    .next { s with host := rest, port := s.port ++ ws, fireIn := s.fireIn - 1 }
  | .take :: rest =>
    match s.resp with
    | [] => .next s
    | r :: queue =>
      .next { s with
        host := rest, resp := queue, delivered := s.delivered ++ [r], fireIn := s.fireIn - 1 }
  | .poke a v :: rest =>
    if s.busy && inRanges s.pending.ranges a.toNat then .refused (.hostHazard a)
    else .next { s with host := rest, mem := s.mem.set a.toNat v, fireIn := s.fireIn - 1 }
  | .reset :: rest => .next { s with host := rest }.hardReset

/-! ## The host's table words -/

/-- `s` with one command at the port, given as table words of a number (Decode.lean), and nothing that
comes before it: no engine operation, no completion due. -/
def State.withCommand (s : State) (w : Nat) : State :=
  { s with
    uops := [], phase := .idle, port := tableWords s.keyWords w, fireIn := max s.fireIn 1 }

/-- `s` with one engine operation word at the sequencer. -/
def State.withEngineOp (s : State) (w : Nat) : State := { s with uops := [BitVec.ofNat 16 w] }

end Sys2Proof.Machine
end

