-- ==== Sys2Proof/Machine/Sequencer.lean ====
section
/-!
DEFINITION. The engine's sequencer: the completion of a DECRYPT (spec/45_commands.md R352, ECB:
spec/46_single_packet_ciphers.md R374) as engine operation words that it issues one after another.
No host step comes between them (log 9). Which phase of R64 each step is in, and when `iter` counts,
is a DESIGN CHOICE (log 30).
-/

namespace Sys2Proof.Machine

/-- The words of engine operations. -/
def engineWords : List Instr → List UWord
  | [] => []
  | i :: rest =>
    match encode i with
    | .engine w => w :: engineWords rest
    | .command _ => engineWords rest

/-- The completion begins: SC_SCAN for kind CSA; the ECB scan is the sequencer's own (R352). -/
def State.beginCompletion (s : State) : State :=
  { s with
    phase := .scan, iter := 0,
    uops := if s.pending.kind = .csa then engineWords [.scScan] else [] }

/-- The words after word 0 of a DECRYPT's OK response (30_encoding.md R123). -/
def decryptPayload (advanced : BitVec 32) (remaining : List Range) : List Word :=
  advanced :: BitVec.ofNat 32 remaining.length :: remaining.flatMap encodeRange

/-- The end of a completion without fault (R352): the counters, BUSY <- 0, and the response. -/
def State.finishCompletion (s : State) : State :=
  { s with
    diagMalformed := s.diagMalformed + BitVec.ofNat 32 s.sc.diagInc,
    lastAdvanced := s.sc.advanced,
    busy := false, phase := .idle, iter := 0 }.respond opcDecrypt .ok
      (decryptPayload s.sc.advanced s.sc.remaining)

/-! ## Kind CSA -/

/-- Byte 3 of the admitted packets of slots g, g + 1, ..., `k` of them, is marked clear (R313). -/
def clearSlots (sc : SchedRegs) (g : Nat) : Nat → Memory → Memory
  | 0, m => m
  | k + 1, m => clearSlots sc (g + 1) k (clearTsc m (sc.slot g).pkt)

/-- "apply TSC_CLEAR", then SC_COMPACT (R352). DESIGN CHOICE (log 30): TSC_CLEAR is applied on entry to the
WRITEBACK phase, and SC_COMPACT is in it. -/
def State.enterWriteback (s : State) : Result :=
  if s.cfg.tscClear then
    if (List.range s.sc.grouped).all fun g => accessOk s.cfg ((s.sc.slot g).pkt + 3) 1 then
      .next { s with
        mem := clearSlots s.sc 0 s.sc.grouped s.mem,
        phase := .writeback, uops := engineWords [.scCompact] }
    else .fault .invalidAccess
  else .next { s with phase := .writeback, uops := engineWords [.scCompact] }

/-- After SC_SCAN: the key check (R298), then SC_SORT and SC_ALIVE. DESIGN CHOICE (log 30): the key check
ends the SCAN phase, and both operations are in the SORT phase. -/
def State.afterScan (s : State) : State :=
  if s.sc.grouped > 0 ∧ s.pending.valid.get s.sc.gpar = false then s.completionFault .keyNotSet
  else { s with phase := .sort, uops := engineWords [.scSort, .scAlive] }

/-- After SC_ALIVE: the round loop when grouped > 0 (R310), the ROUNDS phase from SC_ROUND0 on (log 30). -/
def State.afterSort (s : State) : Result :=
  if s.sc.grouped > 0 then
    .next { s with phase := .rounds, iter := 0, uops := engineWords [.scRound0] }
  else s.enterWriteback

/-- After round `iter`: SC_ROUND(iter + 1), SC_ROUND23, or the write-back (R310). -/
def State.afterRound (s : State) : Result :=
  if h : s.iter.val < 22 then
    .next { s with
      iter := ⟨s.iter.val + 1, by omega⟩,
      uops := engineWords [.scRound ⟨s.iter.val + 1, by omega⟩] }
  else if s.iter.val = 22 then
    .next { s with iter := 23, uops := engineWords [.scRound23] }
  else s.enterWriteback

/-! ## The ECB kinds (R374) -/

/-- The packet operation of a kind (R370). -/
def packetInstr : Kind → List Instr
  | .desNcb => [.pDesNcb]
  | .aesEcb => [.pAesEcb]
  | .aes128Ecb => [.pAes128Ecb]
  | _ => []

/-- The ECB scan and key check (R374): the fault comes before any write. -/
def State.ecbBegin (s : State) : Result :=
  match ecbScan s.cfg s.mem (blockSize s.pending.kind) s.pending.ranges with
  | none => .fault .invalidAccess
  | some e =>
    let s := { s with
      sc := { s.sc with adv := e.adv, diagInc := e.diag },
      ecb := { s.ecb with work := e.work, active := false } }
    if e.work.any fun w => !s.pending.valid.get w.par then .next (s.completionFault .keyNotSet)
    else .next { s with phase := .rounds }

/-- The next item of the work list, or the write-back when there is none (R374). -/
def State.ecbNext (s : State) : State :=
  match s.ecb.work with
  | [] =>
    { s with
      phase := .writeback,
      sc := { s.sc with advanced := s.sc.adv, remaining := [] },
      ecb := { s.ecb with active := false } }
  | w :: rest =>
    { s with
      ecb :=
        { work := rest,
          op := { pkt := w.pkt, off := w.off, nb := w.nb, key := s.pending.cw.get w.par },
          active := true },
      uops := engineWords (packetInstr s.pending.kind) }

/-- After a packet operation: TSC_CLEAR on its packet, then the next item (R374). -/
def State.ecbStep (s : State) : Result :=
  if s.ecb.active && s.cfg.tscClear then
    if accessOk s.cfg (s.ecb.op.pkt + 3) 1 then
      .next { s with mem := clearTsc s.mem s.ecb.op.pkt }.ecbNext
    else .fault .invalidAccess
  else .next s.ecbNext

/-! ## One move of the sequencer -/

/-- What the sequencer does when the operations it issued are done (R352, R374). -/
def State.sequence (s : State) : Result :=
  match s.phase with
  | .idle => .next s
  | .scan => if s.pending.kind = .csa then .next s.afterScan else s.ecbBegin
  | .sort => s.afterSort
  | .rounds => if s.pending.kind = .csa then s.afterRound else s.ecbStep
  | .writeback => .next s.finishCompletion

end Sys2Proof.Machine
end

