-- ==== Sys2Proof/Machine/Step.lean ====
section
/-!
DEFINITION. One step of the machine. An engine operation waiting at the sequencer comes first, then
the sequencer's next move, so that a completion runs to its end with no host step between (spec/45_commands.md
R352); then a completion that is due; then a command at the port (R330); then the host.
-/

namespace Sys2Proof.Machine

/-- One step (log 8, log 9, log 16). -/
def step (s : State) : Host.Outcome State Fault Refusal :=
  match s.uops with
  | w :: rest =>
    match decodeEngine w with
    | some i => exec i { s with uops := rest }
    | none => .refused (.reservedEngineOp w)
  | [] =>
    if s.phase ≠ .idle then s.sequence
    else if s.completionDue then .next s.beginCompletion
    else
      match s.portHead with
      | .instr i len => exec i (s.consume len)
      | .reservedOpcode opc => .next (reservedCommand opc (s.consume 1))
      | .incomplete => s.hostStep

/-- `s` with the instruction whose bits are `w` (`nbits` of them) stored where `step` fetches its next
one: an engine operation of 16 bits at the sequencer, a command with operand words of its own length
at the command port (log 19). -/
def State.withFetchWord (s : State) (nbits w : Nat) : State :=
  if nbits ≤ 16 then s.withEngineOp (w % 2 ^ nbits) else s.withCommand (w % 2 ^ nbits)

end Sys2Proof.Machine
end

