-- ==== Sys2Proof/Machine/Scalar.lean ====
section
/-!
DEFINITION. The scalar rules: what one lane of the stream cipher and of the block cipher computes
(spec/42_stream_cipher.md R200 to R214, R226; spec/43_block_cipher.md R240, R243, R248, R249), and the
meaning of a decrypted payload (spec/44_batch_scheduler.md R285), for any constant tables `t`. No step
uses them: statements compare the engine's group form with them (R224, R252, R312).
-/

namespace Sys2Proof.Machine

/-! ## The stream cipher of one lane -/

/-- The generator state of one lane (R200): `a` and `b` hold A[1..10] and B[1..10]. -/
structure LaneStream where
  a : Vector Nib 10
  b : Vector Nib 10
  x : Nib
  y : Nib
  z : Nib
  d : Nib
  e : Nib
  f : Nib
  p : Bool
  q : Bool
  r : Bool
  deriving DecidableEq, Repr

/-- A nibble from its bits, bit 3 first. -/
def nibOf (b3 b2 b1 b0 : Bool) : Nib :=
  BitVec.ofBool b3 ++ BitVec.ofBool b2 ++ BitVec.ofBool b1 ++ BitVec.ofBool b0

/-- A[m].b, m = 1..10. -/
def LaneStream.bitA (s : LaneStream) (mb : Nat × Nat) : Bool := (s.a.getD (mb.1 - 1) 0).getLsbD mb.2

/-- B[m].b, m = 1..10. -/
def LaneStream.bitB (s : LaneStream) (mb : Nat × Nat) : Bool := (s.b.getD (mb.1 - 1) 0).getLsbD mb.2

/-- The index of an S-box from its input bits, i4 first (R204, R205). -/
def LaneStream.sboxIndex (s : LaneStream) (ins : List (Nat × Nat)) : Nat :=
  ins.foldl (fun acc mb => 2 * acc + (s.bitA mb).toNat) 0

/-- s_k, k = 1..7 (R205). -/
def LaneStream.sboxOut (t : Tables) (s : LaneStream) (k : Nat) : BitVec 2 :=
  (t.streamSbox.getD (k - 1) []).getD (s.sboxIndex (t.sboxIn.getD (k - 1) [])) 0

/-- XOR of the listed bits of B. -/
def LaneStream.xorBits (s : LaneStream) (bits : List (Nat × Nat)) : Bool :=
  bits.foldl (fun acc mb => acc ^^ s.bitB mb) false

/-- extra (R206). -/
def LaneStream.extra (t : Tables) (s : LaneStream) : Nib :=
  nibOf (s.xorBits (t.extraB.getD 0 [])) (s.xorBits (t.extraB.getD 1 []))
    (s.xorBits (t.extraB.getD 2 [])) (s.xorBits (t.extraB.getD 3 []))

/-- nA1 (R207). -/
def LaneStream.nextA (s : LaneStream) (mode : StepMode) (aIn : Nib) : Nib :=
  match mode with
  | .generating => s.a[9] ^^^ s.x
  | .initializing => s.a[9] ^^^ s.x ^^^ s.d ^^^ aIn

/-- t of R208. -/
def LaneStream.turnB (s : LaneStream) (mode : StepMode) (bIn : Nib) : Nib :=
  match mode with
  | .generating => s.b[6] ^^^ s.b[9] ^^^ s.y
  | .initializing => s.b[6] ^^^ s.b[9] ^^^ s.y ^^^ bIn

/-- nB1 (R208). -/
def LaneStream.nextB (s : LaneStream) (mode : StepMode) (bIn : Nib) : Nib :=
  let t := s.turnB mode bIn
  if s.p then (t <<< 1) ||| (t >>> 3) else t

/-- The register shifted by one place, its new first nibble `v` (R201, R213). -/
def shiftIn (v : Nib) (reg : Vector Nib 10) : Vector Nib 10 :=
  Vector.ofFn fun i => if i.val = 0 then v else reg.getD (i.val - 1) 0

/-- Z + E + r as a natural number (R209). -/
def LaneStream.sum (s : LaneStream) : Nat := s.z.toNat + s.e.toNat + s.r.toNat

/-- One internal step of one lane (R205 to R211, R213). -/
def LaneStream.step (t : Tables) (mode : StepMode) (aIn bIn : Nib) (s : LaneStream) : LaneStream :=
  let o (k b : Nat) : Bool := (s.sboxOut t k).getLsbD b
  { a := shiftIn (s.nextA mode aIn) s.a,
    b := shiftIn (s.nextB mode bIn) s.b,
    x := nibOf (o 4 0) (o 3 0) (o 2 1) (o 1 1),
    y := nibOf (o 6 0) (o 5 0) (o 4 1) (o 3 1),
    z := nibOf (o 2 0) (o 1 0) (o 6 1) (o 5 1),
    d := s.e ^^^ s.z ^^^ s.extra t,
    e := s.f,
    f := if s.q then BitVec.ofNat 4 (s.sum % 16) else s.e,
    p := o 7 1,
    q := o 7 0,
    r := if s.q then decide (s.sum / 16 = 1) else s.r }

/-- The output of the step that led to `s`, from the new D (R212). -/
def LaneStream.out (s : LaneStream) : BitVec 2 :=
  BitVec.ofBool (s.d.getLsbD 3 ^^ s.d.getLsbD 2) ++ BitVec.ofBool (s.d.getLsbD 1 ^^ s.d.getLsbD 0)

/-- The state after S_LOAD with the key nibbles `iA`, `iB` (R202). -/
def LaneStream.load (iA iB : Vector Nib 8) : LaneStream :=
  { a := Vector.ofFn fun i => iA.getD i.val 0, b := Vector.ofFn fun i => iB.getD i.val 0,
    x := 0, y := 0, z := 0, d := 0, e := 0, f := 0, p := false, q := false, r := false }

/-- in1: the high nibble of a seed byte (R214). -/
def seedHigh (seed : Block) (i : Nat) : Nib := (seed.getD i 0).extractLsb' 4 4

/-- in2: the low nibble of a seed byte (R214). -/
def seedLow (seed : Block) (i : Nat) : Nib := (seed.getD i 0).extractLsb' 0 4

/-- Initialize step j of external iteration i (R214). -/
def LaneStream.seedStep (t : Tables) (seed : Block) (i : Nat) (jOdd : Bool) (s : LaneStream) : LaneStream :=
  if jOdd then s.step t .initializing (seedLow seed i) (seedHigh seed i)
  else s.step t .initializing (seedHigh seed i) (seedLow seed i)

/-- The state after S_INIT with seed block `seed` (R220): steps 4i + j = 0 .. 31. -/
def LaneStream.init (t : Tables) (seed : Block) (s : LaneStream) : LaneStream :=
  (List.range 32).foldl (fun s k => s.seedStep t seed (k / 4) (decide (k % 2 = 1))) s

/-- A generate step of one lane. -/
def LaneStream.genStep (t : Tables) (s : LaneStream) : LaneStream := s.step t .generating 0 0

/-- The state after `k` generate steps. -/
def LaneStream.genSteps (t : Tables) (s : LaneStream) : Nat → LaneStream
  | 0 => s
  | k + 1 => (s.genSteps t k).genStep t

/-- The state after S_GEN (R221). -/
def LaneStream.gen (t : Tables) (s : LaneStream) : LaneStream := s.genSteps t 32

/-- The keystream block of an S_GEN from `s` (R221): the output of step j of external iteration i is
bits [7 - 2j : 6 - 2j] of byte i. -/
def LaneStream.block (t : Tables) (s : LaneStream) : Block :=
  Vector.ofFn fun i =>
    (s.genSteps t (4 * i.val + 1)).out ++ (s.genSteps t (4 * i.val + 2)).out
      ++ (s.genSteps t (4 * i.val + 3)).out ++ (s.genSteps t (4 * i.val + 4)).out

/-- The state after `k` S_GENs. -/
def LaneStream.gens (t : Tables) (s : LaneStream) : Nat → LaneStream
  | 0 => s
  | k + 1 => (s.gens t k).gen t

/-- `KS(cw, seed, k)`, k ≥ 1 (R226). -/
def keystream (t : Tables) (cw : Bytes 8) (seed : Block) (k : Nat) : Block :=
  (((LaneStream.load (streamKeyA cw) (streamKeyB cw)).init t seed).gens t (k - 1)).block t

/-- Lane `i` of the generator (R201, R224). -/
def StreamRegs.laneState (st : StreamRegs) (i : Nat) : LaneStream :=
  { a := Vector.ofFn fun m => (st.regA (m.val + 1)).lane i,
    b := Vector.ofFn fun m => (st.regB (m.val + 1)).lane i,
    x := st.x.lane i, y := st.y.lane i, z := st.z.lane i,
    d := st.d.lane i, e := st.e.lane i, f := st.f.lane i,
    p := st.p.getLsbD i, q := st.q.getLsbD i, r := st.r.getLsbD i }

/-! ## The block cipher of one lane -/

/-- PERM as the bit table of R248: input bit i moves to output bit PERM_BIT[i]. -/
def permByte (t : Tables) (x : Byte) : Byte :=
  (List.range 8).foldl
    (fun acc i => acc ||| (if x.getLsbD i then 1#8 <<< t.permBit.getD i 0 else 0)) 0

/-- One round with key byte `k` on R[1..8] (R243). -/
def roundBlock (t : Tables) (k : Byte) (r : Block) : Block :=
  let so := sboxByte t (k ^^^ r[6])
  let po := permByte t so
  #v[r[7] ^^^ so, r[0], r[1] ^^^ r[7] ^^^ so, r[2] ^^^ r[7] ^^^ so, r[3] ^^^ r[7] ^^^ so, r[4],
    r[5] ^^^ po, r[6]]

/-- `D(kk, ib)` (R249): 56 rounds with kk[55], ..., kk[0]. -/
def decipherBlock (t : Tables) (kk : Vector Byte 56) (ib : Block) : Block :=
  (List.range 56).foldl (fun r i => roundBlock t (kk.getD (55 - i) 0) r) ib

/-- R[1..8] of lane `g` (R241). -/
def BlockRegs.laneRegs (bk : BlockRegs) (g : Fin maxLanes) : Block :=
  Vector.ofFn fun m => bk.br[bk.boff.val + m.val][g]

/-- The key bytes of lane `g`. -/
def BlockRegs.laneKey (bk : BlockRegs) (g : Fin maxLanes) : Vector Byte 56 :=
  Vector.ofFn fun i => bk.kk[i][g]

/-! ## The meaning for one packet -/

/-- C_k: block k of a payload (R84, R285). -/
def payloadBlock (p : List Byte) (k : Nat) : Block := toBytes 8 (p.drop (8 * k))

/-- IB_k of R285. -/
def csaInput (t : Tables) (cw : Bytes 8) (p : List Byte) (k : Nat) : Block :=
  if k = 0 then payloadBlock p 0
  else blockXor (payloadBlock p k) (keystream t cw (payloadBlock p 0) k)

/-- Block k of the result Q of R285, for a payload of `n` blocks. -/
def csaBlock (t : Tables) (cw : Bytes 8) (p : List Byte) (n k : Nat) : Block :=
  let d := decipherBlock t (blockKey t cw) (csaInput t cw p k)
  if k + 1 < n then blockXor (csaInput t cw p (k + 1)) d else d

/-- `CSA_DEC(cw, P)` (R285). -/
def csaDec (t : Tables) (cw : Bytes 8) (p : List Byte) : List Byte :=
  let n := p.length / 8
  if n = 0 then p
  else
    (List.range n).flatMap (fun k => (csaBlock t cw p n k).toList)
      ++ (List.range (p.length % 8)).map fun m =>
        p.getD (8 * n + m) 0 ^^^ (keystream t cw (payloadBlock p 0) n).getD m 0

end Sys2Proof.Machine
end

