-- ==== Sys2Proof/Safety.lean ====
section
/-!
DEFINITION. The terms statements about the machine use: runs, what a step leaves unchanged, the
invariants, and the packets of a range list. No step uses them.
-/

namespace Sys2Proof.Machine

/-! ## Runs -/

/-- The instructions of a list, one after another. -/
def runInstrs : List Instr → State → Result
  | [], s => .next s
  | i :: rest, s =>
    match exec i s with
    | .next t => runInstrs rest t
    | other => other

/-- `k` steps of the machine. -/
def stepN : Nat → State → Result
  | 0, s => .next s
  | k + 1, s =>
    match step s with
    | .next t => stepN k t
    | other => other

/-! ## What is unchanged -/

/-- Every byte of packet memory reads as before. -/
def SameMemory (s t : State) : Prop := ∀ a, t.mem.get a = s.mem.get a

/-- Every byte of packet memory whose address is not in `p` reads as before. -/
def SameMemoryOutside (p : Nat → Prop) (s t : State) : Prop :=
  ∀ a, ¬ p a → t.mem.get a = s.mem.get a

/-- Of the state, at most the group register `d` changes. -/
def OnlyGroupChanges (d : GroupReg) (s t : State) : Prop :=
  t = { s with st := t.st, pr := t.pr }
    ∧ (∀ r, r ≠ d → t.readGroup r = s.readGroup r)
    ∧ t.st.soff = s.st.soff ∧ t.st.out1 = s.st.out1 ∧ t.st.out0 = s.st.out0
    ∧ t.pr.slices = s.pr.slices ∧ t.pr.count = s.pr.count
    ∧ SameMemory s t

/-- Of the state, at most the byte-slice register `d` changes. -/
def OnlySliceChanges (d : SliceReg) (s t : State) : Prop :=
  t = { s with bk := t.bk, pr := t.pr }
    ∧ (∀ r, r ≠ d → t.readSlice r = s.readSlice r)
    ∧ t.bk.boff = s.bk.boff ∧ t.pr.planes = s.pr.planes ∧ t.pr.count = s.pr.count
    ∧ SameMemory s t

/-- Of the state, at most the working blocks of bank `b` change, and of them at most lanes below `c`. -/
def OnlyBlocksChange (b : BlockBank) (c : Nat) (s t : State) : Prop :=
  t = { s with wb := t.wb }
    ∧ (∀ b', b' ≠ b → t.readBlocks b' = s.readBlocks b')
    ∧ (∀ i, c ≤ i → laneBlock (t.readBlocks b) i = laneBlock (s.readBlocks b) i)
    ∧ SameMemory s t

/-- Everything that a fault entry leaves alone, whether or not a DECRYPT is dropped: the build, KIND,
CW, KEY_VALID, the counters, the datapath and the pins. -/
def ContextKept (s t : State) : Prop :=
  t.cfg = s.cfg ∧ t.kind = s.kind ∧ t.cw = s.cw ∧ t.keyValid = s.keyValid
    ∧ t.diagMalformed = s.diagMalformed ∧ t.lastAdvanced = s.lastAdvanced
    ∧ t.iter = s.iter ∧ t.st = s.st ∧ t.bk = s.bk ∧ t.ks = s.ks ∧ t.pr = s.pr ∧ t.wb = s.wb
    ∧ t.sc = s.sc ∧ t.ecb = s.ecb ∧ t.opnd = s.opnd ∧ t.port = s.port ∧ t.host = s.host
    ∧ t.delivered = s.delivered

/-- `t` is `s` after fault entry by a host command with opcode `opc` (R396): the first fault is
recorded, FAULTED = 1, a DECRYPT in flight is dropped, one response is appended, and nothing else
changes. -/
def FaultTaken (code opc : Byte) (s t : State) : Prop :=
  t.faulted = true
    ∧ t.faultCode = (if s.faulted then s.faultCode else code)
    ∧ t.faultOpcode = (if s.faulted then s.faultOpcode else opc)
    ∧ t.busy = false
    ∧ t.resp = s.resp ++ [⟨opc, code, []⟩]
    ∧ ContextKept s t ∧ t.phase = s.phase ∧ t.uops = s.uops
    ∧ (s.busy = false → t.pending = s.pending ∧ t.fireIn = s.fireIn ∧ t.draws = s.draws)
    ∧ (s.busy = true → t.pending = .empty)
    ∧ SameMemoryOutside (fun a => s.busy = true ∧ inRanges s.pending.ranges a = true) s t

/-! ## Invariants -/

/-- The status codes the block ever answers with (R395). -/
def legalStatus (b : Byte) : Bool := decide (b.toNat ≤ 7) || b == 0xFF

/-- The codes of faults (R395). -/
def faultCodes : List Byte := [1, 2, 3, 4, 5, 6, 7]

/-- What holds of the context in every state that a step leads to from such a state. -/
structure Inv (s : State) : Prop where
  /-- packet memory is in canonical form. -/
  memWf : s.mem.wf = true
  /-- a valid key has the length of the kind (R33, R34). -/
  keyLength : ∀ p, s.keyValid.get p = true →
    s.kind ≠ .none ∧ (s.cw.get p).length = keylen s.cfg s.kind
  /-- no DECRYPT is in flight while FAULTED = 1 (R397). -/
  faultedIdle : s.faulted = true → s.busy = false
  /-- a recorded fault has a fault code (R39, R395). -/
  faultedCode : s.faulted = true → s.faultCode ∈ faultCodes
  /-- without a fault nothing is recorded (R39). -/
  cleanCode : s.faulted = false → s.faultCode = 0 ∧ s.faultOpcode = 0
  /-- the latched inputs of a DECRYPT in flight passed its checks and are of the present kind
  (R350, R351, R335). -/
  busyPending : s.busy = true →
    s.pending.kind = s.kind ∧ s.kind ≠ .none ∧ rangesOk s.cfg s.pending.ranges = true
      ∧ ∀ p, s.pending.valid.get p = true → (s.pending.cw.get p).length = keylen s.cfg s.kind
  /-- only the status codes of R395 are answered. -/
  legalCodes : ∀ r ∈ s.resp ++ s.delivered, legalStatus r.status = true
  /-- the sequencer works only on a DECRYPT in flight (R36, R64). -/
  phaseBusy : s.phase ≠ .idle → s.busy = true

/-- The lanes the build does not have hold zero, in every group and byte-slice register (log 11). -/
structure LanesWf (s : State) : Prop where
  groups : ∀ r i, s.cfg.n ≤ i → (s.readGroup r).getLsbD i = false
  slices : ∀ r (i : Fin maxLanes), s.cfg.n ≤ i.val → (s.readSlice r)[i] = 0
  out1 : ∀ i, s.cfg.n ≤ i → s.st.out1.getLsbD i = false
  out0 : ∀ i, s.cfg.n ≤ i → s.st.out0.getLsbD i = false

/-! ## Packets of a range list (R278) -/

/-- The addresses of the packets of a range, in address order. -/
def packetsOf (r : Range) : List Nat :=
  (List.range ((r.stop.toNat - r.start.toNat) / 188)).map fun k => r.start.toNat + 188 * k

/-- The addresses of the packets of a range list, in scan order. -/
def scanOrder (ranges : List Range) : List Nat := ranges.flatMap packetsOf

/-- The TSC field of the packet at `a` (R270). -/
def tscAt (m : Memory) (a : Nat) : Nat := (m.get (a + 3)).toNat / 64

/-- The parity of an encrypted packet (R270): h3.6. -/
def parityAt (m : Memory) (a : Nat) : Parity := if tscAt m a = 3 then .odd else .even

/-- off (R271). -/
def offsetAt (m : Memory) (a : Nat) : Nat :=
  if (m.get (a + 3)).toNat / 32 % 2 = 1 then 4 + 1 + (m.get (a + 4)).toNat else 4

/-- The packet at `a` is encrypted and its payload offset lies past the packet (R274). -/
def isMalformed (m : Memory) (a : Nat) : Bool := decide (2 ≤ tscAt m a ∧ 188 < offsetAt m a)

/-- The packet at `a` is encrypted and has at least one block of `b` bytes (R274, R372). -/
def hasBlock (b : Nat) (m : Memory) (a : Nat) : Bool :=
  decide (2 ≤ tscAt m a ∧ offsetAt m a ≤ 188 ∧ b ≤ 188 - offsetAt m a)

/-- The descriptor of an admitted packet (R272, R280). -/
def descAt (m : Memory) (a : Nat) : Desc :=
  { pkt := a, off := offsetAt m a, len := 188 - offsetAt m a,
    n := (188 - offsetAt m a) / 8, res := (188 - offsetAt m a) % 8 }

/-- A range list whose packets the engine may read: whole packets of valid bytes, fewer than 2^32 of
them (R351). -/
def ReadableRanges (c : Build) (ranges : List Range) : Prop :=
  (∀ r ∈ ranges, r.start.toNat ≤ r.stop.toNat ∧ (r.stop.toNat - r.start.toNat) % 188 = 0
      ∧ ∀ a, r.start.toNat ≤ a → a < r.stop.toNat → memValid c a = true)
    ∧ (scanOrder ranges).length < 2 ^ 32

/-! ## The round loop -/

/-- `n` bytes from address `a` on are valid (R80). -/
def ValidBytes (c : Build) (a n : Nat) : Prop := ∀ k, k < n → memValid c (a + k) = true

/-- `n` bytes of packet memory from `a` on. -/
def bytesAt (m : Memory) (a n : Nat) : List Byte := (List.range n).map fun k => m.get (a + k)

/-- The width of slot g's footprint in SC_ROUND, from the block before `encp` on (R302). -/
def roundWidth (s : State) (after g : Nat) : Nat := 8 + (if g < after then 8 else (s.sc.slot g).res)

/-- Address `a` lies in slot g's part of a round: `w` bytes from the block before encp on. -/
def InSlot (s : State) (w : Nat → Nat) (g a : Nat) : Prop :=
  s.sc.encpAt g - 8 ≤ a ∧ a < s.sc.encpAt g - 8 + w g

/-- The parts of the slots below `k` from `lo` on are valid bytes and do not overlap. -/
def SlotsSound (s : State) (w : Nat → Nat) (lo k : Nat) : Prop :=
  (∀ g, lo ≤ g → g < k → 8 ≤ s.sc.encpAt g ∧ ValidBytes s.cfg (s.sc.encpAt g - 8) (w g))
    ∧ ∀ g h, lo ≤ g → g < k → lo ≤ h → h < k → g ≠ h → ∀ a, InSlot s w g a → ¬ InSlot s w h a

/-- The operations of the round loop, in order (R310). -/
def roundLoop : List Instr :=
  [.scRound0]
    ++ (List.finRange 22).map (fun k => .scRound ⟨k.val + 1, by omega⟩)
    ++ [.scRound23]

/-- Address `a` lies in the payload of slot `g`. -/
def InPayload (s : State) (g a : Nat) : Prop :=
  s.sc.payloadAt g ≤ a ∧ a < s.sc.payloadAt g + (s.sc.slot g).len

/-- A batch as SC_SCAN, SC_SORT and SC_ALIVE leave it: sorted descriptors of disjoint valid payloads,
and their alive counts (R272, R291, R293, R99). -/
structure BatchReady (s : State) : Prop where
  lanes : s.sc.grouped ≤ s.cfg.n
  shape : ∀ g, g < s.sc.grouped →
    (s.sc.slot g).n = (s.sc.slot g).len / 8 ∧ (s.sc.slot g).res = (s.sc.slot g).len % 8
      ∧ 8 ≤ (s.sc.slot g).len ∧ (s.sc.slot g).len ≤ 184
  valid : ∀ g, g < s.sc.grouped → ValidBytes s.cfg (s.sc.payloadAt g) (s.sc.slot g).len
  disjoint : ∀ g h, g < s.sc.grouped → h < s.sc.grouped → g ≠ h →
    ∀ a, InPayload s g a → ¬ InPayload s h a
  sorted : ∀ g h, g < h → h < s.sc.grouped → (s.sc.slot h).n ≤ (s.sc.slot g).n
  counts : ∀ i : Fin 24, s.sc.alive[i] =
    ((Finset.range s.sc.grouped).filter fun g => i.val < (s.sc.slot g).n).card

end Sys2Proof.Machine
end

