-- ==== Sys2Proof/Certificates/Slice0/Obligations.lean ====
section
/-!
DEFINITION. The statements for the provers. Each docstring names the rules of spec/ it formalises; a
clause that rests on a choice of the model says so and names the log entry.
-/

section Statements

open Sys2Proof Sys2Proof.Machine

/-! ## Encoding -/

/-- The encoding examples of 30_encoding.md R132, and an engine operation word of each family written
out from R127. -/
def Obligations.DecodeExamples : Prop :=
  decodeCommand 2 [0x01000001] = .instr (.setKind 0 1) 1
    ∧ decodeCommand 2 [0x02000001, 0x03020100, 0x07060504]
        = .instr (.setCw 0 1 [0x03020100, 0x07060504]) 3
    ∧ keyBytes [0x03020100, 0x07060504] = [0x00, 0x01, 0x02, 0x03, 0x04, 0x05, 0x06, 0x07]
    ∧ decodeCommand 2 [0x03000001, 0x00001000, 0x00000000, 0x000010BC, 0x00000000]
        = .instr (.decrypt 0 [⟨0x1000, 0x10BC⟩]) 5
    ∧ decodeCommand 2 [0x04000002] = .instr (.csrRead 0 2) 1
    ∧ decodeCommand 2 [0x05000000] = .reservedOpcode 0x05
    ∧ decodeEngine 0x0500 = some .gXor ∧ decodeEngine 0x2201 = some (.kBcast .odd)
    ∧ decodeEngine 0x3103 = some (.sStep .initializing true)
    ∧ decodeEngine 0x4137 = some (.bcRound 55)
    ∧ decodeEngine 0x5416 = some (.scRound ⟨22, by decide⟩)
    ∧ decodeEngine 0x6100 = some .pAesEcb

/-- Decoding the words of a well-formed instruction gives it back, with every operand, for every
instruction and every key length (R110 to R117, R126, R127). -/
def Obligations.DecodeOfEncode : Prop :=
  ∀ (kw : Nat) (i : Instr), i.wf kw = true → decode kw (encode i) = some i

/-- An engine operation word that decodes is the word its instruction encodes to: no bit of it is
ignored (R126 to R128). -/
def Obligations.EncodeOfDecodeEngine : Prop :=
  ∀ (w : UWord) (i : Instr), decodeEngine w = some i → encode i = .engine w

/-- The engine operation words that are refused are those R128 reserves: the others have a UOP of
R127 and an IMM its row admits. The sequencer's step refuses such a word by name (log 27). -/
def Obligations.ReservedEngineWords : Prop :=
  (∀ w : UWord,
    let uop := w.toNat / 256
    let imm := w.toNat % 256
    (decodeEngine w).isSome = true ↔
      (imm = 0 ∧ uop ∈ [0x01, 0x02, 0x03, 0x04, 0x05, 0x06, 0x0B, 0x0C, 0x0D, 0x0E, 0x0F, 0x20, 0x21,
          0x30, 0x32, 0x33, 0x34, 0x40, 0x42, 0x43, 0x50, 0x51, 0x52, 0x53, 0x55, 0x56,
          0x60, 0x61, 0x62])
        ∨ (uop ∈ [0x07, 0x22] ∧ imm ≤ 1)
        ∨ uop = 0x08
        ∨ (uop ∈ [0x09, 0x0A] ∧ imm ≤ 7)
        ∨ (uop = 0x31 ∧ imm ≤ 3)
        ∨ (uop = 0x41 ∧ imm ≤ 55)
        ∨ (uop = 0x54 ∧ 1 ≤ imm ∧ imm ≤ 22))
    ∧ ∀ (s : State) (w : UWord) (rest : List UWord), s.uops = w :: rest → decodeEngine w = none →
      step s = .refused (.reservedEngineOp w)

/-- The length of the command at the head of the port (R118): it is complete when all its words have
arrived, and a reserved opcode is one word. -/
def Obligations.CommandLength : Prop :=
  ∀ (s : State) (w : Word) (ops : List Word), s.port = w :: ops →
    let opc := w.toNat / 2 ^ 24
    let length :=
      if opc = 0x02 then
        if s.kind = .none ∨ w.toNat % 4 = 0 then 1
        else 1 + (w.toNat % 2 + w.toNat / 2 % 2) * (keylen s.cfg s.kind / 4)
      else if opc = 0x03 then 1 + 4 * (w.toNat % 2 ^ 16)
      else 1
    if 1 ≤ opc ∧ opc ≤ 4 then
      if length ≤ s.port.length then ∃ i, s.portHead = .instr i length
      else s.portHead = .incomplete
    else s.portHead = .reservedOpcode (BitVec.ofNat 8 opc)

/-! ## The step -/

/-- A step runs the decoded instruction (R126, R330): an engine operation at the sequencer, its word then
gone; or, when the engine has nothing to do, the command at the port, its words consumed and one host
step passed. -/
def Obligations.StepRunsTheDecodedInstruction : Prop :=
  (∀ (s : State) (w : UWord) (rest : List UWord) (i : Instr),
      s.uops = w :: rest → decodeEngine w = some i → step s = exec i { s with uops := rest })
    ∧ ∀ (s : State) (i : Instr) (len : Nat),
      s.uops = [] → s.phase = .idle → s.completionDue = false → s.portHead = .instr i len →
      step s = exec i { s with port := s.port.drop len, fireIn := s.fireIn - 1 }

/-- A command word with a reserved opcode faults ILLEGAL_COMMAND, or is refused while FAULTED = 1, and
its one word is consumed (R116, R390). -/
def Obligations.ReservedOpcodeFaults : Prop :=
  ∀ (s : State) (w : Word) (ops : List Word),
    s.uops = [] → s.phase = .idle → s.completionDue = false → s.port = w :: ops →
    (w.toNat / 2 ^ 24 = 0 ∨ 5 ≤ w.toNat / 2 ^ 24) →
    let opc : Byte := BitVec.ofNat 8 (w.toNat / 2 ^ 24)
    let s' := { s with port := ops, fireIn := s.fireIn - 1 }
    ∃ t, step s = .next t
      ∧ if s.faulted then t = { s' with resp := s.resp ++ [⟨opc, 0xFF, []⟩] }
        else FaultTaken 0x01 opc s' t

/-! ## Commands -/

/-- SET_KIND in every state and with every operand (R335, with the refusal of R331 first). -/
def Obligations.SetKindEffect : Prop :=
  (∀ (kw : Nat) (rsvd : BitVec 21) (k : BitVec 3) (rest : List Word),
      decodeCommand kw (BitVec.ofNat 32 (0x01 * 2 ^ 24 + rsvd.toNat * 8 + k.toNat) :: rest)
        = .instr (.setKind rsvd k) 1)
    ∧ (∀ (s : State) (rsvd : BitVec 21) (k : BitVec 3),
      ∃ t, exec (.setKind rsvd k) s = .next t
        ∧ if s.faulted then t = { s with resp := s.resp ++ [⟨0x01, 0xFF, []⟩] }
          else if rsvd ≠ 0 ∨ k.toNat = 0 ∨ 5 ≤ k.toNat then FaultTaken 0x02 0x01 s t
          else if k = s.kind.code then t = { s with resp := s.resp ++ [⟨0x01, 0x00, []⟩] }
          else if s.busy then FaultTaken 0x04 0x01 s t
          else ∃ kind : Kind, kind.code = k
            ∧ t = { s with
                kind := kind, keyValid := ⟨false, false⟩, resp := s.resp ++ [⟨0x01, 0x00, []⟩] })
    ∧ ∃ t, exec (.setKind 0 1) State.reset = .next t ∧ t.status = 0x00000010

/-- SET_CW in every state, with all the key words its PMASK selects (R340, R112, with the refusal of
R331 first): the even key first, key byte m from bits [8(m mod 4)+7 : 8(m mod 4)] of word m div 4. -/
def Obligations.SetCwEffect : Prop :=
  ∀ (s : State) (rsvd : BitVec 22) (pmask : BitVec 2) (keys : List Word),
    keys.length = (pmask.toNat % 2 + pmask.toNat / 2) * (keylen s.cfg s.kind / 4) →
    let length := keylen s.cfg s.kind
    let first := fun m => (keys.getD (m / 4) 0).extractLsb' (8 * (m % 4)) 8
    let second := fun m => first (length + m)
    ∃ t, exec (.setCw rsvd pmask keys) s = .next t
      ∧ if s.faulted then t = { s with resp := s.resp ++ [⟨0x02, 0xFF, []⟩] }
        else if rsvd ≠ 0 ∨ pmask = 0 then FaultTaken 0x02 0x02 s t
        else if s.kind = .none then FaultTaken 0x03 0x02 s t
        else
          t = { s with
            cw := {
              even := if pmask = 2 then s.cw.even else (List.range length).map first,
              odd := if pmask = 1 then s.cw.odd
                else if pmask = 2 then (List.range length).map first
                else (List.range length).map second },
            keyValid := {
              even := if pmask = 2 then s.keyValid.even else true,
              odd := if pmask = 1 then s.keyValid.odd else true },
            resp := s.resp ++ [⟨0x02, 0x00, []⟩] }

/-- CSR_READ in every state, FAULTED or not (R345), the content of every CSR (R41; CAP_BATCH is positive,
R11), and the fields of STATUS (R42). -/
def Obligations.CsrReadEffect : Prop :=
  (∀ (s : State) (rsvd : BitVec 16) (index : BitVec 8),
      ∃ t, exec (.csrRead rsvd index) s = .next t
        ∧ if rsvd ≠ 0 ∨ 5 ≤ index.toNat then FaultTaken 0x02 0x04 s t
          else ∃ v : Word, t = { s with resp := s.resp ++ [⟨0x04, 0x00, [v]⟩] }
            ∧ (index = 0 → v.toNat = s.cfg.lanes.toNat) ∧ (index = 1 → v = s.cfg.batchCap.val ∧ 0 < v.toNat)
            ∧ (index = 2 → v = s.status) ∧ (index = 3 → v = s.diagMalformed)
            ∧ (index = 4 → v = s.lastAdvanced))
    ∧ ∀ s : State,
      s.status.getLsbD 0 = s.busy ∧ s.status.getLsbD 1 = s.faulted
        ∧ s.status.getLsbD 2 = s.keyValid.even ∧ s.status.getLsbD 3 = s.keyValid.odd
        ∧ s.status.extractLsb' 4 3 = s.kind.code ∧ s.status.getLsbD 7 = false
        ∧ s.status.extractLsb' 8 8 = s.faultCode ∧ s.status.extractLsb' 16 8 = s.faultOpcode
        ∧ s.status.extractLsb' 24 8 = 0

/-- The issue of a DECRYPT in every state (R350, with the refusal of R331 first). Its inputs are
latched, BUSY = 1, and there is no response. When it will complete is a free value (log 8). -/
def Obligations.DecryptIssueEffect : Prop :=
  ∀ (s : State) (rsvd : BitVec 8) (ranges : List Range),
    ∃ t, exec (.decrypt rsvd ranges) s = .next t
      ∧ if s.faulted then t = { s with resp := s.resp ++ [⟨0x03, 0xFF, []⟩] }
        else if rsvd ≠ 0 then FaultTaken 0x02 0x03 s t
        else if s.busy then FaultTaken 0x05 0x03 s t
        else if s.kind = .none then FaultTaken 0x03 0x03 s t
        else if rangesOk s.cfg ranges = true then
          t = { s with
            pending := { ranges := ranges, kind := s.kind, cw := s.cw, valid := s.keyValid },
            busy := true, fireIn := t.fireIn, draws := t.draws }
        else FaultTaken 0x06 0x03 s t

/-- `ranges_ok` (R351): its five checks, the validity of every byte among them. -/
def Obligations.RangesOkIsTheFiveChecks : Prop :=
  ∀ (c : Build) (ranges : List Range),
    rangesOk c ranges = true ↔
      (∀ r ∈ ranges, r.start.toNat ≤ r.stop.toNat)
        ∧ (∀ r ∈ ranges, (r.stop.toNat - r.start.toNat) % 188 = 0)
        ∧ (∀ r ∈ ranges, ∀ a, r.start.toNat ≤ a → a < r.stop.toNat → memValid c a = true)
        ∧ (∀ (j k : Fin ranges.length), j ≠ k →
            ranges[j].start ≠ ranges[j].stop → ranges[k].start ≠ ranges[k].stop →
            ranges[j].stop.toNat ≤ ranges[k].start.toNat
              ∨ ranges[k].stop.toNat ≤ ranges[j].start.toNat)
        ∧ (ranges.map fun r => (r.stop.toNat - r.start.toNat) / 188).sum < 2 ^ 32

/-! ## Faults -/

/-- Fault entry (R396), raised by a host command and by a DECRYPT completion. That a fault of a completion
leaves PENDING and the datapath as they are, and ends the sequencer's work, is the model's choice
(log 15). -/
def Obligations.FaultEntry : Prop :=
  (∀ (s : State) (st : Status) (opc : Byte), FaultTaken (statusCode st) opc s (s.raiseFault st opc))
    ∧ ∀ (s : State) (st : Status),
      s.completionFault st =
        { s with
          faulted := true,
          faultCode := if s.faulted then s.faultCode else statusCode st,
          faultOpcode := if s.faulted then s.faultOpcode else 0x03,
          busy := false, phase := .idle, uops := [],
          resp := s.resp ++ [⟨0x03, statusCode st, []⟩] }

/-- What a drop does (R356): BUSY = 0, PENDING is discarded, no response, the counters stay, and the
bytes of the latched ranges hold free values (log 7), whatever they are; no other byte changes. -/
def Obligations.DropOfADecrypt : Prop :=
  ∀ s : State,
    s.dropDecrypt.busy = false ∧ s.dropDecrypt.pending = .empty
      ∧ s.dropDecrypt.resp = s.resp ∧ ContextKept s s.dropDecrypt
      ∧ s.dropDecrypt.faulted = s.faulted ∧ s.dropDecrypt.faultCode = s.faultCode
      ∧ s.dropDecrypt.faultOpcode = s.faultOpcode
      ∧ (∀ a, inRanges s.pending.ranges a = true →
          s.dropDecrypt.mem.get a = Config.unspecifiedByte s.draws a)
      ∧ SameMemoryOutside (fun a => inRanges s.pending.ranges a = true) s s.dropDecrypt

/-- While FAULTED = 1 every command but CSR_READ consumes its words and is answered with status FAULTED;
nothing else changes (R331). -/
def Obligations.FaultedRefusesCommands : Prop :=
  ∀ (s : State) (w : Word) (ops : List Word) (len : Nat),
    s.uops = [] → s.phase = .idle → s.completionDue = false → s.faulted = true →
    s.port = w :: ops → w.toNat / 2 ^ 24 ≠ 0x04 →
    ((∃ i, s.portHead = .instr i len) ∨ (s.portHead = .reservedOpcode (w.extractLsb' 24 8) ∧ len = 1)) →
    step s = .next { s with
      port := s.port.drop len, fireIn := s.fireIn - 1,
      resp := s.resp ++ [⟨w.extractLsb' 24 8, 0xFF, []⟩] }

/-- The check order of R398: the first cause of its list that applies is the one reported, and with
none the command is no fault. -/
def Obligations.CheckOrder : Prop :=
  ∀ (s : State) (w : Word) (ops : List Word) (ranges : List Range),
    s.uops = [] → s.phase = .idle → s.completionDue = false → s.port = w :: ops →
    s.portHead ≠ .incomplete →
    (w.toNat / 2 ^ 24 = 3 → takeRanges (w.toNat % 2 ^ 16) ops = some ranges) →
    let opc := w.toNat / 2 ^ 24
    let args := w.toNat % 2 ^ 24
    let causes : List (Bool × Byte) :=
      [(s.faulted && opc != 4, 0xFF),
       (opc == 0 || decide (5 ≤ opc), 0x01),
       (opc == 1 && (args / 8 != 0 || args % 8 == 0 || decide (5 ≤ args % 8)), 0x02),
       (opc == 2 && (args / 4 != 0 || args % 4 == 0), 0x02),
       (opc == 3 && args / 2 ^ 16 != 0, 0x02),
       (opc == 4 && (args / 2 ^ 8 != 0 || decide (5 ≤ args % 2 ^ 8)), 0x02),
       (opc == 1 && args % 8 != s.kind.code.toNat && s.busy, 0x04),
       (opc == 3 && s.busy, 0x05),
       ((opc == 2 || opc == 3) && s.kind == .none, 0x03),
       (opc == 3 && !rangesOk s.cfg ranges, 0x06)]
    ∃ t, step s = .next t
      ∧ match causes.find? (·.1) with
        | some (_, code) => t.resp = s.resp ++ [⟨BitVec.ofNat 8 opc, code, []⟩]
        | none =>
          t.faulted = s.faulted ∧ t.faultCode = s.faultCode ∧ t.faultOpcode = s.faultOpcode
            ∧ (if opc = 3 then t.resp = s.resp
              else ∃ payload, t.resp = s.resp ++ [⟨BitVec.ofNat 8 opc, 0x00, payload⟩])

/-! ## The whole machine -/

/-- Every step keeps the context invariant: memory in canonical form, valid keys of the kind's length,
no DECRYPT in flight while FAULTED = 1, fault codes recorded only by a fault, checked and latched
inputs of the present kind while BUSY = 1, and a sequencer that works only on a DECRYPT in flight. -/
def Obligations.EveryStepKeepsInv : Prop :=
  ∀ s t : State, Inv s → step s = .next t → Inv t

/-- Every step keeps the lanes that the build does not have at zero (log 11, the model's choice of how
N-lane registers are held). -/
def Obligations.EveryStepKeepsUnusedLanes : Prop :=
  ∀ s t : State, LanesWf s → step s = .next t → LanesWf t

/-- Both invariants hold at reset. -/
def Obligations.InvariantsAtReset : Prop := Inv State.reset ∧ LanesWf State.reset

/-- FAULTED and the record of the first fault stay until reset (R38, R39, R399). -/
def Obligations.FaultIsSticky : Prop :=
  ∀ s t : State, step s = .next t → s.faulted = true →
    (t.faulted = true ∧ t.faultCode = s.faultCode ∧ t.faultOpcode = s.faultOpcode)
      ∨ ∃ rest, s.host = .reset :: rest ∧ t = { s with host := rest }.hardReset

/-- Nothing changes PENDING while a DECRYPT is in flight (R355). -/
def Obligations.PendingIsLatched : Prop :=
  ∀ s t : State, step s = .next t → s.busy = true → t.busy = true → t.pending = s.pending

/-- But for reset: KIND changes only by SET_KIND, CW only by SET_CW, KEY_VALID only by the two, the build
by nothing, and DIAG_MALFORMED and LAST_ADVANCED only where a DECRYPT completes without fault (R31, R33,
R34, R40, R43). -/
def Obligations.WhoWritesTheContext : Prop :=
  ∀ s t : State, step s = .next t →
    t.cfg = s.cfg
      ∧ ((∃ rest, s.host = .reset :: rest ∧ t = { s with host := rest }.hardReset)
        ∨ (((t.kind = s.kind ∧ t.cw = s.cw ∧ t.keyValid = s.keyValid)
            ∨ (s.uops = [] ∧ s.phase = .idle
              ∧ ((∃ rsvd k len, s.portHead = .instr (.setKind rsvd k) len ∧ t.cw = s.cw
                    ∧ t.keyValid = ⟨false, false⟩)
                ∨ (∃ rsvd pmask keys len, s.portHead = .instr (.setCw rsvd pmask keys) len
                    ∧ t.kind = s.kind))))
          ∧ ((t.diagMalformed = s.diagMalformed ∧ t.lastAdvanced = s.lastAdvanced)
            ∨ (s.uops = [] ∧ s.phase = .writeback ∧ t.busy = false
                ∧ t.diagMalformed = s.diagMalformed + BitVec.ofNat 32 s.sc.diagInc
                ∧ t.lastAdvanced = s.sc.advanced))))

/-- What R430 says reset leaves, CSR values included. -/
def Obligations.ResetValues : Prop :=
  State.reset.kind = .none ∧ State.reset.keyValid = ⟨false, false⟩ ∧ State.reset.busy = false
    ∧ State.reset.pending = .empty ∧ State.reset.faulted = false
    ∧ State.reset.faultCode = 0 ∧ State.reset.faultOpcode = 0
    ∧ State.reset.diagMalformed = 0 ∧ State.reset.lastAdvanced = 0 ∧ State.reset.resp = []
    ∧ State.reset.phase = .idle ∧ State.reset.status = 0
    ∧ State.reset.csrValue 0 = some (BitVec.ofNat 32 State.reset.cfg.lanes.toNat)
    ∧ State.reset.csrValue 1 = some State.reset.cfg.batchCap.val

/-- A reset while the host acts (R430, R431, R46): the block's state is the reset state, responses not taken
are gone, and packet memory is unchanged but for the latched ranges of an abandoned DECRYPT. The model's
choices in it: the values it ends with for CW (log 4) and for the datapath registers and iter (log 5),
which R430 leaves unspecified, and for its own field `fireIn` (log 23); and what is kept, and that the
port is emptied (log 18). -/
def Obligations.ResetAction : Prop :=
  ∀ (s : State) (rest : List HostAction),
    s.uops = [] → s.phase = .idle → s.completionDue = false → s.portHead = .incomplete →
    s.host = .reset :: rest →
    ∃ t, step s = .next t
      ∧ t = { State.reset with
          cfg := s.cfg, opnd := s.opnd, host := rest, delivered := s.delivered,
          mem := t.mem, draws := t.draws }
      ∧ SameMemoryOutside (fun a => s.busy = true ∧ inRanges s.pending.ranges a = true) s t

/-- The host's other actions at the pins (R44, R110, R440): words reach the port in order, RESP is taken
from its head, a byte is written, and a write to a latched byte is refused (log 16, log 17). -/
def Obligations.HostActions : Prop :=
  ∀ (s : State) (rest : List HostAction),
    s.uops = [] → s.phase = .idle → s.completionDue = false → s.portHead = .incomplete →
    (∀ ws, s.host = .issue ws :: rest →
        step s = .next { s with host := rest, port := s.port ++ ws, fireIn := s.fireIn - 1 })
      ∧ (∀ r queue, s.host = .take :: rest → s.resp = r :: queue →
        step s = .next { s with
          host := rest, resp := queue, delivered := s.delivered ++ [r], fireIn := s.fireIn - 1 })
      ∧ (∀ a v, s.host = .poke a v :: rest →
        if s.busy = true ∧ inRanges s.pending.ranges a.toNat = true then
          step s = .refused (.hostHazard a)
        else ∃ t, step s = .next t
          ∧ t = { s with host := rest, fireIn := s.fireIn - 1, mem := t.mem }
          ∧ t.mem.get a.toNat = v ∧ SameMemoryOutside (fun x => x = a.toNat) s t)

/-! ## Group primitive and transposer -/

/-- G_ZERO, G_ONES and G_BCAST1 set every lane of the destination group, and change nothing else
(R151, R152, R157). -/
def Obligations.GroupConstants : Prop :=
  decodeEngine 0x0100 = some .gZero ∧ decodeEngine 0x0200 = some .gOnes
    ∧ decodeEngine 0x0700 = some (.gBcast1 false) ∧ decodeEngine 0x0701 = some (.gBcast1 true)
    ∧ (∀ imm : BitVec 8, 2 ≤ imm.toNat → decodeEngine (0x07#8 ++ imm) = none)
    ∧ ∀ s : State,
      (∃ t, exec .gZero s = .next t
          ∧ (∀ i, i < s.cfg.n → (t.readGroup s.opnd.gd).getLsbD i = false)
          ∧ OnlyGroupChanges s.opnd.gd s t)
        ∧ (∃ t, exec .gOnes s = .next t
          ∧ (∀ i, i < s.cfg.n → (t.readGroup s.opnd.gd).getLsbD i = true)
          ∧ OnlyGroupChanges s.opnd.gd s t)
        ∧ ∀ v : Bool, ∃ t, exec (.gBcast1 v) s = .next t
          ∧ (∀ i, i < s.cfg.n → (t.readGroup s.opnd.gd).getLsbD i = v)
          ∧ OnlyGroupChanges s.opnd.gd s t

/-- G_AND, G_OR, G_XOR and G_NOT on groups and on byte slices, lane by lane, from the operands as they
were; nothing but the destination changes (R150, R153 to R156). -/
def Obligations.BitwiseOperations : Prop :=
  decodeEngine 0x0300 = some .gAnd ∧ decodeEngine 0x0400 = some .gOr
    ∧ decodeEngine 0x0500 = some .gXor ∧ decodeEngine 0x0600 = some .gNot
    ∧ ∀ (s : State) (i : Instr) (f : Bool → Bool → Bool),
      (i, f) ∈ [(Instr.gAnd, fun a b => a && b), (Instr.gOr, fun a b => a || b),
        (Instr.gXor, fun a b => a != b), (Instr.gNot, fun a _ => !a)] →
      ∃ t, exec i s = .next t
        ∧ match s.opnd.form with
          | .groups =>
            (∀ k, k < s.cfg.n → (t.readGroup s.opnd.gd).getLsbD k
                = f ((s.readGroup s.opnd.ga).getLsbD k) ((s.readGroup s.opnd.gb).getLsbD k))
              ∧ OnlyGroupChanges s.opnd.gd s t
          | .slices =>
            (∀ k : Fin maxLanes, k.val < s.cfg.n → ∀ b, b < 8 →
                ((t.readSlice s.opnd.sd)[k]).getLsbD b
                  = f ((s.readSlice s.opnd.sa)[k].getLsbD b) ((s.readSlice s.opnd.sb)[k].getLsbD b))
              ∧ OnlySliceChanges s.opnd.sd s t

/-- B_BCAST8, B_SHL8, B_SHR8 and B_SBOX, lane by lane; nothing but the destination changes (R158 to
R161). -/
def Obligations.ByteSliceOperations : Prop :=
  (∀ c : Byte, decodeEngine (0x08#8 ++ c) = some (.bBcast8 c))
    ∧ (∀ k : BitVec 3, decodeEngine (0x09#8 ++ (0#5 ++ k)) = some (.bShl8 k)
        ∧ decodeEngine (0x0A#8 ++ (0#5 ++ k)) = some (.bShr8 k))
    ∧ decodeEngine 0x0B00 = some .bSbox
    ∧ ∀ s : State,
      (∀ c : Byte, ∃ t, exec (.bBcast8 c) s = .next t
          ∧ (∀ i : Fin maxLanes, i.val < s.cfg.n → (t.readSlice s.opnd.sd)[i] = c)
          ∧ OnlySliceChanges s.opnd.sd s t)
        ∧ (∀ k : BitVec 3, ∃ t, exec (.bShl8 k) s = .next t
          ∧ (∀ i : Fin maxLanes, i.val < s.cfg.n → (t.readSlice s.opnd.sd)[i].toNat
              = (s.readSlice s.opnd.sa)[i].toNat * 2 ^ k.toNat % 256)
          ∧ OnlySliceChanges s.opnd.sd s t)
        ∧ (∀ k : BitVec 3, ∃ t, exec (.bShr8 k) s = .next t
          ∧ (∀ i : Fin maxLanes, i.val < s.cfg.n → (t.readSlice s.opnd.sd)[i].toNat
              = (s.readSlice s.opnd.sa)[i].toNat / 2 ^ k.toNat)
          ∧ OnlySliceChanges s.opnd.sd s t)
        ∧ ∃ t, exec .bSbox s = .next t
          ∧ (∀ i : Fin maxLanes, i.val < s.cfg.n → s.cfg.tables.blockSbox[(s.readSlice s.opnd.sa)[i].toNat]?
              = some (t.readSlice s.opnd.sd)[i])
          ∧ OnlySliceChanges s.opnd.sd s t

/-- T_IN_BITS and T_OUT_BITS: bit b of byte j of lane i's block is lane i of plane 8j + b, for i < c; the
lanes from c on keep their values (R162, R163). -/
def Obligations.TransposeBits : Prop :=
  ∀ s : State, s.pr.count ≤ s.cfg.n →
    (∃ t, exec .tInBits s = .next t
        ∧ (∀ (i : Nat) (j b : Fin 8), i < s.pr.count →
            (t.pr.planes.getD (8 * j.val + b.val) 0).getLsbD i
              = ((laneBlock (s.readBlocks s.opnd.blocks) i)[j]).getLsbD b.val)
        ∧ (∀ (i : Nat) (m : Fin 64), s.pr.count ≤ i →
            t.pr.planes[m].getLsbD i = s.pr.planes[m].getLsbD i)
        ∧ t = { s with pr := { s.pr with planes := t.pr.planes } } ∧ SameMemory s t)
      ∧ ∃ t, exec .tOutBits s = .next t
        ∧ (∀ (i : Nat) (j b : Fin 8), i < s.pr.count →
            ((laneBlock (t.readBlocks s.opnd.blocks) i)[j]).getLsbD b.val
              = (s.pr.planes.getD (8 * j.val + b.val) 0).getLsbD i)
        ∧ OnlyBlocksChange s.opnd.blocks s.pr.count s t

/-- T_IN_BYTES and T_OUT_BYTES: byte j of lane i's block is lane i of slice j, for i < c; the lanes from c
on and the slices outside the bank keep their values (R164, R165). -/
def Obligations.TransposeBytes : Prop :=
  ∀ s : State, s.pr.count ≤ s.cfg.n →
    (∃ t, exec .tInBytes s = .next t
        ∧ (∀ (i : Fin maxLanes) (j : Fin 8), i.val < s.pr.count →
            (t.readBank s.opnd.bank)[j][i] = (laneBlock (s.readBlocks s.opnd.blocks) i.val)[j])
        ∧ (∀ (i : Fin maxLanes) (j : Fin 8), s.pr.count ≤ i.val →
            (t.readBank s.opnd.bank)[j][i] = (s.readBank s.opnd.bank)[j][i])
        ∧ (match s.opnd.bank with
          | .slices => t = { s with pr := { s.pr with slices := t.pr.slices } }
          | .br base => t = { s with bk := { s.bk with br := t.bk.br } }
            ∧ ∀ m : Fin 64, (m.val < base.val ∨ base.val + 8 ≤ m.val) → t.bk.br[m] = s.bk.br[m])
        ∧ SameMemory s t)
      ∧ ∃ t, exec .tOutBytes s = .next t
        ∧ (∀ (i : Fin maxLanes) (j : Fin 8), i.val < s.pr.count →
            (laneBlock (t.readBlocks s.opnd.blocks) i.val)[j] = (s.readBank s.opnd.bank)[j][i])
        ∧ OnlyBlocksChange s.opnd.blocks s.pr.count s t

/-- Blocks that go into the planes or the slices come out again on the lanes below c, into whichever
working blocks they are taken out to (R166). -/
def Obligations.TransposeRoundTrip : Prop :=
  ∀ (s : State) (out : BlockBank), s.pr.count ≤ s.cfg.n →
    (∃ t u, exec .tInBits s = .next t
        ∧ exec .tOutBits { t with opnd := { t.opnd with blocks := out } } = .next u
        ∧ ∀ i, i < s.pr.count →
          laneBlock (u.readBlocks out) i = laneBlock (s.readBlocks s.opnd.blocks) i)
      ∧ ∃ t u, exec .tInBytes s = .next t
        ∧ exec .tOutBytes { t with opnd := { t.opnd with blocks := out } } = .next u
        ∧ ∀ i, i < s.pr.count →
          laneBlock (u.readBlocks out) i = laneBlock (s.readBlocks s.opnd.blocks) i

/-! ## Key scheduler -/

/-- K_STREAM: the nibbles of the control word, high nibble first (R180). The operand and the results are
the registers `ks`, which no rule names: the model's choice (log 21). -/
def Obligations.StreamKeySchedule : Prop :=
  decodeEngine 0x2000 = some .kStream
    ∧ ∀ s : State, ∃ t, exec .kStream s = .next t
      ∧ (∀ m : Fin 4,
          t.ks.a.getD (2 * m.val) 0 = (s.ks.cw.getD m.val 0).extractLsb' 4 4
            ∧ t.ks.a.getD (2 * m.val + 1) 0 = (s.ks.cw.getD m.val 0).extractLsb' 0 4
            ∧ t.ks.b.getD (2 * m.val) 0 = (s.ks.cw.getD (4 + m.val) 0).extractLsb' 4 4
            ∧ t.ks.b.getD (2 * m.val + 1) 0 = (s.ks.cw.getD (4 + m.val) 0).extractLsb' 0 4)
      ∧ t = { s with ks := { s.ks with a := t.ks.a, b := t.ks.b } } ∧ SameMemory s t

/-- K_BLOCK: kb[6] is the control word, bit position m of kb[i+1] moves to position KEY_PERM[m] - 1 of
kb[i], and kk[8i + j] = kb[i][j] XOR i (R181 to R184). The operand and the result are the registers
`ks`, which no rule names: the model's choice (log 21). -/
def Obligations.BlockKeySchedule : Prop :=
  decodeEngine 0x2100 = some .kBlock
    ∧ ∀ s : State, ∃ t, exec .kBlock s = .next t
      ∧ (∃ kb : Nat → Bytes 8, kb 6 = s.ks.cw
          ∧ (∀ i m, i < 6 → m < 64 →
              keyBit (kb i) (s.cfg.tables.keyPerm.getD m 0 - 1) = keyBit (kb (i + 1)) m)
          ∧ ∀ i j, i < 7 → j < 8 →
              t.ks.kk.getD (8 * i + j) 0 = (kb i).getD j 0 ^^^ BitVec.ofNat 8 i)
      ∧ t = { s with ks := { s.ks with kk := t.ks.kk } } ∧ SameMemory s t

/-- K_BCAST: the two schedules of the latched key of its parity, in every lane (R186). That it goes through
the registers `ks` is the model's choice (log 21). -/
def Obligations.KeyBroadcast : Prop :=
  ∀ (s : State) (p : Parity) (key : Bytes 8), s.pending.cw.get p = key.toList →
    ∃ t, exec (.kBcast p) s = .next t
      ∧ (∀ (m : Fin 8) (i : Nat), i < s.cfg.n →
          (t.st.iA[m]).lane i = (streamKeyA key)[m] ∧ (t.st.iB[m]).lane i = (streamKeyB key)[m])
      ∧ (∀ (k : Fin 56) (i : Fin maxLanes), i.val < s.cfg.n → (t.bk.kk[k])[i] = (blockKey s.cfg.tables key)[k])
      ∧ t = { s with
          ks := t.ks, st := { s.st with iA := t.st.iA, iB := t.st.iB },
          bk := { s.bk with kk := t.bk.kk } }
      ∧ SameMemory s t

/-! ## Stream cipher -/

/-- S_LOAD: every lane is in the state of R202 for its key nibbles. -/
def Obligations.StreamLoad : Prop :=
  decodeEngine 0x3000 = some .sLoad
    ∧ ∀ s : State, ∃ t, exec .sLoad s = .next t
      ∧ t.st.soff.val = 32
      ∧ (∀ i, t.st.laneState i
          = LaneStream.load (Vector.ofFn fun m => (s.st.iA[m]).lane i)
              (Vector.ofFn fun m => (s.st.iB[m]).lane i))
      ∧ t = { s with st := t.st } ∧ t.st.iA = s.st.iA ∧ t.st.iB = s.st.iB ∧ SameMemory s t

/-- S_STEP: in every lane the scalar step of R205 to R213 and its output; SOFF moves down by one, the new
slot is the only one written. In initializing mode the seed nibbles are those of R214, for the external
iteration that SOFF tells (log 22, the model's reading). -/
def Obligations.StreamStep : Prop :=
  ∀ (s : State) (mode : StepMode) (jOdd : Bool), 1 ≤ s.st.soff.val →
    ∃ t, exec (.sStep mode jOdd) s = .next t
      ∧ t.st.soff.val = s.st.soff.val - 1
      ∧ (∀ i, i < s.cfg.n →
          t.st.laneState i
              = (match mode with
                | .generating => (s.st.laneState i).genStep s.cfg.tables
                | .initializing =>
                  (s.st.laneState i).seedStep s.cfg.tables (laneBlock s.wb.si i)
                    ((32 - s.st.soff.val) / 4) jOdd)
            ∧ BitVec.ofBool (t.st.out1.getLsbD i) ++ BitVec.ofBool (t.st.out0.getLsbD i)
              = (t.st.laneState i).out)
      ∧ (∀ m : Fin 42, m.val ≠ s.st.soff.val - 1 →
          t.st.sa[m] = s.st.sa[m] ∧ t.st.sb[m] = s.st.sb[m])
      ∧ t = { s with st := t.st } ∧ t.st.iA = s.st.iA ∧ t.st.iB = s.st.iB ∧ SameMemory s t

/-- S_INIT and S_GEN (R220, R221). S_INIT is 32 initializing steps, j mod 2 alternating, and S_ADVANCE; in
every lane both leave the scalar state, and S_GEN the keystream block. -/
def Obligations.StreamCalls : Prop :=
  ∀ s : State, s.st.soff.val = 32 →
    (∃ t, exec .sInit s = .next t ∧ t.st.soff.val = 32
        ∧ runInstrs
            ((List.range 32).map (fun k => .sStep .initializing (decide (k % 2 = 1))) ++ [.sAdvance]) s
          = .next t
        ∧ (∀ i, i < s.cfg.n →
            t.st.laneState i = (s.st.laneState i).init s.cfg.tables (laneBlock s.wb.si i))
        ∧ t = { s with st := t.st } ∧ t.st.iA = s.st.iA ∧ t.st.iB = s.st.iB ∧ SameMemory s t)
      ∧ ∃ t, exec .sGen s = .next t ∧ t.st.soff.val = 32
        ∧ (∀ i, i < s.cfg.n →
            t.st.laneState i = (s.st.laneState i).gen s.cfg.tables
              ∧ laneBlock t.wb.so i = (s.st.laneState i).block s.cfg.tables)
        ∧ t = { s with st := t.st, wb := { s.wb with so := t.wb.so } }
        ∧ t.st.iA = s.st.iA ∧ t.st.iB = s.st.iB ∧ SameMemory s t

/-- S_ADVANCE: slots 0 to 9 of both rings are copied to slots 32 to 41, and SOFF is 32 (R222). R222 gives
the operation with SOFF = 0; that it has this effect at every other SOFF is the model's choice (log 12). -/
def Obligations.StreamAdvance : Prop :=
  decodeEngine 0x3400 = some .sAdvance
    ∧ ∀ s : State, ∃ t, exec .sAdvance s = .next t
      ∧ t.st.soff.val = 32
      ∧ (∀ k : Fin 42, 32 ≤ k.val →
          t.st.sa.getD k.val .zero = s.st.sa.getD (k.val - 32) .zero
            ∧ t.st.sb.getD k.val .zero = s.st.sb.getD (k.val - 32) .zero)
      ∧ (∀ k : Fin 42, k.val < 32 → t.st.sa[k] = s.st.sa[k] ∧ t.st.sb[k] = s.st.sb[k])
      ∧ (s.st.soff.val = 0 → ∀ i, t.st.laneState i = s.st.laneState i)
      ∧ t = { s with st := { s.st with sa := t.st.sa, sb := t.st.sb, soff := t.st.soff } }
      ∧ SameMemory s t

/-- The lane law of the stream cipher (R224, R226): after K_BCAST, S_LOAD, S_INIT and k S_GENs, SO of
every lane is the k-th scalar keystream block of the key and of that lane's seed, whatever N, the
lane's position and the other lanes are. -/
def Obligations.KeystreamOfALane : Prop :=
  ∀ (s : State) (p : Parity) (key : Bytes 8) (k : Nat),
    s.pending.cw.get p = key.toList → 1 ≤ k →
    ∃ t, runInstrs ([.kBcast p, .sLoad, .sInit] ++ List.replicate k .sGen) s = .next t
      ∧ ∀ i, i < s.cfg.n → laneBlock t.wb.so i = keystream s.cfg.tables key (laneBlock s.wb.si i) k

/-! ## Block cipher -/

/-- BC_LOAD and BC_STORE move the first c lanes between the working blocks and the block register (R242,
R251). R251 gives BC_STORE with BOFF = 0; that it runs at every other BOFF is the model's choice
(log 12), and so is that the slots of BR outside the logical register keep their values (log 31). -/
def Obligations.BlockLoadAndStore : Prop :=
  ∀ s : State, s.pr.count ≤ s.cfg.n →
    (∃ t, exec .bcLoad s = .next t
        ∧ t.bk.boff.val = 56
        ∧ (∀ g : Fin maxLanes, g.val < s.pr.count → t.bk.laneRegs g = s.wb.ib[g])
        ∧ (∀ (m : Fin 64) (g : Fin maxLanes), m.val < 56 ∨ s.pr.count ≤ g.val →
            (t.bk.br[m])[g] = (s.bk.br[m])[g])
        ∧ t = { s with bk := { s.bk with br := t.bk.br, boff := t.bk.boff } } ∧ SameMemory s t)
      ∧ ∃ t, exec .bcStore s = .next t
        ∧ (∀ (g : Fin maxLanes) (j : Fin 8), g.val < s.pr.count →
            (t.wb.bo[g])[j] = (s.bk.br.getD j.val (Vector.replicate maxLanes 0))[g])
        ∧ (∀ g : Fin maxLanes, s.pr.count ≤ g.val → t.wb.bo[g] = s.wb.bo[g])
        ∧ t = { s with wb := { s.wb with bo := t.wb.bo } } ∧ SameMemory s t

/-- BC_ROUND: in every lane the round of R243 with key byte kk[55 - t], PERM as its bit table, in the ring
form of R245; BOFF moves down by one (R244). That the slots outside the logical registers stay is the
model's choice (log 31), and where R244 asks for BOFF = 56 - t, the model asks only that the ring has
room (log 12). -/
def Obligations.BlockRound : Prop :=
  ∀ (s : State) (i : Fin 56), 1 ≤ s.bk.boff.val →
    ∃ t, exec (.bcRound i) s = .next t
      ∧ t.bk.boff.val = s.bk.boff.val - 1
      ∧ (∀ g : Fin maxLanes, g.val < s.cfg.n →
          t.bk.laneRegs g = roundBlock s.cfg.tables ((s.bk.laneKey g).getD (55 - i.val) 0) (s.bk.laneRegs g))
      ∧ (∀ m : Fin 64, m.val < s.bk.boff.val - 1 ∨ s.bk.boff.val + 7 ≤ m.val →
          t.bk.br[m] = s.bk.br[m])
      ∧ t = { s with bk := { s.bk with br := t.bk.br, boff := t.bk.boff } } ∧ SameMemory s t

/-- BC_DECIPHER is the rounds 0 to 55, and leaves BOFF = 0 and in every lane D of that lane's key bytes and
registers (R249, R250). -/
def Obligations.BlockDecipher : Prop :=
  ∀ s : State, s.bk.boff.val = 56 →
    ∃ t, exec .bcDecipher s = .next t
      ∧ runInstrs ((List.finRange 56).map .bcRound) s = .next t
      ∧ t.bk.boff.val = 0
      ∧ (∀ g : Fin maxLanes, g.val < s.cfg.n →
          t.bk.laneRegs g = decipherBlock s.cfg.tables (s.bk.laneKey g) (s.bk.laneRegs g))
      ∧ t = { s with bk := { s.bk with br := t.bk.br, boff := t.bk.boff } } ∧ SameMemory s t

/-- The lane law of the block cipher (R252): BC_LOAD, BC_DECIPHER and BC_STORE leave D(kk, IB[g]) in BO[g],
for every lane below c, whatever N and the other lanes are. -/
def Obligations.BlockCipherOfALane : Prop :=
  ∀ s : State, s.pr.count ≤ s.cfg.n →
    ∃ t, runInstrs [.bcLoad, .bcDecipher, .bcStore] s = .next t
      ∧ (∀ g : Fin maxLanes, g.val < s.pr.count →
          t.wb.bo[g] = decipherBlock s.cfg.tables (s.bk.laneKey g) s.wb.ib[g])
      ∧ (∀ g : Fin maxLanes, s.pr.count ≤ g.val → t.wb.bo[g] = s.wb.bo[g])
      ∧ SameMemory s t

/-! ## Batch scheduler -/

/-- SC_SCAN (R274, R278 to R284) on a readable range list. The advanced packets are a prefix of the scan
order; the batch is its candidates, all of one parity, at most N; the scan stops at the end of the
list, after the N-th candidate, or before a candidate of the other parity; the remaining ranges hold
exactly the packets not advanced; and at least one packet is advanced if there is any. That the scan
writes the length field of a descriptor is the model's reading (log 24). -/
def Obligations.ScanAdmitsOneBatch : Prop :=
  ∀ s : State, ReadableRanges s.cfg s.pending.ranges →
    ∃ t, exec .scScan s = .next t
      ∧ (let packets := scanOrder s.pending.ranges
        let advanced := packets.take t.sc.adv.toNat
        let batch := advanced.filter (hasBlock 8 s.mem)
        t.sc.adv.toNat ≤ packets.length
          ∧ (packets ≠ [] → 1 ≤ t.sc.adv.toNat)
          ∧ t.sc.grouped = batch.length
          ∧ t.sc.grouped ≤ s.cfg.n
          ∧ (∀ g, g < t.sc.grouped → t.sc.slot g = descAt s.mem (batch.getD g 0))
          ∧ (∀ a ∈ batch, parityAt s.mem a = t.sc.gpar)
          ∧ t.sc.diagInc = (advanced.filter (isMalformed s.mem)).length
          ∧ (t.sc.adv.toNat = packets.length
            ∨ t.sc.grouped = s.cfg.n
            ∨ ∃ a, packets[t.sc.adv.toNat]? = some a ∧ 0 < t.sc.grouped
                ∧ hasBlock 8 s.mem a = true ∧ parityAt s.mem a ≠ t.sc.gpar)
          ∧ (t.sc.grouped = s.cfg.n →
            ∃ a, advanced.getLast? = some a ∧ hasBlock 8 s.mem a = true)
          ∧ scanOrder (remainingRanges s.pending.ranges t.sc.starts)
            = packets.drop t.sc.adv.toNat)
      ∧ (∀ g, t.sc.grouped ≤ g → t.sc.slot g = s.sc.slot g)
      ∧ t.sc.alive = s.sc.alive ∧ t.sc.encp = s.sc.encp
      ∧ t.sc.advanced = s.sc.advanced ∧ t.sc.remaining = s.sc.remaining
      ∧ t = { s with sc := t.sc } ∧ SameMemory s t

/-- SC_SORT permutes the descriptors of the slots below grouped, whole, and leaves them in non-increasing
order of g_n (R290, R291), for block counts of at most 23 (R57). -/
def Obligations.SortOrdersTheBatch : Prop :=
  ∀ s : State, s.sc.grouped ≤ maxLanes →
    (∀ g, g < s.sc.grouped → (s.sc.slot g).n ≤ 23) →
    ∃ t, exec .scSort s = .next t
      ∧ ((List.range s.sc.grouped).map t.sc.slot).Perm ((List.range s.sc.grouped).map s.sc.slot)
      ∧ (∀ g h, g < h → h < s.sc.grouped → (t.sc.slot h).n ≤ (t.sc.slot g).n)
      ∧ (∀ g, s.sc.grouped ≤ g → t.sc.slot g = s.sc.slot g)
      ∧ t = { s with sc := { s.sc with desc := t.sc.desc } } ∧ SameMemory s t

/-- SC_ALIVE counts the slots with more than i blocks (R293); of a sorted batch the live slots of round it
are a prefix, those with at least it blocks (R294). -/
def Obligations.AliveCountsTheSlots : Prop :=
  ∀ s : State, ∃ t, exec .scAlive s = .next t
    ∧ (∀ i : Fin 24, t.sc.alive[i] =
        ((Finset.range s.sc.grouped).filter fun g => i.val < (s.sc.slot g).n).card)
    ∧ ((∀ g h, g < h → h < s.sc.grouped → (s.sc.slot h).n ≤ (s.sc.slot g).n) →
        ∀ it g, 1 ≤ it → it ≤ 24 → g < s.sc.grouped →
          (g < t.sc.alive.getD (it - 1) 0 ↔ it ≤ (s.sc.slot g).n))
    ∧ t = { s with sc := { s.sc with alive := t.sc.alive } } ∧ SameMemory s t

/-- SC_ROUND0 (R300): the key of the batch's parity in every lane, the first block of every admitted packet
as seed and as block-cipher input, the stream cipher initialised with it, encp behind it; it only
reads memory. The registers `ks`, which may change with K_BCAST, are the model's (log 21). -/
def Obligations.RoundZero : Prop :=
  ∀ (s : State) (key : Bytes 8), s.pending.cw.get s.sc.gpar = key.toList →
    s.sc.grouped ≤ s.cfg.n → s.sc.alive[0] ≤ s.sc.grouped →
    (∀ g, g < s.sc.grouped → ValidBytes s.cfg (s.sc.payloadAt g) 8) →
    ∃ t, exec .scRound0 s = .next t
      ∧ (∀ g : Fin maxLanes, g.val < s.sc.grouped →
          t.wb.si[g] = s.mem.read (s.sc.payloadAt g.val) 8
            ∧ t.st.laneState g.val
              = (LaneStream.load (streamKeyA key) (streamKeyB key)).init s.cfg.tables
                  (s.mem.read (s.sc.payloadAt g.val) 8))
      ∧ t.st.soff.val = 32
      ∧ (∀ g : Fin maxLanes,
          if g.val < s.sc.alive[0] then
            t.wb.ib[g] = t.wb.si[g] ∧ t.sc.encp[g] = s.sc.payloadAt g.val + 8
          else t.wb.ib[g] = s.wb.ib[g] ∧ t.sc.encp[g] = s.sc.encp[g])
      ∧ (∀ (k : Fin 56) (g : Fin maxLanes), g.val < s.cfg.n → (t.bk.kk[k])[g] = (blockKey s.cfg.tables key)[k])
      ∧ t = { s with
          ks := t.ks, st := t.st, bk := { s.bk with kk := t.bk.kk },
          wb := { s.wb with si := t.wb.si, ib := t.wb.ib }, sc := { s.sc with encp := t.sc.encp } }
      ∧ SameMemory s t

/-- SC_ROUND (R302): every slot that continues has its block before encp decrypted, takes its next block
XORed with its keystream as block-cipher input, and moves on; every slot that finishes has its last
block and its residue decrypted; no other byte changes. -/
def Obligations.SchedulerRound : Prop :=
  ∀ (s : State) (it : SchedRound), s.st.soff.val = 32 →
    let before := s.sc.aliveBefore it.val
    let after := s.sc.aliveAfter it.val
    after ≤ before → before ≤ s.cfg.n → SlotsSound s (roundWidth s after) 0 before →
    ∃ t, exec (.scRound it) s = .next t
      ∧ (∀ g : Fin maxLanes, g.val < after →
          let input := blockXor (s.mem.read (s.sc.encpAt g.val) 8)
            ((s.st.laneState g.val).block s.cfg.tables)
          t.wb.ib[g] = input ∧ t.sc.encpAt g.val = s.sc.encpAt g.val + 8
            ∧ t.mem.read (s.sc.encpAt g.val - 8) 8
              = blockXor input (decipherBlock s.cfg.tables (s.bk.laneKey g) s.wb.ib[g]))
      ∧ (∀ g : Fin maxLanes, after ≤ g.val → g.val < before →
          t.mem.read (s.sc.encpAt g.val - 8) 8
              = decipherBlock s.cfg.tables (s.bk.laneKey g) s.wb.ib[g]
            ∧ ∀ m, m < (s.sc.slot g.val).res →
              t.mem.get (s.sc.encpAt g.val + m)
                = s.mem.get (s.sc.encpAt g.val + m)
                  ^^^ ((s.st.laneState g.val).block s.cfg.tables).getD m 0)
      ∧ (∀ g : Fin maxLanes, after ≤ g.val →
          t.wb.ib[g] = s.wb.ib[g] ∧ t.sc.encp[g] = s.sc.encp[g])
      ∧ (∀ i, i < s.cfg.n → t.st.laneState i = (s.st.laneState i).gen s.cfg.tables) ∧ t.st.soff.val = 32
      ∧ SameMemoryOutside (fun a => ∃ g, g < before ∧ s.sc.encpAt g - 8 ≤ a
          ∧ a < s.sc.encpAt g + (if g < after then 0 else (s.sc.slot g).res)) s t
      ∧ t = { s with
          mem := t.mem, st := t.st, bk := t.bk, pr := { s.pr with count := t.pr.count },
          wb := { s.wb with ib := t.wb.ib, bo := t.wb.bo, so := t.wb.so },
          sc := { s.sc with encp := t.sc.encp } }
      ∧ t.bk.kk = s.bk.kk ∧ t.st.iA = s.st.iA ∧ t.st.iB = s.st.iB

/-- SC_ROUND23 (R308): the last block of every slot of 23 blocks is decrypted; there is no keystream and no
residue, and no other byte changes. -/
def Obligations.SchedulerDrain : Prop :=
  ∀ s : State,
    let lo := s.sc.alive[23]
    let hi := s.sc.alive[22]
    hi ≤ s.cfg.n → SlotsSound s (fun _ => 8) lo hi →
    ∃ t, exec .scRound23 s = .next t
      ∧ (∀ g : Fin maxLanes, lo ≤ g.val → g.val < hi →
          t.mem.read (s.sc.encpAt g.val - 8) 8 = decipherBlock s.cfg.tables (s.bk.laneKey g) s.wb.ib[g])
      ∧ SameMemoryOutside (fun a => ∃ g, lo ≤ g ∧ g < hi ∧ s.sc.encpAt g - 8 ≤ a
          ∧ a < s.sc.encpAt g - 8 + 8) s t
      ∧ t = { s with
          mem := t.mem, bk := t.bk, pr := { s.pr with count := t.pr.count },
          wb := { s.wb with bo := t.wb.bo } }
      ∧ t.bk.kk = s.bk.kk

/-- SC_COMPACT (R283, R311): advanced is adv, and the remaining list is the ranges that are not fully
consumed, in order, with their updated starts and their own ends. That the result stands in `sc.advanced`
and `sc.remaining`, and that nothing else changes, is the model's reading (log 26, DEDUCED). -/
def Obligations.CompactKeepsWhatRemains : Prop :=
  ∀ s : State, ∃ t, exec .scCompact s = .next t
    ∧ t.sc.advanced = s.sc.adv
    ∧ t.sc.remaining
      = ((s.pending.ranges.zip s.sc.starts).filter fun rs => decide (rs.2 < rs.1.stop.toNat)).map
          (fun rs => ⟨BitVec.ofNat 64 rs.2, rs.1.stop⟩)
    ∧ t = { s with sc := { s.sc with advanced := t.sc.advanced, remaining := t.sc.remaining } }
    ∧ SameMemory s t

/-- The round loop on a batch (R285, R286, R310, R312): SC_ROUND0, SC_ROUND(1) to SC_ROUND(22) and
SC_ROUND23 leave CSA_DEC of the key and of the payload in every admitted packet's payload, and change
no other byte. -/
def Obligations.RoundLoopDecryptsTheBatch : Prop :=
  ∀ (s : State) (key : Bytes 8), s.pending.cw.get s.sc.gpar = key.toList → BatchReady s →
    ∃ t, runInstrs roundLoop s = .next t
      ∧ (∀ g, g < s.sc.grouped →
          bytesAt t.mem (s.sc.payloadAt g) (s.sc.slot g).len
            = csaDec s.cfg.tables key (bytesAt s.mem (s.sc.payloadAt g) (s.sc.slot g).len))
      ∧ SameMemoryOutside (fun a => ∃ g, g < s.sc.grouped ∧ InPayload s g a) s t

/-! ## Single-packet ciphers -/

/-- P_DES_NCB, P_AES_ECB and P_AES128_ECB: every block of the payload is deciphered in place with the key,
on its own, by the open parameter function; nothing else changes (R371, R376 to R378). The registers `ecb.op`
of the operands, and that a key of another length than the operation's is cut or filled with zeros, are the
model's choice (log 25). -/
def Obligations.PacketOperations : Prop :=
  ∀ s : State,
    let a := s.ecb.op.pkt + s.ecb.op.off
    let nb := s.ecb.op.nb
    (ValidBytes s.cfg a (8 * nb) →
        ∃ t, exec .pDesNcb s = .next t
          ∧ (∀ k, k < nb → t.mem.read (a + 8 * k) 8
              = Config.desDec (toBytes 8 s.ecb.op.key) (s.mem.read (a + 8 * k) 8))
          ∧ SameMemoryOutside (fun x => a ≤ x ∧ x < a + 8 * nb) s t ∧ t = { s with mem := t.mem })
      ∧ (ValidBytes s.cfg a (16 * nb) →
        ∃ t, exec .pAesEcb s = .next t
          ∧ (∀ k, k < nb → t.mem.read (a + 16 * k) 16
              = Config.aesEcbDec s.cfg.aesEcbKey (toBytes s.cfg.aesEcbKey.toNat s.ecb.op.key)
                  (s.mem.read (a + 16 * k) 16))
          ∧ SameMemoryOutside (fun x => a ≤ x ∧ x < a + 16 * nb) s t ∧ t = { s with mem := t.mem })
      ∧ (ValidBytes s.cfg a (16 * nb) →
        ∃ t, exec .pAes128Ecb s = .next t
          ∧ (∀ k, k < nb → t.mem.read (a + 16 * k) 16
              = Config.aes128Dec (toBytes 16 s.ecb.op.key) (s.mem.read (a + 16 * k) 16))
          ∧ SameMemoryOutside (fun x => a ≤ x ∧ x < a + 16 * nb) s t ∧ t = { s with mem := t.mem })

/-! ## Completion of a DECRYPT -/

/-- The operations of a CSA completion, in the order of R310 and R352: what the sequencer issues next, as
words of R127. That they are separate steps is the model's reading (log 9), and which phase each
belongs to and when iter counts its choice (log 30). -/
def Obligations.SequencerOrder : Prop :=
  ∀ s : State, s.uops = [] →
    (s.phase = .idle → s.completionDue = true →
        step s = .next { s with
          phase := .scan, iter := 0, uops := if s.pending.kind = .csa then [0x5000] else [] })
      ∧ (s.phase = .scan → s.pending.kind = .csa →
          (s.sc.grouped = 0 ∨ s.pending.valid.get s.sc.gpar = true) →
        step s = .next { s with phase := .sort, uops := [0x5100, 0x5200] })
      ∧ (s.phase = .sort → 0 < s.sc.grouped →
        step s = .next { s with phase := .rounds, iter := 0, uops := [0x5300] })
      ∧ (s.phase = .sort → s.sc.grouped = 0 →
        step s = .next { s with phase := .writeback, uops := [0x5600] })
      ∧ (s.phase = .rounds → s.pending.kind = .csa → ∀ it : Fin 24, s.iter = it → it.val < 22 →
        step s = .next { s with
          iter := it + 1, uops := [0x54#8 ++ BitVec.ofNat 8 (it.val + 1)] })
      ∧ (s.phase = .rounds → s.pending.kind = .csa → s.iter = 22 →
        step s = .next { s with iter := 23, uops := [0x5500] })
      ∧ (s.phase = .rounds → s.pending.kind = .csa → s.iter = 23 → s.cfg.tscClear = false →
        step s = .next { s with phase := .writeback, uops := [0x5600] })

/-- The key check of a CSA completion (R298, R412): without the batch's key the DECRYPT faults KEY_NOT_SET,
which is its response, and nothing else changes, no byte of memory and neither counter among it. That
PENDING and the datapath stay is the model's choice (log 15), and so is the phase of the check (log 30). -/
def Obligations.MissingKeyFaults : Prop :=
  ∀ s : State, s.uops = [] → s.phase = .scan → s.pending.kind = .csa →
    0 < s.sc.grouped → s.pending.valid.get s.sc.gpar = false →
    step s = .next { s with
      faulted := true,
      faultCode := if s.faulted then s.faultCode else 0x07,
      faultOpcode := if s.faulted then s.faultOpcode else 0x03,
      busy := false, phase := .idle, resp := s.resp ++ [⟨0x03, 0x07, []⟩] }

/-- TSC_CLEAR (R313): when it is set, byte 3 of every admitted packet loses its two top bits after the
round loop (R352), and no other byte changes. That SC_COMPACT comes next is read from R352 (log 26,
DEDUCED), and that the step enters the phase writeback is the model's choice (log 30). -/
def Obligations.TscClearMarksThePackets : Prop :=
  ∀ s : State, s.uops = [] → s.phase = .rounds → s.pending.kind = .csa → s.iter = 23 →
    s.cfg.tscClear = true →
    (∀ g, g < s.sc.grouped → ValidBytes s.cfg ((s.sc.slot g).pkt + 3) 1) →
    ∃ t, step s = .next t
      ∧ (∀ g, g < s.sc.grouped →
          t.mem.get ((s.sc.slot g).pkt + 3) = s.mem.get ((s.sc.slot g).pkt + 3) &&& 0x3F)
      ∧ SameMemoryOutside (fun a => ∃ g, g < s.sc.grouped ∧ a = (s.sc.slot g).pkt + 3) s t
      ∧ t = { s with mem := t.mem, phase := .writeback, uops := [0x5600] }

/-- The end of a completion without fault (R123, R352, R353): the counters, BUSY, and the response with the
advanced count and the remaining ranges, low words first. The model's own: that iter is 0 after it and that
PENDING and the datapath stay (log 15), that this is the phase writeback (log 30), and the registers the
result is read from (log 26, DEDUCED). -/
def Obligations.CompletionResponse : Prop :=
  ∀ s : State, s.uops = [] → s.phase = .writeback →
    step s = .next { s with
      diagMalformed := BitVec.ofNat 32 (s.diagMalformed.toNat + s.sc.diagInc),
      lastAdvanced := s.sc.advanced, busy := false, phase := .idle, iter := 0,
      resp := s.resp ++ [⟨0x03, 0x00,
        [s.sc.advanced, BitVec.ofNat 32 s.sc.remaining.length]
          ++ (s.sc.remaining.map fun r =>
            [BitVec.ofNat 32 r.start.toNat, BitVec.ofNat 32 (r.start.toNat / 2 ^ 32),
              BitVec.ofNat 32 r.stop.toNat, BitVec.ofNat 32 (r.stop.toNat / 2 ^ 32)]).flatten⟩] }

/-- The scan and the key check of an ECB completion (R372 to R374, R412): every packet is advanced, the
packets with a block are worked, and if the key of one of them is missing the DECRYPT faults
KEY_NOT_SET before any write, and KIND, CW, KEY_VALID and the counters stay. The registers `ecb` that hold
the work list are the model's choice (log 25), and so are that the check is the step from the phase scan to
rounds (log 30) and that PENDING and the datapath stay at a fault (log 15), but for `ecb` and the scan's
counts, which are left open there. -/
def Obligations.EcbScanAndKeyCheck : Prop :=
  ∀ s : State, s.uops = [] → s.phase = .scan →
    s.pending.kind ∈ [Kind.desNcb, Kind.aesEcb, Kind.aes128Ecb] →
    ReadableRanges s.cfg s.pending.ranges →
    let b := if s.pending.kind = .desNcb then 8 else 16
    let packets := scanOrder s.pending.ranges
    let worked := packets.filter (hasBlock b s.mem)
    ∃ t, step s = .next t ∧ SameMemory s t
      ∧ if ∀ a ∈ worked, s.pending.valid.get (parityAt s.mem a) = true then
          t = { s with
            phase := .rounds,
            sc := { s.sc with
              adv := BitVec.ofNat 32 packets.length,
              diagInc := (packets.filter (isMalformed s.mem)).length },
            ecb := { s.ecb with
              work := worked.map fun a =>
                ⟨a, offsetAt s.mem a, (188 - offsetAt s.mem a) / b, parityAt s.mem a⟩,
              active := false } }
        else
          t = { s with
            faulted := true,
            faultCode := if s.faulted then s.faultCode else 0x07,
            faultOpcode := if s.faulted then s.faultOpcode else 0x03,
            busy := false, phase := .idle, resp := s.resp ++ [⟨0x03, 0x07, []⟩],
            sc := { s.sc with adv := t.sc.adv, diagInc := t.sc.diagInc }, ecb := t.ecb }

/-- The work of an ECB completion (R373, R374): after a packet operation of a TSC_CLEAR build byte 3 of its
packet loses its two top bits, and no other byte changes; then the next packet in scan order, with the
latched key of its own parity and the operation of the kind, or at the end the remaining list, which
is empty. The registers `ecb`, the phases and the registers of the result are the model's (log 25, log 30,
log 26). -/
def Obligations.EcbWorkOrder : Prop :=
  ∀ s : State, s.uops = [] → s.phase = .rounds →
    s.pending.kind ∈ [Kind.desNcb, Kind.aesEcb, Kind.aes128Ecb] →
    (s.ecb.active = true → s.cfg.tscClear = true → memValid s.cfg (s.ecb.op.pkt + 3) = true) →
    ∃ t, step s = .next t
      ∧ (if s.ecb.active = true ∧ s.cfg.tscClear = true then
          t.mem.get (s.ecb.op.pkt + 3) = s.mem.get (s.ecb.op.pkt + 3) &&& 0x3F
            ∧ SameMemoryOutside (fun a => a = s.ecb.op.pkt + 3) s t
        else t.mem = s.mem)
      ∧ match s.ecb.work with
        | w :: rest =>
          t = { s with
            mem := t.mem,
            ecb :=
              { work := rest, op := ⟨w.pkt, w.off, w.nb, s.pending.cw.get w.par⟩, active := true },
            uops := [if s.pending.kind = .desNcb then 0x6000
              else if s.pending.kind = .aesEcb then 0x6100 else 0x6200] }
        | [] =>
          t = { s with
            mem := t.mem, phase := .writeback, ecb := { s.ecb with active := false },
            sc := { s.sc with advanced := s.sc.adv, remaining := [] } }

/-- A DECRYPT in flight whose completion is due completes (R359), from every state of the invariant: a run
of steps ends with BUSY = 0, the sequencer idle and one response more, OK or KEY_NOT_SET, and no byte
outside the latched ranges has changed (R94). So no engine access of a completion goes outside valid
memory (R80), and none of its operations stops. -/
def Obligations.EveryCompletionEnds : Prop :=
  ∀ s : State, Inv s → s.uops = [] → s.phase = .idle → s.completionDue = true →
    ∃ (k : Nat) (t : State), stepN k s = .next t
      ∧ t.busy = false ∧ t.phase = .idle ∧ t.uops = []
      ∧ (∃ r, t.resp = s.resp ++ [r] ∧ r.opc = 0x03 ∧ (r.status = 0x00 ∨ r.status = 0x07))
      ∧ SameMemoryOutside (fun a => inRanges s.pending.ranges a = true) s t

/-- Where an engine operation stops by name: a push with no slot left, against the preconditions of R213,
R220, R221 and R245 (log 12), and an access to a byte that is not valid, which R80 does not define
(log 13). The slots of SC_ROUND are all that it works, also where alive[it] > alive[it - 1] (log 32). -/
def Obligations.StopsOutsideThePreconditions : Prop :=
  ∀ s : State,
    (∀ mode jOdd, s.st.soff.val = 0 → exec (.sStep mode jOdd) s = .fault .ringUnderflow)
      ∧ (s.st.soff.val < 32 → exec .sInit s = .fault .ringUnderflow
          ∧ exec .sGen s = .fault .ringUnderflow
          ∧ ∀ it, exec (.scRound it) s = .fault .ringUnderflow)
      ∧ (∀ t, s.bk.boff.val = 0 → exec (.bcRound t) s = .fault .ringUnderflow)
      ∧ (s.bk.boff.val < 56 → exec .bcDecipher s = .fault .ringUnderflow)
      ∧ (∀ a, s.ecb.op.pkt + s.ecb.op.off ≤ a → memValid s.cfg a = false →
          (a < s.ecb.op.pkt + s.ecb.op.off + 8 * s.ecb.op.nb →
            exec .pDesNcb s = .fault .invalidAccess)
          ∧ (a < s.ecb.op.pkt + s.ecb.op.off + 16 * s.ecb.op.nb →
            exec .pAesEcb s = .fault .invalidAccess ∧ exec .pAes128Ecb s = .fault .invalidAccess))
      ∧ (∀ g k, g < s.sc.grouped → k < 8 → memValid s.cfg (s.sc.payloadAt g + k) = false →
          exec .scRound0 s = .fault .invalidAccess)
      ∧ (∀ g k, s.sc.alive[23] ≤ g → g < s.sc.alive[22] → k < 8 → 8 ≤ s.sc.encpAt g →
          memValid s.cfg (s.sc.encpAt g - 8 + k) = false →
          exec .scRound23 s = .fault .invalidAccess)
      ∧ (∀ (it : SchedRound) g, s.st.soff.val = 32 →
          g < max (s.sc.aliveBefore it.val) (s.sc.aliveAfter it.val) →
          (s.sc.encpAt g < 8 ∨ ∃ k, k < roundWidth s (s.sc.aliveAfter it.val) g
            ∧ memValid s.cfg (s.sc.encpAt g - 8 + k) = false) →
          exec (.scRound it) s = .fault .invalidAccess)
      ∧ (∀ r rest, s.pending.ranges = r :: rest → r.start.toNat < r.stop.toNat →
          memValid s.cfg (r.start.toNat + 3) = false → exec .scScan s = .fault .invalidAccess)

end Statements
end

