-- ==== Sys2Proof/Laws/Lanes.lean ====
section
/-!
SUPPORT. The lane-by-lane operations of Ops.lean and Operands.lean: what each gives in one lane.
-/

namespace Sys2Proof.Machine

/-- An entry of a vector, by a number in its range. -/
theorem vector_getD_of_lt {α : Type} {n : Nat} (v : Vector α n) (i : Nat) (d : α) (h : i < n) :
    v.getD i d = v[i] := by simp [Vector.getD, h]

/-- The lane count of a build is at most what the registers hold. -/
theorem Build.n_le (c : Build) : c.n ≤ maxLanes := by
  unfold Build.n Lanes.toNat maxLanes; split <;> omega

/-- A build has at least 32 lanes. -/
theorem Build.le_n (c : Build) : 32 ≤ c.n := by
  unfold Build.n Lanes.toNat; split <;> omega

/-! ## Groups -/

@[simp] theorem laneMask_getLsbD {n : Nat} (hn : n ≤ maxLanes) (i : Nat) :
    (laneMask n).getLsbD i = decide (i < n) := by
  unfold laneMask
  rw [BitVec.getLsbD_ofNat, Nat.testBit_two_pow_sub_one]
  unfold maxLanes at *
  by_cases h : i < n
  · have : i < 128 := by omega
    simp [h, this]
  · simp [h]

@[simp] theorem groupBcast_getLsbD {n : Nat} (hn : n ≤ maxLanes) (v : Bool) (i : Nat) :
    (groupBcast n v).getLsbD i = (decide (i < n) && v) := by
  unfold groupBcast
  cases v <;> simp [hn]

@[simp] theorem groupNot_getLsbD {n : Nat} (hn : n ≤ maxLanes) (a : Group) (i : Nat) :
    (groupNot n a).getLsbD i = (decide (i < n) && !a.getLsbD i) := by
  unfold groupNot
  rw [BitVec.getLsbD_and, BitVec.getLsbD_not, laneMask_getLsbD hn]
  by_cases hi : i < n
  · have h : i < maxLanes := by omega
    rw [decide_eq_true hi, decide_eq_true h]; simp
  · rw [decide_eq_false hi]; simp

@[simp] theorem groupSel_getLsbD (m u v : Group) (i : Nat) :
    (groupSel m u v).getLsbD i = if m.getLsbD i then u.getLsbD i else v.getLsbD i := by
  unfold groupSel
  rw [BitVec.getLsbD_or, BitVec.getLsbD_and, BitVec.getLsbD_and, BitVec.getLsbD_not]
  by_cases hi : i < maxLanes
  · rw [decide_eq_true hi]; cases m.getLsbD i <;> simp only [Bool.false_and, Bool.true_and,
      Bool.not_true, Bool.not_false, Bool.or_false, Bool.false_or, if_true, if_false,
      Bool.false_eq_true]
  · have h (g : Group) : g.getLsbD i = false := BitVec.getLsbD_of_ge g i (by omega)
    rw [h, h, h]; simp

theorem groupOfAux_getLsbD (f : Nat → Bool) (k i : Nat) (hk : k ≤ maxLanes) :
    (groupOfAux f k).getLsbD i = (decide (i < k) && f i) := by
  induction k with
  | zero => simp [groupOfAux]
  | succ k ih =>
    rw [groupOfAux, BitVec.getLsbD_or, ih (by omega)]
    have hb : (BitVec.ofNat maxLanes (2 ^ k)).getLsbD i = decide (i = k) := by
      rw [BitVec.getLsbD_ofNat, Nat.testBit_two_pow]
      by_cases h : k = i
      · subst h; simp; omega
      · simp [h, Ne.symm h]
    have hif : (if f k = true then BitVec.ofNat maxLanes (2 ^ k) else 0).getLsbD i
        = (decide (i = k) && f k) := by
      cases f k
      · rw [if_neg (by decide)]; simp
      · rw [if_pos rfl, hb]; simp
    rw [hif]
    by_cases hik : i = k
    · subst hik; simp
    · have h1 : decide (i < k + 1) = decide (i < k) := by
        apply decide_eq_decide.mpr; omega
      rw [h1, decide_eq_false hik]; simp

@[simp] theorem mergeLanes_getLsbD {c : Nat} (hc : c ≤ maxLanes) (old new : Group) (i : Nat) :
    (mergeLanes c old new).getLsbD i = if i < c then new.getLsbD i else old.getLsbD i := by
  unfold mergeLanes
  rw [BitVec.getLsbD_or, BitVec.getLsbD_and, BitVec.getLsbD_and, BitVec.getLsbD_not,
    laneMask_getLsbD hc]
  by_cases hi : i < maxLanes
  · by_cases h : i < c
    · rw [decide_eq_true h, if_pos h]; simp
    · rw [decide_eq_true hi, decide_eq_false h, if_neg h]; simp
  · have h (g : Group) : g.getLsbD i = false := BitVec.getLsbD_of_ge g i (by omega)
    rw [h, h]; simp

@[simp] theorem groupOf_getLsbD {n : Nat} (hn : n ≤ maxLanes) (f : Nat → Bool) (i : Nat) :
    (groupOf n f).getLsbD i = (decide (i < n) && f i) := by
  unfold groupOf
  rw [Nat.min_eq_left hn]
  exact groupOfAux_getLsbD f n i hn

/-! ## Byte slices -/

@[simp] theorem sliceOf_getElem (n : Nat) (f : Fin maxLanes → Byte) (i : Nat) (h : i < maxLanes) :
    (sliceOf n f)[i] = if i < n then f ⟨i, h⟩ else 0 := by simp [sliceOf]

@[simp] theorem sliceMap_getElem (n : Nat) (f : Byte → Byte) (a : Slice) (i : Nat)
    (h : i < maxLanes) : (sliceMap n f a)[i] = if i < n then f a[i] else 0 := by simp [sliceMap]

@[simp] theorem sliceMap2_getElem (n : Nat) (f : Byte → Byte → Byte) (a b : Slice) (i : Nat)
    (h : i < maxLanes) : (sliceMap2 n f a b)[i] = if i < n then f a[i] b[i] else 0 := by
  simp [sliceMap2]

@[simp] theorem sliceBcast_getElem (n : Nat) (c : Byte) (i : Nat) (h : i < maxLanes) :
    (sliceBcast n c)[i] = if i < n then c else 0 := by simp [sliceBcast]

@[simp] theorem sliceXor_getElem (n : Nat) (a b : Slice) (i : Nat) (h : i < maxLanes) :
    (sliceXor n a b)[i] = if i < n then a[i] ^^^ b[i] else 0 := by simp [sliceXor]

@[simp] theorem sliceAnd_getElem (n : Nat) (a b : Slice) (i : Nat) (h : i < maxLanes) :
    (sliceAnd n a b)[i] = if i < n then a[i] &&& b[i] else 0 := by simp [sliceAnd]

@[simp] theorem sliceOr_getElem (n : Nat) (a b : Slice) (i : Nat) (h : i < maxLanes) :
    (sliceOr n a b)[i] = if i < n then a[i] ||| b[i] else 0 := by simp [sliceOr]

@[simp] theorem sliceNot_getElem (n : Nat) (a : Slice) (i : Nat) (h : i < maxLanes) :
    (sliceNot n a)[i] = if i < n then ~~~ a[i] else 0 := by simp [sliceNot]

@[simp] theorem sliceSbox_getElem (t : Tables) (n : Nat) (a : Slice) (i : Nat) (h : i < maxLanes) :
    (sliceSbox t n a)[i] = if i < n then sboxByte t a[i] else 0 := by simp [sliceSbox]

@[simp] theorem sliceShl_getElem (n k : Nat) (a : Slice) (i : Nat) (h : i < maxLanes) :
    (sliceShl n k a)[i] = if i < n then a[i] <<< k else 0 := by simp [sliceShl]

@[simp] theorem sliceShr_getElem (n k : Nat) (a : Slice) (i : Nat) (h : i < maxLanes) :
    (sliceShr n k a)[i] = if i < n then a[i] >>> k else 0 := by simp [sliceShr]

/-! ## PERM -/

theorem foldl_or_getLsbD (l : List Byte) (v : Byte) (o : Nat) :
    (l.foldl (· ||| ·) v).getLsbD o = (v.getLsbD o || l.any fun b => b.getLsbD o) := by
  induction l generalizing v with
  | nil => simp
  | cons b l ih => simp [ih, Bool.or_assoc]

theorem byte_zero_getLsbD (o : Nat) : (0 : Byte).getLsbD o = false := by simp

/-- The bits of a mask are the positions it selects. -/
theorem maskOf_getLsbD (hit : Nat → Bool) (o : Nat) :
    (maskOf hit).getLsbD o = (decide (o < 8) && hit o) := by
  have step (l : List Nat) (hl : ∀ i ∈ l, i < 8) (m : Byte) :
      (l.foldl (fun m i => if hit i then m ||| 1#8 <<< i else m) m).getLsbD o
        = (m.getLsbD o || l.any fun i => decide (i = o) && hit i) := by
    induction l generalizing m with
    | nil => simp
    | cons i l ih =>
      have hi : i < 8 := hl i (by simp)
      rw [List.foldl_cons, ih (fun j hj => hl j (by simp [hj]))]
      have hbit : (1#8 <<< i).getLsbD o = decide (i = o) := by
        rw [BitVec.getLsbD_shiftLeft, BitVec.getLsbD_one]
        by_cases h : i = o
        · subst h; simp [hi]
        · simp [h]; omega
      cases hh : hit i <;> simp [hbit, hh, Bool.or_assoc]
  unfold maskOf
  rw [step _ (fun i hi => List.mem_range.mp hi), byte_zero_getLsbD, Bool.false_or]
  apply Bool.eq_iff_iff.mpr
  simp only [List.any_eq_true, List.mem_range, Bool.and_eq_true, decide_eq_true_eq]
  exact ⟨fun ⟨i, hi, he, hh⟩ => he ▸ ⟨hi, hh⟩, fun ⟨h1, h2⟩ => ⟨o, h1, rfl, h2⟩⟩

/-- A mask is in the list exactly when its count is below 8 and it selects a bit. -/
theorem mem_permMasks {moves : Nat → Nat → Bool} {km : Nat × Byte} :
    km ∈ permMasks moves ↔ km.1 < 8 ∧ km.2 = maskOf (moves km.1) ∧ km.2 ≠ 0 := by
  obtain ⟨k, m⟩ := km
  simp only [permMasks, List.mem_filter, List.mem_map, List.mem_range, Prod.mk.injEq, bne_iff_ne]
  exact ⟨fun ⟨⟨_, hj, hk, hm⟩, h0⟩ => hk ▸ ⟨hj, hm.symm, h0⟩,
    fun ⟨hj, hm, h0⟩ => ⟨⟨k, hj, rfl, hm.symm⟩, h0⟩⟩

/-- A mask that has a bit is not zero. -/
theorem ne_zero_of_getLsbD {m : Byte} {i : Nat} (h : m.getLsbD i = true) : m ≠ 0 := by
  rintro rfl; simp at h

/-- A position that a count selects is a bit of a mask of the list. -/
theorem exists_mask {moves : Nat → Nat → Bool} {k i : Nat} (hi : i < 8) (hk : k < 8)
    (h : moves k i = true) : ∃ m, (k, m) ∈ permMasks moves ∧ m.getLsbD i = true := by
  have hb : (maskOf (moves k)).getLsbD i = true := by
    rw [maskOf_getLsbD, decide_eq_true hi, h]; rfl
  exact ⟨_, mem_permMasks.mpr ⟨hk, rfl, ne_zero_of_getLsbD hb⟩, hb⟩

/-- PERM of a byte in the shift-and-mask form of R247. -/
def maskPerm (t : Tables) (x : Byte) : Byte :=
  (((permLeft t).map fun km => (x &&& km.2) <<< km.1)
    ++ (permRight t).map fun km => (x &&& km.2) >>> km.1).foldl (· ||| ·) 0

theorem permByte_getLsbD (t : Tables) (x : Byte) (o : Nat) (ho : o < 8) :
    (permByte t x).getLsbD o = true ↔ ∃ i, i < 8 ∧ x.getLsbD i = true ∧ t.permBit.getD i 0 = o := by
  have e : permByte t x
      = ((List.range 8).map fun i => if x.getLsbD i then 1#8 <<< t.permBit.getD i 0 else 0).foldl
          (· ||| ·) 0 := by rw [List.foldl_map]; rfl
  rw [e, foldl_or_getLsbD, byte_zero_getLsbD, Bool.false_or, List.any_map, List.any_eq_true]
  refine exists_congr fun i => ?_
  rw [List.mem_range]
  refine and_congr_right fun _ => ?_
  simp only [Function.comp]
  cases x.getLsbD i
  · simp
  · simp only [if_true, BitVec.getLsbD_shiftLeft, BitVec.getLsbD_one, true_and]
    simp [ho]; omega

/-- The two forms of PERM agree (R247, R248), whatever the table. -/
theorem maskPerm_eq_permByte (t : Tables) (x : Byte) : maskPerm t x = permByte t x := by
  apply BitVec.eq_of_getLsbD_eq
  intro o ho
  apply Bool.eq_iff_iff.mpr
  rw [permByte_getLsbD t x o ho, maskPerm, foldl_or_getLsbD, byte_zero_getLsbD, Bool.false_or,
    List.any_append, Bool.or_eq_true, List.any_map, List.any_map, List.any_eq_true,
    List.any_eq_true]
  constructor
  · rintro (⟨⟨k, m⟩, hm, hb⟩ | ⟨⟨k, m⟩, hm, hb⟩)
    · obtain ⟨_, hm, _⟩ := mem_permMasks.mp hm
      simp only [Function.comp] at hm hb
      rw [hm] at hb
      simp [maskOf_getLsbD, -List.getD_eq_getElem?_getD] at hb
      exact ⟨o - k, by omega, hb.2.1, by have := hb.2.2.2; omega⟩
    · obtain ⟨_, hm, _⟩ := mem_permMasks.mp hm
      simp only [Function.comp] at hm hb
      rw [hm] at hb
      simp [maskOf_getLsbD, -List.getD_eq_getElem?_getD] at hb
      exact ⟨k + o, by omega, hb.1, by have := hb.2.2.2; omega⟩
  · rintro ⟨i, hi, hx, hp⟩
    by_cases h : i ≤ o
    · obtain ⟨m, hm, hb⟩ := exists_mask (moves := fun k j => t.permBit.getD j 0 == j + k)
        (k := o - i) hi (by omega) (by rw [hp]; simp; omega)
      refine .inl ⟨(o - i, m), hm, ?_⟩
      have e : o - (o - i) = i := by omega
      simp only [Function.comp, BitVec.getLsbD_shiftLeft, BitVec.getLsbD_and, e, hx, hb]
      simp; omega
    · obtain ⟨m, hm, hb⟩ := exists_mask
        (moves := fun k j => decide (1 ≤ k) && j == t.permBit.getD j 0 + k)
        (k := i - o) hi (by omega) (by rw [hp]; simp; omega)
      refine .inr ⟨(i - o, m), hm, ?_⟩
      have e : i - o + o = i := by omega
      simp only [Function.comp, BitVec.getLsbD_ushiftRight, BitVec.getLsbD_and, e, hx, hb]
      rfl

theorem foldl_sliceOr_getElem (n : Nat) (l : List Slice) (v : Slice) (i : Nat) (h : i < maxLanes)
    (b : Byte) (hv : v[i] = if i < n then b else 0) :
    (l.foldl (sliceOr n) v)[i] = if i < n then (l.map fun a => a[i]).foldl (· ||| ·) b else 0 := by
  induction l generalizing v b with
  | nil => exact hv
  | cons a l ih =>
    rw [List.foldl_cons, ih (sliceOr n v a) (b ||| a[i])
      (by rw [sliceOr_getElem, hv]; split <;> rfl)]
    rfl

/-- PERM on a byte slice is, in each lane, the bit table (R247, R248). -/
theorem slicePerm_getElem (c : Build) (a : Slice) (i : Nat) (h : i < maxLanes) :
    (slicePerm c a)[i] = if i < c.n then permByte c.tables a[i] else 0 := by
  unfold slicePerm
  rw [foldl_sliceOr_getElem c.n _ _ i h 0 (by simp)]
  split
  · next hn =>
    rw [← maskPerm_eq_permByte, maskPerm]
    generalize permLeft c.tables = l
    generalize permRight c.tables = r
    rw [List.map_append, List.map_map, List.map_map]
    exact congrArg (List.foldl (· ||| ·) 0) (congrArg₂ (· ++ ·)
      (List.map_congr_left fun km _ => by simp [hn])
      (List.map_congr_left fun km _ => by simp [hn]))
  · rfl

/-! ## Blocks -/

@[simp] theorem blockXor_getElem {k : Nat} (a b : Bytes k) (i : Nat) (h : i < k) :
    (blockXor a b)[i] = a[i] ^^^ b[i] := by simp [blockXor]

theorem laneBlock_of_lt (v : Vector Block maxLanes) {i : Nat} (h : i < maxLanes) :
    laneBlock v i = v[i] :=
  vector_getD_of_lt v i _ h

/-! ## Nibbles -/

@[simp] theorem nibOf_bit3 (b3 b2 b1 b0 : Bool) : (nibOf b3 b2 b1 b0).getLsbD 3 = b3 := by
  revert b3 b2 b1 b0; decide

@[simp] theorem nibOf_bit2 (b3 b2 b1 b0 : Bool) : (nibOf b3 b2 b1 b0).getLsbD 2 = b2 := by
  revert b3 b2 b1 b0; decide

@[simp] theorem nibOf_bit1 (b3 b2 b1 b0 : Bool) : (nibOf b3 b2 b1 b0).getLsbD 1 = b1 := by
  revert b3 b2 b1 b0; decide

@[simp] theorem nibOf_bit0 (b3 b2 b1 b0 : Bool) : (nibOf b3 b2 b1 b0).getLsbD 0 = b0 := by
  revert b3 b2 b1 b0; decide

/-- The nibble of a lane is made of the lane's bits of the four groups. -/
theorem NibbleG.lane_eq (v : NibbleG) (i : Nat) :
    v.lane i = nibOf (v.b3.getLsbD i) (v.b2.getLsbD i) (v.b1.getLsbD i) (v.b0.getLsbD i) := rfl

theorem NibbleG.lane_getLsbD (v : NibbleG) (i b : Nat) (hb : b < 4) :
    (v.lane i).getLsbD b = (v.bit b).getLsbD i := by
  have h : b = 0 ∨ b = 1 ∨ b = 2 ∨ b = 3 := by omega
  rw [NibbleG.lane_eq]
  rcases h with h | h | h | h <;> subst h
  · rw [nibOf_bit0]; rfl
  · rw [nibOf_bit1]; rfl
  · rw [nibOf_bit2]; rfl
  · rw [nibOf_bit3]; rfl

/-- Two nibbles per lane with the same bits in a lane have the same nibble there. -/
theorem NibbleG.lane_ext {u v : NibbleG} {i j : Nat}
    (h : ∀ b, b < 4 → (u.bit b).getLsbD i = (v.bit b).getLsbD j) : u.lane i = v.lane j := by
  apply BitVec.eq_of_getLsbD_eq
  intro b hb
  rw [NibbleG.lane_getLsbD _ _ _ hb, NibbleG.lane_getLsbD _ _ _ hb, h b hb]

@[simp] theorem NibbleG.lane_zero (i : Nat) : NibbleG.zero.lane i = 0 := by
  simp [NibbleG.lane, NibbleG.zero]

theorem nibbleOf_lane {n : Nat} (hn : n ≤ maxLanes) (f : Nat → Nib) {i : Nat} (hi : i < n) :
    (nibbleOf n f).lane i = f i := by
  apply BitVec.eq_of_getLsbD_eq
  intro b hb
  rw [NibbleG.lane_getLsbD _ _ _ hb]
  have h : b = 0 ∨ b = 1 ∨ b = 2 ∨ b = 3 := by omega
  rcases h with h | h | h | h <;> subst h <;> simp [NibbleG.bit, nibbleOf, hn, hi]

theorem nibbleBcast_lane {n : Nat} (hn : n ≤ maxLanes) (v : Nib) {i : Nat} (hi : i < n) :
    (nibbleBcast n v).lane i = v := by
  apply BitVec.eq_of_getLsbD_eq
  intro b hb
  rw [NibbleG.lane_getLsbD _ _ _ hb]
  have h : b = 0 ∨ b = 1 ∨ b = 2 ∨ b = 3 := by omega
  rcases h with h | h | h | h <;> subst h <;> simp [NibbleG.bit, nibbleBcast, hn, hi]

end Sys2Proof.Machine
end

