-- ==== Sys2Proof/Laws/Memory.lean ====
section
/-!
SUPPORT. Packet memory: every operation keeps the canonical form, a read after a write gives the value
written, and a write leaves every other byte alone.
-/

namespace Sys2Proof.Machine

/-! ## Cells -/

theorem lookupCell_removeCell (a b : Nat) (l : List Host.Cell) :
    lookupCell b (removeCell a l) = if b = a then Memory.unlisted else lookupCell b l := by
  induction l with
  | nil => simp [removeCell, lookupCell]
  | cons c l ih =>
    obtain ⟨k, w⟩ := c
    by_cases hk : k = a
    · by_cases hb : b = a
      · simp [removeCell, hk, hb] at ih ⊢; exact ih
      · simp [removeCell, lookupCell, hk, hb, Ne.symm hb] at ih ⊢; exact ih
    · by_cases hkb : k = b
      · have : b ≠ a := by omega
        simp [removeCell, lookupCell, hkb, this]
      · simp [removeCell, lookupCell, hk, hkb, ih]

theorem lookupCell_placeCell (a b : Nat) (v : Byte) (l : List Host.Cell) :
    lookupCell b (placeCell a v l) = if b = a then v else lookupCell b l := by
  induction l with
  | nil =>
    by_cases hb : b = a
    · simp [placeCell, lookupCell, hb]
    · simp [placeCell, lookupCell, hb, Ne.symm hb]
  | cons c l ih =>
    obtain ⟨k, w⟩ := c
    unfold placeCell
    split
    · by_cases hb : b = a
      · simp [lookupCell, hb]
      · simp [lookupCell, hb, Ne.symm hb]
    · split
      · rename_i h
        subst h
        by_cases hb : b = a
        · simp [lookupCell, hb]
        · simp [lookupCell, hb, Ne.symm hb]
      · by_cases hkb : k = b
        · have : b ≠ a := by omega
          simp [lookupCell, hkb, this]
        · simp [lookupCell, hkb, ih]

theorem lookupCell_insertCell (a b : Nat) (v : Byte) (l : List Host.Cell) :
    lookupCell b (insertCell a v l) = if b = a then v else lookupCell b l := by
  unfold insertCell
  split
  · rename_i hv; rw [lookupCell_removeCell, hv]
  · exact lookupCell_placeCell a b v l

theorem cellsWf_mono {lo lo' : Nat} {l : List Host.Cell} (h : lo' ≤ lo) (hl : cellsWf lo l = true) :
    cellsWf lo' l = true := by
  cases l with
  | nil => rfl
  | cons c l => 
    obtain ⟨k, w⟩ := c
    simp only [cellsWf, Bool.and_eq_true, decide_eq_true_eq] at hl ⊢
    exact ⟨⟨⟨by omega, hl.1.1.2⟩, hl.1.2⟩, hl.2⟩

theorem cellsWf_removeCell {lo : Nat} (a : Nat) {l : List Host.Cell} (hl : cellsWf lo l = true) :
    cellsWf lo (removeCell a l) = true := by
  induction l generalizing lo with
  | nil => rfl
  | cons c l ih =>
    obtain ⟨k, w⟩ := c
    simp only [cellsWf, Bool.and_eq_true, decide_eq_true_eq] at hl
    unfold removeCell
    split
    · exact cellsWf_mono (by omega) (ih hl.2)
    · simp [cellsWf, ih hl.2, hl.1.1.1, hl.1.1.2]; simpa using hl.1.2

theorem cellsWf_placeCell {lo a : Nat} {v : Byte} {l : List Host.Cell} (hl : cellsWf lo l = true)
    (hlo : lo ≤ a) (ha : a < memSize) (hv : v ≠ Memory.unlisted) :
    cellsWf lo (placeCell a v l) = true := by
  induction l generalizing lo with
  | nil => simp [placeCell, cellsWf, hlo, ha, hv]
  | cons c l ih =>
    obtain ⟨k, w⟩ := c
    have h := hl
    simp only [cellsWf, Bool.and_eq_true, decide_eq_true_eq] at h
    unfold placeCell
    split
    · simp [cellsWf, hlo, ha, hv, h.1.1.2, h.2]
      exact ⟨by omega, by simpa using h.1.2⟩
    · split
      · subst_vars; simp [cellsWf, hlo, ha, hv, h.2]
      · simp [cellsWf, h.1.1.1, h.1.1.2, ih h.2 (by omega)]; simpa using h.1.2

theorem cellsWf_insertCell {lo a : Nat} {v : Byte} {l : List Host.Cell} (hl : cellsWf lo l = true)
    (hlo : lo ≤ a) (ha : a < memSize) : cellsWf lo (insertCell a v l) = true := by
  unfold insertCell
  split
  · exact cellsWf_removeCell a hl
  · exact cellsWf_placeCell hl hlo ha (by assumption)

/-- A memory in canonical form lists no byte past the address space. -/
theorem lookupCell_of_le {lo a : Nat} {l : List Host.Cell} (hl : cellsWf lo l = true)
    (ha : memSize ≤ a) : lookupCell a l = Memory.unlisted := by
  induction l generalizing lo with
  | nil => rfl
  | cons c l ih =>
    obtain ⟨k, w⟩ := c
    simp only [cellsWf, Bool.and_eq_true, decide_eq_true_eq] at hl
    have : k ≠ a := by omega
    simp [lookupCell, this, ih hl.2]

/-! ## Single bytes -/

/-- Reading a byte after a byte is set. -/
theorem Memory.get_set (m : Memory) (a b : Nat) (v : Byte) :
    (m.set a v).get b = if b = a ∧ a < memSize then v else m.get b := by
  unfold Memory.set Memory.get
  split
  · rename_i h; simp [lookupCell_insertCell, h]
  · rename_i h; simp [h]

@[simp] theorem Memory.get_set_self (m : Memory) (a : Nat) (v : Byte) (h : a < memSize) :
    (m.set a v).get a = v := by simp [Memory.get_set, h]

@[simp] theorem Memory.get_set_ne (m : Memory) {a b : Nat} (v : Byte) (h : b ≠ a) :
    (m.set a v).get b = m.get b := by simp [Memory.get_set, h]

/-- Setting a byte keeps the canonical form. -/
theorem Memory.wf_set {m : Memory} (h : m.wf = true) (a : Nat) (v : Byte) :
    (m.set a v).wf = true := by
  unfold Memory.set
  split
  · exact cellsWf_insertCell h (Nat.zero_le a) (by assumption)
  · exact h

/-! ## Sequences of bytes -/

/-- Reading a byte after a sequence is written: from `a` on the sequence, elsewhere as before. -/
theorem Memory.get_write (m : Memory) (a b : Nat) (l : List Byte) (h : a + l.length ≤ memSize) :
    (m.write a l).get b = if h : a ≤ b ∧ b < a + l.length then l[b - a]'(by omega) else m.get b := by
  induction l generalizing m a with
  | nil =>
    have : ¬ (a ≤ b ∧ b < a) := by omega
    simp [Memory.write, this]
  | cons x l ih =>
    simp only [List.length_cons] at h
    rw [Memory.write, ih _ _ (by omega)]
    by_cases h1 : a + 1 ≤ b ∧ b < a + 1 + l.length
    · have h2 : a ≤ b ∧ b < a + (x :: l).length := by simp; omega
      have h3 : b - a = (b - (a + 1)) + 1 := by omega
      rw [dif_pos h1, dif_pos h2]
      simp [h3]
    · rw [dif_neg h1, Memory.get_set]
      by_cases h2 : b = a
      · subst h2; simp; omega
      · have h3 : ¬ (a ≤ b ∧ b < a + (x :: l).length) := by simp; omega
        rw [dif_neg h3]; simp [h2]

/-- A write leaves the bytes outside alone, wherever it goes. -/
theorem Memory.get_write_outside (m : Memory) (a b : Nat) (l : List Byte)
    (h : b < a ∨ a + l.length ≤ b) : (m.write a l).get b = m.get b := by
  induction l generalizing m a with
  | nil => rfl
  | cons x l ih =>
    simp only [List.length_cons] at h
    rw [Memory.write, ih _ _ (by omega), Memory.get_set_ne _ _ (by omega)]

theorem Memory.wf_write {m : Memory} (h : m.wf = true) (a : Nat) (l : List Byte) :
    (m.write a l).wf = true := by
  induction l generalizing m a with
  | nil => exact h
  | cons x l ih => exact ih (Memory.wf_set h a x) (a + 1)

/-- A byte of a sequence that is read. -/
@[simp] theorem Memory.getElem_read (m : Memory) (a n i : Nat) (h : i < n) :
    (m.read a n)[i] = m.get (a + i) := by simp [Memory.read]

/-- Equal bytes, equal sequences. -/
theorem Memory.read_congr {m m' : Memory} {a n : Nat} (h : ∀ i, i < n → m.get (a + i) = m'.get (a + i)) :
    m.read a n = m'.read a n := by
  apply Vector.ext; intro i hi; simp [h i hi]

/-- A sequence that is written is read back. -/
theorem Memory.read_write (m : Memory) (a : Nat) {n : Nat} (v : Bytes n) (h : a + n ≤ memSize) :
    (m.write a v.toList).read a n = v := by
  apply Vector.ext; intro i hi
  have hl : v.toList.length = n := by simp
  rw [Memory.getElem_read _ _ _ _ hi, Memory.get_write _ _ _ _ (by omega)]
  have : a ≤ a + i ∧ a + i < a + v.toList.length := by omega
  rw [dif_pos this]
  simp

/-! ## Dropped bytes -/

theorem get_scrambleBytes (draw a n b : Nat) (m : Memory) (h : a + n ≤ memSize) :
    (scrambleBytes draw a n m).get b
      = if a ≤ b ∧ b < a + n then Config.unspecifiedByte draw b else m.get b := by
  induction n generalizing m a with
  | zero =>
    simp [scrambleBytes]
  | succ n ih =>
    rw [scrambleBytes, ih _ _ (by omega), Memory.get_set]
    by_cases h2 : b = a
    · subst h2
      have h3 : ¬ (b + 1 ≤ b ∧ b < b + 1 + n) := by omega
      have h4 : b ≤ b ∧ b < b + (n + 1) := by omega
      have h5 : b < memSize := by omega
      rw [if_neg h3, if_pos h4, if_pos ⟨rfl, h5⟩]
    · have h3 : (a + 1 ≤ b ∧ b < a + 1 + n) ↔ (a ≤ b ∧ b < a + (n + 1)) := by omega
      have h4 : ¬ (b = a ∧ a < memSize) := by tauto
      simp only [h3, if_neg h4]

theorem wf_scrambleBytes (draw a n : Nat) {m : Memory} (h : m.wf = true) :
    (scrambleBytes draw a n m).wf = true := by
  induction n generalizing m a with
  | zero => exact h
  | succ n ih => exact ih (a + 1) (Memory.wf_set h a _)

theorem wf_scrambleRanges (draw : Nat) (rs : List Range) {m : Memory} (h : m.wf = true) :
    (scrambleRanges draw rs m).wf = true := by
  induction rs generalizing m with
  | nil => exact h
  | cons r rs ih => exact ih (wf_scrambleBytes draw _ _ h)

/-- The bytes of the ranges hold the free values of the draw; the others are as before. -/
theorem get_scrambleRanges (draw : Nat) (rs : List Range) (m : Memory) (b : Nat) :
    (scrambleRanges draw rs m).get b
      = if inRanges rs b = true then Config.unspecifiedByte draw b else m.get b := by
  induction rs generalizing m with
  | nil => simp [scrambleRanges, inRanges]
  | cons r rs ih =>
    have h1 : r.start.toNat + (r.stop.toNat - r.start.toNat) ≤ memSize := by
      have h2 := r.start.isLt; have h3 := r.stop.isLt
      simp only [memSize]; omega
    rw [scrambleRanges, ih, get_scrambleBytes _ _ _ _ _ h1]
    have h4 : (r.start.toNat ≤ b ∧ b < r.start.toNat + (r.stop.toNat - r.start.toNat))
        ↔ (r.start.toNat ≤ b ∧ b < r.stop.toNat) := by omega
    by_cases h5 : inRanges rs b = true
    · have h6 : inRanges (r :: rs) b = true := by simp [inRanges] at h5 ⊢; exact Or.inr h5
      simp [h5, h6]
    · have h6 : inRanges (r :: rs) b = true ↔ (r.start.toNat ≤ b ∧ b < r.stop.toNat) := by
        simp only [inRanges, List.any_cons, Bool.or_eq_true, Bool.and_eq_true, decide_eq_true_eq]
        simp only [inRanges] at h5
        tauto
      simp [h5, h6, h4]

/-! ## The other memory operations keep the canonical form -/

theorem wf_residue (so : Block) (a m k : Nat) {mem : Memory} (h : mem.wf = true) :
    (residue so a m k mem).wf = true := by
  induction k generalizing mem m with
  | zero => exact h
  | succ k ih => exact ih (m + 1) (Memory.wf_set h _ _)

theorem wf_decipherBlocks (b : Nat) (dec : Bytes b → Bytes b) (a nb : Nat) {m : Memory}
    (h : m.wf = true) : (decipherBlocks b dec a nb m).wf = true := by
  induction nb generalizing m a with
  | zero => exact h
  | succ nb ih => exact ih (a + b) (Memory.wf_write h _ _)

theorem wf_clearTsc {m : Memory} (h : m.wf = true) (a : Nat) : (clearTsc m a).wf = true :=
  Memory.wf_set h _ _

theorem wf_clearSlots (sc : SchedRegs) (g k : Nat) {m : Memory} (h : m.wf = true) :
    (clearSlots sc g k m).wf = true := by
  induction k generalizing m g with
  | zero => exact h
  | succ k ih => exact ih (g + 1) (wf_clearTsc h _)

/-- The memory of the reset state has the form. -/
theorem wf_reset : State.reset.mem.wf = true := rfl

/-! ## Valid accesses -/

/-- The walk over the regions finds out whether every address is in one of them. -/
theorem coversFrom_sound (rs : List Region) (fuel cur stop : Nat)
    (h : coversFrom rs fuel cur stop = true) (a : Nat) (h1 : cur ≤ a) (h2 : a < stop) :
    (rs.any fun r => decide (r.lo ≤ a) && decide (a < r.hi)) = true := by
  induction fuel generalizing cur with
  | zero =>
    unfold coversFrom at h
    have : ¬ stop ≤ cur := by omega
    simp [this] at h
  | succ fuel ih =>
    unfold coversFrom at h
    have h3 : ¬ stop ≤ cur := by omega
    simp only [h3, if_false] at h
    split at h
    · simp at h
    · rename_i r hr
      by_cases h4 : r.hi ≤ a
      · exact ih _ h h4
      · have h5 := List.find?_some hr
        simp only [Bool.and_eq_true, decide_eq_true_eq] at h5
        rw [List.any_eq_true]
        exact ⟨r, List.mem_of_find?_eq_some hr, by simp; omega⟩

theorem coversFrom_complete (rs : List Region) (fuel cur stop : Nat)
    (hf : (rs.filter fun r => decide (cur < r.hi)).length ≤ fuel)
    (h : ∀ a, cur ≤ a → a < stop →
      (rs.any fun r => decide (r.lo ≤ a) && decide (a < r.hi)) = true) :
    coversFrom rs fuel cur stop = true := by
  induction fuel generalizing cur with
  | zero =>
    unfold coversFrom
    by_cases h3 : stop ≤ cur
    · simp [h3]
    · have h4 := h cur (le_refl _) (by omega)
      rw [List.any_eq_true] at h4
      obtain ⟨r, hr, h5⟩ := h4
      simp only [Bool.and_eq_true, decide_eq_true_eq] at h5
      have h6 : r ∈ rs.filter fun r => decide (cur < r.hi) := by simp [hr, h5.2]
      have h7 := List.length_pos_of_mem h6
      omega
  | succ fuel ih =>
    unfold coversFrom
    by_cases h3 : stop ≤ cur
    · simp [h3]
    · simp only [h3, if_false]
      have h4 := h cur (le_refl _) (by omega)
      split
      · rename_i hn
        rw [List.any_eq_true] at h4
        obtain ⟨r, hr, h5⟩ := h4
        have h6 := List.find?_eq_none.mp hn r hr
        exact absurd h5 h6
      · rename_i r hr
        have h5 := List.find?_some hr
        simp only [Bool.and_eq_true, decide_eq_true_eq] at h5
        have hm := List.mem_of_find?_eq_some hr
        apply ih
        · have h6 : (rs.filter fun q => decide (r.hi < q.hi)).length
              < (rs.filter fun q => decide (cur < q.hi)).length := by
            have h7 : (rs.filter fun q => decide (r.hi < q.hi))
                = (rs.filter fun q => decide (cur < q.hi)).filter fun q => decide (r.hi < q.hi) := by
              rw [List.filter_filter]
              apply List.filter_congr
              intro q _
              by_cases hq : r.hi < q.hi
              · have : cur < q.hi := by omega
                simp [hq, this]
              · simp [hq]
            rw [h7]
            apply lt_of_le_of_ne (List.length_filter_le _ _)
            intro he
            have h8 := List.length_filter_eq_length_iff.mp he r (by simp [hm, h5.2])
            simp at h8
          omega
        · intro a h6 h7
          exact h a (by omega) h7

/-- An access is allowed exactly where R80 defines it: every byte of it is valid. -/
theorem accessOk_iff (c : Build) (a n : Nat) : accessOk c a n = true ↔ ValidBytes c a n := by
  unfold accessOk ValidBytes memValid
  constructor
  · intro h k hk
    simp only [Bool.or_eq_true, beq_iff_eq, Bool.and_eq_true, decide_eq_true_eq] at h
    rcases h with h | ⟨h1, h2⟩
    · omega
    · have h3 := coversFrom_sound _ _ _ _ h2 (a + k) (by omega) (by omega)
      simp only [Bool.and_eq_true, decide_eq_true_eq]
      exact ⟨by omega, h3⟩
  · intro h
    simp only [Bool.or_eq_true, beq_iff_eq, Bool.and_eq_true, decide_eq_true_eq]
    by_cases hn : n = 0
    · exact Or.inl hn
    · right
      have h1 := h (n - 1) (by omega)
      simp only [Bool.and_eq_true, decide_eq_true_eq] at h1
      refine ⟨by omega, coversFrom_complete _ _ _ _ (List.length_filter_le _ _) ?_⟩
      intro x hx1 hx2
      have h2 := h (x - a) (by omega)
      simp only [Bool.and_eq_true, decide_eq_true_eq] at h2
      have h3 : a + (x - a) = x := by omega
      rw [h3] at h2
      exact h2.2

theorem ValidBytes.bound {c : Build} {a n : Nat} (h : ValidBytes c a n) (hn : 0 < n) :
    a + n ≤ memSize := by
  have h1 := h (n - 1) (by omega)
  unfold memValid at h1
  simp only [Bool.and_eq_true, decide_eq_true_eq] at h1
  omega

end Sys2Proof.Machine
end

