-- ==== Sys2Proof/Laws/State.lean ====
section
/-!
SUPPORT. What every named update of the state leaves alone: one lemma for each field.
-/

namespace Sys2Proof.Machine

variable (s : State)

/-! ## respond -/

@[simp] theorem State.respond_cfg (opc : Byte) (c : Status) (p : List Word) :
    (s.respond opc c p).cfg = s.cfg := rfl
@[simp] theorem State.respond_kind (opc : Byte) (c : Status) (p : List Word) :
    (s.respond opc c p).kind = s.kind := rfl
@[simp] theorem State.respond_cw (opc : Byte) (c : Status) (p : List Word) :
    (s.respond opc c p).cw = s.cw := rfl
@[simp] theorem State.respond_keyValid (opc : Byte) (c : Status) (p : List Word) :
    (s.respond opc c p).keyValid = s.keyValid := rfl
@[simp] theorem State.respond_busy (opc : Byte) (c : Status) (p : List Word) :
    (s.respond opc c p).busy = s.busy := rfl
@[simp] theorem State.respond_pending (opc : Byte) (c : Status) (p : List Word) :
    (s.respond opc c p).pending = s.pending := rfl
@[simp] theorem State.respond_faulted (opc : Byte) (c : Status) (p : List Word) :
    (s.respond opc c p).faulted = s.faulted := rfl
@[simp] theorem State.respond_faultCode (opc : Byte) (c : Status) (p : List Word) :
    (s.respond opc c p).faultCode = s.faultCode := rfl
@[simp] theorem State.respond_faultOpcode (opc : Byte) (c : Status) (p : List Word) :
    (s.respond opc c p).faultOpcode = s.faultOpcode := rfl
@[simp] theorem State.respond_diagMalformed (opc : Byte) (c : Status) (p : List Word) :
    (s.respond opc c p).diagMalformed = s.diagMalformed := rfl
@[simp] theorem State.respond_lastAdvanced (opc : Byte) (c : Status) (p : List Word) :
    (s.respond opc c p).lastAdvanced = s.lastAdvanced := rfl
@[simp] theorem State.respond_mem (opc : Byte) (c : Status) (p : List Word) :
    (s.respond opc c p).mem = s.mem := rfl
@[simp] theorem State.respond_phase (opc : Byte) (c : Status) (p : List Word) :
    (s.respond opc c p).phase = s.phase := rfl
@[simp] theorem State.respond_iter (opc : Byte) (c : Status) (p : List Word) :
    (s.respond opc c p).iter = s.iter := rfl
@[simp] theorem State.respond_st (opc : Byte) (c : Status) (p : List Word) :
    (s.respond opc c p).st = s.st := rfl
@[simp] theorem State.respond_bk (opc : Byte) (c : Status) (p : List Word) :
    (s.respond opc c p).bk = s.bk := rfl
@[simp] theorem State.respond_ks (opc : Byte) (c : Status) (p : List Word) :
    (s.respond opc c p).ks = s.ks := rfl
@[simp] theorem State.respond_pr (opc : Byte) (c : Status) (p : List Word) :
    (s.respond opc c p).pr = s.pr := rfl
@[simp] theorem State.respond_wb (opc : Byte) (c : Status) (p : List Word) :
    (s.respond opc c p).wb = s.wb := rfl
@[simp] theorem State.respond_sc (opc : Byte) (c : Status) (p : List Word) :
    (s.respond opc c p).sc = s.sc := rfl
@[simp] theorem State.respond_ecb (opc : Byte) (c : Status) (p : List Word) :
    (s.respond opc c p).ecb = s.ecb := rfl
@[simp] theorem State.respond_opnd (opc : Byte) (c : Status) (p : List Word) :
    (s.respond opc c p).opnd = s.opnd := rfl
@[simp] theorem State.respond_uops (opc : Byte) (c : Status) (p : List Word) :
    (s.respond opc c p).uops = s.uops := rfl
@[simp] theorem State.respond_port (opc : Byte) (c : Status) (p : List Word) :
    (s.respond opc c p).port = s.port := rfl
@[simp] theorem State.respond_host (opc : Byte) (c : Status) (p : List Word) :
    (s.respond opc c p).host = s.host := rfl
@[simp] theorem State.respond_delivered (opc : Byte) (c : Status) (p : List Word) :
    (s.respond opc c p).delivered = s.delivered := rfl
@[simp] theorem State.respond_fireIn (opc : Byte) (c : Status) (p : List Word) :
    (s.respond opc c p).fireIn = s.fireIn := rfl
@[simp] theorem State.respond_draws (opc : Byte) (c : Status) (p : List Word) :
    (s.respond opc c p).draws = s.draws := rfl

/-! ## refuseFaulted -/

@[simp] theorem State.refuseFaulted_cfg (opc : Byte) :
    (s.refuseFaulted opc).cfg = s.cfg := rfl
@[simp] theorem State.refuseFaulted_kind (opc : Byte) :
    (s.refuseFaulted opc).kind = s.kind := rfl
@[simp] theorem State.refuseFaulted_cw (opc : Byte) :
    (s.refuseFaulted opc).cw = s.cw := rfl
@[simp] theorem State.refuseFaulted_keyValid (opc : Byte) :
    (s.refuseFaulted opc).keyValid = s.keyValid := rfl
@[simp] theorem State.refuseFaulted_busy (opc : Byte) :
    (s.refuseFaulted opc).busy = s.busy := rfl
@[simp] theorem State.refuseFaulted_pending (opc : Byte) :
    (s.refuseFaulted opc).pending = s.pending := rfl
@[simp] theorem State.refuseFaulted_faulted (opc : Byte) :
    (s.refuseFaulted opc).faulted = s.faulted := rfl
@[simp] theorem State.refuseFaulted_faultCode (opc : Byte) :
    (s.refuseFaulted opc).faultCode = s.faultCode := rfl
@[simp] theorem State.refuseFaulted_faultOpcode (opc : Byte) :
    (s.refuseFaulted opc).faultOpcode = s.faultOpcode := rfl
@[simp] theorem State.refuseFaulted_diagMalformed (opc : Byte) :
    (s.refuseFaulted opc).diagMalformed = s.diagMalformed := rfl
@[simp] theorem State.refuseFaulted_lastAdvanced (opc : Byte) :
    (s.refuseFaulted opc).lastAdvanced = s.lastAdvanced := rfl
@[simp] theorem State.refuseFaulted_mem (opc : Byte) :
    (s.refuseFaulted opc).mem = s.mem := rfl
@[simp] theorem State.refuseFaulted_phase (opc : Byte) :
    (s.refuseFaulted opc).phase = s.phase := rfl
@[simp] theorem State.refuseFaulted_iter (opc : Byte) :
    (s.refuseFaulted opc).iter = s.iter := rfl
@[simp] theorem State.refuseFaulted_st (opc : Byte) :
    (s.refuseFaulted opc).st = s.st := rfl
@[simp] theorem State.refuseFaulted_bk (opc : Byte) :
    (s.refuseFaulted opc).bk = s.bk := rfl
@[simp] theorem State.refuseFaulted_ks (opc : Byte) :
    (s.refuseFaulted opc).ks = s.ks := rfl
@[simp] theorem State.refuseFaulted_pr (opc : Byte) :
    (s.refuseFaulted opc).pr = s.pr := rfl
@[simp] theorem State.refuseFaulted_wb (opc : Byte) :
    (s.refuseFaulted opc).wb = s.wb := rfl
@[simp] theorem State.refuseFaulted_sc (opc : Byte) :
    (s.refuseFaulted opc).sc = s.sc := rfl
@[simp] theorem State.refuseFaulted_ecb (opc : Byte) :
    (s.refuseFaulted opc).ecb = s.ecb := rfl
@[simp] theorem State.refuseFaulted_opnd (opc : Byte) :
    (s.refuseFaulted opc).opnd = s.opnd := rfl
@[simp] theorem State.refuseFaulted_uops (opc : Byte) :
    (s.refuseFaulted opc).uops = s.uops := rfl
@[simp] theorem State.refuseFaulted_port (opc : Byte) :
    (s.refuseFaulted opc).port = s.port := rfl
@[simp] theorem State.refuseFaulted_host (opc : Byte) :
    (s.refuseFaulted opc).host = s.host := rfl
@[simp] theorem State.refuseFaulted_delivered (opc : Byte) :
    (s.refuseFaulted opc).delivered = s.delivered := rfl
@[simp] theorem State.refuseFaulted_fireIn (opc : Byte) :
    (s.refuseFaulted opc).fireIn = s.fireIn := rfl
@[simp] theorem State.refuseFaulted_draws (opc : Byte) :
    (s.refuseFaulted opc).draws = s.draws := rfl

/-! ## consume -/

@[simp] theorem State.consume_cfg (len : Nat) :
    (s.consume len).cfg = s.cfg := rfl
@[simp] theorem State.consume_kind (len : Nat) :
    (s.consume len).kind = s.kind := rfl
@[simp] theorem State.consume_cw (len : Nat) :
    (s.consume len).cw = s.cw := rfl
@[simp] theorem State.consume_keyValid (len : Nat) :
    (s.consume len).keyValid = s.keyValid := rfl
@[simp] theorem State.consume_busy (len : Nat) :
    (s.consume len).busy = s.busy := rfl
@[simp] theorem State.consume_pending (len : Nat) :
    (s.consume len).pending = s.pending := rfl
@[simp] theorem State.consume_faulted (len : Nat) :
    (s.consume len).faulted = s.faulted := rfl
@[simp] theorem State.consume_faultCode (len : Nat) :
    (s.consume len).faultCode = s.faultCode := rfl
@[simp] theorem State.consume_faultOpcode (len : Nat) :
    (s.consume len).faultOpcode = s.faultOpcode := rfl
@[simp] theorem State.consume_diagMalformed (len : Nat) :
    (s.consume len).diagMalformed = s.diagMalformed := rfl
@[simp] theorem State.consume_lastAdvanced (len : Nat) :
    (s.consume len).lastAdvanced = s.lastAdvanced := rfl
@[simp] theorem State.consume_resp (len : Nat) :
    (s.consume len).resp = s.resp := rfl
@[simp] theorem State.consume_mem (len : Nat) :
    (s.consume len).mem = s.mem := rfl
@[simp] theorem State.consume_phase (len : Nat) :
    (s.consume len).phase = s.phase := rfl
@[simp] theorem State.consume_iter (len : Nat) :
    (s.consume len).iter = s.iter := rfl
@[simp] theorem State.consume_st (len : Nat) :
    (s.consume len).st = s.st := rfl
@[simp] theorem State.consume_bk (len : Nat) :
    (s.consume len).bk = s.bk := rfl
@[simp] theorem State.consume_ks (len : Nat) :
    (s.consume len).ks = s.ks := rfl
@[simp] theorem State.consume_pr (len : Nat) :
    (s.consume len).pr = s.pr := rfl
@[simp] theorem State.consume_wb (len : Nat) :
    (s.consume len).wb = s.wb := rfl
@[simp] theorem State.consume_sc (len : Nat) :
    (s.consume len).sc = s.sc := rfl
@[simp] theorem State.consume_ecb (len : Nat) :
    (s.consume len).ecb = s.ecb := rfl
@[simp] theorem State.consume_opnd (len : Nat) :
    (s.consume len).opnd = s.opnd := rfl
@[simp] theorem State.consume_uops (len : Nat) :
    (s.consume len).uops = s.uops := rfl
@[simp] theorem State.consume_host (len : Nat) :
    (s.consume len).host = s.host := rfl
@[simp] theorem State.consume_delivered (len : Nat) :
    (s.consume len).delivered = s.delivered := rfl
@[simp] theorem State.consume_draws (len : Nat) :
    (s.consume len).draws = s.draws := rfl

/-! ## recordFault -/

@[simp] theorem State.recordFault_cfg (c opc : Byte) :
    (s.recordFault c opc).cfg = s.cfg := by
  unfold State.recordFault; split <;> rfl
@[simp] theorem State.recordFault_kind (c opc : Byte) :
    (s.recordFault c opc).kind = s.kind := by
  unfold State.recordFault; split <;> rfl
@[simp] theorem State.recordFault_cw (c opc : Byte) :
    (s.recordFault c opc).cw = s.cw := by
  unfold State.recordFault; split <;> rfl
@[simp] theorem State.recordFault_keyValid (c opc : Byte) :
    (s.recordFault c opc).keyValid = s.keyValid := by
  unfold State.recordFault; split <;> rfl
@[simp] theorem State.recordFault_busy (c opc : Byte) :
    (s.recordFault c opc).busy = s.busy := by
  unfold State.recordFault; split <;> rfl
@[simp] theorem State.recordFault_pending (c opc : Byte) :
    (s.recordFault c opc).pending = s.pending := by
  unfold State.recordFault; split <;> rfl
@[simp] theorem State.recordFault_diagMalformed (c opc : Byte) :
    (s.recordFault c opc).diagMalformed = s.diagMalformed := by
  unfold State.recordFault; split <;> rfl
@[simp] theorem State.recordFault_lastAdvanced (c opc : Byte) :
    (s.recordFault c opc).lastAdvanced = s.lastAdvanced := by
  unfold State.recordFault; split <;> rfl
@[simp] theorem State.recordFault_resp (c opc : Byte) :
    (s.recordFault c opc).resp = s.resp := by
  unfold State.recordFault; split <;> rfl
@[simp] theorem State.recordFault_mem (c opc : Byte) :
    (s.recordFault c opc).mem = s.mem := by
  unfold State.recordFault; split <;> rfl
@[simp] theorem State.recordFault_phase (c opc : Byte) :
    (s.recordFault c opc).phase = s.phase := by
  unfold State.recordFault; split <;> rfl
@[simp] theorem State.recordFault_iter (c opc : Byte) :
    (s.recordFault c opc).iter = s.iter := by
  unfold State.recordFault; split <;> rfl
@[simp] theorem State.recordFault_st (c opc : Byte) :
    (s.recordFault c opc).st = s.st := by
  unfold State.recordFault; split <;> rfl
@[simp] theorem State.recordFault_bk (c opc : Byte) :
    (s.recordFault c opc).bk = s.bk := by
  unfold State.recordFault; split <;> rfl
@[simp] theorem State.recordFault_ks (c opc : Byte) :
    (s.recordFault c opc).ks = s.ks := by
  unfold State.recordFault; split <;> rfl
@[simp] theorem State.recordFault_pr (c opc : Byte) :
    (s.recordFault c opc).pr = s.pr := by
  unfold State.recordFault; split <;> rfl
@[simp] theorem State.recordFault_wb (c opc : Byte) :
    (s.recordFault c opc).wb = s.wb := by
  unfold State.recordFault; split <;> rfl
@[simp] theorem State.recordFault_sc (c opc : Byte) :
    (s.recordFault c opc).sc = s.sc := by
  unfold State.recordFault; split <;> rfl
@[simp] theorem State.recordFault_ecb (c opc : Byte) :
    (s.recordFault c opc).ecb = s.ecb := by
  unfold State.recordFault; split <;> rfl
@[simp] theorem State.recordFault_opnd (c opc : Byte) :
    (s.recordFault c opc).opnd = s.opnd := by
  unfold State.recordFault; split <;> rfl
@[simp] theorem State.recordFault_uops (c opc : Byte) :
    (s.recordFault c opc).uops = s.uops := by
  unfold State.recordFault; split <;> rfl
@[simp] theorem State.recordFault_port (c opc : Byte) :
    (s.recordFault c opc).port = s.port := by
  unfold State.recordFault; split <;> rfl
@[simp] theorem State.recordFault_host (c opc : Byte) :
    (s.recordFault c opc).host = s.host := by
  unfold State.recordFault; split <;> rfl
@[simp] theorem State.recordFault_delivered (c opc : Byte) :
    (s.recordFault c opc).delivered = s.delivered := by
  unfold State.recordFault; split <;> rfl
@[simp] theorem State.recordFault_fireIn (c opc : Byte) :
    (s.recordFault c opc).fireIn = s.fireIn := by
  unfold State.recordFault; split <;> rfl
@[simp] theorem State.recordFault_draws (c opc : Byte) :
    (s.recordFault c opc).draws = s.draws := by
  unfold State.recordFault; split <;> rfl

/-! ## dropDecrypt -/

@[simp] theorem State.dropDecrypt_cfg :
    (s.dropDecrypt).cfg = s.cfg := rfl
@[simp] theorem State.dropDecrypt_kind :
    (s.dropDecrypt).kind = s.kind := rfl
@[simp] theorem State.dropDecrypt_cw :
    (s.dropDecrypt).cw = s.cw := rfl
@[simp] theorem State.dropDecrypt_keyValid :
    (s.dropDecrypt).keyValid = s.keyValid := rfl
@[simp] theorem State.dropDecrypt_faulted :
    (s.dropDecrypt).faulted = s.faulted := rfl
@[simp] theorem State.dropDecrypt_faultCode :
    (s.dropDecrypt).faultCode = s.faultCode := rfl
@[simp] theorem State.dropDecrypt_faultOpcode :
    (s.dropDecrypt).faultOpcode = s.faultOpcode := rfl
@[simp] theorem State.dropDecrypt_diagMalformed :
    (s.dropDecrypt).diagMalformed = s.diagMalformed := rfl
@[simp] theorem State.dropDecrypt_lastAdvanced :
    (s.dropDecrypt).lastAdvanced = s.lastAdvanced := rfl
@[simp] theorem State.dropDecrypt_resp :
    (s.dropDecrypt).resp = s.resp := rfl
@[simp] theorem State.dropDecrypt_phase :
    (s.dropDecrypt).phase = s.phase := rfl
@[simp] theorem State.dropDecrypt_iter :
    (s.dropDecrypt).iter = s.iter := rfl
@[simp] theorem State.dropDecrypt_st :
    (s.dropDecrypt).st = s.st := rfl
@[simp] theorem State.dropDecrypt_bk :
    (s.dropDecrypt).bk = s.bk := rfl
@[simp] theorem State.dropDecrypt_ks :
    (s.dropDecrypt).ks = s.ks := rfl
@[simp] theorem State.dropDecrypt_pr :
    (s.dropDecrypt).pr = s.pr := rfl
@[simp] theorem State.dropDecrypt_wb :
    (s.dropDecrypt).wb = s.wb := rfl
@[simp] theorem State.dropDecrypt_sc :
    (s.dropDecrypt).sc = s.sc := rfl
@[simp] theorem State.dropDecrypt_ecb :
    (s.dropDecrypt).ecb = s.ecb := rfl
@[simp] theorem State.dropDecrypt_opnd :
    (s.dropDecrypt).opnd = s.opnd := rfl
@[simp] theorem State.dropDecrypt_uops :
    (s.dropDecrypt).uops = s.uops := rfl
@[simp] theorem State.dropDecrypt_port :
    (s.dropDecrypt).port = s.port := rfl
@[simp] theorem State.dropDecrypt_host :
    (s.dropDecrypt).host = s.host := rfl
@[simp] theorem State.dropDecrypt_delivered :
    (s.dropDecrypt).delivered = s.delivered := rfl

/-! ## raiseFault -/

@[simp] theorem State.raiseFault_cfg (c : Status) (opc : Byte) :
    (s.raiseFault c opc).cfg = s.cfg := by
  simp only [State.raiseFault, State.respond, State.recordFault]; split <;> split <;> rfl
@[simp] theorem State.raiseFault_kind (c : Status) (opc : Byte) :
    (s.raiseFault c opc).kind = s.kind := by
  simp only [State.raiseFault, State.respond, State.recordFault]; split <;> split <;> rfl
@[simp] theorem State.raiseFault_cw (c : Status) (opc : Byte) :
    (s.raiseFault c opc).cw = s.cw := by
  simp only [State.raiseFault, State.respond, State.recordFault]; split <;> split <;> rfl
@[simp] theorem State.raiseFault_keyValid (c : Status) (opc : Byte) :
    (s.raiseFault c opc).keyValid = s.keyValid := by
  simp only [State.raiseFault, State.respond, State.recordFault]; split <;> split <;> rfl
@[simp] theorem State.raiseFault_diagMalformed (c : Status) (opc : Byte) :
    (s.raiseFault c opc).diagMalformed = s.diagMalformed := by
  simp only [State.raiseFault, State.respond, State.recordFault]; split <;> split <;> rfl
@[simp] theorem State.raiseFault_lastAdvanced (c : Status) (opc : Byte) :
    (s.raiseFault c opc).lastAdvanced = s.lastAdvanced := by
  simp only [State.raiseFault, State.respond, State.recordFault]; split <;> split <;> rfl
@[simp] theorem State.raiseFault_phase (c : Status) (opc : Byte) :
    (s.raiseFault c opc).phase = s.phase := by
  simp only [State.raiseFault, State.respond, State.recordFault]; split <;> split <;> rfl
@[simp] theorem State.raiseFault_iter (c : Status) (opc : Byte) :
    (s.raiseFault c opc).iter = s.iter := by
  simp only [State.raiseFault, State.respond, State.recordFault]; split <;> split <;> rfl
@[simp] theorem State.raiseFault_st (c : Status) (opc : Byte) :
    (s.raiseFault c opc).st = s.st := by
  simp only [State.raiseFault, State.respond, State.recordFault]; split <;> split <;> rfl
@[simp] theorem State.raiseFault_bk (c : Status) (opc : Byte) :
    (s.raiseFault c opc).bk = s.bk := by
  simp only [State.raiseFault, State.respond, State.recordFault]; split <;> split <;> rfl
@[simp] theorem State.raiseFault_ks (c : Status) (opc : Byte) :
    (s.raiseFault c opc).ks = s.ks := by
  simp only [State.raiseFault, State.respond, State.recordFault]; split <;> split <;> rfl
@[simp] theorem State.raiseFault_pr (c : Status) (opc : Byte) :
    (s.raiseFault c opc).pr = s.pr := by
  simp only [State.raiseFault, State.respond, State.recordFault]; split <;> split <;> rfl
@[simp] theorem State.raiseFault_wb (c : Status) (opc : Byte) :
    (s.raiseFault c opc).wb = s.wb := by
  simp only [State.raiseFault, State.respond, State.recordFault]; split <;> split <;> rfl
@[simp] theorem State.raiseFault_sc (c : Status) (opc : Byte) :
    (s.raiseFault c opc).sc = s.sc := by
  simp only [State.raiseFault, State.respond, State.recordFault]; split <;> split <;> rfl
@[simp] theorem State.raiseFault_ecb (c : Status) (opc : Byte) :
    (s.raiseFault c opc).ecb = s.ecb := by
  simp only [State.raiseFault, State.respond, State.recordFault]; split <;> split <;> rfl
@[simp] theorem State.raiseFault_opnd (c : Status) (opc : Byte) :
    (s.raiseFault c opc).opnd = s.opnd := by
  simp only [State.raiseFault, State.respond, State.recordFault]; split <;> split <;> rfl
@[simp] theorem State.raiseFault_uops (c : Status) (opc : Byte) :
    (s.raiseFault c opc).uops = s.uops := by
  simp only [State.raiseFault, State.respond, State.recordFault]; split <;> split <;> rfl
@[simp] theorem State.raiseFault_port (c : Status) (opc : Byte) :
    (s.raiseFault c opc).port = s.port := by
  simp only [State.raiseFault, State.respond, State.recordFault]; split <;> split <;> rfl
@[simp] theorem State.raiseFault_host (c : Status) (opc : Byte) :
    (s.raiseFault c opc).host = s.host := by
  simp only [State.raiseFault, State.respond, State.recordFault]; split <;> split <;> rfl
@[simp] theorem State.raiseFault_delivered (c : Status) (opc : Byte) :
    (s.raiseFault c opc).delivered = s.delivered := by
  simp only [State.raiseFault, State.respond, State.recordFault]; split <;> split <;> rfl

/-! ## completionFault -/

@[simp] theorem State.completionFault_cfg (c : Status) :
    (s.completionFault c).cfg = s.cfg := by
  simp only [State.completionFault, State.respond, State.recordFault]; split <;> rfl
@[simp] theorem State.completionFault_kind (c : Status) :
    (s.completionFault c).kind = s.kind := by
  simp only [State.completionFault, State.respond, State.recordFault]; split <;> rfl
@[simp] theorem State.completionFault_cw (c : Status) :
    (s.completionFault c).cw = s.cw := by
  simp only [State.completionFault, State.respond, State.recordFault]; split <;> rfl
@[simp] theorem State.completionFault_keyValid (c : Status) :
    (s.completionFault c).keyValid = s.keyValid := by
  simp only [State.completionFault, State.respond, State.recordFault]; split <;> rfl
@[simp] theorem State.completionFault_pending (c : Status) :
    (s.completionFault c).pending = s.pending := by
  simp only [State.completionFault, State.respond, State.recordFault]; split <;> rfl
@[simp] theorem State.completionFault_diagMalformed (c : Status) :
    (s.completionFault c).diagMalformed = s.diagMalformed := by
  simp only [State.completionFault, State.respond, State.recordFault]; split <;> rfl
@[simp] theorem State.completionFault_lastAdvanced (c : Status) :
    (s.completionFault c).lastAdvanced = s.lastAdvanced := by
  simp only [State.completionFault, State.respond, State.recordFault]; split <;> rfl
@[simp] theorem State.completionFault_mem (c : Status) :
    (s.completionFault c).mem = s.mem := by
  simp only [State.completionFault, State.respond, State.recordFault]; split <;> rfl
@[simp] theorem State.completionFault_iter (c : Status) :
    (s.completionFault c).iter = s.iter := by
  simp only [State.completionFault, State.respond, State.recordFault]; split <;> rfl
@[simp] theorem State.completionFault_st (c : Status) :
    (s.completionFault c).st = s.st := by
  simp only [State.completionFault, State.respond, State.recordFault]; split <;> rfl
@[simp] theorem State.completionFault_bk (c : Status) :
    (s.completionFault c).bk = s.bk := by
  simp only [State.completionFault, State.respond, State.recordFault]; split <;> rfl
@[simp] theorem State.completionFault_ks (c : Status) :
    (s.completionFault c).ks = s.ks := by
  simp only [State.completionFault, State.respond, State.recordFault]; split <;> rfl
@[simp] theorem State.completionFault_pr (c : Status) :
    (s.completionFault c).pr = s.pr := by
  simp only [State.completionFault, State.respond, State.recordFault]; split <;> rfl
@[simp] theorem State.completionFault_wb (c : Status) :
    (s.completionFault c).wb = s.wb := by
  simp only [State.completionFault, State.respond, State.recordFault]; split <;> rfl
@[simp] theorem State.completionFault_sc (c : Status) :
    (s.completionFault c).sc = s.sc := by
  simp only [State.completionFault, State.respond, State.recordFault]; split <;> rfl
@[simp] theorem State.completionFault_ecb (c : Status) :
    (s.completionFault c).ecb = s.ecb := by
  simp only [State.completionFault, State.respond, State.recordFault]; split <;> rfl
@[simp] theorem State.completionFault_opnd (c : Status) :
    (s.completionFault c).opnd = s.opnd := by
  simp only [State.completionFault, State.respond, State.recordFault]; split <;> rfl
@[simp] theorem State.completionFault_port (c : Status) :
    (s.completionFault c).port = s.port := by
  simp only [State.completionFault, State.respond, State.recordFault]; split <;> rfl
@[simp] theorem State.completionFault_host (c : Status) :
    (s.completionFault c).host = s.host := by
  simp only [State.completionFault, State.respond, State.recordFault]; split <;> rfl
@[simp] theorem State.completionFault_delivered (c : Status) :
    (s.completionFault c).delivered = s.delivered := by
  simp only [State.completionFault, State.respond, State.recordFault]; split <;> rfl
@[simp] theorem State.completionFault_fireIn (c : Status) :
    (s.completionFault c).fireIn = s.fireIn := by
  simp only [State.completionFault, State.respond, State.recordFault]; split <;> rfl
@[simp] theorem State.completionFault_draws (c : Status) :
    (s.completionFault c).draws = s.draws := by
  simp only [State.completionFault, State.respond, State.recordFault]; split <;> rfl

/-! ## writeGroup -/

@[simp] theorem State.writeGroup_cfg (r : GroupReg) (v : Group) :
    (s.writeGroup r v).cfg = s.cfg := by cases r <;> rfl
@[simp] theorem State.writeGroup_kind (r : GroupReg) (v : Group) :
    (s.writeGroup r v).kind = s.kind := by cases r <;> rfl
@[simp] theorem State.writeGroup_cw (r : GroupReg) (v : Group) :
    (s.writeGroup r v).cw = s.cw := by cases r <;> rfl
@[simp] theorem State.writeGroup_keyValid (r : GroupReg) (v : Group) :
    (s.writeGroup r v).keyValid = s.keyValid := by cases r <;> rfl
@[simp] theorem State.writeGroup_busy (r : GroupReg) (v : Group) :
    (s.writeGroup r v).busy = s.busy := by cases r <;> rfl
@[simp] theorem State.writeGroup_pending (r : GroupReg) (v : Group) :
    (s.writeGroup r v).pending = s.pending := by cases r <;> rfl
@[simp] theorem State.writeGroup_faulted (r : GroupReg) (v : Group) :
    (s.writeGroup r v).faulted = s.faulted := by cases r <;> rfl
@[simp] theorem State.writeGroup_faultCode (r : GroupReg) (v : Group) :
    (s.writeGroup r v).faultCode = s.faultCode := by cases r <;> rfl
@[simp] theorem State.writeGroup_faultOpcode (r : GroupReg) (v : Group) :
    (s.writeGroup r v).faultOpcode = s.faultOpcode := by cases r <;> rfl
@[simp] theorem State.writeGroup_diagMalformed (r : GroupReg) (v : Group) :
    (s.writeGroup r v).diagMalformed = s.diagMalformed := by cases r <;> rfl
@[simp] theorem State.writeGroup_lastAdvanced (r : GroupReg) (v : Group) :
    (s.writeGroup r v).lastAdvanced = s.lastAdvanced := by cases r <;> rfl
@[simp] theorem State.writeGroup_resp (r : GroupReg) (v : Group) :
    (s.writeGroup r v).resp = s.resp := by cases r <;> rfl
@[simp] theorem State.writeGroup_mem (r : GroupReg) (v : Group) :
    (s.writeGroup r v).mem = s.mem := by cases r <;> rfl
@[simp] theorem State.writeGroup_phase (r : GroupReg) (v : Group) :
    (s.writeGroup r v).phase = s.phase := by cases r <;> rfl
@[simp] theorem State.writeGroup_iter (r : GroupReg) (v : Group) :
    (s.writeGroup r v).iter = s.iter := by cases r <;> rfl
@[simp] theorem State.writeGroup_bk (r : GroupReg) (v : Group) :
    (s.writeGroup r v).bk = s.bk := by cases r <;> rfl
@[simp] theorem State.writeGroup_ks (r : GroupReg) (v : Group) :
    (s.writeGroup r v).ks = s.ks := by cases r <;> rfl
@[simp] theorem State.writeGroup_wb (r : GroupReg) (v : Group) :
    (s.writeGroup r v).wb = s.wb := by cases r <;> rfl
@[simp] theorem State.writeGroup_sc (r : GroupReg) (v : Group) :
    (s.writeGroup r v).sc = s.sc := by cases r <;> rfl
@[simp] theorem State.writeGroup_ecb (r : GroupReg) (v : Group) :
    (s.writeGroup r v).ecb = s.ecb := by cases r <;> rfl
@[simp] theorem State.writeGroup_opnd (r : GroupReg) (v : Group) :
    (s.writeGroup r v).opnd = s.opnd := by cases r <;> rfl
@[simp] theorem State.writeGroup_uops (r : GroupReg) (v : Group) :
    (s.writeGroup r v).uops = s.uops := by cases r <;> rfl
@[simp] theorem State.writeGroup_port (r : GroupReg) (v : Group) :
    (s.writeGroup r v).port = s.port := by cases r <;> rfl
@[simp] theorem State.writeGroup_host (r : GroupReg) (v : Group) :
    (s.writeGroup r v).host = s.host := by cases r <;> rfl
@[simp] theorem State.writeGroup_delivered (r : GroupReg) (v : Group) :
    (s.writeGroup r v).delivered = s.delivered := by cases r <;> rfl
@[simp] theorem State.writeGroup_fireIn (r : GroupReg) (v : Group) :
    (s.writeGroup r v).fireIn = s.fireIn := by cases r <;> rfl
@[simp] theorem State.writeGroup_draws (r : GroupReg) (v : Group) :
    (s.writeGroup r v).draws = s.draws := by cases r <;> rfl

/-! ## writeSlice -/

@[simp] theorem State.writeSlice_cfg (r : SliceReg) (v : Slice) :
    (s.writeSlice r v).cfg = s.cfg := by cases r <;> rfl
@[simp] theorem State.writeSlice_kind (r : SliceReg) (v : Slice) :
    (s.writeSlice r v).kind = s.kind := by cases r <;> rfl
@[simp] theorem State.writeSlice_cw (r : SliceReg) (v : Slice) :
    (s.writeSlice r v).cw = s.cw := by cases r <;> rfl
@[simp] theorem State.writeSlice_keyValid (r : SliceReg) (v : Slice) :
    (s.writeSlice r v).keyValid = s.keyValid := by cases r <;> rfl
@[simp] theorem State.writeSlice_busy (r : SliceReg) (v : Slice) :
    (s.writeSlice r v).busy = s.busy := by cases r <;> rfl
@[simp] theorem State.writeSlice_pending (r : SliceReg) (v : Slice) :
    (s.writeSlice r v).pending = s.pending := by cases r <;> rfl
@[simp] theorem State.writeSlice_faulted (r : SliceReg) (v : Slice) :
    (s.writeSlice r v).faulted = s.faulted := by cases r <;> rfl
@[simp] theorem State.writeSlice_faultCode (r : SliceReg) (v : Slice) :
    (s.writeSlice r v).faultCode = s.faultCode := by cases r <;> rfl
@[simp] theorem State.writeSlice_faultOpcode (r : SliceReg) (v : Slice) :
    (s.writeSlice r v).faultOpcode = s.faultOpcode := by cases r <;> rfl
@[simp] theorem State.writeSlice_diagMalformed (r : SliceReg) (v : Slice) :
    (s.writeSlice r v).diagMalformed = s.diagMalformed := by cases r <;> rfl
@[simp] theorem State.writeSlice_lastAdvanced (r : SliceReg) (v : Slice) :
    (s.writeSlice r v).lastAdvanced = s.lastAdvanced := by cases r <;> rfl
@[simp] theorem State.writeSlice_resp (r : SliceReg) (v : Slice) :
    (s.writeSlice r v).resp = s.resp := by cases r <;> rfl
@[simp] theorem State.writeSlice_mem (r : SliceReg) (v : Slice) :
    (s.writeSlice r v).mem = s.mem := by cases r <;> rfl
@[simp] theorem State.writeSlice_phase (r : SliceReg) (v : Slice) :
    (s.writeSlice r v).phase = s.phase := by cases r <;> rfl
@[simp] theorem State.writeSlice_iter (r : SliceReg) (v : Slice) :
    (s.writeSlice r v).iter = s.iter := by cases r <;> rfl
@[simp] theorem State.writeSlice_st (r : SliceReg) (v : Slice) :
    (s.writeSlice r v).st = s.st := by cases r <;> rfl
@[simp] theorem State.writeSlice_ks (r : SliceReg) (v : Slice) :
    (s.writeSlice r v).ks = s.ks := by cases r <;> rfl
@[simp] theorem State.writeSlice_wb (r : SliceReg) (v : Slice) :
    (s.writeSlice r v).wb = s.wb := by cases r <;> rfl
@[simp] theorem State.writeSlice_sc (r : SliceReg) (v : Slice) :
    (s.writeSlice r v).sc = s.sc := by cases r <;> rfl
@[simp] theorem State.writeSlice_ecb (r : SliceReg) (v : Slice) :
    (s.writeSlice r v).ecb = s.ecb := by cases r <;> rfl
@[simp] theorem State.writeSlice_opnd (r : SliceReg) (v : Slice) :
    (s.writeSlice r v).opnd = s.opnd := by cases r <;> rfl
@[simp] theorem State.writeSlice_uops (r : SliceReg) (v : Slice) :
    (s.writeSlice r v).uops = s.uops := by cases r <;> rfl
@[simp] theorem State.writeSlice_port (r : SliceReg) (v : Slice) :
    (s.writeSlice r v).port = s.port := by cases r <;> rfl
@[simp] theorem State.writeSlice_host (r : SliceReg) (v : Slice) :
    (s.writeSlice r v).host = s.host := by cases r <;> rfl
@[simp] theorem State.writeSlice_delivered (r : SliceReg) (v : Slice) :
    (s.writeSlice r v).delivered = s.delivered := by cases r <;> rfl
@[simp] theorem State.writeSlice_fireIn (r : SliceReg) (v : Slice) :
    (s.writeSlice r v).fireIn = s.fireIn := by cases r <;> rfl
@[simp] theorem State.writeSlice_draws (r : SliceReg) (v : Slice) :
    (s.writeSlice r v).draws = s.draws := by cases r <;> rfl

/-! ## writeBank -/

@[simp] theorem State.writeBank_cfg (b : SliceBank) (v : Vector Slice 8) :
    (s.writeBank b v).cfg = s.cfg := by
  unfold State.writeBank; cases b <;> dsimp only
@[simp] theorem State.writeBank_kind (b : SliceBank) (v : Vector Slice 8) :
    (s.writeBank b v).kind = s.kind := by
  unfold State.writeBank; cases b <;> dsimp only
@[simp] theorem State.writeBank_cw (b : SliceBank) (v : Vector Slice 8) :
    (s.writeBank b v).cw = s.cw := by
  unfold State.writeBank; cases b <;> dsimp only
@[simp] theorem State.writeBank_keyValid (b : SliceBank) (v : Vector Slice 8) :
    (s.writeBank b v).keyValid = s.keyValid := by
  unfold State.writeBank; cases b <;> dsimp only
@[simp] theorem State.writeBank_busy (b : SliceBank) (v : Vector Slice 8) :
    (s.writeBank b v).busy = s.busy := by
  unfold State.writeBank; cases b <;> dsimp only
@[simp] theorem State.writeBank_pending (b : SliceBank) (v : Vector Slice 8) :
    (s.writeBank b v).pending = s.pending := by
  unfold State.writeBank; cases b <;> dsimp only
@[simp] theorem State.writeBank_faulted (b : SliceBank) (v : Vector Slice 8) :
    (s.writeBank b v).faulted = s.faulted := by
  unfold State.writeBank; cases b <;> dsimp only
@[simp] theorem State.writeBank_faultCode (b : SliceBank) (v : Vector Slice 8) :
    (s.writeBank b v).faultCode = s.faultCode := by
  unfold State.writeBank; cases b <;> dsimp only
@[simp] theorem State.writeBank_faultOpcode (b : SliceBank) (v : Vector Slice 8) :
    (s.writeBank b v).faultOpcode = s.faultOpcode := by
  unfold State.writeBank; cases b <;> dsimp only
@[simp] theorem State.writeBank_diagMalformed (b : SliceBank) (v : Vector Slice 8) :
    (s.writeBank b v).diagMalformed = s.diagMalformed := by
  unfold State.writeBank; cases b <;> dsimp only
@[simp] theorem State.writeBank_lastAdvanced (b : SliceBank) (v : Vector Slice 8) :
    (s.writeBank b v).lastAdvanced = s.lastAdvanced := by
  unfold State.writeBank; cases b <;> dsimp only
@[simp] theorem State.writeBank_resp (b : SliceBank) (v : Vector Slice 8) :
    (s.writeBank b v).resp = s.resp := by
  unfold State.writeBank; cases b <;> dsimp only
@[simp] theorem State.writeBank_mem (b : SliceBank) (v : Vector Slice 8) :
    (s.writeBank b v).mem = s.mem := by
  unfold State.writeBank; cases b <;> dsimp only
@[simp] theorem State.writeBank_phase (b : SliceBank) (v : Vector Slice 8) :
    (s.writeBank b v).phase = s.phase := by
  unfold State.writeBank; cases b <;> dsimp only
@[simp] theorem State.writeBank_iter (b : SliceBank) (v : Vector Slice 8) :
    (s.writeBank b v).iter = s.iter := by
  unfold State.writeBank; cases b <;> dsimp only
@[simp] theorem State.writeBank_st (b : SliceBank) (v : Vector Slice 8) :
    (s.writeBank b v).st = s.st := by
  unfold State.writeBank; cases b <;> dsimp only
@[simp] theorem State.writeBank_ks (b : SliceBank) (v : Vector Slice 8) :
    (s.writeBank b v).ks = s.ks := by
  unfold State.writeBank; cases b <;> dsimp only
@[simp] theorem State.writeBank_wb (b : SliceBank) (v : Vector Slice 8) :
    (s.writeBank b v).wb = s.wb := by
  unfold State.writeBank; cases b <;> dsimp only
@[simp] theorem State.writeBank_sc (b : SliceBank) (v : Vector Slice 8) :
    (s.writeBank b v).sc = s.sc := by
  unfold State.writeBank; cases b <;> dsimp only
@[simp] theorem State.writeBank_ecb (b : SliceBank) (v : Vector Slice 8) :
    (s.writeBank b v).ecb = s.ecb := by
  unfold State.writeBank; cases b <;> dsimp only
@[simp] theorem State.writeBank_opnd (b : SliceBank) (v : Vector Slice 8) :
    (s.writeBank b v).opnd = s.opnd := by
  unfold State.writeBank; cases b <;> dsimp only
@[simp] theorem State.writeBank_uops (b : SliceBank) (v : Vector Slice 8) :
    (s.writeBank b v).uops = s.uops := by
  unfold State.writeBank; cases b <;> dsimp only
@[simp] theorem State.writeBank_port (b : SliceBank) (v : Vector Slice 8) :
    (s.writeBank b v).port = s.port := by
  unfold State.writeBank; cases b <;> dsimp only
@[simp] theorem State.writeBank_host (b : SliceBank) (v : Vector Slice 8) :
    (s.writeBank b v).host = s.host := by
  unfold State.writeBank; cases b <;> dsimp only
@[simp] theorem State.writeBank_delivered (b : SliceBank) (v : Vector Slice 8) :
    (s.writeBank b v).delivered = s.delivered := by
  unfold State.writeBank; cases b <;> dsimp only
@[simp] theorem State.writeBank_fireIn (b : SliceBank) (v : Vector Slice 8) :
    (s.writeBank b v).fireIn = s.fireIn := by
  unfold State.writeBank; cases b <;> dsimp only
@[simp] theorem State.writeBank_draws (b : SliceBank) (v : Vector Slice 8) :
    (s.writeBank b v).draws = s.draws := by
  unfold State.writeBank; cases b <;> dsimp only

/-! ## writeBlocks -/

@[simp] theorem State.writeBlocks_cfg (b : BlockBank) (v : Vector Block maxLanes) :
    (s.writeBlocks b v).cfg = s.cfg := by cases b <;> rfl
@[simp] theorem State.writeBlocks_kind (b : BlockBank) (v : Vector Block maxLanes) :
    (s.writeBlocks b v).kind = s.kind := by cases b <;> rfl
@[simp] theorem State.writeBlocks_cw (b : BlockBank) (v : Vector Block maxLanes) :
    (s.writeBlocks b v).cw = s.cw := by cases b <;> rfl
@[simp] theorem State.writeBlocks_keyValid (b : BlockBank) (v : Vector Block maxLanes) :
    (s.writeBlocks b v).keyValid = s.keyValid := by cases b <;> rfl
@[simp] theorem State.writeBlocks_busy (b : BlockBank) (v : Vector Block maxLanes) :
    (s.writeBlocks b v).busy = s.busy := by cases b <;> rfl
@[simp] theorem State.writeBlocks_pending (b : BlockBank) (v : Vector Block maxLanes) :
    (s.writeBlocks b v).pending = s.pending := by cases b <;> rfl
@[simp] theorem State.writeBlocks_faulted (b : BlockBank) (v : Vector Block maxLanes) :
    (s.writeBlocks b v).faulted = s.faulted := by cases b <;> rfl
@[simp] theorem State.writeBlocks_faultCode (b : BlockBank) (v : Vector Block maxLanes) :
    (s.writeBlocks b v).faultCode = s.faultCode := by cases b <;> rfl
@[simp] theorem State.writeBlocks_faultOpcode (b : BlockBank) (v : Vector Block maxLanes) :
    (s.writeBlocks b v).faultOpcode = s.faultOpcode := by cases b <;> rfl
@[simp] theorem State.writeBlocks_diagMalformed (b : BlockBank) (v : Vector Block maxLanes) :
    (s.writeBlocks b v).diagMalformed = s.diagMalformed := by cases b <;> rfl
@[simp] theorem State.writeBlocks_lastAdvanced (b : BlockBank) (v : Vector Block maxLanes) :
    (s.writeBlocks b v).lastAdvanced = s.lastAdvanced := by cases b <;> rfl
@[simp] theorem State.writeBlocks_resp (b : BlockBank) (v : Vector Block maxLanes) :
    (s.writeBlocks b v).resp = s.resp := by cases b <;> rfl
@[simp] theorem State.writeBlocks_mem (b : BlockBank) (v : Vector Block maxLanes) :
    (s.writeBlocks b v).mem = s.mem := by cases b <;> rfl
@[simp] theorem State.writeBlocks_phase (b : BlockBank) (v : Vector Block maxLanes) :
    (s.writeBlocks b v).phase = s.phase := by cases b <;> rfl
@[simp] theorem State.writeBlocks_iter (b : BlockBank) (v : Vector Block maxLanes) :
    (s.writeBlocks b v).iter = s.iter := by cases b <;> rfl
@[simp] theorem State.writeBlocks_st (b : BlockBank) (v : Vector Block maxLanes) :
    (s.writeBlocks b v).st = s.st := by cases b <;> rfl
@[simp] theorem State.writeBlocks_bk (b : BlockBank) (v : Vector Block maxLanes) :
    (s.writeBlocks b v).bk = s.bk := by cases b <;> rfl
@[simp] theorem State.writeBlocks_ks (b : BlockBank) (v : Vector Block maxLanes) :
    (s.writeBlocks b v).ks = s.ks := by cases b <;> rfl
@[simp] theorem State.writeBlocks_pr (b : BlockBank) (v : Vector Block maxLanes) :
    (s.writeBlocks b v).pr = s.pr := by cases b <;> rfl
@[simp] theorem State.writeBlocks_sc (b : BlockBank) (v : Vector Block maxLanes) :
    (s.writeBlocks b v).sc = s.sc := by cases b <;> rfl
@[simp] theorem State.writeBlocks_ecb (b : BlockBank) (v : Vector Block maxLanes) :
    (s.writeBlocks b v).ecb = s.ecb := by cases b <;> rfl
@[simp] theorem State.writeBlocks_opnd (b : BlockBank) (v : Vector Block maxLanes) :
    (s.writeBlocks b v).opnd = s.opnd := by cases b <;> rfl
@[simp] theorem State.writeBlocks_uops (b : BlockBank) (v : Vector Block maxLanes) :
    (s.writeBlocks b v).uops = s.uops := by cases b <;> rfl
@[simp] theorem State.writeBlocks_port (b : BlockBank) (v : Vector Block maxLanes) :
    (s.writeBlocks b v).port = s.port := by cases b <;> rfl
@[simp] theorem State.writeBlocks_host (b : BlockBank) (v : Vector Block maxLanes) :
    (s.writeBlocks b v).host = s.host := by cases b <;> rfl
@[simp] theorem State.writeBlocks_delivered (b : BlockBank) (v : Vector Block maxLanes) :
    (s.writeBlocks b v).delivered = s.delivered := by cases b <;> rfl
@[simp] theorem State.writeBlocks_fireIn (b : BlockBank) (v : Vector Block maxLanes) :
    (s.writeBlocks b v).fireIn = s.fireIn := by cases b <;> rfl
@[simp] theorem State.writeBlocks_draws (b : BlockBank) (v : Vector Block maxLanes) :
    (s.writeBlocks b v).draws = s.draws := by cases b <;> rfl

/-! ## bcastKey -/

@[simp] theorem State.bcastKey_cfg (p : Parity) :
    (s.bcastKey p).cfg = s.cfg := rfl
@[simp] theorem State.bcastKey_kind (p : Parity) :
    (s.bcastKey p).kind = s.kind := rfl
@[simp] theorem State.bcastKey_cw (p : Parity) :
    (s.bcastKey p).cw = s.cw := rfl
@[simp] theorem State.bcastKey_keyValid (p : Parity) :
    (s.bcastKey p).keyValid = s.keyValid := rfl
@[simp] theorem State.bcastKey_busy (p : Parity) :
    (s.bcastKey p).busy = s.busy := rfl
@[simp] theorem State.bcastKey_pending (p : Parity) :
    (s.bcastKey p).pending = s.pending := rfl
@[simp] theorem State.bcastKey_faulted (p : Parity) :
    (s.bcastKey p).faulted = s.faulted := rfl
@[simp] theorem State.bcastKey_faultCode (p : Parity) :
    (s.bcastKey p).faultCode = s.faultCode := rfl
@[simp] theorem State.bcastKey_faultOpcode (p : Parity) :
    (s.bcastKey p).faultOpcode = s.faultOpcode := rfl
@[simp] theorem State.bcastKey_diagMalformed (p : Parity) :
    (s.bcastKey p).diagMalformed = s.diagMalformed := rfl
@[simp] theorem State.bcastKey_lastAdvanced (p : Parity) :
    (s.bcastKey p).lastAdvanced = s.lastAdvanced := rfl
@[simp] theorem State.bcastKey_resp (p : Parity) :
    (s.bcastKey p).resp = s.resp := rfl
@[simp] theorem State.bcastKey_mem (p : Parity) :
    (s.bcastKey p).mem = s.mem := rfl
@[simp] theorem State.bcastKey_phase (p : Parity) :
    (s.bcastKey p).phase = s.phase := rfl
@[simp] theorem State.bcastKey_iter (p : Parity) :
    (s.bcastKey p).iter = s.iter := rfl
@[simp] theorem State.bcastKey_pr (p : Parity) :
    (s.bcastKey p).pr = s.pr := rfl
@[simp] theorem State.bcastKey_wb (p : Parity) :
    (s.bcastKey p).wb = s.wb := rfl
@[simp] theorem State.bcastKey_sc (p : Parity) :
    (s.bcastKey p).sc = s.sc := rfl
@[simp] theorem State.bcastKey_ecb (p : Parity) :
    (s.bcastKey p).ecb = s.ecb := rfl
@[simp] theorem State.bcastKey_opnd (p : Parity) :
    (s.bcastKey p).opnd = s.opnd := rfl
@[simp] theorem State.bcastKey_uops (p : Parity) :
    (s.bcastKey p).uops = s.uops := rfl
@[simp] theorem State.bcastKey_port (p : Parity) :
    (s.bcastKey p).port = s.port := rfl
@[simp] theorem State.bcastKey_host (p : Parity) :
    (s.bcastKey p).host = s.host := rfl
@[simp] theorem State.bcastKey_delivered (p : Parity) :
    (s.bcastKey p).delivered = s.delivered := rfl
@[simp] theorem State.bcastKey_fireIn (p : Parity) :
    (s.bcastKey p).fireIn = s.fireIn := rfl
@[simp] theorem State.bcastKey_draws (p : Parity) :
    (s.bcastKey p).draws = s.draws := rfl

/-! ## setKey -/

@[simp] theorem State.setKey_cfg (p : Parity) (k : List Byte) :
    (s.setKey p k).cfg = s.cfg := by cases p <;> rfl
@[simp] theorem State.setKey_kind (p : Parity) (k : List Byte) :
    (s.setKey p k).kind = s.kind := by cases p <;> rfl
@[simp] theorem State.setKey_busy (p : Parity) (k : List Byte) :
    (s.setKey p k).busy = s.busy := by cases p <;> rfl
@[simp] theorem State.setKey_pending (p : Parity) (k : List Byte) :
    (s.setKey p k).pending = s.pending := by cases p <;> rfl
@[simp] theorem State.setKey_faulted (p : Parity) (k : List Byte) :
    (s.setKey p k).faulted = s.faulted := by cases p <;> rfl
@[simp] theorem State.setKey_faultCode (p : Parity) (k : List Byte) :
    (s.setKey p k).faultCode = s.faultCode := by cases p <;> rfl
@[simp] theorem State.setKey_faultOpcode (p : Parity) (k : List Byte) :
    (s.setKey p k).faultOpcode = s.faultOpcode := by cases p <;> rfl
@[simp] theorem State.setKey_diagMalformed (p : Parity) (k : List Byte) :
    (s.setKey p k).diagMalformed = s.diagMalformed := by cases p <;> rfl
@[simp] theorem State.setKey_lastAdvanced (p : Parity) (k : List Byte) :
    (s.setKey p k).lastAdvanced = s.lastAdvanced := by cases p <;> rfl
@[simp] theorem State.setKey_resp (p : Parity) (k : List Byte) :
    (s.setKey p k).resp = s.resp := by cases p <;> rfl
@[simp] theorem State.setKey_mem (p : Parity) (k : List Byte) :
    (s.setKey p k).mem = s.mem := by cases p <;> rfl
@[simp] theorem State.setKey_phase (p : Parity) (k : List Byte) :
    (s.setKey p k).phase = s.phase := by cases p <;> rfl
@[simp] theorem State.setKey_iter (p : Parity) (k : List Byte) :
    (s.setKey p k).iter = s.iter := by cases p <;> rfl
@[simp] theorem State.setKey_st (p : Parity) (k : List Byte) :
    (s.setKey p k).st = s.st := by cases p <;> rfl
@[simp] theorem State.setKey_bk (p : Parity) (k : List Byte) :
    (s.setKey p k).bk = s.bk := by cases p <;> rfl
@[simp] theorem State.setKey_ks (p : Parity) (k : List Byte) :
    (s.setKey p k).ks = s.ks := by cases p <;> rfl
@[simp] theorem State.setKey_pr (p : Parity) (k : List Byte) :
    (s.setKey p k).pr = s.pr := by cases p <;> rfl
@[simp] theorem State.setKey_wb (p : Parity) (k : List Byte) :
    (s.setKey p k).wb = s.wb := by cases p <;> rfl
@[simp] theorem State.setKey_sc (p : Parity) (k : List Byte) :
    (s.setKey p k).sc = s.sc := by cases p <;> rfl
@[simp] theorem State.setKey_ecb (p : Parity) (k : List Byte) :
    (s.setKey p k).ecb = s.ecb := by cases p <;> rfl
@[simp] theorem State.setKey_opnd (p : Parity) (k : List Byte) :
    (s.setKey p k).opnd = s.opnd := by cases p <;> rfl
@[simp] theorem State.setKey_uops (p : Parity) (k : List Byte) :
    (s.setKey p k).uops = s.uops := by cases p <;> rfl
@[simp] theorem State.setKey_port (p : Parity) (k : List Byte) :
    (s.setKey p k).port = s.port := by cases p <;> rfl
@[simp] theorem State.setKey_host (p : Parity) (k : List Byte) :
    (s.setKey p k).host = s.host := by cases p <;> rfl
@[simp] theorem State.setKey_delivered (p : Parity) (k : List Byte) :
    (s.setKey p k).delivered = s.delivered := by cases p <;> rfl
@[simp] theorem State.setKey_fireIn (p : Parity) (k : List Byte) :
    (s.setKey p k).fireIn = s.fireIn := by cases p <;> rfl
@[simp] theorem State.setKey_draws (p : Parity) (k : List Byte) :
    (s.setKey p k).draws = s.draws := by cases p <;> rfl

/-! ## issueDecrypt -/

@[simp] theorem State.issueDecrypt_cfg (rs : List Range) :
    (s.issueDecrypt rs).cfg = s.cfg := rfl
@[simp] theorem State.issueDecrypt_kind (rs : List Range) :
    (s.issueDecrypt rs).kind = s.kind := rfl
@[simp] theorem State.issueDecrypt_cw (rs : List Range) :
    (s.issueDecrypt rs).cw = s.cw := rfl
@[simp] theorem State.issueDecrypt_keyValid (rs : List Range) :
    (s.issueDecrypt rs).keyValid = s.keyValid := rfl
@[simp] theorem State.issueDecrypt_faulted (rs : List Range) :
    (s.issueDecrypt rs).faulted = s.faulted := rfl
@[simp] theorem State.issueDecrypt_faultCode (rs : List Range) :
    (s.issueDecrypt rs).faultCode = s.faultCode := rfl
@[simp] theorem State.issueDecrypt_faultOpcode (rs : List Range) :
    (s.issueDecrypt rs).faultOpcode = s.faultOpcode := rfl
@[simp] theorem State.issueDecrypt_diagMalformed (rs : List Range) :
    (s.issueDecrypt rs).diagMalformed = s.diagMalformed := rfl
@[simp] theorem State.issueDecrypt_lastAdvanced (rs : List Range) :
    (s.issueDecrypt rs).lastAdvanced = s.lastAdvanced := rfl
@[simp] theorem State.issueDecrypt_resp (rs : List Range) :
    (s.issueDecrypt rs).resp = s.resp := rfl
@[simp] theorem State.issueDecrypt_mem (rs : List Range) :
    (s.issueDecrypt rs).mem = s.mem := rfl
@[simp] theorem State.issueDecrypt_phase (rs : List Range) :
    (s.issueDecrypt rs).phase = s.phase := rfl
@[simp] theorem State.issueDecrypt_iter (rs : List Range) :
    (s.issueDecrypt rs).iter = s.iter := rfl
@[simp] theorem State.issueDecrypt_st (rs : List Range) :
    (s.issueDecrypt rs).st = s.st := rfl
@[simp] theorem State.issueDecrypt_bk (rs : List Range) :
    (s.issueDecrypt rs).bk = s.bk := rfl
@[simp] theorem State.issueDecrypt_ks (rs : List Range) :
    (s.issueDecrypt rs).ks = s.ks := rfl
@[simp] theorem State.issueDecrypt_pr (rs : List Range) :
    (s.issueDecrypt rs).pr = s.pr := rfl
@[simp] theorem State.issueDecrypt_wb (rs : List Range) :
    (s.issueDecrypt rs).wb = s.wb := rfl
@[simp] theorem State.issueDecrypt_sc (rs : List Range) :
    (s.issueDecrypt rs).sc = s.sc := rfl
@[simp] theorem State.issueDecrypt_ecb (rs : List Range) :
    (s.issueDecrypt rs).ecb = s.ecb := rfl
@[simp] theorem State.issueDecrypt_opnd (rs : List Range) :
    (s.issueDecrypt rs).opnd = s.opnd := rfl
@[simp] theorem State.issueDecrypt_uops (rs : List Range) :
    (s.issueDecrypt rs).uops = s.uops := rfl
@[simp] theorem State.issueDecrypt_port (rs : List Range) :
    (s.issueDecrypt rs).port = s.port := rfl
@[simp] theorem State.issueDecrypt_host (rs : List Range) :
    (s.issueDecrypt rs).host = s.host := rfl
@[simp] theorem State.issueDecrypt_delivered (rs : List Range) :
    (s.issueDecrypt rs).delivered = s.delivered := rfl

/-! ## round0Seed -/

@[simp] theorem State.round0Seed_cfg :
    (s.round0Seed).cfg = s.cfg := by
  simp only [State.round0Seed, State.bcastKey_cfg]
@[simp] theorem State.round0Seed_kind :
    (s.round0Seed).kind = s.kind := by
  simp only [State.round0Seed, State.bcastKey_kind]
@[simp] theorem State.round0Seed_cw :
    (s.round0Seed).cw = s.cw := by
  simp only [State.round0Seed, State.bcastKey_cw]
@[simp] theorem State.round0Seed_keyValid :
    (s.round0Seed).keyValid = s.keyValid := by
  simp only [State.round0Seed, State.bcastKey_keyValid]
@[simp] theorem State.round0Seed_busy :
    (s.round0Seed).busy = s.busy := by
  simp only [State.round0Seed, State.bcastKey_busy]
@[simp] theorem State.round0Seed_pending :
    (s.round0Seed).pending = s.pending := by
  simp only [State.round0Seed, State.bcastKey_pending]
@[simp] theorem State.round0Seed_faulted :
    (s.round0Seed).faulted = s.faulted := by
  simp only [State.round0Seed, State.bcastKey_faulted]
@[simp] theorem State.round0Seed_faultCode :
    (s.round0Seed).faultCode = s.faultCode := by
  simp only [State.round0Seed, State.bcastKey_faultCode]
@[simp] theorem State.round0Seed_faultOpcode :
    (s.round0Seed).faultOpcode = s.faultOpcode := by
  simp only [State.round0Seed, State.bcastKey_faultOpcode]
@[simp] theorem State.round0Seed_diagMalformed :
    (s.round0Seed).diagMalformed = s.diagMalformed := by
  simp only [State.round0Seed, State.bcastKey_diagMalformed]
@[simp] theorem State.round0Seed_lastAdvanced :
    (s.round0Seed).lastAdvanced = s.lastAdvanced := by
  simp only [State.round0Seed, State.bcastKey_lastAdvanced]
@[simp] theorem State.round0Seed_resp :
    (s.round0Seed).resp = s.resp := by
  simp only [State.round0Seed, State.bcastKey_resp]
@[simp] theorem State.round0Seed_mem :
    (s.round0Seed).mem = s.mem := by
  simp only [State.round0Seed, State.bcastKey_mem]
@[simp] theorem State.round0Seed_phase :
    (s.round0Seed).phase = s.phase := by
  simp only [State.round0Seed, State.bcastKey_phase]
@[simp] theorem State.round0Seed_iter :
    (s.round0Seed).iter = s.iter := by
  simp only [State.round0Seed, State.bcastKey_iter]
@[simp] theorem State.round0Seed_pr :
    (s.round0Seed).pr = s.pr := by
  simp only [State.round0Seed, State.bcastKey_pr]
@[simp] theorem State.round0Seed_sc :
    (s.round0Seed).sc = s.sc := by
  simp only [State.round0Seed, State.bcastKey_sc]
@[simp] theorem State.round0Seed_ecb :
    (s.round0Seed).ecb = s.ecb := by
  simp only [State.round0Seed, State.bcastKey_ecb]
@[simp] theorem State.round0Seed_opnd :
    (s.round0Seed).opnd = s.opnd := by
  simp only [State.round0Seed, State.bcastKey_opnd]
@[simp] theorem State.round0Seed_uops :
    (s.round0Seed).uops = s.uops := by
  simp only [State.round0Seed, State.bcastKey_uops]
@[simp] theorem State.round0Seed_port :
    (s.round0Seed).port = s.port := by
  simp only [State.round0Seed, State.bcastKey_port]
@[simp] theorem State.round0Seed_host :
    (s.round0Seed).host = s.host := by
  simp only [State.round0Seed, State.bcastKey_host]
@[simp] theorem State.round0Seed_delivered :
    (s.round0Seed).delivered = s.delivered := by
  simp only [State.round0Seed, State.bcastKey_delivered]
@[simp] theorem State.round0Seed_fireIn :
    (s.round0Seed).fireIn = s.fireIn := by
  simp only [State.round0Seed, State.bcastKey_fireIn]
@[simp] theorem State.round0Seed_draws :
    (s.round0Seed).draws = s.draws := by
  simp only [State.round0Seed, State.bcastKey_draws]

/-! ## round0Load -/

@[simp] theorem State.round0Load_cfg :
    (s.round0Load).cfg = s.cfg := by simp only [State.round0Load]
@[simp] theorem State.round0Load_kind :
    (s.round0Load).kind = s.kind := by simp only [State.round0Load]
@[simp] theorem State.round0Load_cw :
    (s.round0Load).cw = s.cw := by simp only [State.round0Load]
@[simp] theorem State.round0Load_keyValid :
    (s.round0Load).keyValid = s.keyValid := by simp only [State.round0Load]
@[simp] theorem State.round0Load_busy :
    (s.round0Load).busy = s.busy := by simp only [State.round0Load]
@[simp] theorem State.round0Load_pending :
    (s.round0Load).pending = s.pending := by simp only [State.round0Load]
@[simp] theorem State.round0Load_faulted :
    (s.round0Load).faulted = s.faulted := by simp only [State.round0Load]
@[simp] theorem State.round0Load_faultCode :
    (s.round0Load).faultCode = s.faultCode := by simp only [State.round0Load]
@[simp] theorem State.round0Load_faultOpcode :
    (s.round0Load).faultOpcode = s.faultOpcode := by simp only [State.round0Load]
@[simp] theorem State.round0Load_diagMalformed :
    (s.round0Load).diagMalformed = s.diagMalformed := by simp only [State.round0Load]
@[simp] theorem State.round0Load_lastAdvanced :
    (s.round0Load).lastAdvanced = s.lastAdvanced := by simp only [State.round0Load]
@[simp] theorem State.round0Load_resp :
    (s.round0Load).resp = s.resp := by simp only [State.round0Load]
@[simp] theorem State.round0Load_mem :
    (s.round0Load).mem = s.mem := by simp only [State.round0Load]
@[simp] theorem State.round0Load_phase :
    (s.round0Load).phase = s.phase := by simp only [State.round0Load]
@[simp] theorem State.round0Load_iter :
    (s.round0Load).iter = s.iter := by simp only [State.round0Load]
@[simp] theorem State.round0Load_st :
    (s.round0Load).st = s.st := by simp only [State.round0Load]
@[simp] theorem State.round0Load_bk :
    (s.round0Load).bk = s.bk := by simp only [State.round0Load]
@[simp] theorem State.round0Load_ks :
    (s.round0Load).ks = s.ks := by simp only [State.round0Load]
@[simp] theorem State.round0Load_pr :
    (s.round0Load).pr = s.pr := by simp only [State.round0Load]
@[simp] theorem State.round0Load_ecb :
    (s.round0Load).ecb = s.ecb := by simp only [State.round0Load]
@[simp] theorem State.round0Load_opnd :
    (s.round0Load).opnd = s.opnd := by simp only [State.round0Load]
@[simp] theorem State.round0Load_uops :
    (s.round0Load).uops = s.uops := by simp only [State.round0Load]
@[simp] theorem State.round0Load_port :
    (s.round0Load).port = s.port := by simp only [State.round0Load]
@[simp] theorem State.round0Load_host :
    (s.round0Load).host = s.host := by simp only [State.round0Load]
@[simp] theorem State.round0Load_delivered :
    (s.round0Load).delivered = s.delivered := by simp only [State.round0Load]
@[simp] theorem State.round0Load_fireIn :
    (s.round0Load).fireIn = s.fireIn := by simp only [State.round0Load]
@[simp] theorem State.round0Load_draws :
    (s.round0Load).draws = s.draws := by simp only [State.round0Load]

/-! ## blockPass -/

@[simp] theorem State.blockPass_cfg (c : Nat) :
    (s.blockPass c).cfg = s.cfg := by simp only [State.blockPass]
@[simp] theorem State.blockPass_kind (c : Nat) :
    (s.blockPass c).kind = s.kind := by simp only [State.blockPass]
@[simp] theorem State.blockPass_cw (c : Nat) :
    (s.blockPass c).cw = s.cw := by simp only [State.blockPass]
@[simp] theorem State.blockPass_keyValid (c : Nat) :
    (s.blockPass c).keyValid = s.keyValid := by simp only [State.blockPass]
@[simp] theorem State.blockPass_busy (c : Nat) :
    (s.blockPass c).busy = s.busy := by simp only [State.blockPass]
@[simp] theorem State.blockPass_pending (c : Nat) :
    (s.blockPass c).pending = s.pending := by simp only [State.blockPass]
@[simp] theorem State.blockPass_faulted (c : Nat) :
    (s.blockPass c).faulted = s.faulted := by simp only [State.blockPass]
@[simp] theorem State.blockPass_faultCode (c : Nat) :
    (s.blockPass c).faultCode = s.faultCode := by simp only [State.blockPass]
@[simp] theorem State.blockPass_faultOpcode (c : Nat) :
    (s.blockPass c).faultOpcode = s.faultOpcode := by simp only [State.blockPass]
@[simp] theorem State.blockPass_diagMalformed (c : Nat) :
    (s.blockPass c).diagMalformed = s.diagMalformed := by simp only [State.blockPass]
@[simp] theorem State.blockPass_lastAdvanced (c : Nat) :
    (s.blockPass c).lastAdvanced = s.lastAdvanced := by simp only [State.blockPass]
@[simp] theorem State.blockPass_resp (c : Nat) :
    (s.blockPass c).resp = s.resp := by simp only [State.blockPass]
@[simp] theorem State.blockPass_mem (c : Nat) :
    (s.blockPass c).mem = s.mem := by simp only [State.blockPass]
@[simp] theorem State.blockPass_phase (c : Nat) :
    (s.blockPass c).phase = s.phase := by simp only [State.blockPass]
@[simp] theorem State.blockPass_iter (c : Nat) :
    (s.blockPass c).iter = s.iter := by simp only [State.blockPass]
@[simp] theorem State.blockPass_st (c : Nat) :
    (s.blockPass c).st = s.st := by simp only [State.blockPass]
@[simp] theorem State.blockPass_ks (c : Nat) :
    (s.blockPass c).ks = s.ks := by simp only [State.blockPass]
@[simp] theorem State.blockPass_sc (c : Nat) :
    (s.blockPass c).sc = s.sc := by simp only [State.blockPass]
@[simp] theorem State.blockPass_ecb (c : Nat) :
    (s.blockPass c).ecb = s.ecb := by simp only [State.blockPass]
@[simp] theorem State.blockPass_opnd (c : Nat) :
    (s.blockPass c).opnd = s.opnd := by simp only [State.blockPass]
@[simp] theorem State.blockPass_uops (c : Nat) :
    (s.blockPass c).uops = s.uops := by simp only [State.blockPass]
@[simp] theorem State.blockPass_port (c : Nat) :
    (s.blockPass c).port = s.port := by simp only [State.blockPass]
@[simp] theorem State.blockPass_host (c : Nat) :
    (s.blockPass c).host = s.host := by simp only [State.blockPass]
@[simp] theorem State.blockPass_delivered (c : Nat) :
    (s.blockPass c).delivered = s.delivered := by simp only [State.blockPass]
@[simp] theorem State.blockPass_fireIn (c : Nat) :
    (s.blockPass c).fireIn = s.fireIn := by simp only [State.blockPass]
@[simp] theorem State.blockPass_draws (c : Nat) :
    (s.blockPass c).draws = s.draws := by simp only [State.blockPass]

/-! ## streamPass -/

@[simp] theorem State.streamPass_cfg :
    (s.streamPass).cfg = s.cfg := by simp only [State.streamPass]
@[simp] theorem State.streamPass_kind :
    (s.streamPass).kind = s.kind := by simp only [State.streamPass]
@[simp] theorem State.streamPass_cw :
    (s.streamPass).cw = s.cw := by simp only [State.streamPass]
@[simp] theorem State.streamPass_keyValid :
    (s.streamPass).keyValid = s.keyValid := by simp only [State.streamPass]
@[simp] theorem State.streamPass_busy :
    (s.streamPass).busy = s.busy := by simp only [State.streamPass]
@[simp] theorem State.streamPass_pending :
    (s.streamPass).pending = s.pending := by simp only [State.streamPass]
@[simp] theorem State.streamPass_faulted :
    (s.streamPass).faulted = s.faulted := by simp only [State.streamPass]
@[simp] theorem State.streamPass_faultCode :
    (s.streamPass).faultCode = s.faultCode := by simp only [State.streamPass]
@[simp] theorem State.streamPass_faultOpcode :
    (s.streamPass).faultOpcode = s.faultOpcode := by simp only [State.streamPass]
@[simp] theorem State.streamPass_diagMalformed :
    (s.streamPass).diagMalformed = s.diagMalformed := by simp only [State.streamPass]
@[simp] theorem State.streamPass_lastAdvanced :
    (s.streamPass).lastAdvanced = s.lastAdvanced := by simp only [State.streamPass]
@[simp] theorem State.streamPass_resp :
    (s.streamPass).resp = s.resp := by simp only [State.streamPass]
@[simp] theorem State.streamPass_mem :
    (s.streamPass).mem = s.mem := by simp only [State.streamPass]
@[simp] theorem State.streamPass_phase :
    (s.streamPass).phase = s.phase := by simp only [State.streamPass]
@[simp] theorem State.streamPass_iter :
    (s.streamPass).iter = s.iter := by simp only [State.streamPass]
@[simp] theorem State.streamPass_bk :
    (s.streamPass).bk = s.bk := by simp only [State.streamPass]
@[simp] theorem State.streamPass_ks :
    (s.streamPass).ks = s.ks := by simp only [State.streamPass]
@[simp] theorem State.streamPass_pr :
    (s.streamPass).pr = s.pr := by simp only [State.streamPass]
@[simp] theorem State.streamPass_sc :
    (s.streamPass).sc = s.sc := by simp only [State.streamPass]
@[simp] theorem State.streamPass_ecb :
    (s.streamPass).ecb = s.ecb := by simp only [State.streamPass]
@[simp] theorem State.streamPass_opnd :
    (s.streamPass).opnd = s.opnd := by simp only [State.streamPass]
@[simp] theorem State.streamPass_uops :
    (s.streamPass).uops = s.uops := by simp only [State.streamPass]
@[simp] theorem State.streamPass_port :
    (s.streamPass).port = s.port := by simp only [State.streamPass]
@[simp] theorem State.streamPass_host :
    (s.streamPass).host = s.host := by simp only [State.streamPass]
@[simp] theorem State.streamPass_delivered :
    (s.streamPass).delivered = s.delivered := by simp only [State.streamPass]
@[simp] theorem State.streamPass_fireIn :
    (s.streamPass).fireIn = s.fireIn := by simp only [State.streamPass]
@[simp] theorem State.streamPass_draws :
    (s.streamPass).draws = s.draws := by simp only [State.streamPass]

/-! ## continueSlot -/

@[simp] theorem State.continueSlot_cfg (g : Nat) :
    (s.continueSlot g).cfg = s.cfg := by simp only [State.continueSlot]
@[simp] theorem State.continueSlot_kind (g : Nat) :
    (s.continueSlot g).kind = s.kind := by simp only [State.continueSlot]
@[simp] theorem State.continueSlot_cw (g : Nat) :
    (s.continueSlot g).cw = s.cw := by simp only [State.continueSlot]
@[simp] theorem State.continueSlot_keyValid (g : Nat) :
    (s.continueSlot g).keyValid = s.keyValid := by simp only [State.continueSlot]
@[simp] theorem State.continueSlot_busy (g : Nat) :
    (s.continueSlot g).busy = s.busy := by simp only [State.continueSlot]
@[simp] theorem State.continueSlot_pending (g : Nat) :
    (s.continueSlot g).pending = s.pending := by simp only [State.continueSlot]
@[simp] theorem State.continueSlot_faulted (g : Nat) :
    (s.continueSlot g).faulted = s.faulted := by simp only [State.continueSlot]
@[simp] theorem State.continueSlot_faultCode (g : Nat) :
    (s.continueSlot g).faultCode = s.faultCode := by simp only [State.continueSlot]
@[simp] theorem State.continueSlot_faultOpcode (g : Nat) :
    (s.continueSlot g).faultOpcode = s.faultOpcode := by simp only [State.continueSlot]
@[simp] theorem State.continueSlot_diagMalformed (g : Nat) :
    (s.continueSlot g).diagMalformed = s.diagMalformed := by simp only [State.continueSlot]
@[simp] theorem State.continueSlot_lastAdvanced (g : Nat) :
    (s.continueSlot g).lastAdvanced = s.lastAdvanced := by simp only [State.continueSlot]
@[simp] theorem State.continueSlot_resp (g : Nat) :
    (s.continueSlot g).resp = s.resp := by simp only [State.continueSlot]
@[simp] theorem State.continueSlot_phase (g : Nat) :
    (s.continueSlot g).phase = s.phase := by simp only [State.continueSlot]
@[simp] theorem State.continueSlot_iter (g : Nat) :
    (s.continueSlot g).iter = s.iter := by simp only [State.continueSlot]
@[simp] theorem State.continueSlot_st (g : Nat) :
    (s.continueSlot g).st = s.st := by simp only [State.continueSlot]
@[simp] theorem State.continueSlot_bk (g : Nat) :
    (s.continueSlot g).bk = s.bk := by simp only [State.continueSlot]
@[simp] theorem State.continueSlot_ks (g : Nat) :
    (s.continueSlot g).ks = s.ks := by simp only [State.continueSlot]
@[simp] theorem State.continueSlot_pr (g : Nat) :
    (s.continueSlot g).pr = s.pr := by simp only [State.continueSlot]
@[simp] theorem State.continueSlot_ecb (g : Nat) :
    (s.continueSlot g).ecb = s.ecb := by simp only [State.continueSlot]
@[simp] theorem State.continueSlot_opnd (g : Nat) :
    (s.continueSlot g).opnd = s.opnd := by simp only [State.continueSlot]
@[simp] theorem State.continueSlot_uops (g : Nat) :
    (s.continueSlot g).uops = s.uops := by simp only [State.continueSlot]
@[simp] theorem State.continueSlot_port (g : Nat) :
    (s.continueSlot g).port = s.port := by simp only [State.continueSlot]
@[simp] theorem State.continueSlot_host (g : Nat) :
    (s.continueSlot g).host = s.host := by simp only [State.continueSlot]
@[simp] theorem State.continueSlot_delivered (g : Nat) :
    (s.continueSlot g).delivered = s.delivered := by simp only [State.continueSlot]
@[simp] theorem State.continueSlot_fireIn (g : Nat) :
    (s.continueSlot g).fireIn = s.fireIn := by simp only [State.continueSlot]
@[simp] theorem State.continueSlot_draws (g : Nat) :
    (s.continueSlot g).draws = s.draws := by simp only [State.continueSlot]

/-! ## finishSlot -/

@[simp] theorem State.finishSlot_cfg (g : Nat) :
    (s.finishSlot g).cfg = s.cfg := by simp only [State.finishSlot]
@[simp] theorem State.finishSlot_kind (g : Nat) :
    (s.finishSlot g).kind = s.kind := by simp only [State.finishSlot]
@[simp] theorem State.finishSlot_cw (g : Nat) :
    (s.finishSlot g).cw = s.cw := by simp only [State.finishSlot]
@[simp] theorem State.finishSlot_keyValid (g : Nat) :
    (s.finishSlot g).keyValid = s.keyValid := by simp only [State.finishSlot]
@[simp] theorem State.finishSlot_busy (g : Nat) :
    (s.finishSlot g).busy = s.busy := by simp only [State.finishSlot]
@[simp] theorem State.finishSlot_pending (g : Nat) :
    (s.finishSlot g).pending = s.pending := by simp only [State.finishSlot]
@[simp] theorem State.finishSlot_faulted (g : Nat) :
    (s.finishSlot g).faulted = s.faulted := by simp only [State.finishSlot]
@[simp] theorem State.finishSlot_faultCode (g : Nat) :
    (s.finishSlot g).faultCode = s.faultCode := by simp only [State.finishSlot]
@[simp] theorem State.finishSlot_faultOpcode (g : Nat) :
    (s.finishSlot g).faultOpcode = s.faultOpcode := by simp only [State.finishSlot]
@[simp] theorem State.finishSlot_diagMalformed (g : Nat) :
    (s.finishSlot g).diagMalformed = s.diagMalformed := by simp only [State.finishSlot]
@[simp] theorem State.finishSlot_lastAdvanced (g : Nat) :
    (s.finishSlot g).lastAdvanced = s.lastAdvanced := by simp only [State.finishSlot]
@[simp] theorem State.finishSlot_resp (g : Nat) :
    (s.finishSlot g).resp = s.resp := by simp only [State.finishSlot]
@[simp] theorem State.finishSlot_phase (g : Nat) :
    (s.finishSlot g).phase = s.phase := by simp only [State.finishSlot]
@[simp] theorem State.finishSlot_iter (g : Nat) :
    (s.finishSlot g).iter = s.iter := by simp only [State.finishSlot]
@[simp] theorem State.finishSlot_st (g : Nat) :
    (s.finishSlot g).st = s.st := by simp only [State.finishSlot]
@[simp] theorem State.finishSlot_bk (g : Nat) :
    (s.finishSlot g).bk = s.bk := by simp only [State.finishSlot]
@[simp] theorem State.finishSlot_ks (g : Nat) :
    (s.finishSlot g).ks = s.ks := by simp only [State.finishSlot]
@[simp] theorem State.finishSlot_pr (g : Nat) :
    (s.finishSlot g).pr = s.pr := by simp only [State.finishSlot]
@[simp] theorem State.finishSlot_wb (g : Nat) :
    (s.finishSlot g).wb = s.wb := by simp only [State.finishSlot]
@[simp] theorem State.finishSlot_sc (g : Nat) :
    (s.finishSlot g).sc = s.sc := by simp only [State.finishSlot]
@[simp] theorem State.finishSlot_ecb (g : Nat) :
    (s.finishSlot g).ecb = s.ecb := by simp only [State.finishSlot]
@[simp] theorem State.finishSlot_opnd (g : Nat) :
    (s.finishSlot g).opnd = s.opnd := by simp only [State.finishSlot]
@[simp] theorem State.finishSlot_uops (g : Nat) :
    (s.finishSlot g).uops = s.uops := by simp only [State.finishSlot]
@[simp] theorem State.finishSlot_port (g : Nat) :
    (s.finishSlot g).port = s.port := by simp only [State.finishSlot]
@[simp] theorem State.finishSlot_host (g : Nat) :
    (s.finishSlot g).host = s.host := by simp only [State.finishSlot]
@[simp] theorem State.finishSlot_delivered (g : Nat) :
    (s.finishSlot g).delivered = s.delivered := by simp only [State.finishSlot]
@[simp] theorem State.finishSlot_fireIn (g : Nat) :
    (s.finishSlot g).fireIn = s.fireIn := by simp only [State.finishSlot]
@[simp] theorem State.finishSlot_draws (g : Nat) :
    (s.finishSlot g).draws = s.draws := by simp only [State.finishSlot]

/-! ## drainSlot -/

@[simp] theorem State.drainSlot_cfg (g : Nat) :
    (s.drainSlot g).cfg = s.cfg := by simp only [State.drainSlot]
@[simp] theorem State.drainSlot_kind (g : Nat) :
    (s.drainSlot g).kind = s.kind := by simp only [State.drainSlot]
@[simp] theorem State.drainSlot_cw (g : Nat) :
    (s.drainSlot g).cw = s.cw := by simp only [State.drainSlot]
@[simp] theorem State.drainSlot_keyValid (g : Nat) :
    (s.drainSlot g).keyValid = s.keyValid := by simp only [State.drainSlot]
@[simp] theorem State.drainSlot_busy (g : Nat) :
    (s.drainSlot g).busy = s.busy := by simp only [State.drainSlot]
@[simp] theorem State.drainSlot_pending (g : Nat) :
    (s.drainSlot g).pending = s.pending := by simp only [State.drainSlot]
@[simp] theorem State.drainSlot_faulted (g : Nat) :
    (s.drainSlot g).faulted = s.faulted := by simp only [State.drainSlot]
@[simp] theorem State.drainSlot_faultCode (g : Nat) :
    (s.drainSlot g).faultCode = s.faultCode := by simp only [State.drainSlot]
@[simp] theorem State.drainSlot_faultOpcode (g : Nat) :
    (s.drainSlot g).faultOpcode = s.faultOpcode := by simp only [State.drainSlot]
@[simp] theorem State.drainSlot_diagMalformed (g : Nat) :
    (s.drainSlot g).diagMalformed = s.diagMalformed := by simp only [State.drainSlot]
@[simp] theorem State.drainSlot_lastAdvanced (g : Nat) :
    (s.drainSlot g).lastAdvanced = s.lastAdvanced := by simp only [State.drainSlot]
@[simp] theorem State.drainSlot_resp (g : Nat) :
    (s.drainSlot g).resp = s.resp := by simp only [State.drainSlot]
@[simp] theorem State.drainSlot_phase (g : Nat) :
    (s.drainSlot g).phase = s.phase := by simp only [State.drainSlot]
@[simp] theorem State.drainSlot_iter (g : Nat) :
    (s.drainSlot g).iter = s.iter := by simp only [State.drainSlot]
@[simp] theorem State.drainSlot_st (g : Nat) :
    (s.drainSlot g).st = s.st := by simp only [State.drainSlot]
@[simp] theorem State.drainSlot_bk (g : Nat) :
    (s.drainSlot g).bk = s.bk := by simp only [State.drainSlot]
@[simp] theorem State.drainSlot_ks (g : Nat) :
    (s.drainSlot g).ks = s.ks := by simp only [State.drainSlot]
@[simp] theorem State.drainSlot_pr (g : Nat) :
    (s.drainSlot g).pr = s.pr := by simp only [State.drainSlot]
@[simp] theorem State.drainSlot_wb (g : Nat) :
    (s.drainSlot g).wb = s.wb := by simp only [State.drainSlot]
@[simp] theorem State.drainSlot_sc (g : Nat) :
    (s.drainSlot g).sc = s.sc := by simp only [State.drainSlot]
@[simp] theorem State.drainSlot_ecb (g : Nat) :
    (s.drainSlot g).ecb = s.ecb := by simp only [State.drainSlot]
@[simp] theorem State.drainSlot_opnd (g : Nat) :
    (s.drainSlot g).opnd = s.opnd := by simp only [State.drainSlot]
@[simp] theorem State.drainSlot_uops (g : Nat) :
    (s.drainSlot g).uops = s.uops := by simp only [State.drainSlot]
@[simp] theorem State.drainSlot_port (g : Nat) :
    (s.drainSlot g).port = s.port := by simp only [State.drainSlot]
@[simp] theorem State.drainSlot_host (g : Nat) :
    (s.drainSlot g).host = s.host := by simp only [State.drainSlot]
@[simp] theorem State.drainSlot_delivered (g : Nat) :
    (s.drainSlot g).delivered = s.delivered := by simp only [State.drainSlot]
@[simp] theorem State.drainSlot_fireIn (g : Nat) :
    (s.drainSlot g).fireIn = s.fireIn := by simp only [State.drainSlot]
@[simp] theorem State.drainSlot_draws (g : Nat) :
    (s.drainSlot g).draws = s.draws := by simp only [State.drainSlot]

/-! ## The fields that change -/

@[simp] theorem State.respond_resp (opc : Byte) (c : Status) (p : List Word) :
    (s.respond opc c p).resp = s.resp ++ [⟨opc, statusCode c, p⟩] := rfl
@[simp] theorem State.refuseFaulted_resp (opc : Byte) :
    (s.refuseFaulted opc).resp = s.resp ++ [⟨opc, 0xFF, []⟩] := rfl
@[simp] theorem State.consume_port (len : Nat) : (s.consume len).port = s.port.drop len := rfl
@[simp] theorem State.consume_fireIn (len : Nat) : (s.consume len).fireIn = s.fireIn - 1 := rfl
@[simp] theorem State.recordFault_faulted (c opc : Byte) : (s.recordFault c opc).faulted = true := by
  unfold State.recordFault; split
  · assumption
  · rfl
@[simp] theorem State.recordFault_faultCode (c opc : Byte) :
    (s.recordFault c opc).faultCode = if s.faulted then s.faultCode else c := by
  unfold State.recordFault; split <;> simp_all
@[simp] theorem State.recordFault_faultOpcode (c opc : Byte) :
    (s.recordFault c opc).faultOpcode = if s.faulted then s.faultOpcode else opc := by
  unfold State.recordFault; split <;> simp_all
@[simp] theorem State.dropDecrypt_busy : s.dropDecrypt.busy = false := rfl
@[simp] theorem State.dropDecrypt_pending : s.dropDecrypt.pending = .empty := rfl
@[simp] theorem State.dropDecrypt_mem :
    s.dropDecrypt.mem = scrambleRanges s.draws s.pending.ranges s.mem := rfl
@[simp] theorem State.raiseFault_faulted (c : Status) (opc : Byte) :
    (s.raiseFault c opc).faulted = true := by
  simp only [State.raiseFault]; split <;> simp
@[simp] theorem State.raiseFault_busy (c : Status) (opc : Byte) :
    (s.raiseFault c opc).busy = false := by
  simp only [State.raiseFault]; split <;> simp_all
@[simp] theorem State.raiseFault_resp (c : Status) (opc : Byte) :
    (s.raiseFault c opc).resp = s.resp ++ [⟨opc, statusCode c, []⟩] := by
  simp only [State.raiseFault]; split <;> simp
@[simp] theorem State.raiseFault_faultCode (c : Status) (opc : Byte) :
    (s.raiseFault c opc).faultCode = if s.faulted then s.faultCode else statusCode c := by
  simp only [State.raiseFault]; split <;> simp
@[simp] theorem State.raiseFault_faultOpcode (c : Status) (opc : Byte) :
    (s.raiseFault c opc).faultOpcode = if s.faulted then s.faultOpcode else opc := by
  simp only [State.raiseFault]; split <;> simp
@[simp] theorem State.completionFault_faulted (c : Status) :
    (s.completionFault c).faulted = true := by simp [State.completionFault, State.respond]
@[simp] theorem State.completionFault_busy (c : Status) : (s.completionFault c).busy = false := rfl
@[simp] theorem State.completionFault_phase (c : Status) : (s.completionFault c).phase = .idle := rfl
@[simp] theorem State.completionFault_uops (c : Status) : (s.completionFault c).uops = [] := rfl
@[simp] theorem State.completionFault_resp (c : Status) :
    (s.completionFault c).resp = s.resp ++ [⟨0x03, statusCode c, []⟩] := by
  simp [State.completionFault, State.respond, opcDecrypt]
@[simp] theorem State.issueDecrypt_busy (rs : List Range) : (s.issueDecrypt rs).busy = true := rfl
@[simp] theorem State.issueDecrypt_pending (rs : List Range) :
    (s.issueDecrypt rs).pending = s.latch rs := rfl

end Sys2Proof.Machine
end

