-- ==== Sys2Proof/Laws/Operands.lean ====
section
/-!
SUPPORT. The operand registers: a register that is written reads back, and every other register, and the
rest of the state, is as before.
-/

namespace Sys2Proof.Machine

/-! ## Bits of a nibble -/

theorem NibbleG.bit_setBit (v : NibbleG) (b c : Fin 4) (g : Group) :
    (v.setBit b g).bit c = if c = b then g else v.bit c := by
  revert b c
  have h (b c : Fin 4) : (v.setBit b g).bit c = if c = b then g else v.bit c := by
    match b, c with
    | 0, 0 => rfl
    | 0, 1 => rfl
    | 0, 2 => rfl
    | 0, 3 => rfl
    | 1, 0 => rfl
    | 1, 1 => rfl
    | 1, 2 => rfl
    | 1, 3 => rfl
    | 2, 0 => rfl
    | 2, 1 => rfl
    | 2, 2 => rfl
    | 2, 3 => rfl
    | 3, 0 => rfl
    | 3, 1 => rfl
    | 3, 2 => rfl
    | 3, 3 => rfl
  exact h

theorem StreamRegs.getAcc_setAcc (st : StreamRegs) (a b : Acc) (v : NibbleG) :
    (st.setAcc a v).getAcc b = if b = a then v else st.getAcc b := by
  cases a <;> cases b <;> rfl

/-! ## Group registers -/

/-- A group register that is written reads back. -/
@[simp] theorem State.readGroup_writeGroup_self (s : State) (r : GroupReg) (v : Group) :
    (s.writeGroup r v).readGroup r = v := by
  cases r <;> simp [State.writeGroup, State.readGroup, NibbleG.bit_setBit, StreamRegs.getAcc_setAcc]

/-- Writing a group register leaves the others alone. -/
theorem State.readGroup_writeGroup_ne (s : State) {d r : GroupReg} (v : Group) (h : r ≠ d) :
    (s.writeGroup d v).readGroup r = s.readGroup r := by
  cases d with
  | sa slot bit =>
    cases r with
    | sa slot' bit' =>
      by_cases hs : slot = slot'
      · subst hs
        have hb : bit' ≠ bit := fun hb => h (by rw [hb])
        simp [State.writeGroup, State.readGroup, NibbleG.bit_setBit, hb]
      · have hs' : slot.val ≠ slot'.val := fun he => hs (Fin.ext he)
        simp [State.writeGroup, State.readGroup, hs']
    | acc a _ => cases a <;> rfl
    | _ => rfl
  | sb slot bit =>
    cases r with
    | sb slot' bit' =>
      by_cases hs : slot = slot'
      · subst hs
        have hb : bit' ≠ bit := fun hb => h (by rw [hb])
        simp [State.writeGroup, State.readGroup, NibbleG.bit_setBit, hb]
      · have hs' : slot.val ≠ slot'.val := fun he => hs (Fin.ext he)
        simp [State.writeGroup, State.readGroup, hs']
    | acc a _ => cases a <;> rfl
    | _ => rfl
  | acc a bit =>
    cases r with
    | acc a' bit' =>
      simp only [State.writeGroup, State.readGroup, StreamRegs.getAcc_setAcc]
      by_cases ha : a' = a
      · subst ha
        have hb : bit' ≠ bit := fun hb => h (by rw [hb])
        simp [NibbleG.bit_setBit, hb]
      · simp [ha]
    | _ => cases a <;> rfl
  | carry => cases r <;> first | rfl | exact absurd rfl h
  | ctlP => cases r <;> first | rfl | exact absurd rfl h
  | ctlQ => cases r <;> first | rfl | exact absurd rfl h
  | iA slot bit =>
    cases r with
    | iA slot' bit' =>
      by_cases hs : slot = slot'
      · subst hs
        have hb : bit' ≠ bit := fun hb => h (by rw [hb])
        simp [State.writeGroup, State.readGroup, NibbleG.bit_setBit, hb]
      · have hs' : slot.val ≠ slot'.val := fun he => hs (Fin.ext he)
        simp [State.writeGroup, State.readGroup, hs']
    | acc a _ => cases a <;> rfl
    | _ => rfl
  | iB slot bit =>
    cases r with
    | iB slot' bit' =>
      by_cases hs : slot = slot'
      · subst hs
        have hb : bit' ≠ bit := fun hb => h (by rw [hb])
        simp [State.writeGroup, State.readGroup, NibbleG.bit_setBit, hb]
      · have hs' : slot.val ≠ slot'.val := fun he => hs (Fin.ext he)
        simp [State.writeGroup, State.readGroup, hs']
    | acc a _ => cases a <;> rfl
    | _ => rfl
  | plane m =>
    cases r with
    | plane m' =>
      have hm : m.val ≠ m'.val := fun he => h (by rw [Fin.ext he])
      simp [State.writeGroup, State.readGroup, hm]
    | _ => rfl

/-- Writing a group register changes at most that register. -/
theorem State.writeGroup_onlyGroup (s : State) (d : GroupReg) (v : Group) :
    OnlyGroupChanges d s (s.writeGroup d v) := by
  refine ⟨?_, fun r h => s.readGroup_writeGroup_ne v h, ?_⟩
  · cases d <;> rfl
  · cases d <;> first
      | (refine ⟨rfl, rfl, rfl, rfl, rfl, fun _ => rfl⟩)
      | (rename_i a _; cases a <;> refine ⟨rfl, rfl, rfl, rfl, rfl, fun _ => rfl⟩)

/-! ## Byte-slice registers -/

/-- A byte-slice register that is written reads back. -/
@[simp] theorem State.readSlice_writeSlice_self (s : State) (r : SliceReg) (v : Slice) :
    (s.writeSlice r v).readSlice r = v := by
  cases r <;> simp [State.writeSlice, State.readSlice]

/-- Writing a byte-slice register leaves the others alone. -/
theorem State.readSlice_writeSlice_ne (s : State) {d r : SliceReg} (v : Slice) (h : r ≠ d) :
    (s.writeSlice d v).readSlice r = s.readSlice r := by
  cases d with
  | kk i =>
    cases r with
    | kk j =>
      have hm : i.val ≠ j.val := fun he => h (by rw [Fin.ext he])
      simp [State.writeSlice, State.readSlice, hm]
    | _ => rfl
  | br i =>
    cases r with
    | br j =>
      have hm : i.val ≠ j.val := fun he => h (by rw [Fin.ext he])
      simp [State.writeSlice, State.readSlice, hm]
    | _ => rfl
  | slice i =>
    cases r with
    | slice j =>
      have hm : i.val ≠ j.val := fun he => h (by rw [Fin.ext he])
      simp [State.writeSlice, State.readSlice, hm]
    | _ => rfl

/-- Writing a byte-slice register changes at most that register. -/
theorem State.writeSlice_onlySlice (s : State) (d : SliceReg) (v : Slice) :
    OnlySliceChanges d s (s.writeSlice d v) := by
  refine ⟨by cases d <;> rfl, fun r h => s.readSlice_writeSlice_ne v h, ?_⟩
  cases d <;> refine ⟨rfl, rfl, rfl, fun _ => rfl⟩

/-! ## Working blocks and banks -/

@[simp] theorem State.readBlocks_writeBlocks_self (s : State) (b : BlockBank)
    (v : Vector Block maxLanes) : (s.writeBlocks b v).readBlocks b = v := by cases b <;> rfl

theorem State.readBlocks_writeBlocks_ne (s : State) {b c : BlockBank} (v : Vector Block maxLanes)
    (h : c ≠ b) : (s.writeBlocks b v).readBlocks c = s.readBlocks c := by
  cases b <;> cases c <;> first | rfl | exact absurd rfl h

/-- Writing working blocks that differ only below lane `c`. -/
theorem State.writeBlocks_onlyBlocks (s : State) (b : BlockBank) (c : Nat)
    (v : Vector Block maxLanes)
    (h : ∀ i, c ≤ i → laneBlock v i = laneBlock (s.readBlocks b) i) :
    OnlyBlocksChange b c s (s.writeBlocks b v) := by
  refine ⟨by cases b <;> rfl, fun b' hb => s.readBlocks_writeBlocks_ne v hb, ?_, ?_⟩
  · intro i hi; rw [State.readBlocks_writeBlocks_self]; exact h i hi
  · intro a; rw [State.writeBlocks_mem]

/-- Slot i of the block register after a bank is written. -/
theorem BlockRegs.setBank_br (bk : BlockRegs) (base : Fin 57) (v : Vector Slice 8) (i : Nat)
    (hi : i < 64) :
    (bk.setBank base v).br[i] = if h : base.val ≤ i ∧ i < base.val + 8 then v[i - base.val]
      else bk.br[i] := by simp [BlockRegs.setBank]

@[simp] theorem BlockRegs.bank_getElem (bk : BlockRegs) (base : Fin 57) (j : Nat) (hj : j < 8) :
    (bk.bank base)[j] = bk.br[base.val + j] := by simp [BlockRegs.bank]

/-- A bank that is written reads back. -/
theorem BlockRegs.bank_setBank (bk : BlockRegs) (base : Fin 57) (v : Vector Slice 8) :
    (bk.setBank base v).bank base = v := by
  apply Vector.ext
  intro j hj
  rw [BlockRegs.bank_getElem _ _ _ hj, BlockRegs.setBank_br _ _ _ _ (by omega)]
  have h : base.val ≤ base.val + j ∧ base.val + j < base.val + 8 := by omega
  rw [dif_pos h]
  simp

end Sys2Proof.Machine
end

