-- ==== Sys2Proof/Laws/Engine.lean ====
section
/-!
SUPPORT. What an engine operation can do: change the datapath and packet memory, and nothing else of the
state; and it keeps the memory's canonical form.
-/

namespace Sys2Proof.Machine

/-- The four commands; every other instruction is an engine operation. -/
def isCommand : Instr → Bool
  | .setKind _ _ | .setCw _ _ _ | .decrypt _ _ | .csrRead _ _ => true
  | _ => false

/-- At most the datapath and packet memory differ. -/
def EngineFrame (s t : State) : Prop :=
  t = { s with
    mem := t.mem, st := t.st, bk := t.bk, ks := t.ks, pr := t.pr, wb := t.wb, sc := t.sc,
    ecb := t.ecb }

theorem EngineFrame.refl (s : State) : EngineFrame s s := rfl

theorem EngineFrame.trans {s t u : State} (h1 : EngineFrame s t) (h2 : EngineFrame t u) :
    EngineFrame s u := by
  unfold EngineFrame at *
  rw [h2, h1]

theorem State.writeGroup_frame (s : State) (r : GroupReg) (v : Group) :
    EngineFrame s (s.writeGroup r v) := by cases r <;> rfl

theorem State.writeSlice_frame (s : State) (r : SliceReg) (v : Slice) :
    EngineFrame s (s.writeSlice r v) := by cases r <;> rfl

theorem State.writeBank_frame (s : State) (b : SliceBank) (v : Vector Slice 8) :
    EngineFrame s (s.writeBank b v) := by
  unfold State.writeBank EngineFrame; cases b <;> dsimp only

theorem State.writeBlocks_frame (s : State) (b : BlockBank) (v : Vector Block maxLanes) :
    EngineFrame s (s.writeBlocks b v) := by cases b <;> rfl

theorem State.bitwise_frame (s : State) (f : Group → Group → Group) (g : Slice → Slice → Slice) :
    EngineFrame s (s.bitwise f g) := by
  unfold State.bitwise
  split
  · exact s.writeGroup_frame _ _
  · exact s.writeSlice_frame _ _

theorem State.bitwise_mem (s : State) (f : Group → Group → Group) (g : Slice → Slice → Slice) :
    (s.bitwise f g).mem = s.mem := by
  unfold State.bitwise; split <;> simp

theorem State.bcastKey_frame (s : State) (p : Parity) : EngineFrame s (s.bcastKey p) := by
  unfold EngineFrame State.bcastKey; dsimp only

theorem State.blockPass_frame (s : State) (c : Nat) : EngineFrame s (s.blockPass c) := by
  unfold EngineFrame State.blockPass; dsimp only

theorem State.streamPass_frame (s : State) : EngineFrame s s.streamPass := by
  unfold EngineFrame State.streamPass; dsimp only

theorem State.continueSlot_frame (s : State) (g : Nat) : EngineFrame s (s.continueSlot g) := by
  unfold EngineFrame State.continueSlot; dsimp only

theorem State.finishSlot_frame (s : State) (g : Nat) : EngineFrame s (s.finishSlot g) := by
  unfold EngineFrame State.finishSlot; dsimp only

theorem State.drainSlot_frame (s : State) (g : Nat) : EngineFrame s (s.drainSlot g) := by
  unfold EngineFrame State.drainSlot; dsimp only

theorem State.round0Load_frame (s : State) : EngineFrame s s.round0Load := by
  unfold EngineFrame State.round0Load; dsimp only

theorem State.round0Seed_frame (s : State) : EngineFrame s s.round0Seed := by
  unfold State.round0Seed
  refine (s.bcastKey_frame s.sc.gpar).trans ?_
  unfold EngineFrame; dsimp only

/-- A property of one slot's work that holds of none of it and composes holds of any number of slots. -/
theorem State.forSlots_induction {P : State → State → Prop} {f : State → Nat → State}
    (refl : ∀ s, P s s) (trans : ∀ s t u, P s t → P t u → P s u) (one : ∀ s g, P s (f s g))
    (g k : Nat) (s : State) : P s (State.forSlots f g k s) := by
  induction k generalizing g s with
  | zero => exact refl s
  | succ k ih => exact trans _ _ _ (one s g) (ih (g + 1) (f s g))

theorem State.forSlots_frame {f : State → Nat → State} (h : ∀ s g, EngineFrame s (f s g))
    (g k : Nat) (s : State) : EngineFrame s (State.forSlots f g k s) :=
  State.forSlots_induction EngineFrame.refl (fun _ _ _ => EngineFrame.trans) h g k s

theorem State.forSlots_wf {f : State → Nat → State}
    (h : ∀ s g, s.mem.wf = true → (f s g).mem.wf = true) (g k : Nat) (s : State)
    (hs : s.mem.wf = true) : (State.forSlots f g k s).mem.wf = true :=
  State.forSlots_induction (P := fun s t => s.mem.wf = true → t.mem.wf = true)
    (fun _ h => h) (fun _ _ _ h1 h2 h => h2 (h1 h)) h g k s hs

theorem State.schedRound_frame (s : State) (it : Nat) : EngineFrame s (s.schedRound it) := by
  unfold State.schedRound
  exact ((s.blockPass_frame _).trans (State.streamPass_frame _)).trans
    ((State.forSlots_frame State.continueSlot_frame _ _ _).trans
      (State.forSlots_frame State.finishSlot_frame _ _ _))

theorem State.schedDrain_frame (s : State) : EngineFrame s s.schedDrain := by
  unfold State.schedDrain
  exact (s.blockPass_frame _).trans (State.forSlots_frame State.drainSlot_frame _ _ _)

theorem State.schedRound_wf (s : State) (it : Nat) (h : s.mem.wf = true) :
    (s.schedRound it).mem.wf = true := by
  unfold State.schedRound
  apply State.forSlots_wf
  · intro s g hs; unfold State.finishSlot; exact wf_residue _ _ _ _ (Memory.wf_write hs _ _)
  · apply State.forSlots_wf
    · intro s g hs; unfold State.continueSlot; exact Memory.wf_write hs _ _
    · rw [State.streamPass_mem, State.blockPass_mem]; exact h

theorem State.schedDrain_wf (s : State) (h : s.mem.wf = true) : s.schedDrain.mem.wf = true := by
  unfold State.schedDrain
  apply State.forSlots_wf
  · intro s g hs; unfold State.drainSlot; exact Memory.wf_write hs _ _
  · rw [State.blockPass_mem]; exact h

/-- What a packet operation can do: the bytes of its blocks are valid, and memory alone changes. -/
theorem State.packetOp_next {s t : State} {b : Nat} {dec : Bytes b → Bytes b}
    (h : s.packetOp b dec = .next t) :
    ValidBytes s.cfg (s.ecb.op.pkt + s.ecb.op.off) (b * s.ecb.op.nb)
      ∧ t = { s with
        mem := decipherBlocks b dec (s.ecb.op.pkt + s.ecb.op.off) s.ecb.op.nb s.mem } := by
  unfold State.packetOp at h
  dsimp only at h
  split at h
  · rename_i ha
    exact ⟨(accessOk_iff _ _ _).mp ha, by simpa using h.symm⟩
  · cases h

/-- Everything an engine operation can do, when it answers a next state. -/
theorem exec_engine {i : Instr} {s t : State} (hi : isCommand i = false) (h : exec i s = .next t) :
    EngineFrame s t ∧ (s.mem.wf = true → t.mem.wf = true) := by
  cases i with
  | setKind | setCw | decrypt | csrRead => cases hi
  | gZero | gOnes | gBcast1 =>
    simp only [exec, execGZero, execGOnes, execGBcast1, Host.Outcome.next.injEq] at h
    subst h; exact ⟨s.writeGroup_frame _ _, by simp⟩
  | gAnd | gOr | gXor | gNot =>
    simp only [exec, execGAnd, execGOr, execGXor, execGNot, Host.Outcome.next.injEq] at h
    subst h; exact ⟨s.bitwise_frame _ _, by simp [State.bitwise_mem]⟩
  | bBcast8 | bShl8 | bShr8 | bSbox =>
    simp only [exec, execBBcast8, execBShl8, execBShr8, execBSbox, Host.Outcome.next.injEq] at h
    subst h; exact ⟨s.writeSlice_frame _ _, by simp⟩
  | tInBits =>
    simp only [exec, execTInBits, Host.Outcome.next.injEq] at h
    subst h; exact ⟨rfl, fun h => h⟩
  | tOutBits | tOutBytes =>
    simp only [exec, execTOutBits, execTOutBytes, Host.Outcome.next.injEq] at h
    subst h; exact ⟨s.writeBlocks_frame _ _, by simp⟩
  | tInBytes =>
    simp only [exec, execTInBytes, Host.Outcome.next.injEq] at h
    subst h; exact ⟨s.writeBank_frame _ _, by simp⟩
  | kStream | kBlock =>
    simp only [exec, execKStream, execKBlock, Host.Outcome.next.injEq] at h
    subst h; exact ⟨rfl, fun h => h⟩
  | kBcast =>
    simp only [exec, execKBcast, Host.Outcome.next.injEq] at h
    subst h; exact ⟨s.bcastKey_frame _, by simp⟩
  | sLoad | sAdvance =>
    simp only [exec, execSLoad, execSAdvance, Host.Outcome.next.injEq] at h
    subst h; exact ⟨rfl, fun h => h⟩
  | sStep mode jOdd =>
    simp only [exec, execSStep] at h
    split at h
    · cases h
    · split at h <;> (simp only [Host.Outcome.next.injEq] at h; subst h; exact ⟨rfl, fun h => h⟩)
  | sInit =>
    simp only [exec, execSInit] at h
    split at h
    · cases h
    · simp only [Host.Outcome.next.injEq] at h; subst h; exact ⟨rfl, fun h => h⟩
  | sGen =>
    simp only [exec, execSGen] at h
    split at h
    · cases h
    · simp only [Host.Outcome.next.injEq] at h; subst h; exact ⟨rfl, fun h => h⟩
  | bcLoad | bcStore =>
    simp only [exec, execBcLoad, execBcStore, Host.Outcome.next.injEq] at h
    subst h; exact ⟨rfl, fun h => h⟩
  | bcRound =>
    simp only [exec, execBcRound] at h
    split at h
    · cases h
    · simp only [Host.Outcome.next.injEq] at h; subst h; exact ⟨rfl, fun h => h⟩
  | bcDecipher =>
    simp only [exec, execBcDecipher] at h
    split at h
    · cases h
    · simp only [Host.Outcome.next.injEq] at h; subst h; exact ⟨rfl, fun h => h⟩
  | scScan =>
    simp only [exec, execScScan] at h
    split at h
    · cases h
    · simp only [Host.Outcome.next.injEq] at h; subst h; exact ⟨rfl, fun h => h⟩
  | scSort | scAlive | scCompact =>
    simp only [exec, execScSort, execScAlive, execScCompact, Host.Outcome.next.injEq] at h
    subst h; exact ⟨rfl, fun h => h⟩
  | scRound0 =>
    simp only [exec, execScRound0] at h
    split at h
    · simp only [Host.Outcome.next.injEq] at h
      subst h
      exact ⟨s.round0Seed_frame.trans (State.round0Load_frame _), by simp⟩
    · cases h
  | scRound it =>
    simp only [exec, execScRound] at h
    split at h
    · cases h
    · split at h
      · simp only [Host.Outcome.next.injEq] at h
        subst h; exact ⟨s.schedRound_frame _, s.schedRound_wf _⟩
      · cases h
  | scRound23 =>
    simp only [exec, execScRound23] at h
    split at h
    · simp only [Host.Outcome.next.injEq] at h
      subst h; exact ⟨s.schedDrain_frame, s.schedDrain_wf⟩
    · cases h
  | pDesNcb | pAesEcb | pAes128Ecb =>
    simp only [exec, execPDesNcb, execPAesEcb, execPAes128Ecb] at h
    obtain ⟨_, rfl⟩ := State.packetOp_next h
    exact ⟨rfl, fun h => wf_decipherBlocks _ _ _ _ h⟩

/-- A word that decodes is an engine operation. -/
theorem decodeEngine_not_command {w : UWord} {i : Instr} (h : decodeEngine w = some i) :
    isCommand i = false := by
  unfold decodeEngine at h
  dsimp only at h
  split at h <;>
    first
    | (simp only [plainOp] at h; split at h <;> simp at h; subst h; rfl)
    | (simp only [bitOp] at h; split at h <;> simp at h; subst h; rfl)
    | (simp only [shiftOp] at h; split at h <;> simp at h; subst h; rfl)
    | (simp at h; subst h; rfl)
    | (split at h <;> simp at h; subst h; rfl)
    | (simp at h)

end Sys2Proof.Machine
end

