-- ==== Sys2Proof/Laws/PerInstr.lean ====
section
/-!
SUPPORT. Statements about every instruction, one lemma for each constructor. The family `OpcodeBits`: the
first word of an encoded instruction carries the opcode (bits 31:24) or UOP (bits 15:8) of the
instruction's row of spec/opcode_table.json.
-/

namespace Sys2Proof.Laws.OpcodeBits

open Sys2Proof

/-- The opcode or UOP of the instruction's row. -/
def rowCode : Instr → Nat
  | .setKind _ _ => 0x01
  | .setCw _ _ _ => 0x02
  | .decrypt _ _ => 0x03
  | .csrRead _ _ => 0x04
  | .gZero => 0x01
  | .gOnes => 0x02
  | .gAnd => 0x03
  | .gOr => 0x04
  | .gXor => 0x05
  | .gNot => 0x06
  | .gBcast1 _ => 0x07
  | .bBcast8 _ => 0x08
  | .bShl8 _ => 0x09
  | .bShr8 _ => 0x0A
  | .bSbox => 0x0B
  | .tInBits => 0x0C
  | .tOutBits => 0x0D
  | .tInBytes => 0x0E
  | .tOutBytes => 0x0F
  | .kStream => 0x20
  | .kBlock => 0x21
  | .kBcast _ => 0x22
  | .sLoad => 0x30
  | .sStep _ _ => 0x31
  | .sInit => 0x32
  | .sGen => 0x33
  | .sAdvance => 0x34
  | .bcLoad => 0x40
  | .bcRound _ => 0x41
  | .bcDecipher => 0x42
  | .bcStore => 0x43
  | .scScan => 0x50
  | .scSort => 0x51
  | .scAlive => 0x52
  | .scRound0 => 0x53
  | .scRound _ => 0x54
  | .scRound23 => 0x55
  | .scCompact => 0x56
  | .pDesNcb => 0x60
  | .pAesEcb => 0x61
  | .pAes128Ecb => 0x62

/-- The opcode or UOP that the encoded instruction carries. -/
def wordCode : Encoded → Nat
  | .command [] => 0
  | .command (w :: _) => w.toNat / 2 ^ 24
  | .engine w => w.toNat / 2 ^ 8

/-- The encoding carries the row's code. -/
def Statement (i : Instr) : Prop := wordCode (encode i) = rowCode i

theorem toNat_top {v w : Nat} (a : BitVec v) (b : BitVec w) : (a ++ b).toNat / 2 ^ w = a.toNat := by
  rw [BitVec.toNat_append, ← Nat.shiftLeft_add_eq_or_of_lt b.isLt, Nat.shiftLeft_eq,
    Nat.add_comm, Nat.add_mul_div_right _ _ (Nat.two_pow_pos w), Nat.div_eq_of_lt b.isLt,
    Nat.zero_add]

theorem toNat_top2 {u v w : Nat} (a : BitVec u) (b : BitVec v) (c : BitVec w) :
    ((a ++ b) ++ c).toNat / 2 ^ (w + v) = a.toNat := by
  rw [Nat.pow_add, ← Nat.div_div_eq_div_mul, toNat_top, toNat_top]

theorem uop_top (uop imm : BitVec 8) : (uword uop imm).toNat / 2 ^ 8 = uop.toNat := toNat_top uop imm

theorem setKind (rsvd : BitVec 21) (k : BitVec 3) : Statement (.setKind rsvd k) := (toNat_top2 (0x01#8) rsvd k)
theorem setCw (rsvd : BitVec 22) (pmask : BitVec 2) (keys : List Word) : Statement (.setCw rsvd pmask keys) := (toNat_top2 (0x02#8) rsvd pmask)
theorem decrypt (rsvd : BitVec 8) (ranges : List Range) : Statement (.decrypt rsvd ranges) := (toNat_top2 (0x03#8) rsvd (BitVec.ofNat 16 ranges.length))
theorem csrRead (rsvd : BitVec 16) (index : BitVec 8) : Statement (.csrRead rsvd index) := (toNat_top2 (0x04#8) rsvd index)
theorem gZero : Statement .gZero := (uop_top _ _)
theorem gOnes : Statement .gOnes := (uop_top _ _)
theorem gAnd : Statement .gAnd := (uop_top _ _)
theorem gOr : Statement .gOr := (uop_top _ _)
theorem gXor : Statement .gXor := (uop_top _ _)
theorem gNot : Statement .gNot := (uop_top _ _)
theorem gBcast1 (v : Bool) : Statement (.gBcast1 v) := (uop_top _ _)
theorem bBcast8 (c : Byte) : Statement (.bBcast8 c) := (uop_top _ _)
theorem bShl8 (k : BitVec 3) : Statement (.bShl8 k) := (uop_top _ _)
theorem bShr8 (k : BitVec 3) : Statement (.bShr8 k) := (uop_top _ _)
theorem bSbox : Statement .bSbox := (uop_top _ _)
theorem tInBits : Statement .tInBits := (uop_top _ _)
theorem tOutBits : Statement .tOutBits := (uop_top _ _)
theorem tInBytes : Statement .tInBytes := (uop_top _ _)
theorem tOutBytes : Statement .tOutBytes := (uop_top _ _)
theorem kStream : Statement .kStream := (uop_top _ _)
theorem kBlock : Statement .kBlock := (uop_top _ _)
theorem kBcast (p : Parity) : Statement (.kBcast p) := (uop_top _ _)
theorem sLoad : Statement .sLoad := (uop_top _ _)
theorem sStep (mode : StepMode) (jOdd : Bool) : Statement (.sStep mode jOdd) := (uop_top _ _)
theorem sInit : Statement .sInit := (uop_top _ _)
theorem sGen : Statement .sGen := (uop_top _ _)
theorem sAdvance : Statement .sAdvance := (uop_top _ _)
theorem bcLoad : Statement .bcLoad := (uop_top _ _)
theorem bcRound (t : Fin 56) : Statement (.bcRound t) := (uop_top _ _)
theorem bcDecipher : Statement .bcDecipher := (uop_top _ _)
theorem bcStore : Statement .bcStore := (uop_top _ _)
theorem scScan : Statement .scScan := (uop_top _ _)
theorem scSort : Statement .scSort := (uop_top _ _)
theorem scAlive : Statement .scAlive := (uop_top _ _)
theorem scRound0 : Statement .scRound0 := (uop_top _ _)
theorem scRound (it : SchedRound) : Statement (.scRound it) := (uop_top _ _)
theorem scRound23 : Statement .scRound23 := (uop_top _ _)
theorem scCompact : Statement .scCompact := (uop_top _ _)
theorem pDesNcb : Statement .pDesNcb := (uop_top _ _)
theorem pAesEcb : Statement .pAesEcb := (uop_top _ _)
theorem pAes128Ecb : Statement .pAes128Ecb := (uop_top _ _)

end Sys2Proof.Laws.OpcodeBits
end

