-- ==== Sys2Proof/Laws/Tables.lean ====
section
/-!
SUPPORT. The shapes of the constant tables, whatever their values: what `TableData.wf` says of a build's
tables, one lemma for each table.
-/

namespace Sys2Proof

theorem registerBit_iff (mb : Nat × Nat) :
    registerBit mb = true ↔ 1 ≤ mb.1 ∧ mb.1 ≤ 10 ∧ mb.2 < 4 := by
  simp [registerBit, and_assoc]

/-- KEY_PERM is a permutation of 1..64 (R181). -/
theorem Tables.keyPerm_shape (t : Tables) :
    t.keyPerm.length = 64 ∧ t.keyPerm.Nodup ∧ ∀ v ∈ t.keyPerm, 1 ≤ v ∧ v ≤ 64 := by
  have h := t.wf
  simp only [TableData.wf, Bool.and_eq_true, decide_eq_true_eq, List.all_eq_true] at h
  tauto

/-- BLOCK_SBOX has an entry for every byte (R246). -/
theorem Tables.blockSbox_shape (t : Tables) : t.blockSbox.length = 256 := by
  have h := t.wf
  simp only [TableData.wf, Bool.and_eq_true, decide_eq_true_eq, List.all_eq_true] at h
  tauto

/-- PERM_BIT is a permutation of 0..7 (R248). -/
theorem Tables.permBit_shape (t : Tables) :
    t.permBit.length = 8 ∧ t.permBit.Nodup ∧ ∀ v ∈ t.permBit, v < 8 := by
  have h := t.wf
  simp only [TableData.wf, Bool.and_eq_true, decide_eq_true_eq, List.all_eq_true] at h
  tauto

/-- The S-boxes have five input bits and 32 entries each (R203, R204). -/
theorem Tables.sbox_shape (t : Tables) (k : Fin 7) :
    (t.sboxIn.getD k.val []).length = 5 ∧ (t.streamSbox.getD k.val []).length = 32
      ∧ ∀ mb ∈ t.sboxIn.getD k.val [], 1 ≤ mb.1 ∧ mb.1 ≤ 10 ∧ mb.2 < 4 := by
  have h := t.wf
  simp only [TableData.wf, Bool.and_eq_true, decide_eq_true_eq, List.all_eq_true,
    registerBit_iff] at h
  obtain ⟨⟨⟨⟨⟨⟨_, hs⟩, hsbox⟩, hi⟩, hin⟩, _⟩, _⟩ := h
  have h1 : k.val < t.sboxIn.length := by omega
  have h2 : k.val < t.streamSbox.length := by omega
  rw [List.getD_eq_getElem _ _ h1, List.getD_eq_getElem _ _ h2]
  exact ⟨(hin _ (List.getElem_mem h1)).1, hsbox _ (List.getElem_mem h2),
    (hin _ (List.getElem_mem h1)).2⟩

/-- EXTRA_B names bits of B (R206). -/
theorem Tables.extra_shape (t : Tables) (k : Fin 4) :
    ∀ mb ∈ t.extraB.getD k.val [], 1 ≤ mb.1 ∧ mb.1 ≤ 10 ∧ mb.2 < 4 := by
  have h := t.wf
  simp only [TableData.wf, Bool.and_eq_true, decide_eq_true_eq, List.all_eq_true,
    registerBit_iff] at h
  obtain ⟨⟨_, he⟩, hall⟩ := h
  have h1 : k.val < t.extraB.length := by omega
  rw [List.getD_eq_getElem _ _ h1]
  exact hall _ (List.getElem_mem h1)

end Sys2Proof
end

