-- ==== Sys2Proof/Laws/Stream.lean ====
section
/-!
SUPPORT. The pieces of an internal step of the stream cipher in one lane: each group-form piece gives a
lane the scalar piece of Scalar.lean on that lane's registers.
-/

namespace Sys2Proof.Machine

/-! ## Selection of a leaf -/

theorem index_foldl (bits : List Bool) (acc : Nat) :
    bits.foldl (fun acc b => 2 * acc + b.toNat) acc
      = acc * 2 ^ bits.length + bits.foldl (fun acc b => 2 * acc + b.toNat) 0 := by
  induction bits generalizing acc with
  | nil => simp
  | cons b bits ih =>
    simp only [List.foldl_cons, List.length_cons]
    rw [ih (2 * acc + b.toNat), ih (2 * 0 + b.toNat), Nat.pow_succ]
    ring

theorem index_lt (bits : List Bool) :
    bits.foldl (fun acc b => 2 * acc + b.toNat) 0 < 2 ^ bits.length := by
  induction bits with
  | nil => simp
  | cons b bits ih =>
    simp only [List.foldl_cons, List.length_cons]
    rw [index_foldl, Nat.pow_succ]
    have hb : b.toNat ≤ 1 := Bool.toNat_le b
    nlinarith

/-- Only as many leaves count as the selectors can name. -/
theorem muxGroup_take (sels leaves : List Group) (h : 2 ^ sels.length ≤ leaves.length) :
    muxGroup sels (leaves.take (2 ^ sels.length)) = muxGroup sels leaves := by
  induction sels generalizing leaves with
  | nil =>
    match leaves, h with
    | x :: _, _ => rfl
  | cons g sels ih =>
    simp only [List.length_cons, Nat.pow_succ] at h ⊢
    have hp : 2 ^ sels.length ≤ leaves.length := by omega
    have hd : 2 ^ sels.length ≤ (leaves.drop (2 ^ sels.length)).length := by
      rw [List.length_drop]; omega
    have e1 : (leaves.take (2 ^ sels.length * 2)).drop (2 ^ sels.length)
        = (leaves.drop (2 ^ sels.length)).take (2 ^ sels.length) := by
      rw [List.drop_take]; congr 1; omega
    have e2 : (leaves.take (2 ^ sels.length * 2)).take (2 ^ sels.length)
        = leaves.take (2 ^ sels.length) := by
      rw [List.take_take]; congr 1; omega
    have e3 : muxGroup sels (leaves.take (2 ^ sels.length * 2)) = muxGroup sels leaves := by
      rw [← ih (leaves.take (2 ^ sels.length * 2)) (by rw [List.length_take]; omega), e2, ih _ hp]
    rw [muxGroup, muxGroup, e1, ih _ hd, e3]

/-- In each lane, the selectors' bits, the first most significant, are the index of the leaf. -/
theorem muxGroup_getLsbD (sels leaves : List Group) (i : Nat) (h : leaves.length = 2 ^ sels.length) :
    (muxGroup sels leaves).getLsbD i
      = (leaves.getD ((sels.map fun g => g.getLsbD i).foldl (fun acc b => 2 * acc + b.toNat) 0)
          0).getLsbD i := by
  induction sels generalizing leaves with
  | nil =>
    match leaves, h with
    | [x], _ => rfl
  | cons g sels ih =>
    have hlen : (sels.map fun g => g.getLsbD i).length = sels.length := by simp
    have hlt := index_lt (sels.map fun g => g.getLsbD i)
    rw [hlen] at hlt
    simp only [List.length_cons, Nat.pow_succ] at h
    rw [muxGroup, groupSel_getLsbD]
    simp only [List.map_cons, List.foldl_cons]
    rw [index_foldl, hlen]
    cases hg : g.getLsbD i
    · have h1 : (leaves.take (2 ^ sels.length)).length = 2 ^ sels.length := by simp; omega
      simp only [Bool.false_eq_true, if_false]
      rw [← muxGroup_take sels leaves (by omega), ih _ h1]
      have h2 : (2 * 0 + false.toNat) * 2 ^ sels.length = 0 := by simp
      rw [h2, Nat.zero_add]
      congr 1
      rw [List.getD_eq_getElem?_getD, List.getD_eq_getElem?_getD, List.getElem?_take, if_pos hlt]
    · have h1 : (leaves.drop (2 ^ sels.length)).length = 2 ^ sels.length := by simp; omega
      simp only [if_true]
      rw [ih _ h1]
      have h2 : (2 * 0 + true.toNat) * 2 ^ sels.length = 2 ^ sels.length := by simp
      rw [h2]
      congr 1
      rw [List.getD_eq_getElem?_getD, List.getD_eq_getElem?_getD, List.getElem?_drop]

/-! ## Registers of a lane -/

theorem StreamRegs.laneState_bitA (st : StreamRegs) (i m b : Nat) (h1 : 1 ≤ m) (h2 : m ≤ 10)
    (hb : b < 4) : (st.laneState i).bitA (m, b) = ((st.regA m).bit b).getLsbD i := by
  have h3 : m - 1 < 10 := by omega
  have h4 : m - 1 + 1 = m := by omega
  unfold LaneStream.bitA StreamRegs.laneState
  dsimp only
  rw [vector_getD_of_lt _ _ _ h3, Vector.getElem_ofFn, h4]
  exact NibbleG.lane_getLsbD _ _ _ hb

theorem StreamRegs.laneState_bitB (st : StreamRegs) (i m b : Nat) (h1 : 1 ≤ m) (h2 : m ≤ 10)
    (hb : b < 4) : (st.laneState i).bitB (m, b) = ((st.regB m).bit b).getLsbD i := by
  have h3 : m - 1 < 10 := by omega
  have h4 : m - 1 + 1 = m := by omega
  unfold LaneStream.bitB StreamRegs.laneState
  dsimp only
  rw [vector_getD_of_lt _ _ _ h3, Vector.getElem_ofFn, h4]
  exact NibbleG.lane_getLsbD _ _ _ hb

/-! ## S-boxes -/

theorem foldl_bitA (st : StreamRegs) (i : Nat) (ins : List (Nat × Nat))
    (h : ∀ mb ∈ ins, 1 ≤ mb.1 ∧ mb.1 ≤ 10 ∧ mb.2 < 4) (acc : Nat) :
    ins.foldl (fun acc mb => 2 * acc + ((st.laneState i).bitA mb).toNat) acc
      = ((ins.map fun mb => (st.regA mb.1).bit mb.2).map fun g => g.getLsbD i).foldl
          (fun acc b => 2 * acc + b.toNat) acc := by
  induction ins generalizing acc with
  | nil => rfl
  | cons mb ins ih =>
    obtain ⟨m, b⟩ := mb
    have h0 := h (m, b) (by simp)
    simp only [List.foldl_cons, List.map_cons]
    rw [st.laneState_bitA i m b h0.1 h0.2.1 h0.2.2]
    exact ih (fun mb hm => h mb (by simp [hm])) _

/-- An S-box output bit in a lane is the bit of the scalar S-box (R205, R223). -/
theorem StreamRegs.sbox_getLsbD (c : Build) (st : StreamRegs) {i : Nat} (hi : i < c.n) (k : Fin 7)
    (b : Nat) :
    (st.sbox c k.val b).getLsbD i = ((st.laneState i).sboxOut c.tables (k.val + 1)).getLsbD b := by
  obtain ⟨h5, h32, hins⟩ := c.tables.sbox_shape k
  unfold StreamRegs.sbox LaneStream.sboxOut
  simp only [Nat.add_sub_cancel]
  generalize c.tables.sboxIn.getD k.val [] = ins at h5 hins ⊢
  generalize c.tables.streamSbox.getD k.val [] = table at h32 ⊢
  have hidx : (st.laneState i).sboxIndex ins
      = ((ins.map fun mb => (st.regA mb.1).bit mb.2).map fun g => g.getLsbD i).foldl
          (fun acc b => 2 * acc + b.toNat) 0 := foldl_bitA st i ins hins 0
  have hlt : (st.laneState i).sboxIndex ins < table.length := by
    have h := index_lt ((ins.map fun mb => (st.regA mb.1).bit mb.2).map fun g => g.getLsbD i)
    simp only [List.length_map, h5] at h
    rw [hidx, h32]; exact h
  rw [muxGroup_getLsbD _ _ _ (by simp only [List.length_map, h5, h32]; rfl), ← hidx]
  generalize (st.laneState i).sboxIndex ins = m at hlt ⊢
  rw [List.getD_eq_getElem _ _ (by simpa using hlt), List.getElem_map,
    List.getD_eq_getElem _ _ hlt, groupBcast_getLsbD (Build.n_le c), decide_eq_true hi, Bool.true_and]

/-! ## extra -/

theorem foldl_xorB (st : StreamRegs) (i : Nat) (bits : List (Nat × Nat))
    (h : ∀ mb ∈ bits, 1 ≤ mb.1 ∧ mb.1 ≤ 10 ∧ mb.2 < 4) (g : Group) (v : Bool)
    (hg : g.getLsbD i = v) :
    (bits.foldl (fun acc mb => acc ^^^ (st.regB mb.1).bit mb.2) g).getLsbD i
      = bits.foldl (fun acc mb => acc ^^ (st.laneState i).bitB mb) v := by
  induction bits generalizing g v with
  | nil => exact hg
  | cons mb bits ih =>
    obtain ⟨m, b⟩ := mb
    have h0 := h (m, b) (by simp)
    simp only [List.foldl_cons]
    refine ih (fun mb hm => h mb (by simp [hm])) _ _ ?_
    rw [BitVec.getLsbD_xor, hg, st.laneState_bitB i m b h0.1 h0.2.1 h0.2.2]

theorem StreamRegs.xorB_getLsbD (t : Tables) (st : StreamRegs) (i : Nat) (k : Fin 4) :
    (st.xorB (t.extraB.getD k.val [])).getLsbD i
      = (st.laneState i).xorBits (t.extraB.getD k.val []) :=
  foldl_xorB st i _ (t.extra_shape k) 0 false (by simp)

/-- extra in a lane (R206). -/
theorem StreamRegs.extra_lane (t : Tables) (st : StreamRegs) (i : Nat) :
    (st.extra t).lane i = (st.laneState i).extra t := by
  have h0 := st.xorB_getLsbD t i 0
  have h1 := st.xorB_getLsbD t i 1
  have h2 := st.xorB_getLsbD t i 2
  have h3 := st.xorB_getLsbD t i 3
  rw [NibbleG.lane_eq]
  unfold StreamRegs.extra LaneStream.extra
  dsimp only
  exact congr (congr (congr (congrArg nibOf h0) h1) h2) h3

/-! ## Nibble arithmetic in a lane -/

theorem nibOf_xor (a3 a2 a1 a0 b3 b2 b1 b0 : Bool) :
    nibOf (a3 ^^ b3) (a2 ^^ b2) (a1 ^^ b1) (a0 ^^ b0)
      = nibOf a3 a2 a1 a0 ^^^ nibOf b3 b2 b1 b0 := by
  revert a3 a2 a1 a0 b3 b2 b1 b0; decide

@[simp] theorem NibbleG.xor_lane (u v : NibbleG) (i : Nat) :
    (u.xor v).lane i = u.lane i ^^^ v.lane i := by
  simp only [NibbleG.lane_eq, NibbleG.xor, BitVec.getLsbD_xor, nibOf_xor]

theorem nibOf_rotl (b3 b2 b1 b0 : Bool) :
    nibOf b2 b1 b0 b3 = (nibOf b3 b2 b1 b0 <<< 1) ||| (nibOf b3 b2 b1 b0 >>> 3) := by
  revert b3 b2 b1 b0; decide

@[simp] theorem NibbleG.rotl_lane (t : NibbleG) (i : Nat) :
    t.rotl.lane i = (t.lane i <<< 1) ||| (t.lane i >>> 3) := by
  exact nibOf_rotl _ _ _ _

@[simp] theorem NibbleG.sel_lane (m : Group) (u v : NibbleG) (i : Nat) :
    (NibbleG.sel m u v).lane i = if m.getLsbD i then u.lane i else v.lane i := by
  simp only [NibbleG.lane_eq, NibbleG.sel, groupSel_getLsbD]
  cases m.getLsbD i <;> rfl

theorem nibOf_add : ∀ (z3 z2 z1 z0 e3 e2 e1 e0 r : Bool),
    let c0 := (z0 && e0) || (r && (z0 ^^ e0))
    let c1 := (z1 && e1) || (c0 && (z1 ^^ e1))
    let c2 := (z2 && e2) || (c1 && (z2 ^^ e2))
    let c3 := (z3 && e3) || (c2 && (z3 ^^ e3))
    let sum := (nibOf z3 z2 z1 z0).toNat + (nibOf e3 e2 e1 e0).toNat + r.toNat
    nibOf (z3 ^^ e3 ^^ c2) (z2 ^^ e2 ^^ c1) (z1 ^^ e1 ^^ c0) (z0 ^^ e0 ^^ r)
        = BitVec.ofNat 4 (sum % 16)
      ∧ c3 = decide (sum / 16 = 1) := by decide

/-- The adder in a lane (R209, R223). -/
theorem addNibble_lane (z e : NibbleG) (r : Group) (i : Nat) :
    (addNibble z e r).1.lane i
        = BitVec.ofNat 4 (((z.lane i).toNat + (e.lane i).toNat + (r.getLsbD i).toNat) % 16)
      ∧ (addNibble z e r).2.getLsbD i
        = decide (((z.lane i).toNat + (e.lane i).toNat + (r.getLsbD i).toNat) / 16 = 1) := by
  have h := nibOf_add (z.b3.getLsbD i) (z.b2.getLsbD i) (z.b1.getLsbD i) (z.b0.getLsbD i)
    (e.b3.getLsbD i) (e.b2.getLsbD i) (e.b1.getLsbD i) (e.b0.getLsbD i) (r.getLsbD i)
  simp only [NibbleG.lane_eq, addNibble, addBit, BitVec.getLsbD_xor, BitVec.getLsbD_or,
    BitVec.getLsbD_and]
  exact h

/-- A seed nibble in a lane (R214). -/
theorem seedNibble_lane {n : Nat} (hn : n ≤ maxLanes) (si : Vector Block maxLanes) (k : Nat) {i : Nat}
    (hi : i < n) :
    (seedNibble n si k true).lane i = seedHigh (laneBlock si i) k
      ∧ (seedNibble n si k false).lane i = seedLow (laneBlock si i) k := by
  unfold seedNibble
  exact ⟨nibbleOf_lane hn _ hi, nibbleOf_lane hn _ hi⟩

end Sys2Proof.Machine
end

