-- ==== Sys2Proof/Tests/Slice0.lean ====
section
/-!
SUPPORT. Tests: ill-formed terms that WellFormed refuses, one written-out word for every constructor, one
or two steps for an instruction, and a state that meets the hypotheses of every statement that has
some. Expected values are the examples of the rules named, or worked out from them by hand.
-/

namespace Sys2Proof.Tests

open Sys2Proof Sys2Proof.Machine

/-- The outcome is a next state with the property. -/
def nextIs (r : Result) (p : State → Bool) : Bool :=
  match r with
  | .next t => p t
  | _ => false

/-! ## Well-formedness -/

theorem test_wf_refuses_missing_key_word : Instr.wf 2 (.setCw 0 3 [1, 2, 3]) = false := by decide
theorem test_wf_refuses_extra_key_word : Instr.wf 2 (.setCw 0 1 [1, 2, 3]) = false := by decide
theorem test_wf_accepts_key : Instr.wf 2 (.setCw 0 2 [1, 2]) = true := by decide
theorem test_wf_refuses_too_many_ranges :
    Instr.wf 0 (.decrypt 0 (List.replicate 65536 ⟨0, 0⟩)) = false := by
  simp only [Instr.wf, List.length_replicate]; decide
theorem test_wf_accepts_no_range : Instr.wf 0 (.decrypt 0 []) = true := by decide

/-! ## Decoding: words written out from 30_encoding.md R113 to R117 and R127 -/

theorem test_decode_setKind : decodeCommand 0 [0x01000004] = .instr (.setKind 0 4) 1 := by decide
theorem test_decode_setKind_reserved_bits :
    decodeCommand 0 [0x01000101] = .instr (.setKind 0x20 1) 1 := by decide
theorem test_decode_setCw : decodeCommand 2 [0x02000002, 0x33221100, 0x77665544, 9]
    = .instr (.setCw 0 2 [0x33221100, 0x77665544]) 3 := by decide
theorem test_decode_setCw_incomplete : decodeCommand 2 [0x02000003, 1, 2, 3] = .incomplete := by
  decide
theorem test_decode_decrypt : decodeCommand 0 [0x03000001, 0x1000, 2, 0x10BC, 2]
    = .instr (.decrypt 0 [⟨0x200001000, 0x2000010BC⟩]) 5 := by decide
theorem test_decode_csrRead : decodeCommand 0 [0x04000003] = .instr (.csrRead 0 3) 1 := by decide
theorem test_decode_reserved_opcode : decodeCommand 0 [0x05000000] = .reservedOpcode 5 := by decide
theorem test_decode_gZero : decodeEngine 0x0100 = some .gZero := by decide
theorem test_decode_gOnes : decodeEngine 0x0200 = some .gOnes := by decide
theorem test_decode_gAnd : decodeEngine 0x0300 = some .gAnd := by decide
theorem test_decode_gOr : decodeEngine 0x0400 = some .gOr := by decide
theorem test_decode_gXor : decodeEngine 0x0500 = some .gXor := by decide
theorem test_decode_gNot : decodeEngine 0x0600 = some .gNot := by decide
theorem test_decode_gBcast1 : decodeEngine 0x0701 = some (.gBcast1 true) := by decide
theorem test_decode_bBcast8 : decodeEngine 0x0829 = some (.bBcast8 0x29) := by decide
theorem test_decode_bShl8 : decodeEngine 0x0906 = some (.bShl8 6) := by decide
theorem test_decode_bShr8 : decodeEngine 0x0A04 = some (.bShr8 4) := by decide
theorem test_decode_bSbox : decodeEngine 0x0B00 = some .bSbox := by decide
theorem test_decode_tInBits : decodeEngine 0x0C00 = some .tInBits := by decide
theorem test_decode_tOutBits : decodeEngine 0x0D00 = some .tOutBits := by decide
theorem test_decode_tInBytes : decodeEngine 0x0E00 = some .tInBytes := by decide
theorem test_decode_tOutBytes : decodeEngine 0x0F00 = some .tOutBytes := by decide
theorem test_decode_kStream : decodeEngine 0x2000 = some .kStream := by decide
theorem test_decode_kBlock : decodeEngine 0x2100 = some .kBlock := by decide
theorem test_decode_kBcast : decodeEngine 0x2201 = some (.kBcast .odd) := by decide
theorem test_decode_sLoad : decodeEngine 0x3000 = some .sLoad := by decide
theorem test_decode_sStep : decodeEngine 0x3101 = some (.sStep .initializing false) := by decide
theorem test_decode_sStep_generate : decodeEngine 0x3102 = some (.sStep .generating true) := by decide
theorem test_decode_sInit : decodeEngine 0x3200 = some .sInit := by decide
theorem test_decode_sGen : decodeEngine 0x3300 = some .sGen := by decide
theorem test_decode_sAdvance : decodeEngine 0x3400 = some .sAdvance := by decide
theorem test_decode_bcLoad : decodeEngine 0x4000 = some .bcLoad := by decide
theorem test_decode_bcRound : decodeEngine 0x4137 = some (.bcRound 55) := by decide
theorem test_decode_bcDecipher : decodeEngine 0x4200 = some .bcDecipher := by decide
theorem test_decode_bcStore : decodeEngine 0x4300 = some .bcStore := by decide
theorem test_decode_scScan : decodeEngine 0x5000 = some .scScan := by decide
theorem test_decode_scSort : decodeEngine 0x5100 = some .scSort := by decide
theorem test_decode_scAlive : decodeEngine 0x5200 = some .scAlive := by decide
theorem test_decode_scRound0 : decodeEngine 0x5300 = some .scRound0 := by decide
theorem test_decode_scRound : decodeEngine 0x5401 = some (.scRound ⟨1, by decide⟩) := by decide
theorem test_decode_scRound23 : decodeEngine 0x5500 = some .scRound23 := by decide
theorem test_decode_scCompact : decodeEngine 0x5600 = some .scCompact := by decide
theorem test_decode_pDesNcb : decodeEngine 0x6000 = some .pDesNcb := by decide
theorem test_decode_pAesEcb : decodeEngine 0x6100 = some .pAesEcb := by decide
theorem test_decode_pAes128Ecb : decodeEngine 0x6200 = some .pAes128Ecb := by decide

/-- R128: IMM out of range, a reserved IMM bit, a reserved UOP. -/
theorem test_decode_refuses_reserved_engine_words :
    [0x4138, 0x5400, 0x5417, 0x0101, 0x0702, 0x0908, 0x3104, 0x2202, 0x1000, 0x6300, 0x0000].map
      decodeEngine = List.replicate 11 none := by decide

theorem test_table_word : decodeTableWord 32 0x04000002 = some (.csrRead 0 2)
    ∧ decodeTableWord 16 0x5416 = some (.scRound ⟨22, by decide⟩) := by decide

/-! ## Fetch -/

theorem test_fetch_command :
    nextIs (step (State.reset.withFetchWord 32 0x04000002))
      (fun t => t.resp == [⟨0x04, 0x00, [0x00000000]⟩] && t.port == []) = true := by decide

theorem test_fetch_engine_operation :
    nextIs (step (State.reset.withFetchWord 16 0x0200))
      (fun t => t.pr.planes[0] == 0xFFFFFFFF && t.uops == []) = true := by decide

theorem test_reserved_opcode_faults :
    nextIs (step (State.reset.withFetchWord 32 0x67000000))
      (fun t => t.faulted && t.faultCode == 1 && t.faultOpcode == 0x67
        && t.resp == [⟨0x67, 0x01, []⟩]) = true := by decide

/-! ## Commands: the examples of R335, R340, R345, R350 and V-CMD -/

/-- KIND = CSA. -/
def csaState : State := { State.reset with kind := .csa }

theorem test_setKind : nextIs (exec (.setKind 0 1) State.reset)
    (fun t => t.status == 0x00000010 && t.resp == [⟨0x01, 0x00, []⟩]) = true := by decide
theorem test_setKind_reserved_code : nextIs (exec (.setKind 0 5) State.reset)
    (fun t => t.faulted && t.resp == [⟨0x01, 0x02, []⟩]) = true := by decide
theorem test_setCw : nextIs (exec (.setCw 0 3 [0x67452301, 0xEFCDAB89, 0x33221100, 0x77665544]) csaState)
    (fun t => t.cw.even == [0x01, 0x23, 0x45, 0x67, 0x89, 0xAB, 0xCD, 0xEF]
      && t.cw.odd == [0x00, 0x11, 0x22, 0x33, 0x44, 0x55, 0x66, 0x77]
      && t.status == 0x0000001C) = true := by decide
theorem test_setCw_no_kind : nextIs (exec (.setCw 0 1 []) State.reset)
    (fun t => t.faultCode == 0x03 && t.faultOpcode == 0x02) = true := by decide
theorem test_csrRead :
    nextIs (exec (.csrRead 0 0) { State.reset with cfg := { Build.atReset with lanes := .l64 } })
      (fun t => t.resp == [⟨0x04, 0x00, [0x00000040]⟩]) = true := by decide
theorem test_csrRead_unmapped : nextIs (exec (.csrRead 0 5) State.reset)
    (fun t => t.resp == [⟨0x04, 0x02, []⟩] && t.faulted) = true := by decide
theorem test_decrypt : nextIs (exec (.decrypt 0 [⟨0x1000, 0x10BC⟩]) csaState)
    (fun t => t.busy && t.pending.ranges == [⟨0x1000, 0x10BC⟩] && t.resp == []) = true := by decide
theorem test_decrypt_bad_range : nextIs (exec (.decrypt 0 [⟨0x1000, 0x1064⟩]) csaState)
    (fun t => t.resp == [⟨0x03, 0x06, []⟩] && !t.busy) = true := by decide

/-! ## Group primitive and transposer: the examples of R151 to R165 -/

/-- Planes 1 and 2 hold the example operands of R153 to R155. -/
def groupState : State :=
  { State.reset with
    pr := { State.reset.pr with
      planes := (State.reset.pr.planes.set 1 0xF0F0F0F0).set 2 0xFF00FF00 } }

/-- Slice 1 holds 0x29, 0x80 and 0x00 in lanes 0, 1, 2; slice operations. -/
def sliceState : State :=
  { State.reset with
    pr := { State.reset.pr with
      slices := State.reset.pr.slices.set 1
        (((Vector.replicate maxLanes 0).set 0 0x29).set 1 0x80) },
    opnd := { State.reset.opnd with form := .slices } }

theorem test_gZero : nextIs (exec .gZero { groupState with opnd := { groupState.opnd with gd := .plane 1 } })
    (fun t => t.pr.planes[1] == 0 && t.pr.planes[2] == 0xFF00FF00) = true := by decide
theorem test_gOnes : nextIs (exec .gOnes groupState)
    (fun t => t.pr.planes[0] == 0xFFFFFFFF) = true := by decide
theorem test_gAnd : nextIs (exec .gAnd groupState)
    (fun t => t.pr.planes[0] == 0xF000F000) = true := by decide
theorem test_gAnd_slices : nextIs (exec .gAnd
      { sliceState with opnd := { sliceState.opnd with sb := .slice 1 } })
    (fun t => (t.pr.slices[0])[0] == 0x29 && (t.pr.slices[0])[1] == 0x80) = true := by decide
theorem test_gOr : nextIs (exec .gOr groupState)
    (fun t => t.pr.planes[0] == 0xFFF0FFF0) = true := by decide
theorem test_gXor : nextIs (exec .gXor groupState)
    (fun t => t.pr.planes[0] == 0x0FF00FF0) = true := by decide
theorem test_gNot : nextIs (exec .gNot groupState)
    (fun t => t.pr.planes[0] == 0x0F0F0F0F) = true := by decide
theorem test_gBcast1 : nextIs (exec (.gBcast1 true) groupState)
    (fun t => t.pr.planes[0] == 0xFFFFFFFF) = true := by decide
theorem test_bBcast8 : nextIs (exec (.bBcast8 0x29) sliceState)
    (fun t => (t.pr.slices[0])[31] == 0x29 && (t.pr.slices[0])[32] == 0) = true := by decide
theorem test_bShl8 : nextIs (exec (.bShl8 1) sliceState)
    (fun t => (t.pr.slices[0])[0] == 0x52 && (t.pr.slices[0])[1] == 0x00) = true := by decide
theorem test_bShr8 : nextIs (exec (.bShr8 4) sliceState)
    (fun t => (t.pr.slices[0])[1] == 0x08 && (t.pr.slices[0])[0] == 0x02) = true := by decide
theorem test_bSbox : nextIs (exec .bSbox sliceState)
    (fun t => (t.pr.slices[0])[2] == 0x3A && (t.pr.slices[0])[1] == 0x29) = true := by decide

/-- Tables of another configuration (R21): every BLOCK_SBOX entry is 7. -/
def otherTables : Tables :=
  { Config.suppliedTables with blockSbox := List.replicate 256 7, wf := by decide +kernel }

theorem test_bSbox_reads_the_configured_table :
    nextIs (exec .bSbox { sliceState with cfg := { Build.atReset with tables := otherTables } })
      (fun t => (t.pr.slices[0])[2] == 7) = true := by decide

/-- A KEY_PERM that is no permutation of 1..64 is no configuration (R181). -/
theorem test_tables_wf_refuses_repeated_entry :
    ({ Config.suppliedTables.toTableData with keyPerm := List.replicate 64 1 }).wf = false := by
  decide +kernel

/-- The masks and shift counts of the supplied PERM are those of R247. -/
theorem test_perm_masks :
    permLeft Config.suppliedTables = [(1, 0x29), (3, 0x04), (6, 0x02)]
      ∧ permRight Config.suppliedTables = [(2, 0x10), (4, 0x80), (6, 0x40)] := by decide

/-- IB[3] is the block 01 .. 08, and c = 4. -/
def blockState : State :=
  { State.reset with
    wb := { State.reset.wb with ib := State.reset.wb.ib.set 3 #v[1, 2, 3, 4, 5, 6, 7, 8] },
    pr := { State.reset.pr with count := 4 } }

/-- Byte 2 of lane 3 is 03, so planes 16 and 17 have lane 3 set, and plane 18 has not (R162). -/
theorem test_tInBits : nextIs (exec .tInBits blockState)
    (fun t => t.pr.planes[16] == 8 && t.pr.planes[17] == 8 && t.pr.planes[18] == 0) = true := by decide +kernel
theorem test_tOutBits : nextIs (exec .tOutBits
      { State.reset with pr := {
        State.reset.pr with planes := State.reset.pr.planes.set 13 2, count := 2 } })
    (fun t => (t.wb.ib[1])[1] == 0x20 && (t.wb.ib[0])[1] == 0) = true := by decide
theorem test_tInBytes : nextIs (exec .tInBytes blockState)
    (fun t => (t.pr.slices[0])[3] == 0x01 && (t.pr.slices[7])[3] == 0x08) = true := by decide
theorem test_tOutBytes : nextIs (exec .tOutBytes
      { sliceState with pr := { sliceState.pr with count := 1 } })
    (fun t => (t.wb.ib[0])[1] == 0x29 && (t.wb.ib[1])[1] == 0) = true := by decide

/-! ## Key scheduler: the examples of R180, R184 and R186 -/

def exampleKey : Bytes 8 := #v[0x01, 0x23, 0x45, 0x67, 0x89, 0xAB, 0xCD, 0xEF]

def keyState : State :=
  { State.reset with
    ks := { State.reset.ks with cw := exampleKey },
    pending := { Pending.empty with cw := ⟨exampleKey.toList, exampleKey.toList⟩ } }

theorem test_kStream : nextIs (exec .kStream keyState)
    (fun t => t.ks.a == #v[0, 1, 2, 3, 4, 5, 6, 7] && t.ks.b == #v[8, 9, 10, 11, 12, 13, 14, 15])
      = true := by decide
theorem test_kBlock : nextIs (exec .kBlock keyState)
    (fun t => t.ks.kk[48] == 0x07 && t.ks.kk[55] == 0xE9) = true := by decide
theorem test_kBlock_oldest_bytes : nextIs (exec .kBlock keyState)
    (fun t => t.ks.kk[0] == 0x8E && t.ks.kk[7] == 0x1A && t.ks.kk[40] == 0xB8
      && t.ks.kk[44] == 0x00) = true := by decide +kernel
theorem test_kBcast : nextIs (exec (.kBcast .even) keyState)
    (fun t => (t.bk.kk[55])[31] == 0xE9 && (t.st.iA[3]).lane 5 == 3) = true := by decide

/-! ## Stream cipher: the examples of R202, R210 and R222 -/

/-- iA and iB hold the example key's nibbles. -/
def streamState : State :=
  { State.reset with
    st := { State.reset.st with
      iA := Vector.ofFn fun m => nibbleBcast 32 (BitVec.ofNat 4 m.val),
      iB := Vector.ofFn fun m => nibbleBcast 32 (BitVec.ofNat 4 (8 + m.val)) },
    wb := { State.reset.wb with si := State.reset.wb.si.set 7 #v[0x11, 0, 0, 0, 0, 0, 0, 0] } }

theorem test_sLoad : nextIs (exec .sLoad streamState)
    (fun t => (t.st.regA 8).lane 9 == 7 && (t.st.regB 1).lane 9 == 8 && (t.st.regB 9).lane 9 == 0)
      = true := by decide
theorem test_sStep : nextIs (runInstrs [.sLoad, .sStep .initializing false] streamState)
    (fun t => (t.st.regA 1).lane 7 == 1 && (t.st.regB 1).lane 7 == 0xF && t.st.x.lane 7 == 0xE
      && t.st.y.lane 7 == 0xC && t.st.z.lane 7 == 8 && t.st.d.lane 7 == 0xF) = true := by decide +kernel
theorem test_sStep_needs_a_slot :
    (match exec (.sStep .generating false)
        { streamState with st := { streamState.st with soff := 0 } } with
      | .fault f => f == .ringUnderflow
      | _ => false) = true := by decide
theorem test_sInit : nextIs (exec .sInit streamState) (fun t => t.st.soff == 32) = true := by decide
theorem test_sGen : nextIs (exec .sGen streamState) (fun t => t.st.soff == 32) = true := by decide
theorem test_sAdvance : nextIs (exec .sAdvance
      { State.reset with st := { State.reset.st with
        sa := State.reset.st.sa.set 3 ⟨1, 2, 3, 4⟩, soff := 0 } })
    (fun t => t.st.sa[35] == ⟨1, 2, 3, 4⟩ && t.st.sa[3] == ⟨1, 2, 3, 4⟩ && t.st.soff == 32)
      = true := by decide

/-! ## Block cipher: the examples of R242, R244 and R251 -/

/-- R[1..8] of lane 0 is 00 .. 07, and kk[55] is E9. -/
def roundState : State :=
  { State.reset with
    bk := { State.reset.bk with
      kk := State.reset.bk.kk.set 55 ((Vector.replicate maxLanes 0).set 0 0xE9),
      br := Vector.ofFn fun i =>
        (Vector.replicate maxLanes 0).set 0 (BitVec.ofNat 8 (i.val - 56)) } }

theorem test_bcLoad : nextIs (exec .bcLoad blockState)
    (fun t => (t.bk.br[56])[3] == 1 && (t.bk.br[63])[3] == 8 && t.bk.boff == 56) = true := by decide
theorem test_bcRound : nextIs (exec (.bcRound 0) roundState)
    (fun t => t.bk.laneRegs 0 == #v[0xBE, 0x00, 0xBF, 0xBC, 0xBD, 0x04, 0x5B, 0x06]
      && t.bk.boff == 55) = true := by decide
theorem test_bcDecipher : nextIs (exec .bcDecipher roundState)
    (fun t => t.bk.boff == 0) = true := by decide
theorem test_bcStore : nextIs (exec .bcStore
      { roundState with
        bk := { roundState.bk with br := roundState.bk.br.set 5 (Vector.replicate maxLanes 9) },
        pr := { roundState.pr with count := 1 } })
    (fun t => (t.wb.bo[0])[5] == 9 && (t.wb.bo[1])[5] == 0) = true := by decide

/-! ## Batch scheduler: the examples of R280, R290, R293, R300 and R311 -/

/-- Three packets from 0x1000 on, TSC 00, 10 and 11, in one range. -/
def scanState : State :=
  { csaState with
    mem := ⟨[(0x1003, 0x10), (0x10BF, 0x90), (0x117B, 0xD0)]⟩,
    pending := { Pending.empty with ranges := [⟨0x1000, 0x1234⟩], kind := .csa } }

theorem test_scScan : nextIs (exec .scScan scanState)
    (fun t => t.sc.adv == 2 && t.sc.grouped == 1 && t.sc.gpar == .even
      && t.sc.slot 0 == ⟨0x10BC, 4, 184, 23, 0⟩ && t.sc.starts == [0x1178]) = true := by decide +kernel

/-- A batch with these block counts. -/
def batchState (ns : List Nat) : State :=
  { csaState with
    sc := { State.reset.sc with
      desc := Vector.ofFn fun g => ⟨g.val, 4, 0, ns.getD g.val 0, 0⟩, grouped := ns.length } }

theorem test_scSort : nextIs (exec .scSort (batchState [5, 23, 1, 23]))
    (fun t => (List.range 4).map (fun g => (t.sc.slot g).n) == [23, 23, 5, 1]
      && (t.sc.slot 0).pkt == 3) = true := by decide +kernel
theorem test_scAlive : nextIs (exec .scAlive (batchState [23, 23, 23, 10, 10, 5, 1, 1]))
    (fun t => t.sc.alive.toList == [8, 6, 6, 6, 6, 5, 5, 5, 5, 5, 3, 3, 3, 3, 3, 3, 3, 3, 3, 3, 3, 3,
      3, 0]) = true := by decide +kernel

/-- One packet of one block and three more bytes at 0x1000, as the scan and the sort leave it. -/
def smallBatch : State :=
  { keyState with
    kind := .csa,
    mem := ⟨[(0x10B1, 0x11), (0x10B8, 0x88)]⟩,
    sc := { State.reset.sc with
      desc := State.reset.sc.desc.set 0 ⟨0x1000, 177, 11, 1, 3⟩, grouped := 1,
      alive := State.reset.sc.alive.set 0 1 } }

theorem test_scRound0 : nextIs (exec .scRound0 smallBatch)
    (fun t => t.sc.encp[0] == 0x10B9 && t.wb.ib[0] == #v[0x11, 0, 0, 0, 0, 0, 0, 0x88]
      && t.mem == smallBatch.mem) = true := by decide +kernel
theorem test_scRound_skips_dead_lanes :
    nextIs (exec (.scRound ⟨5, by decide⟩) smallBatch) (fun t => t.mem == smallBatch.mem) = true := by decide
theorem test_scRound23_writes_nothing_without_full_packets :
    nextIs (exec .scRound23 smallBatch) (fun t => t.mem == smallBatch.mem) = true := by decide
theorem test_scCompact : nextIs (exec .scCompact
      { scanState with sc := { scanState.sc with adv := 2, starts := [0x1178] } })
    (fun t => t.sc.advanced == 2 && t.sc.remaining == [⟨0x1178, 0x1234⟩]) = true := by decide

/-! ## Single-packet ciphers: no block, no write (R376 to R378, V-ECB4) -/

theorem test_pDesNcb : nextIs (exec .pDesNcb smallBatch) (fun t => t.mem == smallBatch.mem) = true := by decide
theorem test_pAesEcb : nextIs (exec .pAesEcb smallBatch) (fun t => t.mem == smallBatch.mem) = true := by decide
theorem test_pAes128Ecb :
    nextIs (exec .pAes128Ecb smallBatch) (fun t => t.mem == smallBatch.mem) = true := by decide

/-! ## Witnesses: a state and operands that meet the hypotheses of each statement that has some

A statement whose clauses have premises of their own has a state for each of them. -/

/-- Encoding statements. -/
theorem witness_DecodeOfEncode : Instr.wf 2 (.setCw 0 3 [1, 2, 3, 4]) = true
    ∧ Instr.wf 2 (.decrypt 1 [⟨0x1000, 0x10BC⟩]) = true ∧ Instr.wf 0 (.bcRound 55) = true := by
  decide
theorem witness_EncodeOfDecodeEngine : decodeEngine 0x5401 = some (.scRound ⟨1, by decide⟩)
    ∧ decodeEngine 0x3103 = some (.sStep .initializing true) := by decide
theorem witness_ReservedEngineWords :
    ({ State.reset with uops := [0x4138, 0x0100] }).uops = 0x4138 :: [0x0100]
      ∧ decodeEngine 0x4138 = none := by decide

/-- R118 at its boundaries: a key word short, exactly complete, and a reserved opcode. -/
theorem witness_CommandLength :
    ({ csaState with port := [0x02000003, 1, 2, 3, 4] }).portHead
        = .instr (.setCw 0 3 [1, 2, 3, 4]) 5
      ∧ ({ csaState with port := [0x02000003, 1, 2, 3] }).portHead = .incomplete
      ∧ ({ State.reset with port := [0x02000003, 1] }).portHead = .instr (.setCw 0 3 []) 1
      ∧ ({ csaState with port := [0xFF000000] }).portHead = .reservedOpcode 0xFF := by decide

theorem witness_StepRunsTheDecodedInstruction :
    decodeEngine 0x0300 = some .gAnd
      ∧ ({ State.reset with port := [0x01000001, 7] }).portHead = .instr (.setKind 0 1) 1
      ∧ ({ State.reset with port := [0x01000001, 7] }).completionDue = false
      ∧ State.reset.uops = [] ∧ State.reset.phase = .idle := by decide

/-- Opcodes 0x00, 0x05 and 0xFF, with and without FAULTED. -/
theorem witness_ReservedOpcodeFaults :
    [0x00000001, 0x05000000, 0xFF000000].all (fun w : Word =>
      [true, false].all fun f =>
        let s := { State.reset with port := [w], faulted := f }
        s.uops == [] && s.phase == .idle && !s.completionDue
          && (w.toNat / 2 ^ 24 == 0 || decide (5 ≤ w.toNat / 2 ^ 24))) = true := by decide

theorem witness_SetCwEffect :
    [0, 1, 2].length = ((3 : BitVec 2).toNat % 2 + (3 : BitVec 2).toNat / 2)
        * (keylen State.reset.cfg State.reset.kind / 4) + 3
      ∧ ([] : List Word).length
        = ((3 : BitVec 2).toNat % 2 + (3 : BitVec 2).toNat / 2)
          * (keylen State.reset.cfg State.reset.kind / 4)
      ∧ ([1, 2, 3, 4] : List Word).length
        = ((3 : BitVec 2).toNat % 2 + (3 : BitVec 2).toNat / 2)
          * (keylen csaState.cfg csaState.kind / 4)
      ∧ ([1, 2] : List Word).length
        = ((2 : BitVec 2).toNat % 2 + (2 : BitVec 2).toNat / 2)
          * (keylen csaState.cfg csaState.kind / 4) := by decide

/-- KIND = CSA, both keys set, and a DECRYPT of one packet in flight that host steps may still pass. -/
def busyState : State :=
  { csaState with
    cw := ⟨exampleKey.toList, exampleKey.toList⟩, keyValid := ⟨true, true⟩, busy := true,
    pending := ⟨[⟨0x1000, 0x10BC⟩], .csa, ⟨exampleKey.toList, exampleKey.toList⟩, ⟨true, true⟩⟩,
    fireIn := 3 }

/-- A state with a fault recorded. -/
def faultedState : State :=
  { csaState with faulted := true, faultCode := 0x06, faultOpcode := 0x03 }

theorem witness_DropOfADecrypt : inRanges busyState.pending.ranges 0x1000 = true
    ∧ inRanges busyState.pending.ranges 0x10BB = true
    ∧ inRanges busyState.pending.ranges 0x10BC = false := by decide

/-- A refused DECRYPT with its operand words, and a refused reserved opcode. -/
theorem witness_FaultedRefusesCommands :
    ({ faultedState with port := [0x03000001, 0, 0, 0, 0, 9] }).portHead
        = .instr (.decrypt 0 [⟨0, 0⟩]) 5
      ∧ ({ faultedState with port := [0x05000000] }).portHead
        = .reservedOpcode ((0x05000000 : Word).extractLsb' 24 8)
      ∧ ({ faultedState with port := [0x03000001, 0, 0, 0, 0, 9] }).completionDue = false
      ∧ faultedState.faulted = true ∧ faultedState.uops = [] ∧ faultedState.phase = .idle
      ∧ (0x03000001 : Word).toNat / 2 ^ 24 ≠ 0x04 := by decide

theorem witness_CheckOrder :
    let s := { busyState with port := [0x03000001, 0x1000, 0, 0x10BC, 0] }
    s.uops = [] ∧ s.phase = .idle ∧ s.completionDue = false ∧ s.portHead ≠ .incomplete
      ∧ takeRanges ((0x03000001 : Word).toNat % 2 ^ 16) [0x1000, 0, 0x10BC, 0]
        = some [⟨0x1000, 0x10BC⟩] := by decide

/-- The invariant of a state with a DECRYPT in flight. -/
theorem busyState_inv : Inv busyState where
  memWf := by decide
  keyLength := fun p _ => by cases p <;> decide
  faultedIdle := by decide
  faultedCode := by decide
  cleanCode := by decide
  busyPending := fun _ => ⟨rfl, by decide, by decide, fun p _ => by cases p <;> decide⟩
  legalCodes := fun _ h => absurd h (by simp [busyState, csaState, State.reset])
  phaseBusy := by decide

/-- The invariant does not speak of the command port. -/
theorem inv_port {s : State} (h : Inv s) (ws : List Word) : Inv { s with port := ws } :=
  ⟨h.memWf, h.keyLength, h.faultedIdle, h.faultedCode, h.cleanCode, h.busyPending, h.legalCodes,
    h.phaseBusy⟩

/-- A SET_CW while a DECRYPT is in flight. -/
theorem witness_EveryStepKeepsInv :
    Inv { busyState with port := [0x02000001, 1, 2] }
      ∧ nextIs (step { busyState with port := [0x02000001, 1, 2] })
        (fun t => t.busy && t.cw.even == [1, 0, 0, 0, 2, 0, 0, 0]) = true :=
  ⟨inv_port busyState_inv _, by decide⟩

/-- A group with nothing above lane 31 is zero from there on. -/
theorem lanes_zero {g : Group} (h : g.toNat < 2 ^ 32) {i : Nat} (hi : 32 ≤ i) :
    g.getLsbD i = false :=
  Nat.testBit_lt_two_pow (Nat.lt_of_lt_of_le h (Nat.pow_le_pow_right (by decide) hi))

theorem groupState_small (r : GroupReg) : (groupState.readGroup r).toNat < 2 ^ 32 := by
  cases r with
  | sa slot bit => revert slot bit; decide
  | sb slot bit => revert slot bit; decide
  | acc a bit => cases a <;> revert bit <;> decide
  | carry => decide
  | ctlP => decide
  | ctlQ => decide
  | iA m bit => revert m bit; decide
  | iB m bit => revert m bit; decide
  | plane m => revert m; decide

theorem witness_EveryStepKeepsUnusedLanes :
    LanesWf { groupState with uops := [0x0600] }
      ∧ nextIs (step { groupState with uops := [0x0600] })
        (fun t => t.pr.planes[0] == 0x0F0F0F0F) = true :=
  ⟨{ groups := fun r _ hi => lanes_zero (groupState_small r) hi
     slices := fun r i _ => by
      cases r <;> simp [State.readSlice, groupState, State.reset, BlockRegs.reset, PrimRegs.reset]
     out1 := fun _ hi => lanes_zero (by decide) hi
     out0 := fun _ hi => lanes_zero (by decide) hi }, by decide⟩

/-- FAULTED over a command and over a reset. -/
theorem witness_FaultIsSticky :
    faultedState.faulted = true
      ∧ nextIs (step { faultedState with port := [0x05000000] })
        (fun t => t.faultCode == 0x06 && t.faultOpcode == 0x03) = true
      ∧ nextIs (step { faultedState with host := [.reset] }) (fun t => !t.faulted) = true := by
  decide

/-- CSR_READ and SET_CW while a DECRYPT is in flight. -/
theorem witness_PendingIsLatched :
    busyState.busy = true
      ∧ nextIs (step { busyState with port := [0x04000002] }) (fun t => t.busy) = true
      ∧ nextIs (step { busyState with port := [0x02000001, 1, 2] })
        (fun t => t.busy && t.cw.even == [1, 0, 0, 0, 2, 0, 0, 0]) = true := by decide

/-- Every alternative of the statement: a reset, SET_KIND, SET_CW, a completion's end, another step. -/
theorem witness_WhoWritesTheContext :
    nextIs (step { csaState with host := [.reset] }) (fun t => t.kind == .none) = true
      ∧ nextIs (step { csaState with port := [0x01000002] }) (fun t => t.kind == .desNcb) = true
      ∧ nextIs (step { csaState with port := [0x02000002, 1, 2] }) (fun t => t.keyValid.odd) = true
      ∧ nextIs (step { busyState with
          phase := .writeback, sc := { busyState.sc with advanced := 7, diagInc := 2 } })
        (fun t => t.lastAdvanced == 7 && t.diagMalformed == 2) = true
      ∧ nextIs (step { csaState with uops := [0x0100] }) (fun t => t.kind == .csa) = true := by
  decide

/-- Where the host moves, with and without a DECRYPT in flight. -/
theorem witness_HostActions_ResetAction :
    [busyState, csaState].all (fun s =>
      [HostAction.issue [0x04000000], .take, .poke 0x1000 1, .poke 0x10BC 1, .reset].all fun a =>
        let s := { s with host := [a], resp := [⟨0x01, 0x00, []⟩] }
        s.uops == [] && s.phase == .idle && !s.completionDue && s.portHead == .incomplete) = true := by
  decide

/-- A host write to a latched byte at either end of its range, and just past it. -/
theorem witness_HostActions_hazard :
    (match step { busyState with host := [.poke 0x10BB 1] } with
      | .refused r => r == .hostHazard 0x10BB
      | _ => false) = true
      ∧ nextIs (step { busyState with host := [.poke 0x10BC 1] })
        (fun t => t.mem.get 0x10BC == 1) = true := by decide

/-! ### Transposer, key and ciphers -/

/-- A lane count below N, at N and zero. -/
theorem witness_Transpose_BlockLoadAndStore_BlockCipherOfALane :
    blockState.pr.count ≤ blockState.cfg.n
      ∧ ({ blockState.pr with count := 32 }).count ≤ blockState.cfg.n
      ∧ State.reset.pr.count ≤ State.reset.cfg.n := by decide

theorem witness_KeyBroadcast_KeystreamOfALane :
    keyState.pending.cw.get .even = exampleKey.toList
      ∧ keyState.pending.cw.get .odd = exampleKey.toList ∧ 1 ≤ 1 := by decide

/-- SOFF at both ends of what S_STEP runs on, and where the calls and the advance preserve the state. -/
theorem witness_StreamStep_StreamCalls_StreamAdvance :
    State.reset.st.soff.val = 32
      ∧ 1 ≤ ({ State.reset.st with soff := 1 }).soff.val
      ∧ ({ State.reset.st with soff := 0 }).soff.val = 0 := by decide

theorem witness_BlockRound_BlockDecipher :
    State.reset.bk.boff.val = 56 ∧ 1 ≤ ({ State.reset.bk with boff := 1 }).boff.val := by decide

/-! ### Batches -/

/-- Every address is valid in the build of the reset state. -/
theorem valid_everywhere {a : Nat} (h : a < 2 ^ 64) : memValid Build.atReset a = true := by
  have h' : a < memSize := h
  simp [memValid, Build.atReset, h']; exact h

theorem valid_bytes {a n : Nat} (h : a + n ≤ 2 ^ 64) : ValidBytes Build.atReset a n :=
  fun k hk => valid_everywhere (by omega)

theorem witness_ScanAdmitsOneBatch :
    ReadableRanges scanState.cfg scanState.pending.ranges
      ∧ (scanOrder scanState.pending.ranges).length = 3 := by
  refine ⟨⟨?_, by decide⟩, by decide⟩
  intro r hr
  have hr' : r = ⟨0x1000, 0x1234⟩ := by simpa [scanState] using hr
  subst hr'
  exact ⟨by decide, by decide, fun a _ ha =>
    valid_everywhere (Nat.lt_trans ha (by decide))⟩

theorem witness_SortOrdersTheBatch :
    (batchState [5, 23, 1, 23]).sc.grouped ≤ maxLanes
      ∧ ∀ g, g < (batchState [5, 23, 1, 23]).sc.grouped →
        ((batchState [5, 23, 1, 23]).sc.slot g).n ≤ 23 := by decide +kernel

theorem witness_AliveCountsTheSlots :
    ∀ h, h < (batchState [23, 5, 5, 1]).sc.grouped → ∀ g, g < h →
      ((batchState [23, 5, 5, 1]).sc.slot h).n ≤ ((batchState [23, 5, 5, 1]).sc.slot g).n := by
  decide +kernel

/-- Two sorted packets, of two blocks and three more bytes and of one block, before round 1. -/
def roundsState : State :=
  { keyState with
    kind := .csa,
    mem := ⟨[(0x10A9, 0x11), (0x10B1, 0x22), (0x10B9, 0x33), (0x1170, 0x44)]⟩,
    sc := { State.reset.sc with
      desc := (State.reset.sc.desc.set 0 ⟨0x1000, 169, 19, 2, 3⟩).set 1 ⟨0x10BC, 180, 8, 1, 0⟩,
      grouped := 2,
      alive := (State.reset.sc.alive.set 0 2).set 1 1,
      encp := (State.reset.sc.encp.set 0 0x10B1).set 1 0x1178 } }

theorem witness_RoundZero :
    roundsState.pending.cw.get roundsState.sc.gpar = exampleKey.toList
      ∧ roundsState.sc.grouped ≤ roundsState.cfg.n
      ∧ roundsState.sc.alive[0] ≤ roundsState.sc.grouped
      ∧ ∀ g, g < roundsState.sc.grouped →
        ValidBytes roundsState.cfg (roundsState.sc.payloadAt g) 8 :=
  ⟨by decide, by decide, by decide, fun g hg => valid_bytes
    (Nat.le_trans (Nat.add_le_add_right ((show ∀ g, g < 2 → roundsState.sc.payloadAt g ≤ 0x2000 by
      decide +kernel) g hg) 8) (by decide))⟩

/-- Slots whose parts lie in the first 2^63 bytes, and a gap between any two of them. -/
theorem slotsSound_of {s : State} (hc : s.cfg = Build.atReset) {w : Nat → Nat} {lo k : Nat}
    (h1 : ∀ g, g < k → lo ≤ g → 8 ≤ s.sc.encpAt g ∧ s.sc.encpAt g - 8 + w g ≤ 2 ^ 63)
    (h2 : ∀ h, h < k → ∀ g, g < h → s.sc.encpAt g - 8 + w g ≤ s.sc.encpAt h - 8) :
    SlotsSound s w lo k := by
  refine ⟨fun g hl hg => ⟨(h1 g hg hl).1, hc ▸ valid_bytes (le_trans (h1 g hg hl).2 (by decide))⟩, ?_⟩
  intro g h _ hg _ hh hne a ha hb
  have ⟨ha1, ha2⟩ := ha
  have ⟨hb1, hb2⟩ := hb
  rcases Nat.lt_or_gt_of_ne hne with hlt | hgt
  · have := h2 h hh g hlt
    omega
  · have := h2 g hg h hgt
    omega

/-- Round 1: slot 0 continues, slot 1 finishes. -/
theorem witness_SchedulerRound :
    roundsState.st.soff.val = 32
      ∧ roundsState.sc.aliveAfter 1 = 1 ∧ roundsState.sc.aliveBefore 1 = 2
      ∧ roundsState.sc.aliveBefore 1 ≤ roundsState.cfg.n
      ∧ SlotsSound roundsState (roundWidth roundsState 1) 0 2 :=
  ⟨by decide, by decide, by decide, by decide,
    slotsSound_of rfl (by decide +kernel) (by decide +kernel)⟩

/-- One packet of 23 blocks before the drain. -/
def drainState : State :=
  { keyState with
    sc := { State.reset.sc with
      desc := State.reset.sc.desc.set 0 ⟨0x1000, 4, 184, 23, 0⟩, grouped := 1,
      alive := Vector.ofFn fun i => if i.val < 23 then 1 else 0,
      encp := State.reset.sc.encp.set 0 0x10BC } }

theorem witness_SchedulerDrain :
    drainState.sc.alive[23] = 0 ∧ drainState.sc.alive[22] = 1
      ∧ drainState.sc.alive[22] ≤ drainState.cfg.n ∧ SlotsSound drainState (fun _ => 8) 0 1 :=
  ⟨by decide, by decide, by decide, slotsSound_of rfl (by decide +kernel) (by decide)⟩

theorem witness_RoundLoopDecryptsTheBatch :
    roundsState.pending.cw.get roundsState.sc.gpar = exampleKey.toList ∧ BatchReady roundsState :=
  ⟨by decide,
    { lanes := by decide
      shape := by decide +kernel
      valid := fun g hg => valid_bytes
        (Nat.le_trans ((show ∀ g, g < 2 → roundsState.sc.payloadAt g + (roundsState.sc.slot g).len
          ≤ 0x2000 by decide +kernel) g hg) (by decide))
      disjoint := by
        have hp : roundsState.sc.payloadAt 0 + (roundsState.sc.slot 0).len = 0x10BC := by
          decide +kernel
        have hq : roundsState.sc.payloadAt 1 = 0x1170 := by decide +kernel
        intro g h hg hh hne a ha hb
        have hg' : g < 2 := hg
        have hh' : h < 2 := hh
        unfold InPayload at ha hb
        interval_cases g <;> interval_cases h <;> first | exact hne rfl | omega
      sorted := fun g h hlt hh => (show ∀ h, h < 2 → ∀ g, g < h →
        (roundsState.sc.slot h).n ≤ (roundsState.sc.slot g).n by decide +kernel) h hh g hlt
      counts := by decide +kernel }⟩

/-- The packet operations on two blocks and on none. -/
theorem witness_PacketOperations :
    ValidBytes keyState.cfg
        (({ keyState.ecb.op with pkt := 0x1000, off := 4, nb := 2 }).pkt + 4) (16 * 2)
      ∧ ValidBytes keyState.cfg (keyState.ecb.op.pkt + keyState.ecb.op.off) (8 * keyState.ecb.op.nb) :=
  ⟨valid_bytes (by decide), valid_bytes (by decide)⟩

/-! ### Completion -/

/-- A CSA completion in a phase and round, with a batch of so many packets. -/
def seqState (phase : Phase) (iter : Fin 24) (grouped : Nat) (tscClear : Bool) : State :=
  { busyState with
    phase := phase, iter := iter, sc := { busyState.sc with grouped := grouped },
    cfg := { busyState.cfg with tscClear := tscClear } }

/-- Each clause of the sequencer: a completion due, and every phase, with and without a batch and with
and without TSC_CLEAR; what comes next is the word at the sequencer. -/
theorem witness_SequencerOrder :
    ({ busyState with fireIn := 0 }).completionDue = true
      ∧ (seqState .scan 0 1 false).uops = [] ∧ (seqState .scan 0 1 false).pending.kind = .csa
      ∧ (seqState .scan 0 1 false).pending.valid.get (seqState .scan 0 1 false).sc.gpar = true
      ∧ ([({ busyState with fireIn := 0 }, [0x5000]), (seqState .scan 0 0 false, [0x5100, 0x5200]),
          (seqState .scan 0 1 false, [0x5100, 0x5200]), (seqState .sort 0 1 false, [0x5300]),
          (seqState .sort 0 0 false, [0x5600]), (seqState .sort 0 0 true, [0x5600]),
          (seqState .rounds 0 1 false, [0x5401]), (seqState .rounds 21 1 false, [0x5416]),
          (seqState .rounds 22 1 true, [0x5500]), (seqState .rounds 23 1 false, [0x5600])].all
        fun st => nextIs (step st.1) fun t => t.uops == st.2) = true := by decide +kernel

theorem witness_MissingKeyFaults :
    let s := { busyState with
      phase := .scan, sc := { busyState.sc with grouped := 1 },
      pending := { busyState.pending with valid := ⟨false, true⟩ } }
    s.uops = [] ∧ s.phase = .scan ∧ s.pending.kind = .csa ∧ 0 < s.sc.grouped
      ∧ s.pending.valid.get s.sc.gpar = false := by decide

/-- Two admitted packets of a build with TSC_CLEAR, after the last round. -/
def clearState : State :=
  { roundsState with
    cfg := { Build.atReset with tscClear := true }, phase := .rounds, iter := 23,
    pending := { roundsState.pending with kind := .csa } }

theorem witness_TscClearMarksThePackets :
    clearState.uops = [] ∧ clearState.phase = .rounds ∧ clearState.pending.kind = .csa
      ∧ clearState.iter = 23 ∧ clearState.cfg.tscClear = true ∧ 0 < clearState.sc.grouped
      ∧ ∀ g, g < clearState.sc.grouped → ∀ k, k < 1 →
        memValid clearState.cfg ((clearState.sc.slot g).pkt + 3 + k) = true := by decide +kernel

theorem witness_CompletionResponse :
    ({ busyState with phase := .writeback }).uops = []
      ∧ ({ busyState with phase := .writeback }).phase = .writeback := by decide

/-- An ECB completion at its scan: one of the three packets is of parity even, one of parity odd. -/
def ecbState : State :=
  { scanState with phase := .scan, pending := { scanState.pending with kind := .aesEcb } }

/-- No key is valid in this state; in the second both are. -/
theorem witness_EcbScanAndKeyCheck :
    ecbState.uops = [] ∧ ecbState.phase = .scan
      ∧ ecbState.pending.kind ∈ [Kind.desNcb, Kind.aesEcb, Kind.aes128Ecb]
      ∧ ReadableRanges ecbState.cfg ecbState.pending.ranges
      ∧ (nextIs (step ecbState) (fun t => t.faulted && t.faultCode == 0x07)
        && nextIs (step { ecbState with
              pending := { ecbState.pending with valid := ⟨true, true⟩ } })
          (fun t => t.phase == .rounds && t.ecb.work.length == 2)) = true :=
  ⟨by decide, by decide, by decide, witness_ScanAdmitsOneBatch.1, by decide +kernel⟩

/-- The ECB completion after its scan, with this work list, in a build with TSC_CLEAR; a packet
operation on the packet at 0x10BC has been issued or not. -/
def workState (work : List Work) (active : Bool) : State :=
  { ecbState with
    cfg := { Build.atReset with tscClear := true }, phase := .rounds,
    ecb := { ecbState.ecb with work := work, op := ⟨0x10BC, 4, 11, []⟩, active := active } }

/-- A packet to work and none, after a packet operation and before one. -/
theorem witness_EcbWorkOrder :
    (workState [⟨0x1178, 4, 11, .odd⟩] true).uops = []
      ∧ (workState [] true).phase = .rounds ∧ (workState [] false).ecb.active = false
      ∧ (workState [] true).pending.kind ∈ [Kind.desNcb, Kind.aesEcb, Kind.aes128Ecb]
      ∧ memValid (workState [] true).cfg ((workState [] true).ecb.op.pkt + 3) = true
      ∧ (nextIs (step (workState [⟨0x1178, 4, 11, .odd⟩] true))
          (fun t => t.uops == [0x6100] && t.ecb.op.pkt == 0x1178
            && t.mem.get 0x10BF == 0x10 && t.mem.get 0x117B == 0xD0)
        && nextIs (step (workState [] true))
          (fun t => t.phase == .writeback && t.mem.get 0x10BF == 0x10)
        && nextIs (step (workState [] false)) (fun t => t.mem.get 0x10BF == 0x90)) = true := by
  decide +kernel

/-- The host has nothing left to do, so the completion is due. -/
theorem witness_EveryCompletionEnds :
    Inv busyState ∧ busyState.uops = [] ∧ busyState.phase = .idle
      ∧ busyState.completionDue = true :=
  ⟨busyState_inv, by decide, by decide, by decide⟩

/-- A build with one valid page. -/
def narrowState : State :=
  { drainState with
    cfg := { Build.atReset with memMap := [⟨0x3000, 0x4000⟩] },
    ecb := { drainState.ecb with op := ⟨0x2F00, 0xF8, 2, []⟩ },
    pending := { drainState.pending with ranges := [⟨0x1000, 0x10BC⟩] } }

/-- alive[1] > alive[0], and an encp with no block before it. -/
def growingState : State :=
  { State.reset with
    sc := { State.reset.sc with
      alive := State.reset.sc.alive.set 1 1, encp := State.reset.sc.encp.set 0 7 } }

/-- A slot that continues from alive[it - 1] on is checked too (log 32). -/
theorem test_scRound_growing_alive :
    execScRound ⟨1, by decide⟩ growingState = .fault .invalidAccess := rfl

/-- Each clause of the statement at the edge of its premise. -/
theorem witness_StopsOutsideThePreconditions :
    ({ State.reset.st with soff := 0 }).soff.val = 0
      ∧ ({ State.reset.st with soff := 31 }).soff.val < 32
      ∧ ({ State.reset.bk with boff := 0 }).boff.val = 0
      ∧ ({ State.reset.bk with boff := 55 }).boff.val < 56
      ∧ narrowState.ecb.op.pkt + narrowState.ecb.op.off ≤ 0x2FF8
      ∧ 0x2FFF < narrowState.ecb.op.pkt + narrowState.ecb.op.off + 8 * narrowState.ecb.op.nb
      ∧ memValid narrowState.cfg 0x2FFF = false ∧ memValid narrowState.cfg 0x3000 = true
      ∧ 0 < narrowState.sc.grouped
      ∧ memValid narrowState.cfg (narrowState.sc.payloadAt 0 + 7) = false
      ∧ narrowState.sc.alive[23] ≤ 0 ∧ 0 < narrowState.sc.alive[22] ∧ 8 ≤ narrowState.sc.encpAt 0
      ∧ memValid narrowState.cfg (narrowState.sc.encpAt 0 - 8 + 7) = false
      ∧ narrowState.st.soff.val = 32 ∧ 0 < narrowState.sc.aliveBefore 22
      ∧ 7 < roundWidth narrowState (narrowState.sc.aliveAfter 22) 0
      ∧ (growingState.st.soff.val = 32 ∧ growingState.sc.aliveBefore 1 = 0
        ∧ 0 < max (growingState.sc.aliveBefore 1) (growingState.sc.aliveAfter 1)
        ∧ growingState.sc.encpAt 0 = 7)
      ∧ memValid narrowState.cfg (0x1000 + 3) = false := by decide +kernel

end Sys2Proof.Tests
end

section
/-!
SUPPORT. What one step of the machine can do (spec/10_state.md, spec/45_commands.md, spec/60_exceptions.md):
`step_effect` lists every effect once, and the statements about all steps are read off the list.
-/

namespace Sys2Proof.Machine

/-! ## Updates that keep the context -/

/-- The build, the context state, RESP and the responses taken are as before. -/
structure ContextFrame (s t : State) : Prop where
  cfg : t.cfg = s.cfg
  kind : t.kind = s.kind
  cw : t.cw = s.cw
  keyValid : t.keyValid = s.keyValid
  busy : t.busy = s.busy
  pending : t.pending = s.pending
  faulted : t.faulted = s.faulted
  faultCode : t.faultCode = s.faultCode
  faultOpcode : t.faultOpcode = s.faultOpcode
  diagMalformed : t.diagMalformed = s.diagMalformed
  lastAdvanced : t.lastAdvanced = s.lastAdvanced
  resp : t.resp = s.resp
  delivered : t.delivered = s.delivered

/-- A state that differs from `s` at most in memory, the datapath, the sequencer and the pins. -/
theorem ContextFrame.of_eq {s t : State}
    (h : t = { s with
      mem := t.mem, phase := t.phase, iter := t.iter, st := t.st, bk := t.bk, ks := t.ks, pr := t.pr,
      wb := t.wb, sc := t.sc, ecb := t.ecb, uops := t.uops, port := t.port, host := t.host,
      fireIn := t.fireIn }) : ContextFrame s t := by
  rw [h]; constructor <;> rfl

/-- The context is kept, memory keeps its canonical form, and the sequencer leaves idle only for a DECRYPT in
flight. -/
structure SameContext (s t : State) : Prop where
  frame : ContextFrame s t
  memWf : s.mem.wf = true → t.mem.wf = true
  phaseBusy : t.phase ≠ .idle → s.phase ≠ .idle ∨ s.busy = true

/-- The context is kept, and so are the registers of the datapath that hold groups or byte slices. -/
structure Quiet (s t : State) : Prop extends SameContext s t where
  st : t.st = s.st
  bk : t.bk = s.bk
  pr : t.pr = s.pr

theorem Quiet.refl (s : State) : Quiet s s := ⟨⟨.of_eq rfl, id, .inl⟩, rfl, rfl, rfl⟩

theorem State.consume_quiet (s : State) (len : Nat) : Quiet s (s.consume len) :=
  ⟨⟨.of_eq rfl, id, .inl⟩, rfl, rfl, rfl⟩

/-- An engine operation at the sequencer keeps the context (R126). -/
theorem SameContext.of_engine {s t : State} {i : Instr} {rest : List UWord}
    (hi : isCommand i = false) (h : exec i { s with uops := rest } = .next t) : SameContext s t := by
  obtain ⟨frame, wf⟩ := exec_engine hi h
  refine ⟨.of_eq ?_, wf, fun hp => .inl ?_⟩
  · rw [frame]
  · rwa [frame] at hp

/-! ## The effects of a step -/

/-- Everything a step of `s` can do when it answers a next state. -/
inductive StepEffect (s : State) : State → Prop
  /-- an engine operation works (R126). -/
  | engine {i : Instr} {rest : List UWord} {t : State} (hi : isCommand i = false)
      (run : exec i { s with uops := rest } = .next t) : StepEffect s t
  /-- a move of the sequencer or the host that keeps the context. -/
  | quiet {t : State} (h : Quiet s t) : StepEffect s t
  /-- a command is answered without any other effect. -/
  | answer {u : State} (h : Quiet s u) (opc : Byte) (c : Status) (p : List Word) :
      StepEffect s (u.respond opc c p)
  /-- a command faults (R396). -/
  | fault {u : State} (h : Quiet s u) (idle : u.phase = .idle) (c : Status) (opc : Byte)
      (hc : statusCode c ∈ faultCodes) : StepEffect s (u.raiseFault c opc)
  /-- a completion faults on a missing key (R298, R374). -/
  | completionFault {u : State} (h : Quiet s u) : StepEffect s (u.completionFault .keyNotSet)
  /-- a completion ends without fault (R352). -/
  | finish (uops : s.uops = []) (phase : s.phase = .writeback) : StepEffect s s.finishCompletion
  /-- SET_KIND to another kind (R335). -/
  | setKind {rsvd : BitVec 21} {code : BitVec 3} {len : Nat} (kind : Kind) (uops : s.uops = [])
      (phase : s.phase = .idle) (head : s.portHead = .instr (.setKind rsvd code) len)
      (busy : s.busy = false) :
      StepEffect s
        ({ s.consume len with kind := kind, keyValid := ⟨false, false⟩ }.respond opcSetKind .ok [])
  /-- SET_CW writes its keys (R340). -/
  | setCw {rsvd : BitVec 22} {pmask : BitVec 2} {keys : List Word} {len : Nat} (uops : s.uops = [])
      (phase : s.phase = .idle) (head : s.portHead = .instr (.setCw rsvd pmask keys) len)
      (kind : s.kind ≠ .none) :
      StepEffect s (((s.consume len).setKeys pmask keys).respond opcSetCw .ok [])
  /-- DECRYPT is issued (R350). -/
  | issue (len : Nat) {ranges : List Range} (faulted : s.faulted = false) (busy : s.busy = false)
      (kind : s.kind ≠ .none) (ok : rangesOk s.cfg ranges = true) :
      StepEffect s ((s.consume len).issueDecrypt ranges)
  /-- the host takes a response (R44). -/
  | take {rest : List HostAction} {r : Response} {queue : List Response} (resp : s.resp = r :: queue) :
      StepEffect s { s with
        host := rest, resp := queue, delivered := s.delivered ++ [r], fireIn := s.fireIn - 1 }
  /-- the host resets the block (R430, R431). -/
  | reset {rest : List HostAction} (host : s.host = .reset :: rest) :
      StepEffect s { s with host := rest }.hardReset

/-! ## The sequencer's moves -/

section
variable {s t : State}

theorem State.enterWriteback_quiet (hp : s.phase ≠ .idle) (h : s.enterWriteback = .next t) :
    Quiet s t := by
  unfold State.enterWriteback at h
  split at h
  · split at h <;> cases h
    exact ⟨⟨.of_eq rfl, wf_clearSlots _ _ _, fun _ => .inl hp⟩, rfl, rfl, rfl⟩
  · cases h
    exact ⟨⟨.of_eq rfl, id, fun _ => .inl hp⟩, rfl, rfl, rfl⟩

theorem State.afterScan_effect (hp : s.phase ≠ .idle) : StepEffect s s.afterScan := by
  unfold State.afterScan
  split
  · exact .completionFault (.refl s)
  · exact .quiet ⟨⟨.of_eq rfl, id, fun _ => .inl hp⟩, rfl, rfl, rfl⟩

theorem State.afterSort_quiet (hp : s.phase ≠ .idle) (h : s.afterSort = .next t) : Quiet s t := by
  unfold State.afterSort at h
  split at h
  · cases h
    exact ⟨⟨.of_eq rfl, id, fun _ => .inl hp⟩, rfl, rfl, rfl⟩
  · exact State.enterWriteback_quiet hp h

theorem State.afterRound_quiet (hp : s.phase ≠ .idle) (h : s.afterRound = .next t) : Quiet s t := by
  unfold State.afterRound at h
  split at h
  · cases h
    exact ⟨⟨.of_eq rfl, id, fun _ => .inl hp⟩, rfl, rfl, rfl⟩
  · split at h
    · cases h
      exact ⟨⟨.of_eq rfl, id, fun _ => .inl hp⟩, rfl, rfl, rfl⟩
    · exact State.enterWriteback_quiet hp h

theorem State.ecbBegin_effect (hp : s.phase ≠ .idle) (h : s.ecbBegin = .next t) : StepEffect s t := by
  unfold State.ecbBegin at h
  split at h
  · cases h
  · dsimp only at h
    split at h <;> cases h
    · exact .completionFault ⟨⟨.of_eq rfl, id, .inl⟩, rfl, rfl, rfl⟩
    · exact .quiet ⟨⟨.of_eq rfl, id, fun _ => .inl hp⟩, rfl, rfl, rfl⟩

/-- The next item of the ECB work list keeps the context, from any memory in canonical form. -/
theorem State.ecbNext_quiet (hp : s.phase ≠ .idle) (m : Memory)
    (hm : s.mem.wf = true → m.wf = true) : Quiet s { s with mem := m }.ecbNext := by
  unfold State.ecbNext
  split <;> exact ⟨⟨.of_eq rfl, hm, fun _ => .inl hp⟩, rfl, rfl, rfl⟩

theorem State.ecbStep_quiet (hp : s.phase ≠ .idle) (h : s.ecbStep = .next t) : Quiet s t := by
  unfold State.ecbStep at h
  split at h
  · split at h <;> cases h
    exact State.ecbNext_quiet hp _ fun hm => wf_clearTsc hm _
  · cases h
    exact State.ecbNext_quiet hp s.mem id

theorem State.sequence_effect (hu : s.uops = []) (h : s.sequence = .next t) : StepEffect s t := by
  unfold State.sequence at h
  split at h
  case h_1 => cases h; exact .quiet (.refl s)
  case h_2 hph =>
    have hp : s.phase ≠ .idle := by simp [hph]
    split at h
    · cases h; exact State.afterScan_effect hp
    · exact State.ecbBegin_effect hp h
  case h_3 hph => exact .quiet (State.afterSort_quiet (by simp [hph]) h)
  case h_4 hph =>
    have hp : s.phase ≠ .idle := by simp [hph]
    split at h
    · exact .quiet (State.afterRound_quiet hp h)
    · exact .quiet (State.ecbStep_quiet hp h)
  case h_5 hph => cases h; exact .finish hu hph

theorem State.beginCompletion_quiet (h : s.completionDue = true) : Quiet s s.beginCompletion := by
  have hb : s.busy = true := by simp_all [State.completionDue]
  exact ⟨⟨.of_eq rfl, id, fun _ => .inr hb⟩, rfl, rfl, rfl⟩

end

/-! ## The commands -/

theorem takeRanges_length {n : Nat} {ws : List Word} {rs : List Range}
    (h : takeRanges n ws = some rs) : rs.length = n := by
  induction n, ws using takeRanges.induct generalizing rs with
  | case1 => cases h; rfl
  | case2 n a b c d rest ih =>
    simp only [takeRanges, Option.map_eq_some_iff] at h
    obtain ⟨rs', hrs, rfl⟩ := h
    simp [ih hrs]
  | case3 => simp_all [takeRanges]

/-- What the decoder reads at the command port is a well-formed command (R114, R115, R118). -/
theorem decodeCommand_instr_wf {kw : Nat} {ws : List Word} {i : Instr} {len : Nat}
    (h : decodeCommand kw ws = .instr i len) : isCommand i = true ∧ i.wf kw = true := by
  cases ws with
  | nil => cases h
  | cons w ops =>
    simp only [decodeCommand] at h
    split at h
    · cases h; exact ⟨rfl, rfl⟩
    split at h
    · split at h <;> cases h
      refine ⟨rfl, ?_⟩
      simp only [Instr.wf, List.length_take, beq_iff_eq]
      omega
    split at h
    · split at h <;> cases h
      next hr =>
        have hlt := (w.extractLsb' 0 16).isLt
        exact ⟨rfl, by simpa [Instr.wf, takeRanges_length hr] using hlt⟩
    split at h <;> cases h
    exact ⟨rfl, rfl⟩

section
variable {s t : State} {len : Nat}

theorem execSetKind_effect {rsvd : BitVec 21} {code : BitVec 3} (hu : s.uops = [])
    (hp : s.phase = .idle) (head : s.portHead = .instr (.setKind rsvd code) len)
    (h : execSetKind rsvd code (s.consume len) = .next t) : StepEffect s t := by
  have hq := s.consume_quiet len
  unfold execSetKind at h
  split at h
  · cases h; exact .answer hq ..
  split at h
  · cases h; exact .fault hq hp _ _ (by decide)
  split at h <;> cases h
  · exact .fault hq hp _ _ (by decide)
  · unfold State.setKindTo
    split
    · exact .answer hq ..
    split
    · exact .fault hq hp _ _ (by decide)
    · next hb => exact .setKind _ hu hp head (by simpa using hb)

theorem execSetCw_effect {rsvd : BitVec 22} {pmask : BitVec 2} {keys : List Word} (hu : s.uops = [])
    (hp : s.phase = .idle) (head : s.portHead = .instr (.setCw rsvd pmask keys) len)
    (h : execSetCw rsvd pmask keys (s.consume len) = .next t) : StepEffect s t := by
  have hq := s.consume_quiet len
  unfold execSetCw at h
  split at h
  · cases h; exact .answer hq ..
  split at h
  · cases h; exact .fault hq hp _ _ (by decide)
  split at h <;> cases h
  · exact .fault hq hp _ _ (by decide)
  · next hk => exact .setCw hu hp head hk

theorem execDecrypt_effect {rsvd : BitVec 8} {ranges : List Range} (hp : s.phase = .idle)
    (h : execDecrypt rsvd ranges (s.consume len) = .next t) : StepEffect s t := by
  have hq := s.consume_quiet len
  unfold execDecrypt at h
  split at h
  · cases h; exact .answer hq ..
  split at h
  · cases h; exact .fault hq hp _ _ (by decide)
  split at h
  · cases h; exact .fault hq hp _ _ (by decide)
  split at h
  · cases h; exact .fault hq hp _ _ (by decide)
  split at h <;> cases h
  · next hf _ hb hk ok =>
      exact .issue len (by simpa using hf) (by simpa using hb) hk ok
  · exact .fault hq hp _ _ (by decide)

theorem execCsrRead_effect {rsvd : BitVec 16} {index : BitVec 8} (hp : s.phase = .idle)
    (h : execCsrRead rsvd index (s.consume len) = .next t) : StepEffect s t := by
  have hq := s.consume_quiet len
  unfold execCsrRead at h
  split at h
  · cases h; exact .fault hq hp _ _ (by decide)
  split at h <;> cases h
  · exact .fault hq hp _ _ (by decide)
  · exact .answer hq ..

theorem exec_command_effect {i : Instr} (hu : s.uops = []) (hp : s.phase = .idle)
    (head : s.portHead = .instr i len) (h : exec i (s.consume len) = .next t) : StepEffect s t := by
  have hc : isCommand i = true := (decodeCommand_instr_wf head).1
  cases i with
  | setKind => exact execSetKind_effect hu hp head h
  | setCw => exact execSetCw_effect hu hp head h
  | decrypt => exact execDecrypt_effect hp h
  | csrRead => exact execCsrRead_effect hp h
  | _ => cases hc

theorem reservedCommand_effect (opc : Byte) (hp : s.phase = .idle) :
    StepEffect s (reservedCommand opc (s.consume 1)) := by
  unfold reservedCommand
  split
  · exact .answer (s.consume_quiet 1) ..
  · exact .fault (s.consume_quiet 1) hp _ _ (by decide)

theorem State.hostStep_effect (h : s.hostStep = .next t) : StepEffect s t := by
  unfold State.hostStep at h
  split at h
  case h_1 => cases h; exact .quiet (.refl s)
  case h_2 => cases h; exact .quiet ⟨⟨.of_eq rfl, id, .inl⟩, rfl, rfl, rfl⟩
  case h_3 =>
    split at h <;> cases h
    · exact .quiet (.refl s)
    · next hr => exact .take hr
  case h_4 =>
    split at h <;> cases h
    exact .quiet ⟨⟨.of_eq rfl, fun hm => Memory.wf_set hm _ _, .inl⟩, rfl, rfl, rfl⟩
  case h_5 hh => cases h; exact .reset hh

end

/-- Every step that answers a next state has one of the listed effects. -/
theorem step_effect {s t : State} (h : step s = .next t) : StepEffect s t := by
  unfold step at h
  split at h
  · split at h
    · next hd => exact .engine (decodeEngine_not_command hd) h
    · cases h
  · next hu =>
    split at h
    · exact State.sequence_effect hu h
    next hp =>
    have hp : s.phase = .idle := not_not.mp hp
    split at h
    · next hdue => cases h; exact .quiet (State.beginCompletion_quiet hdue)
    split at h
    · next head => exact exec_command_effect hu hp head h
    · cases h; exact reservedCommand_effect _ hp
    · exact State.hostStep_effect h

end Sys2Proof.Machine
end

section
/-!
The invariant of the context, the sticky fault and the writers of the context registers: each is read off
`step_effect`, with one lemma for each named update.
-/

namespace Sys2Proof.Machine

/-! ## SET_CW -/

/-- A field that the write of one key keeps is kept by SET_CW. -/
theorem State.setKeys_keeps {α : Type} (f : State → α) (h : ∀ s p k, f (State.setKey s p k) = f s)
    (s : State) (pmask : BitVec 2) (keys : List Word) : f (s.setKeys pmask keys) = f s := by
  unfold State.setKeys
  dsimp only
  split <;> split <;> simp only [h]

section
variable (s : State) (pmask : BitVec 2) (keys : List Word)

@[simp] theorem State.setKeys_cfg : (s.setKeys pmask keys).cfg = s.cfg :=
  State.setKeys_keeps _ State.setKey_cfg ..
@[simp] theorem State.setKeys_kind : (s.setKeys pmask keys).kind = s.kind :=
  State.setKeys_keeps _ State.setKey_kind ..
@[simp] theorem State.setKeys_faulted : (s.setKeys pmask keys).faulted = s.faulted :=
  State.setKeys_keeps _ State.setKey_faulted ..
@[simp] theorem State.setKeys_faultCode : (s.setKeys pmask keys).faultCode = s.faultCode :=
  State.setKeys_keeps _ State.setKey_faultCode ..
@[simp] theorem State.setKeys_faultOpcode : (s.setKeys pmask keys).faultOpcode = s.faultOpcode :=
  State.setKeys_keeps _ State.setKey_faultOpcode ..
@[simp] theorem State.setKeys_diagMalformed :
    (s.setKeys pmask keys).diagMalformed = s.diagMalformed :=
  State.setKeys_keeps _ State.setKey_diagMalformed ..
@[simp] theorem State.setKeys_lastAdvanced :
    (s.setKeys pmask keys).lastAdvanced = s.lastAdvanced :=
  State.setKeys_keeps _ State.setKey_lastAdvanced ..
@[simp] theorem State.setKeys_st : (s.setKeys pmask keys).st = s.st :=
  State.setKeys_keeps _ State.setKey_st ..
@[simp] theorem State.setKeys_bk : (s.setKeys pmask keys).bk = s.bk :=
  State.setKeys_keeps _ State.setKey_bk ..
@[simp] theorem State.setKeys_pr : (s.setKeys pmask keys).pr = s.pr :=
  State.setKeys_keeps _ State.setKey_pr ..

end

/-- The key of a parity and its valid bit after a key is written. -/
theorem State.setKey_get (s : State) (p q : Parity) (k : List Byte) :
    ((s.setKey p k).cw.get q = if q = p then k else s.cw.get q)
      ∧ ((s.setKey p k).keyValid.get q = if q = p then true else s.keyValid.get q) := by
  cases p <;> cases q <;> exact ⟨rfl, rfl⟩

theorem keyBytes_length (ws : List Word) : (keyBytes ws).length = 4 * ws.length := by
  induction ws with
  | nil => rfl
  | cons w ws ih =>
    rw [keyBytes] at ih ⊢
    rw [List.flatMap_cons, List.length_append, ih, List.length_cons]
    simp only [wordBytes, List.length_cons, List.length_nil]
    omega

/-- A key of every kind is a whole number of words (R32, R118). -/
theorem four_dvd_keylen (c : Build) (k : Kind) : 4 ∣ keylen c k := by
  have haes (a : AesEcbKey) : 4 ∣ a.toNat := by cases a <;> decide
  cases k with
  | aesEcb => exact haes c.aesEcbKey
  | _ => simp only [keylen]; decide

theorem four_mul_keyWords (s : State) : 4 * s.keyWords = keylen s.cfg s.kind :=
  Nat.mul_div_cancel' (four_dvd_keylen s.cfg s.kind)

/-! ## What a fault leaves -/

theorem State.raiseFault_mem (s : State) (c : Status) (opc : Byte) :
    (s.raiseFault c opc).mem
      = if s.busy then scrambleRanges s.draws s.pending.ranges s.mem else s.mem := by
  simp only [State.raiseFault]; split <;> simp_all

@[simp] theorem State.completionFault_faultCode (s : State) (c : Status) :
    (s.completionFault c).faultCode = if s.faulted then s.faultCode else statusCode c := by
  simp [State.completionFault, State.respond]

@[simp] theorem State.completionFault_faultOpcode (s : State) (c : Status) :
    (s.completionFault c).faultOpcode = if s.faulted then s.faultOpcode else opcDecrypt := by
  simp [State.completionFault, State.respond]

/-! ## The invariant of the context -/

theorem legalStatus_statusCode (c : Status) : legalStatus (statusCode c) = true := by
  cases c <;> rfl

section
variable {s t : State}

theorem Inv.of_sameContext (h : SameContext s t) (hs : Inv s) : Inv t where
  memWf := h.memWf hs.memWf
  keyLength := by simpa only [h.frame.keyValid, h.frame.kind, h.frame.cw, h.frame.cfg] using hs.keyLength
  faultedIdle := by simpa only [h.frame.faulted, h.frame.busy] using hs.faultedIdle
  faultedCode := by simpa only [h.frame.faulted, h.frame.faultCode] using hs.faultedCode
  cleanCode := by
    simpa only [h.frame.faulted, h.frame.faultCode, h.frame.faultOpcode] using hs.cleanCode
  busyPending := by
    simpa only [h.frame.busy, h.frame.pending, h.frame.kind, h.frame.cfg] using hs.busyPending
  legalCodes := by simpa only [h.frame.resp, h.frame.delivered] using hs.legalCodes
  phaseBusy := fun hp => by
    rw [h.frame.busy]
    exact (h.phaseBusy hp).elim hs.phaseBusy id

/-- A response more keeps the record of legal status codes. -/
theorem legalCodes_append (h : ∀ r ∈ s.resp ++ s.delivered, legalStatus r.status = true)
    (opc : Byte) (c : Status) (p : List Word) :
    ∀ r ∈ (s.resp ++ [⟨opc, statusCode c, p⟩]) ++ s.delivered, legalStatus r.status = true := by
  intro r hr
  rw [List.append_assoc, List.mem_append, List.mem_append, List.mem_singleton] at hr
  rcases hr with hr | rfl | hr
  · exact h r (List.mem_append_left _ hr)
  · exact legalStatus_statusCode c
  · exact h r (List.mem_append_right _ hr)

theorem Inv.respond (hs : Inv s) (opc : Byte) (c : Status) (p : List Word) :
    Inv (s.respond opc c p) :=
  { hs with legalCodes := legalCodes_append hs.legalCodes opc c p }

/-- A fault of a command (R396), raised while the sequencer is idle. -/
theorem Inv.raiseFault (hs : Inv s) (idle : s.phase = .idle) {c : Status}
    (hc : statusCode c ∈ faultCodes) (opc : Byte) : Inv (s.raiseFault c opc) where
  memWf := by
    rw [State.raiseFault_mem]
    split
    · exact wf_scrambleRanges _ _ hs.memWf
    · exact hs.memWf
  keyLength := by simpa using hs.keyLength
  faultedIdle := by simp
  faultedCode := fun _ => by
    rw [State.raiseFault_faultCode]
    split
    · next hf => exact hs.faultedCode hf
    · exact hc
  cleanCode := by simp
  busyPending := by simp
  legalCodes := by
    rw [State.raiseFault_resp, State.raiseFault_delivered]
    exact legalCodes_append hs.legalCodes opc c []
  phaseBusy := fun hp => absurd ((s.raiseFault_phase c opc).trans idle) hp

/-- A fault of a completion (R396). -/
theorem Inv.completionFault (hs : Inv s) {c : Status} (hc : statusCode c ∈ faultCodes) :
    Inv (s.completionFault c) where
  memWf := by simpa using hs.memWf
  keyLength := by simpa using hs.keyLength
  faultedIdle := by simp
  faultedCode := fun _ => by
    rw [State.completionFault_faultCode]
    split
    · next hf => exact hs.faultedCode hf
    · exact hc
  cleanCode := by simp
  busyPending := by simp
  legalCodes := by
    rw [State.completionFault_resp, State.completionFault_delivered]
    exact legalCodes_append hs.legalCodes _ c []
  phaseBusy := by simp

theorem Inv.finishCompletion (hs : Inv s) : Inv s.finishCompletion where
  memWf := hs.memWf
  keyLength := hs.keyLength
  faultedIdle := fun _ => rfl
  faultedCode := hs.faultedCode
  cleanCode := hs.cleanCode
  busyPending := nofun
  legalCodes := legalCodes_append hs.legalCodes _ .ok _
  phaseBusy := fun hp => absurd rfl hp

/-- SET_KIND clears both valid bits; no DECRYPT is in flight then (R335). -/
theorem Inv.withKind (hs : Inv s) (busy : s.busy = false) (k : Kind) :
    Inv { s with kind := k, keyValid := ⟨false, false⟩ } :=
  { hs with
    keyLength := fun p hp => by cases p <;> cases hp
    busyPending := fun hb => absurd (busy.symm.trans hb) nofun }

/-- A key of the kind's length is written (R340). -/
theorem Inv.setKey (hs : Inv s) (kind : s.kind ≠ .none) (p : Parity) {k : List Byte}
    (hk : k.length = keylen s.cfg s.kind) : Inv (s.setKey p k) where
  memWf := by simpa using hs.memWf
  keyLength := fun q hq => by
    obtain ⟨hcw, hvalid⟩ := s.setKey_get p q k
    rw [hvalid] at hq
    rw [hcw, State.setKey_kind, State.setKey_cfg]
    split at hq
    · next hqp => rw [if_pos hqp]; exact ⟨kind, hk⟩
    · next hqp => rw [if_neg hqp]; exact hs.keyLength q hq
  faultedIdle := by simpa using hs.faultedIdle
  faultedCode := by simpa using hs.faultedCode
  cleanCode := by simpa using hs.cleanCode
  busyPending := by simpa using hs.busyPending
  legalCodes := by simpa using hs.legalCodes
  phaseBusy := by simpa using hs.phaseBusy

/-- SET_CW with as many key words as its PMASK selects (R114, R340). -/
theorem Inv.setKeys (hs : Inv s) (kind : s.kind ≠ .none) {pmask : BitVec 2} {keys : List Word}
    (hk : keys.length = pmaskCount pmask * s.keyWords) : Inv (s.setKeys pmask keys) := by
  have key_length (ws : List Word) (h : s.keyWords ≤ ws.length) :
      (keyBytes (ws.take s.keyWords)).length = keylen s.cfg s.kind := by
    rw [keyBytes_length, List.length_take, Nat.min_eq_left h, four_mul_keyWords]
  unfold State.setKeys
  unfold pmaskCount at hk
  dsimp only
  cases heven : pmask.getLsbD 0 <;> cases hodd : pmask.getLsbD 1 <;>
    simp only [heven, hodd, Bool.toNat_true, Bool.toNat_false, if_true, if_false,
      Bool.false_eq_true] at hk ⊢
  · exact hs
  · exact hs.setKey kind _ (key_length keys (by omega))
  · exact hs.setKey kind _ (key_length keys (by omega))
  · have hrest : s.keyWords ≤ (keys.drop s.keyWords).length := by rw [List.length_drop]; omega
    exact (hs.setKey kind _ (key_length keys (by omega))).setKey (by simpa using kind) _
      (by simpa using key_length _ hrest)

/-- The inputs that a DECRYPT latches are those the invariant speaks of (R350, R351). -/
theorem Inv.issueDecrypt (hs : Inv s) (faulted : s.faulted = false) (kind : s.kind ≠ .none)
    {ranges : List Range} (ok : rangesOk s.cfg ranges = true) : Inv (s.issueDecrypt ranges) :=
  { hs with
    faultedIdle := fun hf => absurd (faulted.symm.trans hf) nofun
    busyPending := fun _ => ⟨rfl, kind, ok, fun p hp => (hs.keyLength p hp).2⟩
    phaseBusy := fun _ => rfl }

theorem Inv.take (hs : Inv s) {r : Response} {queue : List Response} (resp : s.resp = r :: queue)
    (rest : List HostAction) :
    Inv { s with
      host := rest, resp := queue, delivered := s.delivered ++ [r], fireIn := s.fireIn - 1 } :=
  { hs with
    legalCodes := fun x hx => hs.legalCodes x (by
      rw [resp]
      simp only [List.mem_append, List.mem_cons, List.not_mem_nil, or_false] at hx ⊢
      tauto) }

/-- Reset from a state of the invariant; only packet memory and the responses taken stay (R430, R431). -/
theorem Inv.hardReset (hs : Inv s) : Inv s.hardReset where
  memWf := by
    unfold State.hardReset
    dsimp only
    split
    · exact wf_scrambleRanges _ _ hs.memWf
    · exact hs.memWf
  keyLength := fun p hp => by cases p <;> cases hp
  faultedIdle := nofun
  faultedCode := nofun
  cleanCode := fun _ => ⟨rfl, rfl⟩
  busyPending := nofun
  legalCodes := fun r hr => hs.legalCodes r (List.mem_append_right _ hr)
  phaseBusy := fun hp => absurd rfl hp

end

/-- Settles O17: every effect of `step_effect` keeps the invariant. -/
theorem everyStepKeepsInv : Obligations.EveryStepKeepsInv := by
  intro s t hs h
  cases step_effect h with
  | engine hi run => exact hs.of_sameContext (.of_engine hi run)
  | quiet hq => exact hs.of_sameContext hq.toSameContext
  | answer hq opc c p => exact (hs.of_sameContext hq.toSameContext).respond opc c p
  | fault hq idle c opc hc => exact (hs.of_sameContext hq.toSameContext).raiseFault idle hc opc
  | completionFault hq => exact (hs.of_sameContext hq.toSameContext).completionFault (by decide)
  | finish => exact hs.finishCompletion
  | @setKind _ _ len kind _ _ _ busy =>
    exact ((hs.of_sameContext (s.consume_quiet len).toSameContext).withKind busy kind).respond ..
  | @setCw _ _ _ len _ _ head kind =>
    have hlen := (decodeCommand_instr_wf head).2
    simp only [Instr.wf, beq_iff_eq] at hlen
    exact ((hs.of_sameContext (s.consume_quiet len).toSameContext).setKeys kind hlen).respond ..
  | issue len faulted _ kind ok =>
    exact (hs.of_sameContext (s.consume_quiet len).toSameContext).issueDecrypt faulted kind ok
  | take resp => exact hs.take resp _
  | reset => exact Inv.hardReset (hs.of_sameContext ⟨.of_eq rfl, id, .inl⟩)

/-! ## The sticky fault -/

/-- Settles O20: only the reset among the effects of `step_effect` touches the record of a fault. -/
theorem faultIsSticky : Obligations.FaultIsSticky := by
  intro s t h hf
  cases step_effect h with
  | engine hi run =>
    have hc := (SameContext.of_engine hi run).frame
    exact .inl ⟨hc.faulted.trans hf, hc.faultCode, hc.faultOpcode⟩
  | quiet hq => exact .inl ⟨hq.frame.faulted.trans hf, hq.frame.faultCode, hq.frame.faultOpcode⟩
  | answer hq => exact .inl ⟨hq.frame.faulted.trans hf, hq.frame.faultCode, hq.frame.faultOpcode⟩
  | fault hq => simp [hq.frame.faulted, hf, hq.frame.faultCode, hq.frame.faultOpcode]
  | completionFault hq => simp [hq.frame.faulted, hf, hq.frame.faultCode, hq.frame.faultOpcode]
  | finish | setKind | issue | take => exact .inl ⟨hf, rfl, rfl⟩
  | setCw => simp [hf]
  | reset host => exact .inr ⟨_, host, rfl⟩

/-! ## The writers of the context -/

/-- KIND, CW, KEY_VALID and the two counters are as before, as in most effects of a step. -/
theorem writes_nothing {s t : State} {P Q R : Prop} (hcfg : t.cfg = s.cfg) (hkind : t.kind = s.kind)
    (hcw : t.cw = s.cw) (hvalid : t.keyValid = s.keyValid)
    (hdiag : t.diagMalformed = s.diagMalformed) (hlast : t.lastAdvanced = s.lastAdvanced) :
    t.cfg = s.cfg
      ∧ (P ∨ (((t.kind = s.kind ∧ t.cw = s.cw ∧ t.keyValid = s.keyValid) ∨ Q)
          ∧ ((t.diagMalformed = s.diagMalformed ∧ t.lastAdvanced = s.lastAdvanced) ∨ R))) :=
  ⟨hcfg, .inr ⟨.inl ⟨hkind, hcw, hvalid⟩, .inl ⟨hdiag, hlast⟩⟩⟩

/-- Settles O22: the effects of `step_effect` that write the context are those the statement names. -/
theorem whoWritesTheContext : Obligations.WhoWritesTheContext := by
  intro s t h
  cases step_effect h with
  | engine hi run =>
    have hc := (SameContext.of_engine hi run).frame
    exact writes_nothing hc.cfg hc.kind hc.cw hc.keyValid hc.diagMalformed hc.lastAdvanced
  | quiet hq | answer hq =>
    have hc := hq.frame
    exact writes_nothing hc.cfg hc.kind hc.cw hc.keyValid hc.diagMalformed hc.lastAdvanced
  | fault hq | completionFault hq =>
    have hc := hq.frame
    apply writes_nothing <;>
      simp [hc.cfg, hc.kind, hc.cw, hc.keyValid, hc.diagMalformed, hc.lastAdvanced]
  | issue | take => exact writes_nothing rfl rfl rfl rfl rfl rfl
  | finish uops phase =>
    exact ⟨rfl, .inr ⟨.inl ⟨rfl, rfl, rfl⟩, .inr ⟨uops, phase, rfl, rfl, rfl⟩⟩⟩
  | setKind kind uops phase head =>
    exact ⟨rfl, .inr ⟨.inr ⟨uops, phase, .inl ⟨_, _, _, head, rfl, rfl⟩⟩, .inl ⟨rfl, rfl⟩⟩⟩
  | setCw uops phase head =>
    refine ⟨by simp, .inr ⟨.inr ⟨uops, phase, .inr ⟨_, _, _, _, head, ?_⟩⟩, .inl ?_⟩⟩ <;> simp
  | reset host => exact ⟨rfl, .inl ⟨_, host, rfl⟩⟩

end Sys2Proof.Machine
end

section
/-!
The lanes that a build does not have (log 11): a group or slice is `Clear` when it holds zero there. Every
group and slice operation gives a clear result, so every engine operation keeps the registers clear.
-/

namespace Sys2Proof.Machine

/-! ## Entries of a vector -/

section
variable {α : Type} {n : Nat} {P : α → Prop}

theorem forall_mem_set {v : Vector α n} (hv : ∀ x ∈ v, P x) {i : Nat} {y : α} (hy : P y)
    (hi : i < n := by get_elem_tactic) : ∀ x ∈ v.set i y, P x := fun x hx =>
  (Vector.mem_or_eq_of_mem_set hx).elim (hv x) fun h => h ▸ hy

theorem forall_mem_ofFn {f : Fin n → α} (h : ∀ i, P (f i)) : ∀ x ∈ Vector.ofFn f, P x := fun _ hx =>
  let ⟨i, hi⟩ := Vector.mem_ofFn.mp hx
  hi ▸ h i

theorem forall_mem_replicate {y : α} (hy : P y) : ∀ x ∈ Vector.replicate n y, P x := fun _ hx =>
  (Vector.mem_replicate.mp hx).2 ▸ hy

theorem getD_of_forall_mem {v : Vector α n} (hv : ∀ x ∈ v, P x) {d : α} (hd : P d) (i : Nat) :
    P (v.getD i d) := by
  by_cases hi : i < n
  · rw [vector_getD_of_lt v i d hi]
    exact hv _ (Vector.getElem_mem hi)
  · simpa [Vector.getD, hi] using hd

end

/-! ## Groups -/

/-- The lanes from `n` on hold zero. -/
def GroupClear (n : Nat) (g : Group) : Prop := ∀ i, n ≤ i → g.getLsbD i = false

section
variable {n : Nat} {f g m : Group}

theorem GroupClear.zero : GroupClear n 0 := fun i _ => by simp

theorem GroupClear.and (hf : GroupClear n f) : GroupClear n (f &&& g) := fun i hi => by
  rw [BitVec.getLsbD_and, hf i hi, Bool.false_and]

theorem GroupClear.or (hf : GroupClear n f) (hg : GroupClear n g) : GroupClear n (f ||| g) :=
  fun i hi => by rw [BitVec.getLsbD_or, hf i hi, hg i hi, Bool.false_or]

theorem GroupClear.xor (hf : GroupClear n f) (hg : GroupClear n g) : GroupClear n (f ^^^ g) :=
  fun i hi => by rw [BitVec.getLsbD_xor, hf i hi, hg i hi, Bool.xor_false]

theorem GroupClear.sel (hf : GroupClear n f) (hg : GroupClear n g) : GroupClear n (groupSel m f g) :=
  fun i hi => by rw [groupSel_getLsbD, hf i hi, hg i hi, ite_self]

theorem GroupClear.bcast (hn : n ≤ maxLanes) (v : Bool) : GroupClear n (groupBcast n v) :=
  fun i hi => by rw [groupBcast_getLsbD hn, decide_eq_false (by omega), Bool.false_and]

theorem GroupClear.not (hn : n ≤ maxLanes) (g : Group) : GroupClear n (groupNot n g) :=
  fun i hi => by rw [groupNot_getLsbD hn, decide_eq_false (by omega), Bool.false_and]

theorem GroupClear.groupOf (hn : n ≤ maxLanes) (f : Nat → Bool) : GroupClear n (groupOf n f) :=
  fun i hi => by rw [groupOf_getLsbD hn, decide_eq_false (by omega), Bool.false_and]

theorem GroupClear.merge (hn : n ≤ maxLanes) {c : Nat} (hc : c ≤ n) (hf : GroupClear n f) :
    GroupClear n (mergeLanes c f g) := fun i hi => by
  rw [mergeLanes_getLsbD (by omega), if_neg (by omega), hf i hi]

/-- A selection among clear leaves is clear, whatever the selectors. -/
theorem GroupClear.mux (sels : List Group) {leaves : List Group}
    (h : ∀ g ∈ leaves, GroupClear n g) : GroupClear n (muxGroup sels leaves) := by
  induction sels generalizing leaves with
  | nil =>
    cases leaves with
    | nil => exact .zero
    | cons g _ => exact h g (by simp)
  | cons i is ih => exact (ih fun g hg => h g (List.mem_of_mem_drop hg)).sel (ih h)

end

/-! ## Byte slices -/

/-- The lanes from `n` on hold zero. -/
def SliceClear (n : Nat) (v : Slice) : Prop := ∀ i : Fin maxLanes, n ≤ i.val → v[i] = 0

/-- Every slice operation of Ops.lean is of this form. -/
theorem SliceClear.sliceOf (n : Nat) (f : Fin maxLanes → Byte) : SliceClear n (sliceOf n f) :=
  fun i hi => (sliceOf_getElem n f i i.isLt).trans (if_neg (by omega))

theorem SliceClear.transposeInBytes {n : Nat} (c : Nat) (m : Vector Block maxLanes)
    {slices : Vector Slice 8} (h : ∀ v ∈ slices, SliceClear n v) :
    ∀ v ∈ transposeInBytes n c m slices, SliceClear n v :=
  forall_mem_ofFn fun j i hi => by
    have hc : ¬ i.val < min c n := by omega
    have hj := h slices[j] (Vector.getElem_mem _) i hi
    simp only [Fin.getElem_fin, Vector.getElem_ofFn, if_neg hc] at hj ⊢
    exact hj

/-! ## Nibbles -/

/-- The four groups of a nibble hold zero in the lanes from `n` on. -/
structure NibbleG.Clear (n : Nat) (v : NibbleG) : Prop where
  b0 : GroupClear n v.b0
  b1 : GroupClear n v.b1
  b2 : GroupClear n v.b2
  b3 : GroupClear n v.b3

section
variable {n : Nat} {u v : NibbleG}

theorem NibbleG.Clear.bit (h : v.Clear n) (b : Nat) : GroupClear n (v.bit b) := by
  unfold NibbleG.bit
  split
  exacts [h.b0, h.b1, h.b2, h.b3]

theorem NibbleG.Clear.zero : NibbleG.zero.Clear n :=
  ⟨.zero, .zero, .zero, .zero⟩

theorem NibbleG.Clear.xor (hu : u.Clear n) (hv : v.Clear n) : (u.xor v).Clear n :=
  ⟨hu.b0.xor hv.b0, hu.b1.xor hv.b1, hu.b2.xor hv.b2, hu.b3.xor hv.b3⟩

theorem NibbleG.Clear.rotl (hu : u.Clear n) : u.rotl.Clear n := ⟨hu.b3, hu.b0, hu.b1, hu.b2⟩

theorem NibbleG.Clear.sel (m : Group) (hu : u.Clear n) (hv : v.Clear n) :
    (NibbleG.sel m u v).Clear n :=
  ⟨hu.b0.sel hv.b0, hu.b1.sel hv.b1, hu.b2.sel hv.b2, hu.b3.sel hv.b3⟩

theorem addBit_clear {z e c : Group} (hz : GroupClear n z) (he : GroupClear n e)
    (hc : GroupClear n c) : GroupClear n (addBit z e c).1 ∧ GroupClear n (addBit z e c).2 :=
  ⟨(hz.xor he).xor hc, hz.and.or hc.and⟩

theorem addNibble_clear (hu : u.Clear n) (hv : v.Clear n) {r : Group} (hr : GroupClear n r) :
    (addNibble u v r).1.Clear n ∧ GroupClear n (addNibble u v r).2 := by
  obtain ⟨h0, c0⟩ := addBit_clear hu.b0 hv.b0 hr
  obtain ⟨h1, c1⟩ := addBit_clear hu.b1 hv.b1 c0
  obtain ⟨h2, c2⟩ := addBit_clear hu.b2 hv.b2 c1
  obtain ⟨h3, c3⟩ := addBit_clear hu.b3 hv.b3 c2
  exact ⟨⟨h0, h1, h2, h3⟩, c3⟩

theorem NibbleG.Clear.nibbleOf (hn : n ≤ maxLanes) (f : Nat → Nib) : (nibbleOf n f).Clear n :=
  ⟨.groupOf hn _, .groupOf hn _, .groupOf hn _, .groupOf hn _⟩

theorem NibbleG.Clear.nibbleBcast (hn : n ≤ maxLanes) (k : Nib) : (nibbleBcast n k).Clear n :=
  ⟨.bcast hn _, .bcast hn _, .bcast hn _, .bcast hn _⟩

end

/-! ## The stream generator -/

/-- Every group register of the stream generator holds zero in the lanes from `n` on. -/
structure StreamRegs.Clear (n : Nat) (st : StreamRegs) : Prop where
  sa : ∀ v ∈ st.sa, v.Clear n
  sb : ∀ v ∈ st.sb, v.Clear n
  x : st.x.Clear n
  y : st.y.Clear n
  z : st.z.Clear n
  d : st.d.Clear n
  e : st.e.Clear n
  f : st.f.Clear n
  r : GroupClear n st.r
  p : GroupClear n st.p
  q : GroupClear n st.q
  iA : ∀ v ∈ st.iA, v.Clear n
  iB : ∀ v ∈ st.iB, v.Clear n
  out1 : GroupClear n st.out1
  out0 : GroupClear n st.out0

section
variable {c : Build} {st : StreamRegs}

theorem StreamRegs.Clear.getAcc {n : Nat} (h : st.Clear n) (a : Acc) : (st.getAcc a).Clear n := by
  cases a with
  | x => exact h.x
  | y => exact h.y
  | z => exact h.z
  | d => exact h.d
  | e => exact h.e
  | f => exact h.f

theorem StreamRegs.Clear.regA {n : Nat} (h : st.Clear n) (m : Nat) : (st.regA m).Clear n :=
  getD_of_forall_mem h.sa .zero _

theorem StreamRegs.Clear.regB {n : Nat} (h : st.Clear n) (m : Nat) : (st.regB m).Clear n :=
  getD_of_forall_mem h.sb .zero _

/-- The leaves of an S-box are constants of the lanes the build has. -/
theorem StreamRegs.sbox_clear (c : Build) (st : StreamRegs) (k b : Nat) :
    GroupClear c.n (st.sbox c k b) :=
  .mux _ fun g hg => by
    obtain ⟨v, -, rfl⟩ := List.mem_map.mp hg
    exact .bcast (Build.n_le c) _

theorem StreamRegs.Clear.xorB {n : Nat} (h : st.Clear n) (bits : List (Nat × Nat)) :
    GroupClear n (st.xorB bits) := by
  have key (g : Group) (hg : GroupClear n g) :
      GroupClear n (bits.foldl (fun acc mb => acc ^^^ (st.regB mb.1).bit mb.2) g) := by
    induction bits generalizing g with
    | nil => exact hg
    | cons mb bits ih => exact ih _ (hg.xor ((h.regB mb.1).bit mb.2))
  exact key 0 .zero

theorem StreamRegs.Clear.extra {n : Nat} (h : st.Clear n) (t : Tables) : (st.extra t).Clear n :=
  ⟨h.xorB _, h.xorB _, h.xorB _, h.xorB _⟩

theorem StreamRegs.Clear.newA {n : Nat} (h : st.Clear n) (mode : StepMode) {aIn : NibbleG}
    (ha : aIn.Clear n) : (st.newA mode aIn).Clear n := by
  have hv := (h.regA 10).xor h.x
  cases mode with
  | generating => exact hv
  | initializing => exact (hv.xor h.d).xor ha

theorem StreamRegs.Clear.newB {n : Nat} (h : st.Clear n) (mode : StepMode) {bIn : NibbleG}
    (hb : bIn.Clear n) : (st.newB mode bIn).Clear n := by
  have hv := ((h.regB 7).xor (h.regB 10)).xor h.y
  cases mode with
  | generating => exact hv.rotl.sel _ hv
  | initializing => exact (hv.xor hb).rotl.sel _ (hv.xor hb)

/-- One internal step keeps the registers clear (R210). -/
theorem StreamRegs.Clear.step (h : st.Clear c.n) (mode : StepMode) {aIn bIn : NibbleG}
    (ha : aIn.Clear c.n) (hb : bIn.Clear c.n) : (st.step c mode aIn bIn).Clear c.n := by
  have hd := (h.e.xor h.z).xor (h.extra c.tables)
  obtain ⟨hsum, hcarry⟩ := addNibble_clear h.z h.e h.r
  have hs := StreamRegs.sbox_clear c st
  exact
    { sa := forall_mem_set h.sa (h.newA mode ha)
      sb := forall_mem_set h.sb (h.newB mode hb)
      x := ⟨hs _ _, hs _ _, hs _ _, hs _ _⟩
      y := ⟨hs _ _, hs _ _, hs _ _, hs _ _⟩
      z := ⟨hs _ _, hs _ _, hs _ _, hs _ _⟩
      d := hd
      e := h.f
      f := hsum.sel _ h.e
      r := hcarry.sel h.r
      p := hs _ _
      q := hs _ _
      iA := h.iA
      iB := h.iB
      out1 := hd.b3.xor hd.b2
      out0 := hd.b1.xor hd.b0 }

theorem StreamRegs.Clear.genStep (h : st.Clear c.n) : (st.genStep c).Clear c.n :=
  h.step _ .zero .zero

theorem StreamRegs.Clear.initStep (h : st.Clear c.n) (si : Vector Block maxLanes) (i : Nat)
    (jOdd : Bool) : (st.initStep c si i jOdd).Clear c.n :=
  h.step _ (.nibbleOf (Build.n_le c) _) (.nibbleOf (Build.n_le c) _)

theorem StreamRegs.Clear.advance {n : Nat} (h : st.Clear n) : st.advance.Clear n := by
  unfold StreamRegs.advance
  exact
  { sa := forall_mem_ofFn fun i => by split <;> exact h.sa _ (Vector.getElem_mem _)
    sb := forall_mem_ofFn fun i => by split <;> exact h.sb _ (Vector.getElem_mem _)
    x := h.x
    y := h.y
    z := h.z
    d := h.d
    e := h.e
    f := h.f
    r := h.r
    p := h.p
    q := h.q
    iA := h.iA
    iB := h.iB
    out1 := h.out1
    out0 := h.out0 }

theorem StreamRegs.Clear.load {n : Nat} (h : st.Clear n) : st.load.Clear n := by
  unfold StreamRegs.load
  exact
  { sa := forall_mem_ofFn fun i => by
      split
      · exact h.sa _ (Vector.getElem_mem _)
      · exact getD_of_forall_mem h.iA .zero _
    sb := forall_mem_ofFn fun i => by
      split
      · exact h.sb _ (Vector.getElem_mem _)
      · exact getD_of_forall_mem h.iB .zero _
    x := .zero
    y := .zero
    z := .zero
    d := .zero
    e := .zero
    f := .zero
    r := .zero
    p := .zero
    q := .zero
    iA := h.iA
    iB := h.iB
    out1 := h.out1
    out0 := h.out0 }

theorem StreamRegs.Clear.initIters (h : st.Clear c.n) (si : Vector Block maxLanes) (i k : Nat) :
    (st.initIters c si i k).Clear c.n := by
  induction k generalizing i st with
  | zero => exact h
  | succ k ih => exact ih ((((h.initStep ..).initStep ..).initStep ..).initStep ..) (i + 1)

theorem StreamRegs.Clear.init (h : st.Clear c.n) (si : Vector Block maxLanes) :
    (st.init c si).Clear c.n :=
  (h.initIters si 0 8).advance

theorem StreamRegs.Clear.genIters (h : st.Clear c.n) (k : Nat) : (st.genIters c k).1.Clear c.n := by
  induction k generalizing st with
  | zero => exact h
  | succ k ih => exact ih h.genStep.genStep.genStep.genStep

theorem StreamRegs.Clear.gen (h : st.Clear c.n) : (st.gen c).1.Clear c.n := (h.genIters 8).advance

theorem StreamRegs.Clear.loadKey (h : st.Clear c.n) (ks : KeySched) : (st.loadKey c.n ks).Clear c.n := by
  unfold StreamRegs.loadKey
  exact
  { sa := h.sa
    sb := h.sb
    x := h.x
    y := h.y
    z := h.z
    d := h.d
    e := h.e
    f := h.f
    r := h.r
    p := h.p
    q := h.q
    iA := forall_mem_ofFn fun _ => .nibbleBcast (Build.n_le c) _
    iB := forall_mem_ofFn fun _ => .nibbleBcast (Build.n_le c) _
    out1 := h.out1
    out0 := h.out0 }

theorem StreamRegs.Clear.reset (n : Nat) : StreamRegs.reset.Clear n where
  sa := forall_mem_replicate .zero
  sb := forall_mem_replicate .zero
  x := .zero
  y := .zero
  z := .zero
  d := .zero
  e := .zero
  f := .zero
  r := .zero
  p := .zero
  q := .zero
  iA := forall_mem_replicate .zero
  iB := forall_mem_replicate .zero
  out1 := .zero
  out0 := .zero

end

/-! ## The block cipher -/

/-- Every byte slice of the block cipher holds zero in the lanes from `n` on. -/
structure BlockRegs.Clear (n : Nat) (bk : BlockRegs) : Prop where
  kk : ∀ v ∈ bk.kk, SliceClear n v
  br : ∀ v ∈ bk.br, SliceClear n v

theorem SliceClear.zero (n : Nat) : SliceClear n (Vector.replicate maxLanes 0) := fun i _ => by simp

section
variable {c : Build} {bk : BlockRegs} {n : Nat}

theorem BlockRegs.Clear.setBank (h : bk.Clear n) (base : Fin 57) {v : Vector Slice 8}
    (hv : ∀ x ∈ v, SliceClear n x) : (bk.setBank base v).Clear n := by
  unfold BlockRegs.setBank
  refine ⟨h.kk, forall_mem_ofFn fun i => ?_⟩
  split
  · exact hv _ (Vector.getElem_mem _)
  · exact h.br _ (Vector.getElem_mem _)

theorem BlockRegs.Clear.bank (h : bk.Clear n) (base : Fin 57) : ∀ v ∈ bk.bank base, SliceClear n v :=
  forall_mem_ofFn fun _ => h.br _ (Vector.getElem_mem _)

theorem BlockRegs.Clear.withBoff (h : bk.Clear n) (b : Fin 57) : ({ bk with boff := b }).Clear n :=
  ⟨h.kk, h.br⟩

theorem BlockRegs.Clear.load (h : bk.Clear n) (k : Nat) (ib : Vector Block maxLanes) :
    (bk.load n k ib).Clear n :=
  (h.setBank _ (SliceClear.transposeInBytes k ib (h.bank _))).withBoff _

/-- A round writes five slots, each the result of a slice operation (R245). -/
theorem BlockRegs.Clear.round (h : bk.Clear c.n) (t : Fin 56) : (bk.round c t).Clear c.n := by
  unfold BlockRegs.round roundSlots
  exact ⟨h.kk, forall_mem_set (forall_mem_set (forall_mem_set (forall_mem_set (forall_mem_set h.br
    (.sliceOf _ _)) (.sliceOf _ _)) (.sliceOf _ _)) (.sliceOf _ _)) (.sliceOf _ _)⟩

theorem BlockRegs.Clear.rounds (h : bk.Clear c.n) (k : Nat) (hk : k ≤ 56) :
    (bk.rounds c k hk).Clear c.n := by
  induction k generalizing bk with
  | zero => exact h
  | succ k ih => exact ih (h.round _) (by omega)

theorem BlockRegs.Clear.decipher (h : bk.Clear c.n) : (bk.decipher c).Clear c.n := h.rounds 56 _

theorem BlockRegs.Clear.loadKey (h : bk.Clear n) (ks : KeySched) : (bk.loadKey n ks).Clear n := by
  unfold BlockRegs.loadKey
  exact ⟨forall_mem_ofFn fun _ => .sliceOf _ _, h.br⟩

theorem BlockRegs.Clear.reset (n : Nat) : BlockRegs.reset.Clear n :=
  ⟨forall_mem_replicate (.zero n), forall_mem_replicate (.zero n)⟩

end

/-! ## The transposer -/

/-- The planes and slices of the transposer hold zero in the lanes from `n` on. -/
structure PrimRegs.Clear (n : Nat) (pr : PrimRegs) : Prop where
  planes : ∀ g ∈ pr.planes, GroupClear n g
  slices : ∀ v ∈ pr.slices, SliceClear n v

theorem PrimRegs.Clear.transposeInBits {n : Nat} {pr : PrimRegs} (h : pr.Clear n)
    (hn : n ≤ maxLanes) (k : Nat) (m : Vector Block maxLanes) :
    ({ pr with planes := transposeInBits n k m pr.planes }).Clear n :=
  ⟨forall_mem_ofFn fun _ => .merge hn (Nat.min_le_right k n) (h.planes _ (Vector.getElem_mem _)),
    h.slices⟩

theorem PrimRegs.Clear.reset (n : Nat) : PrimRegs.reset.Clear n :=
  ⟨forall_mem_replicate .zero, forall_mem_replicate (.zero n)⟩

/-! ## The state -/

section
variable {s t : State}

/-- The invariant of the lanes, register file by register file. -/
theorem lanesWf_iff :
    LanesWf s ↔ s.st.Clear s.cfg.n ∧ s.bk.Clear s.cfg.n ∧ s.pr.Clear s.cfg.n := by
  constructor
  · intro h
    have nibble (v : NibbleG) (hv : ∀ b : Fin 4, GroupClear s.cfg.n (v.bit b)) : v.Clear s.cfg.n :=
      ⟨hv 0, hv 1, hv 2, hv 3⟩
    have entry {α : Type} {k : Nat} {P : α → Prop} {v : Vector α k} (hv : ∀ i : Fin k, P v[i]) :
        ∀ x ∈ v, P x := fun x hx => by
      obtain ⟨i, hi, rfl⟩ := Vector.mem_iff_getElem.mp hx
      exact hv ⟨i, hi⟩
    exact
      ⟨{ sa := entry fun i => nibble _ fun b => h.groups (.sa i b)
         sb := entry fun i => nibble _ fun b => h.groups (.sb i b)
         x := nibble _ fun b => h.groups (.acc .x b)
         y := nibble _ fun b => h.groups (.acc .y b)
         z := nibble _ fun b => h.groups (.acc .z b)
         d := nibble _ fun b => h.groups (.acc .d b)
         e := nibble _ fun b => h.groups (.acc .e b)
         f := nibble _ fun b => h.groups (.acc .f b)
         r := h.groups .carry
         p := h.groups .ctlP
         q := h.groups .ctlQ
         iA := entry fun i => nibble _ fun b => h.groups (.iA i b)
         iB := entry fun i => nibble _ fun b => h.groups (.iB i b)
         out1 := h.out1
         out0 := h.out0 },
        ⟨entry fun i => h.slices (.kk i), entry fun i => h.slices (.br i)⟩,
        ⟨entry fun i => h.groups (.plane i), entry fun i => h.slices (.slice i)⟩⟩
  · rintro ⟨hst, hbk, hpr⟩
    have groups (r : GroupReg) : GroupClear s.cfg.n (s.readGroup r) := by
      cases r with
      | sa slot bit => exact (hst.sa _ (Vector.getElem_mem _)).bit bit
      | sb slot bit => exact (hst.sb _ (Vector.getElem_mem _)).bit bit
      | acc a bit => exact (hst.getAcc a).bit bit
      | carry => exact hst.r
      | ctlP => exact hst.p
      | ctlQ => exact hst.q
      | iA m bit => exact (hst.iA _ (Vector.getElem_mem _)).bit bit
      | iB m bit => exact (hst.iB _ (Vector.getElem_mem _)).bit bit
      | plane m => exact hpr.planes _ (Vector.getElem_mem _)
    have slices (r : SliceReg) : SliceClear s.cfg.n (s.readSlice r) := by
      cases r with
      | kk i => exact hbk.kk _ (Vector.getElem_mem _)
      | br i => exact hbk.br _ (Vector.getElem_mem _)
      | slice j => exact hpr.slices _ (Vector.getElem_mem _)
    exact ⟨groups, slices, hst.out1, hst.out0⟩

theorem LanesWf.st (h : LanesWf s) : s.st.Clear s.cfg.n := (lanesWf_iff.mp h).1
theorem LanesWf.bk (h : LanesWf s) : s.bk.Clear s.cfg.n := (lanesWf_iff.mp h).2.1
theorem LanesWf.pr (h : LanesWf s) : s.pr.Clear s.cfg.n := (lanesWf_iff.mp h).2.2

/-- A state of the same build with clear registers. -/
theorem LanesWf.of_regs (s : State) {t : State} (cfg : t.cfg = s.cfg)
    (st : t.st.Clear s.cfg.n) (bk : t.bk.Clear s.cfg.n) (pr : t.pr.Clear s.cfg.n) : LanesWf t :=
  lanesWf_iff.mpr (cfg ▸ ⟨st, bk, pr⟩)

/-- The lanes do not depend on the rest of the state. -/
theorem LanesWf.congr (h : LanesWf s) (cfg : t.cfg = s.cfg) (st : t.st = s.st) (bk : t.bk = s.bk)
    (pr : t.pr = s.pr) : LanesWf t :=
  .of_regs s cfg (st ▸ h.st) (bk ▸ h.bk) (pr ▸ h.pr)

theorem LanesWf.writeGroup (h : LanesWf s) (d : GroupReg) {g : Group} (hg : GroupClear s.cfg.n g) :
    LanesWf (s.writeGroup d g) := by
  obtain ⟨-, hread, -, hout1, hout0, hslices, -⟩ := s.writeGroup_onlyGroup d g
  constructor <;> rw [State.writeGroup_cfg]
  · intro r
    by_cases hr : r = d
    · rw [hr, State.readGroup_writeGroup_self]; exact hg
    · rw [hread r hr]; exact h.groups r
  · intro r
    cases r with
    | kk i => simpa [State.readSlice] using h.slices (.kk i)
    | br i => simpa [State.readSlice] using h.slices (.br i)
    | slice j => simpa [State.readSlice, hslices] using h.slices (.slice j)
  · rw [hout1]; exact h.out1
  · rw [hout0]; exact h.out0

theorem LanesWf.writeSlice (h : LanesWf s) (d : SliceReg) {v : Slice} (hv : SliceClear s.cfg.n v) :
    LanesWf (s.writeSlice d v) := by
  unfold State.writeSlice
  cases d with
  | kk i => exact .of_regs s rfl h.st ⟨forall_mem_set h.bk.kk hv, h.bk.br⟩ h.pr
  | br i => exact .of_regs s rfl h.st ⟨h.bk.kk, forall_mem_set h.bk.br hv⟩ h.pr
  | slice j => exact .of_regs s rfl h.st h.bk ⟨h.pr.planes, forall_mem_set h.pr.slices hv⟩

theorem LanesWf.readBank (h : LanesWf s) (b : SliceBank) : ∀ v ∈ s.readBank b, SliceClear s.cfg.n v := by
  cases b with
  | slices => exact h.pr.slices
  | br base => exact h.bk.bank base

theorem LanesWf.writeBank (h : LanesWf s) (b : SliceBank) {v : Vector Slice 8}
    (hv : ∀ x ∈ v, SliceClear s.cfg.n x) : LanesWf (s.writeBank b v) := by
  unfold State.writeBank
  cases b with
  | slices => exact .of_regs s rfl h.st h.bk ⟨h.pr.planes, hv⟩
  | br base => exact .of_regs s rfl h.st (h.bk.setBank base hv) h.pr

/-- A bitwise operation that is clear on groups and on slices (R150). -/
theorem LanesWf.bitwise (h : LanesWf s) {f : Group → Group → Group} {g : Slice → Slice → Slice}
    (hf : ∀ a b, GroupClear s.cfg.n a → GroupClear s.cfg.n b → GroupClear s.cfg.n (f a b))
    (hg : ∀ a b, SliceClear s.cfg.n (g a b)) : LanesWf (s.bitwise f g) := by
  unfold State.bitwise
  split
  · exact h.writeGroup _ (hf _ _ (h.groups _) (h.groups _))
  · exact h.writeSlice _ (hg _ _)

theorem LanesWf.bcastKey (h : LanesWf s) (p : Parity) : LanesWf (s.bcastKey p) := by
  unfold State.bcastKey
  exact .of_regs s rfl (h.st.loadKey _) (h.bk.loadKey _) h.pr

theorem LanesWf.blockPass (h : LanesWf s) (c : Nat) : LanesWf (s.blockPass c) := by
  unfold State.blockPass
  exact .of_regs s rfl h.st (h.bk.load c s.wb.ib).decipher ⟨h.pr.planes, h.pr.slices⟩

theorem LanesWf.streamPass (h : LanesWf s) : LanesWf s.streamPass := by
  unfold State.streamPass
  exact .of_regs s rfl h.st.gen h.bk h.pr

/-- Work on slots that touches none of the lane registers keeps them. -/
theorem LanesWf.forSlots (h : LanesWf s) {f : State → Nat → State}
    (hf : ∀ s g, LanesWf s → LanesWf (f s g)) (g k : Nat) : LanesWf (State.forSlots f g k s) :=
  State.forSlots_induction (P := fun s t => LanesWf s → LanesWf t) (fun _ h => h)
    (fun _ _ _ h1 h2 h => h2 (h1 h)) hf g k s h

theorem LanesWf.continueSlot (s : State) (g : Nat) (h : LanesWf s) : LanesWf (s.continueSlot g) :=
  h.congr (by simp) (by simp) (by simp) (by simp)

theorem LanesWf.finishSlot (s : State) (g : Nat) (h : LanesWf s) : LanesWf (s.finishSlot g) :=
  h.congr (by simp) (by simp) (by simp) (by simp)

theorem LanesWf.drainSlot (s : State) (g : Nat) (h : LanesWf s) : LanesWf (s.drainSlot g) :=
  h.congr (by simp) (by simp) (by simp) (by simp)

theorem LanesWf.schedRound (h : LanesWf s) (it : Nat) : LanesWf (s.schedRound it) :=
  have hpass := (h.blockPass (s.sc.aliveBefore it)).streamPass
  (hpass.forSlots LanesWf.continueSlot _ _).forSlots LanesWf.finishSlot _ _

theorem LanesWf.schedDrain (h : LanesWf s) : LanesWf s.schedDrain :=
  (h.blockPass s.sc.alive[22]).forSlots LanesWf.drainSlot _ _

theorem LanesWf.round0 (h : LanesWf s) : LanesWf s.round0Seed.round0Load := by
  have hkey := h.bcastKey s.sc.gpar
  have hseed : LanesWf s.round0Seed := by
    unfold State.round0Seed
    exact .of_regs (s.bcastKey s.sc.gpar) rfl (hkey.st.load.init _) hkey.bk hkey.pr
  exact hseed.congr (by simp) (by simp) (by simp) (by simp)

/-- Every engine operation keeps the lanes that the build does not have at zero. -/
theorem LanesWf.exec_engine {i : Instr} (hi : isCommand i = false) (hs : LanesWf s)
    (h : exec i s = .next t) : LanesWf t := by
  have hn : s.cfg.n ≤ maxLanes := Build.n_le s.cfg
  cases i with
  | setKind | setCw | decrypt | csrRead => cases hi
  | gZero | gOnes | gBcast1 => cases h; exact hs.writeGroup _ (.bcast hn _)
  | gAnd => cases h; exact hs.bitwise (fun _ _ ha _ => ha.and) fun _ _ => .sliceOf _ _
  | gOr => cases h; exact hs.bitwise (fun _ _ ha hb => ha.or hb) fun _ _ => .sliceOf _ _
  | gXor => cases h; exact hs.bitwise (fun _ _ ha hb => ha.xor hb) fun _ _ => .sliceOf _ _
  | gNot => cases h; exact hs.bitwise (fun _ _ _ _ => .not hn _) fun _ _ => .sliceOf _ _
  | bBcast8 | bShl8 | bShr8 | bSbox => cases h; exact hs.writeSlice _ (.sliceOf _ _)
  | tInBits => cases h; exact .of_regs s rfl hs.st hs.bk (hs.pr.transposeInBits hn _ _)
  | tInBytes =>
    cases h; exact hs.writeBank _ (SliceClear.transposeInBytes _ _ (hs.readBank _))
  | tOutBits | tOutBytes => cases h; exact hs.congr (by simp) (by simp) (by simp) (by simp)
  | kStream | kBlock | bcStore | scSort | scAlive | scCompact =>
    cases h; exact hs.congr rfl rfl rfl rfl
  | kBcast p => cases h; exact hs.bcastKey p
  | sLoad => cases h; exact .of_regs s rfl hs.st.load hs.bk hs.pr
  | sAdvance => cases h; exact .of_regs s rfl hs.st.advance hs.bk hs.pr
  | sStep mode jOdd =>
    simp only [exec, execSStep] at h
    split at h
    · cases h
    · cases mode <;> cases h
      · exact .of_regs s rfl hs.st.genStep hs.bk hs.pr
      · exact .of_regs s rfl (hs.st.initStep ..) hs.bk hs.pr
  | sInit =>
    simp only [exec, execSInit] at h
    split at h <;> cases h
    exact .of_regs s rfl (hs.st.init _) hs.bk hs.pr
  | sGen =>
    simp only [exec, execSGen] at h
    split at h <;> cases h
    exact hs.streamPass
  | bcLoad => cases h; exact .of_regs s rfl hs.st (hs.bk.load ..) hs.pr
  | bcRound t =>
    simp only [exec, execBcRound] at h
    split at h <;> cases h
    exact .of_regs s rfl hs.st (hs.bk.round t) hs.pr
  | bcDecipher =>
    simp only [exec, execBcDecipher] at h
    split at h <;> cases h
    exact .of_regs s rfl hs.st hs.bk.decipher hs.pr
  | scScan =>
    simp only [exec, execScScan] at h
    split at h <;> cases h
    exact hs.congr rfl rfl rfl rfl
  | scRound0 =>
    simp only [exec, execScRound0] at h
    split at h <;> cases h
    exact hs.round0
  | scRound it =>
    simp only [exec, execScRound] at h
    split at h
    · cases h
    split at h <;> cases h
    exact hs.schedRound _
  | scRound23 =>
    simp only [exec, execScRound23] at h
    split at h <;> cases h
    exact hs.schedDrain
  | pDesNcb | pAesEcb | pAes128Ecb =>
    obtain ⟨-, rfl⟩ := State.packetOp_next h
    exact hs.congr rfl rfl rfl rfl

theorem LanesWf.hardReset : LanesWf s.hardReset :=
  .of_regs s rfl (.reset _) (.reset _) (.reset _)

end

/-- Settles O18: engine operations keep the lanes clear, reset clears them, and the other effects of
`step_effect` touch no lane register. -/
theorem everyStepKeepsUnusedLanes : Obligations.EveryStepKeepsUnusedLanes := by
  intro s t hs h
  cases step_effect h with
  | @engine _ rest _ hi run =>
    have hs' : LanesWf { s with uops := rest } := hs.congr rfl rfl rfl rfl
    exact hs'.exec_engine hi run
  | quiet hq | answer hq => exact hs.congr hq.frame.cfg hq.st hq.bk hq.pr
  | fault hq | completionFault hq =>
    apply hs.congr <;> simp [hq.frame.cfg, hq.st, hq.bk, hq.pr]
  | finish | setKind | issue | take => exact hs.congr rfl rfl rfl rfl
  | setCw => apply hs.congr <;> simp
  | reset => exact .hardReset

end Sys2Proof.Machine
end

section
/-!
CSR_READ, the fields of STATUS (spec/10_state.md R41, R42), fault entry by a command (R396) and the host's
moves at the pins (R44, R440).
-/

namespace Sys2Proof.Machine

/-! ## Fault entry by a command -/

/-- Everything fault entry leaves alone (R396). -/
theorem State.raiseFault_contextKept (s : State) (c : Status) (opc : Byte) :
    ContextKept s (s.raiseFault c opc) := by
  unfold ContextKept
  simp

/-- Without a DECRYPT in flight, fault entry drops nothing. -/
theorem State.raiseFault_not_busy (s : State) (c : Status) (opc : Byte) (hb : s.busy = false) :
    s.raiseFault c opc = (s.recordFault (statusCode c) opc).respond opc c [] := by
  simp [State.raiseFault, hb]

/-- With a DECRYPT in flight, fault entry drops it (R356). -/
theorem State.raiseFault_busy_eq (s : State) (c : Status) (opc : Byte) (hb : s.busy = true) :
    s.raiseFault c opc = (s.recordFault (statusCode c) opc).dropDecrypt.respond opc c [] := by
  simp [State.raiseFault, hb]

/-- Fault entry by a host command is what R396 says. -/
theorem State.raiseFault_taken (s : State) (c : Status) (opc : Byte) :
    FaultTaken (statusCode c) opc s (s.raiseFault c opc) := by
  refine ⟨by simp, by simp, by simp, by simp, by simp, s.raiseFault_contextKept c opc, by simp,
    by simp, fun hb => ?_, fun hb => ?_, fun a ha => ?_⟩
  · rw [s.raiseFault_not_busy c opc hb]; simp
  · rw [s.raiseFault_busy_eq c opc hb]; simp
  · rw [State.raiseFault_mem]
    split
    · next hb => rw [get_scrambleRanges, if_neg fun hr => ha ⟨hb, hr⟩]
    · rfl

/-! ## CSR_READ -/

theorem State.csrValue_zero (s : State) : s.csrValue 0 = some (BitVec.ofNat 32 s.cfg.n) := rfl
theorem State.csrValue_one (s : State) : s.csrValue 1 = some s.cfg.batchCap.val := rfl
theorem State.csrValue_two (s : State) : s.csrValue 2 = some s.status := rfl
theorem State.csrValue_three (s : State) : s.csrValue 3 = some s.diagMalformed := rfl
theorem State.csrValue_four (s : State) : s.csrValue 4 = some s.lastAdvanced := rfl

/-- The indices from 5 on are unmapped (R41). -/
theorem State.csrValue_eq_none (s : State) {index : BitVec 8} (h : 5 ≤ index.toNat) :
    s.csrValue index = none := by
  unfold State.csrValue
  split
  case h_6 => rfl
  all_goals omega

/-- The mapped indices (R41). -/
theorem csr_index_cases {index : BitVec 8} (h : index.toNat < 5) :
    index = 0 ∨ index = 1 ∨ index = 2 ∨ index = 3 ∨ index = 4 := by
  revert index; decide

/-- CSR LANES holds the lane count; it fits the 32-bit register (R10, R41). -/
theorem lanes_toNat_csr (l : Lanes) : (BitVec.ofNat 32 l.toNat).toNat = l.toNat := by
  cases l <;> rfl

/-- The value of a mapped CSR: each index has its register (R41), and CAP_BATCH is positive (R11). -/
theorem State.csrValue_mapped (s : State) {index : BitVec 8} (h : index.toNat < 5) :
    ∃ v, s.csrValue index = some v
      ∧ (index = 0 → v.toNat = s.cfg.lanes.toNat)
      ∧ (index = 1 → v = s.cfg.batchCap.val ∧ 0 < v.toNat)
      ∧ (index = 2 → v = s.status) ∧ (index = 3 → v = s.diagMalformed)
      ∧ (index = 4 → v = s.lastAdvanced) := by
  rcases csr_index_cases h with rfl | rfl | rfl | rfl | rfl
  · exact ⟨_, s.csrValue_zero, fun _ => lanes_toNat_csr _, nofun, nofun, nofun, nofun⟩
  · have hcap : 0 < s.cfg.batchCap.val.toNat := by
      have := s.cfg.batchCap.property
      bv_omega
    exact ⟨_, s.csrValue_one, nofun, fun _ => ⟨rfl, hcap⟩, nofun, nofun, nofun⟩
  · exact ⟨_, s.csrValue_two, nofun, nofun, fun _ => rfl, nofun, nofun⟩
  · exact ⟨_, s.csrValue_three, nofun, nofun, nofun, fun _ => rfl, nofun⟩
  · exact ⟨_, s.csrValue_four, nofun, nofun, nofun, nofun, fun _ => rfl⟩

/-- A reserved field or an unmapped index is BAD_OPERAND (R345, R391). -/
theorem execCsrRead_bad {s : State} {rsvd : BitVec 16} {index : BitVec 8}
    (h : rsvd ≠ 0 ∨ 5 ≤ index.toNat) :
    execCsrRead rsvd index s = .next (s.raiseFault .badOperand opcCsrRead) := by
  unfold execCsrRead
  split
  · rfl
  · next hr =>
    rw [s.csrValue_eq_none (h.resolve_left hr)]

theorem execCsrRead_mapped {s : State} {index : BitVec 8} {v : Word} (h : s.csrValue index = some v) :
    execCsrRead 0 index s = .next (s.respond opcCsrRead .ok [v]) := by
  unfold execCsrRead
  rw [if_neg (by simp), h]

/-! ## STATUS -/

/-- A field of a concatenation above its low part. -/
theorem extractLsb'_append_high {v w : Nat} (a : BitVec v) (b : BitVec w) {start : Nat} (len : Nat)
    (h : w ≤ start) : (a ++ b).extractLsb' start len = a.extractLsb' (start - w) len := by
  ext i hi
  simp only [BitVec.getElem_extractLsb', BitVec.getLsbD_append]
  rw [if_neg (by omega)]
  congr 1
  omega

/-- The low part of a concatenation. -/
theorem extractLsb'_append_low {v w : Nat} (a : BitVec v) (b : BitVec w) :
    (a ++ b).extractLsb' 0 w = b := by
  ext i hi
  simp only [BitVec.getElem_extractLsb', BitVec.getLsbD_append, Nat.zero_add, if_pos hi]
  exact BitVec.getLsbD_eq_getElem hi

/-- The fields of a word made as R42 lays out STATUS. -/
theorem status_word_fields (opcode code : Byte) (kind : BitVec 3) (odd even faulted busy : Bool)
    (w : BitVec (8 + 8 + 8 + 1 + 3 + 1 + 1 + 1 + 1))
    (hw : w = 0#8 ++ opcode ++ code ++ 0#1 ++ kind ++ BitVec.ofBool odd ++ BitVec.ofBool even
      ++ BitVec.ofBool faulted ++ BitVec.ofBool busy) :
    w.getLsbD 0 = busy ∧ w.getLsbD 1 = faulted ∧ w.getLsbD 2 = even ∧ w.getLsbD 3 = odd
      ∧ w.extractLsb' 4 3 = kind ∧ w.getLsbD 7 = false
      ∧ w.extractLsb' 8 8 = code ∧ w.extractLsb' 16 8 = opcode ∧ w.extractLsb' 24 8 = 0 := by
  subst hw
  simp only [BitVec.getLsbD_append, extractLsb'_append_high, extractLsb'_append_low,
    Nat.reduceLeDiff, Nat.reduceSub]
  simp

theorem status_fields (s : State) :
    s.status.getLsbD 0 = s.busy ∧ s.status.getLsbD 1 = s.faulted
      ∧ s.status.getLsbD 2 = s.keyValid.even ∧ s.status.getLsbD 3 = s.keyValid.odd
      ∧ s.status.extractLsb' 4 3 = s.kind.code ∧ s.status.getLsbD 7 = false
      ∧ s.status.extractLsb' 8 8 = s.faultCode ∧ s.status.extractLsb' 16 8 = s.faultOpcode
      ∧ s.status.extractLsb' 24 8 = 0 :=
  status_word_fields _ _ _ _ _ _ _ s.status rfl

/-- Settles O10: a bad operand faults, a mapped index is answered with its CSR. -/
theorem csrReadEffect : Obligations.CsrReadEffect := by
  refine ⟨fun s rsvd index => ?_, status_fields⟩
  by_cases h : rsvd ≠ 0 ∨ 5 ≤ index.toNat
  · refine ⟨_, execCsrRead_bad h, ?_⟩
    rw [if_pos h]
    exact s.raiseFault_taken .badOperand opcCsrRead
  · obtain ⟨hr, hi⟩ := not_or.mp h
    obtain rfl : rsvd = 0 := not_not.mp hr
    obtain ⟨v, hv, hvalue⟩ := s.csrValue_mapped (Nat.lt_of_not_le hi)
    refine ⟨_, execCsrRead_mapped hv, ?_⟩
    rw [if_neg h]
    exact ⟨v, rfl, hvalue⟩

/-! ## The host's moves -/

/-- Where the engine has nothing to do and no whole command waits, the host moves (R454). -/
theorem step_eq_hostStep {s : State} (uops : s.uops = []) (phase : s.phase = .idle)
    (due : s.completionDue = false) (head : s.portHead = .incomplete) : step s = s.hostStep := by
  simp [step, uops, phase, due, head]

/-- Settles O25: `step` is `hostStep` there, one host action in each clause. -/
theorem hostActions : Obligations.HostActions := by
  intro s rest uops phase due head
  rw [step_eq_hostStep uops phase due head]
  refine ⟨fun ws host => ?_, fun r queue host resp => ?_, fun a v host => ?_⟩
  · simp [State.hostStep, host]
  · simp [State.hostStep, host, resp]
  · have hstep : s.hostStep = if s.busy && inRanges s.pending.ranges a.toNat
        then .refused (.hostHazard a)
        else .next { s with host := rest, mem := s.mem.set a.toNat v, fireIn := s.fireIn - 1 } := by
      simp [State.hostStep, host]
    split
    · next hz => rw [hstep, hz.1, hz.2]; rfl
    · next hz =>
      rw [hstep, if_neg (by simpa using hz)]
      exact ⟨_, rfl, rfl, Memory.get_set_self _ _ _ a.isLt, fun x hx => Memory.get_set_ne _ _ hx⟩

end Sys2Proof.Machine
end

section
/-!
The encoding (spec/30_encoding.md): the fields of a word, the decoder's branches, one equation for each
opcode or UOP, and from them that decoding and encoding undo each other.
-/

namespace Sys2Proof

/-! ## The fields of a word -/

section
variable {u v l : Nat} (a : BitVec u) (b : BitVec v) (c : BitVec l)

/-- The low field of a word of three. -/
theorem lowField_append : (a ++ b ++ c).extractLsb' 0 l = c := by
  rw [BitVec.extractLsb'_append_eq_of_add_le (by omega), BitVec.extractLsb'_eq_self]

/-- The middle field of a word of three. -/
theorem midField_append : (a ++ b ++ c).extractLsb' l v = b := by
  rw [BitVec.extractLsb'_append_eq_of_le le_rfl, Nat.sub_self,
    BitVec.extractLsb'_append_eq_of_add_le (by omega), BitVec.extractLsb'_eq_self]

/-- The high field of a word of three. -/
theorem highField_append : (a ++ b ++ c).extractLsb' (l + v) u = a := by
  rw [BitVec.extractLsb'_append_eq_of_le (Nat.le_add_right l v), Nat.add_sub_cancel_left,
    BitVec.extractLsb'_append_eq_left]

end

/-- A word of two fields is its high field and its low field. -/
theorem append_fields {u v : Nat} (w : BitVec (u + v)) :
    w.extractLsb' v u ++ w.extractLsb' 0 v = w := by
  rw [BitVec.extractLsb'_append_extractLsb'_eq_extractLsb' (Nat.zero_add v).symm,
    BitVec.extractLsb'_eq_self]

/-- A command word's opcode as a number (R111). -/
theorem toNat_opcode (w : Word) : (w.extractLsb' 24 8).toNat = w.toNat / 2 ^ 24 := by
  rw [BitVec.extractLsb'_toNat, Nat.shiftRight_eq_div_pow]
  omega

/-- A command word's opcode from its number. -/
theorem opcode_eq_ofNat {w : Word} {n : Nat} (h : w.toNat / 2 ^ 24 = n) :
    w.extractLsb' 24 8 = BitVec.ofNat 8 n := by
  rw [← h, ← toNat_opcode, BitVec.ofNat_toNat, BitVec.setWidth_eq]

/-- How many keys a SET_CW word brings, from its two bits (R118). -/
theorem pmaskCount_word (w : Word) :
    pmaskCount (w.extractLsb' 0 2) = w.toNat % 2 + w.toNat / 2 % 2 := by
  simp only [pmaskCount, BitVec.getLsbD, Nat.toNat_testBit, BitVec.extractLsb'_toNat]
  omega

@[simp] theorem uword_uop (uop imm : BitVec 8) : (uword uop imm).extractLsb' 8 8 = uop :=
  BitVec.extractLsb'_append_eq_left

@[simp] theorem uword_imm (uop imm : BitVec 8) : (uword uop imm).extractLsb' 0 8 = imm :=
  BitVec.extractLsb'_append_eq_right

/-- An engine operation word is its UOP and its IMM (R126). -/
theorem uword_fields (w : UWord) : uword (w.extractLsb' 8 8) (w.extractLsb' 0 8) = w :=
  append_fields (u := 8) (v := 8) w

theorem toNat_uop (w : UWord) : (w.extractLsb' 8 8).toNat = w.toNat / 256 := by
  rw [BitVec.extractLsb'_toNat, Nat.shiftRight_eq_div_pow]
  omega

theorem toNat_imm (w : UWord) : (w.extractLsb' 0 8).toNat = w.toNat % 256 := by
  rw [BitVec.extractLsb'_toNat, Nat.shiftRight_zero]

/-! ## The branches of the engine's decoder (R127, R128) -/

section
variable {imm : BitVec 8} {j : Instr}

theorem plainOp_eq_some {i : Instr} : plainOp imm i = some j ↔ imm = 0 ∧ i = j := by
  simp [plainOp]

theorem bitOp_eq_some {i : Bool → Instr} :
    bitOp imm i = some j ↔ ∃ v : Bool, imm = (if v then 1 else 0) ∧ i v = j := by
  have himm : imm.extractLsb' 1 7 = 0 ↔ imm = if imm.getLsbD 0 then 1 else 0 := by
    revert imm; decide
  have hbit (v : Bool) : (if v then 1 else 0 : BitVec 8).getLsbD 0 = v := by cases v <;> rfl
  rw [bitOp, Option.ite_none_right_eq_some, himm, Option.some_inj]
  constructor
  · exact fun ⟨h, hj⟩ => ⟨_, h, hj⟩
  · rintro ⟨v, rfl, rfl⟩
    rw [hbit]
    exact ⟨rfl, rfl⟩

theorem shiftOp_eq_some {i : BitVec 3 → Instr} :
    shiftOp imm i = some j ↔ ∃ k : BitVec 3, imm = 0#5 ++ k ∧ i k = j := by
  rw [shiftOp, Option.ite_none_right_eq_some, Option.some_inj]
  constructor
  · rintro ⟨h, hj⟩
    refine ⟨_, ?_, hj⟩
    calc imm = imm.extractLsb' 3 5 ++ imm.extractLsb' 0 3 :=
          (append_fields (u := 5) (v := 3) imm).symm
      _ = 0#5 ++ imm.extractLsb' 0 3 := by rw [h]; rfl
  · rintro ⟨k, rfl, rfl⟩
    exact ⟨BitVec.extractLsb'_append_eq_left, by rw [BitVec.extractLsb'_append_eq_right]⟩

end

/-- The IMM of an S_STEP is its mode and its parity of j (R127). -/
theorem encode_sStep_of_imm {imm : BitVec 8} (h : imm.extractLsb' 2 6 = 0) :
    encode (.sStep (if imm.getLsbD 0 then .initializing else .generating) (imm.getLsbD 1))
      = .engine (uword 0x31 imm) := by
  revert imm; decide

/-- A word that decodes is the word its instruction encodes to (R126 to R128). -/
theorem encode_of_decodeEngine {w : UWord} {i : Instr} (h : decodeEngine w = some i) :
    encode i = .engine w := by
  have huop : w.extractLsb' 8 8 = BitVec.ofNat 8 (w.extractLsb' 8 8).toNat := by
    rw [BitVec.ofNat_toNat, BitVec.setWidth_eq]
  rw [← uword_fields w, huop]
  unfold decodeEngine at h
  generalize (w.extractLsb' 8 8).toNat = uop, w.extractLsb' 0 8 = imm at h ⊢
  dsimp only at h
  split at h
  case h_7 => -- G_BCAST1
    obtain ⟨v, rfl, rfl⟩ := bitOp_eq_some.mp h
    rfl
  case h_8 => cases h; rfl -- B_BCAST8
  case h_9 | h_10 => -- B_SHL8, B_SHR8
    obtain ⟨k, rfl, rfl⟩ := shiftOp_eq_some.mp h
    rfl
  case h_18 => -- K_BCAST
    obtain ⟨v, rfl, rfl⟩ := bitOp_eq_some.mp h
    cases v <;> rfl
  case h_20 => -- S_STEP
    split at h <;> cases h
    exact encode_sStep_of_imm ‹_›
  case h_25 | h_32 => -- BC_ROUND, SC_ROUND
    split at h <;> cases h
    rw [encode, BitVec.ofNat_toNat, BitVec.setWidth_eq]
    rfl
  case h_38 => cases h -- no row
  all_goals
    obtain ⟨rfl, rfl⟩ := plainOp_eq_some.mp h
    rfl

/-- The word of an engine operation decodes to it (R126, R127). -/
theorem decodeEngine_of_encode {w : UWord} {i : Instr} (h : encode i = .engine w) :
    decodeEngine w = some i := by
  cases i with
  | setKind | setCw | decrypt | csrRead => cases h
  | gBcast1 v => cases v <;> cases h <;> rfl
  | kBcast p => cases p <;> cases h <;> rfl
  | sStep mode jOdd => cases mode <;> cases jOdd <;> cases h <;> rfl
  | bBcast8 c => cases h; simp [decodeEngine]
  | bShl8 k | bShr8 k =>
    cases h
    simpa [decodeEngine] using shiftOp_eq_some.mpr ⟨k, rfl, rfl⟩
  | bcRound t =>
    cases h
    have ht : t.val % 256 = t.val := by omega
    simp [decodeEngine, ht]
  | scRound it =>
    cases h
    have ht : it.val % 256 = it.val := by omega
    simp [decodeEngine, ht, it.property.1, it.property.2]
  | _ => cases h; rfl

/-- Settles O3, by the decoder's branches. -/
theorem encodeOfDecodeEngine : Obligations.EncodeOfDecodeEngine :=
  fun _ _ => encode_of_decodeEngine

/-! ## The reserved engine words (R127, R128) -/

section
variable {imm : BitVec 8}

/-- The bits from `l` up are zero. -/
theorem highBits_eq_zero_iff {l k : Nat} (h : l + k = 8) :
    imm.extractLsb' l k = 0 ↔ imm.toNat < 2 ^ l := by
  have hlt : imm.toNat / 2 ^ l < 2 ^ k := by
    rw [Nat.div_lt_iff_lt_mul (Nat.two_pow_pos l), Nat.mul_comm, ← Nat.pow_add, h]
    exact imm.isLt
  rw [BitVec.toNat_eq, BitVec.extractLsb'_toNat, Nat.shiftRight_eq_div_pow, Nat.mod_eq_of_lt hlt]
  exact Nat.div_eq_zero_iff_lt (Nat.two_pow_pos l)

theorem plainOp_isSome {i : Instr} : (plainOp imm i).isSome = true ↔ imm.toNat = 0 := by
  rw [plainOp, Option.isSome_ite, BitVec.toNat_eq]
  rfl

theorem bitOp_isSome {i : Bool → Instr} : (bitOp imm i).isSome = true ↔ imm.toNat ≤ 1 := by
  rw [bitOp, Option.isSome_ite, highBits_eq_zero_iff rfl]
  omega

theorem shiftOp_isSome {i : BitVec 3 → Instr} :
    (shiftOp imm i).isSome = true ↔ imm.toNat ≤ 7 := by
  rw [shiftOp, Option.isSome_ite, highBits_eq_zero_iff rfl]
  omega

end

/-- The step with a reserved word at the sequencer (log 27). -/
theorem Machine.step_reservedEngineOp {s : Machine.State} {w : UWord} {rest : List UWord}
    (uops : s.uops = w :: rest) (reserved : decodeEngine w = none) :
    Machine.step s = .refused (.reservedEngineOp w) := by
  simp [Machine.step, uops, reserved]

/-- Settles O4: each UOP of the map admits the IMMs of its row, and another UOP admits none. -/
theorem reservedEngineWords : Obligations.ReservedEngineWords := by
  refine ⟨fun w => ?_, fun _ _ _ => Machine.step_reservedEngineOp⟩
  dsimp only
  rw [← toNat_uop, ← toNat_imm]
  unfold decodeEngine
  generalize (w.extractLsb' 8 8).toNat = uop, w.extractLsb' 0 8 = imm
  dsimp only
  split
  case h_20 => -- S_STEP
    rw [Option.isSome_ite, highBits_eq_zero_iff rfl]
    simp [Nat.lt_succ_iff]
  case h_25 => -- BC_ROUND
    simp [Option.isSome_dite, Nat.lt_succ_iff]
  case h_32 => -- SC_ROUND
    simp [Option.isSome_dite]
  case h_38 => simp_all -- no row
  all_goals simp [plainOp_isSome, bitOp_isSome, shiftOp_isSome]

/-! ## Commands (R111 to R118) -/

section
variable {kw : Nat} {w : Word} {ops : List Word}

theorem decodeCommand_setKind (hop : w.extractLsb' 24 8 = 1#8) :
    decodeCommand kw (w :: ops)
      = .instr (.setKind (w.extractLsb' 3 21) (w.extractLsb' 0 3)) 1 := by
  simp [decodeCommand, hop]

theorem decodeCommand_setCw (hop : w.extractLsb' 24 8 = 2#8) :
    decodeCommand kw (w :: ops) =
      if ops.length < pmaskCount (w.extractLsb' 0 2) * kw then .incomplete
      else .instr (.setCw (w.extractLsb' 2 22) (w.extractLsb' 0 2)
          (ops.take (pmaskCount (w.extractLsb' 0 2) * kw)))
        (1 + pmaskCount (w.extractLsb' 0 2) * kw) := by
  simp [decodeCommand, hop]

theorem decodeCommand_decrypt_missing (hop : w.extractLsb' 24 8 = 3#8)
    (missing : takeRanges (w.extractLsb' 0 16).toNat ops = none) :
    decodeCommand kw (w :: ops) = .incomplete := by
  simp only [decodeCommand, hop, missing]
  rfl

theorem decodeCommand_decrypt {ranges : List Range} (hop : w.extractLsb' 24 8 = 3#8)
    (hr : takeRanges (w.extractLsb' 0 16).toNat ops = some ranges) :
    decodeCommand kw (w :: ops)
      = .instr (.decrypt (w.extractLsb' 16 8) ranges) (1 + 4 * (w.extractLsb' 0 16).toNat) := by
  simp only [decodeCommand, hop, hr]
  rfl

theorem decodeCommand_csrRead (hop : w.extractLsb' 24 8 = 4#8) :
    decodeCommand kw (w :: ops)
      = .instr (.csrRead (w.extractLsb' 8 16) (w.extractLsb' 0 8)) 1 := by
  simp [decodeCommand, hop]

theorem decodeCommand_reserved (hop : ¬(1 ≤ w.toNat / 2 ^ 24 ∧ w.toNat / 2 ^ 24 ≤ 4)) :
    decodeCommand kw (w :: ops) = .reservedOpcode (w.extractLsb' 24 8) := by
  rw [← toNat_opcode] at hop
  have hne (n : Nat) (h : 1 ≤ n ∧ n ≤ 4) : w.extractLsb' 24 8 ≠ BitVec.ofNat 8 n := by
    intro heq
    rw [heq, BitVec.toNat_ofNat, Nat.mod_eq_of_lt (by omega)] at hop
    exact hop h
  simp [decodeCommand, hne 1, hne 2, hne 3, hne 4]

end

/-- The ranges of a DECRYPT are read when four words for each have arrived (R115). -/
theorem takeRanges_isSome {n : Nat} {ws : List Word} :
    (takeRanges n ws).isSome = true ↔ 4 * n ≤ ws.length := by
  induction n, ws using takeRanges.induct with
  | case1 => simp [takeRanges]
  | case2 n startLo startHi stopLo stopHi rest ih =>
    simp only [takeRanges, Option.isSome_map, ih, List.length_cons]
    omega
  | case3 n ws short =>
    have hlen : ws.length < 4 := by
      match ws, short with
      | [], _ | [_], _ | [_, _], _ | [_, _, _], _ => simp
      | a :: b :: c :: d :: rest, short => exact absurd rfl (short a b c d rest)
    have hnone : takeRanges (n + 1) ws = none := by simp [takeRanges]
    rw [hnone]
    exact iff_of_false Bool.false_ne_true (by omega)

theorem takeRanges_encodeRange (ranges : List Range) :
    takeRanges ranges.length (ranges.flatMap encodeRange) = some ranges := by
  induction ranges with
  | nil => rfl
  | cons r ranges ih =>
    simp only [List.length_cons, List.flatMap_cons, encodeRange, List.cons_append, List.nil_append,
      takeRanges, ih, Option.map_some]
    rw [append_fields (u := 32) (v := 32) r.start, append_fields (u := 32) (v := 32) r.stop]

theorem length_encodeRanges (ranges : List Range) :
    (ranges.flatMap encodeRange).length = 4 * ranges.length := by
  simp [List.length_flatMap, encodeRange, Nat.mul_comm]

/-! ## Decode of encode -/

theorem decode_encode_setKind (kw : Nat) (rsvd : BitVec 21) (k : BitVec 3) :
    decode kw (encode (.setKind rsvd k)) = some (.setKind rsvd k) := by
  rw [encode, decode, decodeCommand_setKind (highField_append 1#8 rsvd k), midField_append,
    lowField_append]
  rfl

theorem decode_encode_setCw {kw : Nat} {rsvd : BitVec 22} {pmask : BitVec 2} {keys : List Word}
    (hkeys : keys.length = pmaskCount pmask * kw) :
    decode kw (encode (.setCw rsvd pmask keys)) = some (.setCw rsvd pmask keys) := by
  rw [encode, decode, decodeCommand_setCw (highField_append 2#8 rsvd pmask), midField_append,
    lowField_append, ← hkeys, if_neg (lt_irrefl _), List.take_length]
  simp [Nat.add_comm]

theorem decode_encode_decrypt {kw : Nat} {rsvd : BitVec 8} {ranges : List Range}
    (hlen : ranges.length < 2 ^ 16) :
    decode kw (encode (.decrypt rsvd ranges)) = some (.decrypt rsvd ranges) := by
  have hnr : (BitVec.ofNat 16 ranges.length).toNat = ranges.length := Nat.mod_eq_of_lt hlen
  have hlow : ((3#8 ++ rsvd ++ BitVec.ofNat 16 ranges.length).extractLsb' 0 16).toNat
      = ranges.length := by rw [lowField_append, hnr]
  rw [encode, decode, decodeCommand_decrypt (highField_append 3#8 rsvd _)
    (by rw [hlow]; exact takeRanges_encodeRange ranges), hlow, midField_append,
    List.length_cons, length_encodeRanges, Nat.add_comm]
  simp

theorem decode_encode_csrRead (kw : Nat) (rsvd : BitVec 16) (index : BitVec 8) :
    decode kw (encode (.csrRead rsvd index)) = some (.csrRead rsvd index) := by
  rw [encode, decode, decodeCommand_csrRead (highField_append 4#8 rsvd index), midField_append,
    lowField_append]
  rfl

/-- Every instruction but the four commands has a word (R126). -/
theorem exists_engine_word {i : Instr} (h : Machine.isCommand i = false) :
    ∃ w, encode i = .engine w := by
  cases i with
  | setKind | setCw | decrypt | csrRead => cases h
  | _ => exact ⟨_, rfl⟩

/-- Settles O2: each command by the fields of its first word, an engine operation by its word. -/
theorem decodeOfEncode : Obligations.DecodeOfEncode := by
  intro kw i hwf
  cases hi : Machine.isCommand i with
  | false =>
    obtain ⟨w, hw⟩ := exists_engine_word hi
    rw [hw]
    exact decodeEngine_of_encode hw
  | true =>
    cases i with
    | setKind rsvd k => exact decode_encode_setKind kw rsvd k
    | setCw rsvd pmask keys => exact decode_encode_setCw (by simpa [Instr.wf] using hwf)
    | decrypt rsvd ranges => exact decode_encode_decrypt (by simpa [Instr.wf] using hwf)
    | csrRead rsvd index => exact decode_encode_csrRead kw rsvd index
    | _ => cases hi

end Sys2Proof
end

section
/-!
The length of the command at the port (spec/30_encoding.md R118), the response that ends a completion
(R123; spec/45_commands.md R352, R353), and the examples of R132.
-/

namespace Sys2Proof.Machine

/-! ## The command at the head of the port (R118) -/

/-- R118's count of a SET_CW's words, its cases KIND = NONE and PMASK = 0 being no exception. -/
theorem setCw_length_eq (s : State) (w : Word) :
    (if s.kind = .none ∨ w.toNat % 4 = 0 then 1
      else 1 + (w.toNat % 2 + w.toNat / 2 % 2) * (keylen s.cfg s.kind / 4))
      = 1 + pmaskCount (w.extractLsb' 0 2) * s.keyWords := by
  rw [pmaskCount_word, State.keyWords]
  split
  · next hnone =>
    rcases hnone with hkind | hmask
    · rw [hkind, keylen, Nat.zero_div, Nat.mul_zero]
    · rw [show w.toNat % 2 + w.toNat / 2 % 2 = 0 by omega, Nat.zero_mul]
  · rfl

section
variable {kw : Nat} {w : Word} {ops : List Word}

/-- A SET_CW is complete when its key words have arrived. -/
theorem decodeCommand_setCw_length (hop : w.extractLsb' 24 8 = 2#8) :
    let length := 1 + pmaskCount (w.extractLsb' 0 2) * kw
    if length ≤ (w :: ops).length then ∃ i, decodeCommand kw (w :: ops) = .instr i length
    else decodeCommand kw (w :: ops) = .incomplete := by
  dsimp only
  rw [decodeCommand_setCw hop, List.length_cons]
  split
  · rw [if_neg (by omega)]
    exact ⟨_, rfl⟩
  · rw [if_pos (by omega)]

/-- A DECRYPT is complete when its ranges' words have arrived. -/
theorem decodeCommand_decrypt_length (hop : w.extractLsb' 24 8 = 3#8) :
    let length := 1 + 4 * (w.extractLsb' 0 16).toNat
    if length ≤ (w :: ops).length then ∃ i, decodeCommand kw (w :: ops) = .instr i length
    else decodeCommand kw (w :: ops) = .incomplete := by
  dsimp only
  have arrived : 1 + 4 * (w.extractLsb' 0 16).toNat ≤ (w :: ops).length
      ↔ (takeRanges (w.extractLsb' 0 16).toNat ops).isSome = true := by
    rw [takeRanges_isSome, List.length_cons]
    omega
  cases hr : takeRanges (w.extractLsb' 0 16).toNat ops with
  | none =>
    rw [if_neg (by rw [arrived, hr]; exact Bool.false_ne_true)]
    exact decodeCommand_decrypt_missing hop hr
  | some ranges =>
    rw [if_pos (arrived.mpr (by rw [hr]; rfl))]
    exact ⟨_, decodeCommand_decrypt hop hr⟩

end

/-- Settles O5: one clause for each opcode. -/
theorem commandLength : Obligations.CommandLength := by
  intro s w ops hport
  dsimp only
  rw [setCw_length_eq, State.portHead, hport]
  by_cases hopc : 1 ≤ w.toNat / 2 ^ 24 ∧ w.toNat / 2 ^ 24 ≤ 4
  · rw [if_pos hopc]
    obtain h | h | h | h : w.toNat / 2 ^ 24 = 1 ∨ w.toNat / 2 ^ 24 = 2 ∨ w.toNat / 2 ^ 24 = 3
        ∨ w.toNat / 2 ^ 24 = 4 := by omega
    all_goals rw [h]
    · rw [decodeCommand_setKind (opcode_eq_ofNat h)]
      simp
    · exact decodeCommand_setCw_length (opcode_eq_ofNat h)
    · have hnr : w.toNat % 2 ^ 16 = (w.extractLsb' 0 16).toNat := by
        rw [BitVec.extractLsb'_toNat, Nat.shiftRight_zero]
      rw [hnr]
      exact decodeCommand_decrypt_length (opcode_eq_ofNat h)
    · rw [decodeCommand_csrRead (opcode_eq_ofNat h)]
      simp
  · rw [if_neg hopc, decodeCommand_reserved hopc, opcode_eq_ofNat rfl]

/-! ## The end of a completion -/

/-- The words of a range, low word first (R112). -/
theorem encodeRange_eq_ofNat (r : Range) :
    encodeRange r = [BitVec.ofNat 32 r.start.toNat, BitVec.ofNat 32 (r.start.toNat / 2 ^ 32),
      BitVec.ofNat 32 r.stop.toNat, BitVec.ofNat 32 (r.stop.toNat / 2 ^ 32)] := by
  simp only [encodeRange, BitVec.extractLsb', Nat.shiftRight_eq_div_pow, Nat.pow_zero, Nat.div_one]

/-- At the write-back the sequencer ends the completion (R352). -/
theorem step_writeback {s : State} (uops : s.uops = []) (phase : s.phase = .writeback) :
    step s = .next s.finishCompletion := by
  simp [step, uops, phase, State.sequence]

/-- Settles O56: the sequencer's last move, with the response's words as numbers. -/
theorem completionResponse : Obligations.CompletionResponse := by
  intro s uops phase
  rw [step_writeback uops phase, State.finishCompletion, State.respond, decryptPayload,
    BitVec.ofNat_add, BitVec.ofNat_toNat, BitVec.setWidth_eq, List.flatMap,
    List.map_congr_left fun r _ => encodeRange_eq_ofNat r]
  rfl

/-! ## The examples (R132) -/

/-- Settles O1: each command by its decoder equation, each engine word as what its operation encodes
to. -/
theorem decodeExamples : Obligations.DecodeExamples := by
  refine ⟨decodeCommand_setKind rfl, decodeCommand_setCw rfl, rfl, decodeCommand_decrypt rfl rfl,
    decodeCommand_csrRead rfl, decodeCommand_reserved (by decide), ?_⟩
  exact ⟨decodeEngine_of_encode rfl, decodeEngine_of_encode rfl, decodeEngine_of_encode rfl,
    decodeEngine_of_encode rfl, decodeEngine_of_encode rfl, decodeEngine_of_encode rfl⟩

end Sys2Proof.Machine
end

section
/-!
The group primitive and the transposer (spec/40_group_primitive.md R150 to R166): what each operation
leaves in one lane. The frames are those of the register that is written.
-/

namespace Sys2Proof.Machine

/-! ## Groups -/

/-- G_BCAST1 puts its value in every lane (R157). -/
theorem exec_gBcast1_effect (v : Bool) (s : State) :
    ∃ t, exec (.gBcast1 v) s = .next t
      ∧ (∀ i, i < s.cfg.n → (t.readGroup s.opnd.gd).getLsbD i = v)
      ∧ OnlyGroupChanges s.opnd.gd s t := by
  refine ⟨_, rfl, fun i hi => ?_, s.writeGroup_onlyGroup _ _⟩
  rw [State.readGroup_writeGroup_self, groupBcast_getLsbD (Build.n_le _), decide_eq_true hi,
    Bool.true_and]

/-- UOP 0x07 reads its IMM as one bit (R127). -/
theorem decodeEngine_gBcast1 (imm : BitVec 8) :
    decodeEngine (uword 0x07 imm) = bitOp imm .gBcast1 := by
  simp [decodeEngine]

/-- Settles O26: G_ZERO and G_ONES are G_BCAST1 of 0 and of 1. -/
theorem groupConstants : Obligations.GroupConstants := by
  refine ⟨decodeEngine_of_encode rfl, decodeEngine_of_encode rfl,
    decodeEngine_of_encode (i := .gBcast1 false) rfl,
    decodeEngine_of_encode (i := .gBcast1 true) rfl, fun imm reserved => ?_,
    fun s => ⟨exec_gBcast1_effect false s, exec_gBcast1_effect true s, (exec_gBcast1_effect · s)⟩⟩
  have refused : (bitOp imm .gBcast1).isSome ≠ true := by rw [Ne, bitOp_isSome]; omega
  exact (decodeEngine_gBcast1 imm).trans (Option.not_isSome_iff_eq_none.mp refused)

/-! ## Bitwise operations on groups and on byte slices (R150, R153 to R156) -/

/-- In every lane of the build the two functions are `f`, bit by bit. -/
structure BitwiseIn (n : Nat) (f : Bool → Bool → Bool) (onGroups : Group → Group → Group)
    (onSlices : Slice → Slice → Slice) : Prop where
  group : ∀ a b k, k < n → (onGroups a b).getLsbD k = f (a.getLsbD k) (b.getLsbD k)
  slice : ∀ (a b : Slice) (k : Fin maxLanes), k.val < n → ∀ j, j < 8 →
    ((onSlices a b)[k]).getLsbD j = f (a[k].getLsbD j) (b[k].getLsbD j)

theorem bitwiseIn_and (n : Nat) : BitwiseIn n (fun a b => a && b) (· &&& ·) (sliceAnd n) where
  group a b k _ := BitVec.getLsbD_and
  slice a b k hk j _ := by
    simp only [Fin.getElem_fin, sliceAnd_getElem, if_pos hk, BitVec.getLsbD_and]

theorem bitwiseIn_or (n : Nat) : BitwiseIn n (fun a b => a || b) (· ||| ·) (sliceOr n) where
  group a b k _ := BitVec.getLsbD_or
  slice a b k hk j _ := by
    simp only [Fin.getElem_fin, sliceOr_getElem, if_pos hk, BitVec.getLsbD_or]

theorem bitwiseIn_xor (n : Nat) : BitwiseIn n (fun a b => a != b) (· ^^^ ·) (sliceXor n) where
  group a b k _ := BitVec.getLsbD_xor
  slice a b k hk j _ := by
    simp only [Fin.getElem_fin, sliceXor_getElem, if_pos hk, BitVec.getLsbD_xor]

theorem bitwiseIn_not {n : Nat} (hn : n ≤ maxLanes) :
    BitwiseIn n (fun a _ => !a) (fun a _ => groupNot n a) (fun a _ => sliceNot n a) where
  group a b k hk := by rw [groupNot_getLsbD hn, decide_eq_true hk, Bool.true_and]
  slice a b k hk j hj := by
    simp only [Fin.getElem_fin, sliceNot_getElem, if_pos hk, BitVec.getLsbD_not, decide_eq_true hj,
      Bool.true_and]

section
variable {s : State} {f : Bool → Bool → Bool} {onGroups : Group → Group → Group}
  {onSlices : Slice → Slice → Slice}

/-- The lanes of a bitwise operation on groups, from the operands as they were. -/
theorem BitwiseIn.groups (h : BitwiseIn s.cfg.n f onGroups onSlices) (form : s.opnd.form = .groups) :
    (∀ k, k < s.cfg.n → ((s.bitwise onGroups onSlices).readGroup s.opnd.gd).getLsbD k
        = f ((s.readGroup s.opnd.ga).getLsbD k) ((s.readGroup s.opnd.gb).getLsbD k))
      ∧ OnlyGroupChanges s.opnd.gd s (s.bitwise onGroups onSlices) := by
  have written : s.bitwise onGroups onSlices
      = s.writeGroup s.opnd.gd (onGroups (s.readGroup s.opnd.ga) (s.readGroup s.opnd.gb)) := by
    rw [State.bitwise, form]
  rw [written, State.readGroup_writeGroup_self]
  exact ⟨h.group _ _, s.writeGroup_onlyGroup _ _⟩

/-- The lanes of a bitwise operation on byte slices, from the operands as they were. -/
theorem BitwiseIn.slices (h : BitwiseIn s.cfg.n f onGroups onSlices) (form : s.opnd.form = .slices) :
    (∀ k : Fin maxLanes, k.val < s.cfg.n → ∀ b, b < 8 →
        (((s.bitwise onGroups onSlices).readSlice s.opnd.sd)[k]).getLsbD b
          = f ((s.readSlice s.opnd.sa)[k].getLsbD b) ((s.readSlice s.opnd.sb)[k].getLsbD b))
      ∧ OnlySliceChanges s.opnd.sd s (s.bitwise onGroups onSlices) := by
  have written : s.bitwise onGroups onSlices
      = s.writeSlice s.opnd.sd (onSlices (s.readSlice s.opnd.sa) (s.readSlice s.opnd.sb)) := by
    rw [State.bitwise, form]
  rw [written, State.readSlice_writeSlice_self]
  exact ⟨h.slice _ _, s.writeSlice_onlySlice _ _⟩

end

/-- The four operations are `State.bitwise` of functions that are `f` in every lane. -/
theorem exec_bitwise (s : State) {i : Instr} {f : Bool → Bool → Bool}
    (h : (i, f) ∈ [(Instr.gAnd, fun a b => a && b), (Instr.gOr, fun a b => a || b),
      (Instr.gXor, fun a b => a != b), (Instr.gNot, fun a _ => !a)]) :
    ∃ onGroups onSlices, exec i s = .next (s.bitwise onGroups onSlices)
      ∧ BitwiseIn s.cfg.n f onGroups onSlices := by
  simp only [List.mem_cons, List.not_mem_nil, or_false, Prod.mk.injEq] at h
  obtain ⟨rfl, rfl⟩ | ⟨rfl, rfl⟩ | ⟨rfl, rfl⟩ | ⟨rfl, rfl⟩ := h
  · exact ⟨_, _, rfl, bitwiseIn_and _⟩
  · exact ⟨_, _, rfl, bitwiseIn_or _⟩
  · exact ⟨_, _, rfl, bitwiseIn_xor _⟩
  · exact ⟨_, _, rfl, bitwiseIn_not (Build.n_le _)⟩

/-- Settles O27: the form selects what `f` acts on. -/
theorem bitwiseOperations : Obligations.BitwiseOperations := by
  refine ⟨decodeEngine_of_encode rfl, decodeEngine_of_encode rfl, decodeEngine_of_encode rfl,
    decodeEngine_of_encode rfl, fun s i f h => ?_⟩
  obtain ⟨onGroups, onSlices, run, lanes⟩ := exec_bitwise s h
  refine ⟨_, run, ?_⟩
  split
  case h_1 form => exact lanes.groups form
  case h_2 form => exact lanes.slices form

/-! ## Byte slices (R158 to R161) -/

/-- Every byte is an index of BLOCK_SBOX (R161). -/
theorem blockSbox_getElem? (t : Tables) (b : Byte) : t.blockSbox[b.toNat]? = some (sboxByte t b) := by
  have hb : b.toNat < t.blockSbox.length := by rw [t.blockSbox_shape]; exact b.isLt
  rw [sboxByte, List.getD_eq_getElem _ _ hb, List.getElem?_eq_getElem hb]

/-- Settles O28: each operation writes the slice whose lanes are its bytes. -/
theorem byteSliceOperations : Obligations.ByteSliceOperations := by
  refine ⟨fun c => decodeEngine_of_encode (i := .bBcast8 c) rfl,
    fun k => ⟨decodeEngine_of_encode (i := .bShl8 k) rfl, decodeEngine_of_encode (i := .bShr8 k) rfl⟩,
    decodeEngine_of_encode rfl, fun s =>
      ⟨fun c => ⟨_, rfl, fun i hi => ?_, s.writeSlice_onlySlice _ _⟩,
        fun k => ⟨_, rfl, fun i hi => ?_, s.writeSlice_onlySlice _ _⟩,
        fun k => ⟨_, rfl, fun i hi => ?_, s.writeSlice_onlySlice _ _⟩,
        ⟨_, rfl, fun i hi => ?_, s.writeSlice_onlySlice _ _⟩⟩⟩
  all_goals simp only [State.readSlice_writeSlice_self, Fin.getElem_fin]
  · rw [sliceBcast_getElem, if_pos hi]
  · rw [sliceShl_getElem, if_pos hi, BitVec.toNat_shiftLeft, Nat.shiftLeft_eq]
  · rw [sliceShr_getElem, if_pos hi, BitVec.toNat_ushiftRight, Nat.shiftRight_eq_div_pow]
  · rw [sliceSbox_getElem, if_pos hi, blockSbox_getElem?]

/-! ## Transposer: the lanes (R162 to R165) -/

theorem byteOf_getLsbD (f : Nat → Bool) {b : Nat} (hb : b < 8) : (byteOf f).getLsbD b = f b := by
  match b, hb with
  | 0, _ | 1, _ | 2, _ | 3, _ | 4, _ | 5, _ | 6, _ | 7, _ =>
    unfold byteOf
    repeat rw [BitVec.getLsbD_append]
    simp

/-- Lanes past the last one read the same default block, so only a lane that is there can differ. -/
theorem laneBlock_congr {v w : Vector Block maxLanes} {i : Nat}
    (h : ∀ hi : i < maxLanes, v[i] = w[i]) : laneBlock v i = laneBlock w i := by
  by_cases hi : i < maxLanes
  · rw [laneBlock_of_lt v hi, laneBlock_of_lt w hi, h hi]
  · simp [laneBlock, Vector.getD, hi]

section
variable {n c : Nat} (hc : c ≤ n) (m : Vector Block maxLanes) (planes : Vector Group 64)
  (slices : Vector Slice 8)
include hc

theorem transposeInBits_getLsbD (hn : n ≤ maxLanes) (k : Nat) (hk : k < 64) (i : Nat) :
    (transposeInBits n c m planes)[k].getLsbD i
      = if i < c then blockBit m i (k / 8) (k % 8) else planes[k].getLsbD i := by
  rw [transposeInBits, Vector.getElem_ofFn, Nat.min_eq_left hc, mergeLanes_getLsbD (hc.trans hn),
    groupOf_getLsbD hn]
  split
  · next hi => rw [decide_eq_true (hi.trans_le hc), Bool.true_and]
  · rfl

/-- Plane 8j + b takes bit b of byte j (R162). -/
theorem transposeInBits_plane (hn : n ≤ maxLanes) {i : Nat} (hi : i < c) (j b : Fin 8) :
    ((transposeInBits n c m planes).getD (8 * j.val + b.val) 0).getLsbD i
      = ((laneBlock m i)[j]).getLsbD b.val := by
  have hk : 8 * j.val + b.val < 64 := by omega
  have hj : (8 * j.val + b.val) / 8 = j.val := by omega
  have hb : (8 * j.val + b.val) % 8 = b.val := by omega
  rw [vector_getD_of_lt _ _ _ hk, transposeInBits_getLsbD hc m planes hn _ hk, if_pos hi, blockBit,
    hj, hb, vector_getD_of_lt _ _ _ j.isLt, Fin.getElem_fin]

/-- Below `c` a block takes its bits from the planes (R163). -/
theorem transposeOutBits_getLsbD (hn : n ≤ maxLanes) {i : Nat} (hi : i < c) (j b : Fin 8) :
    ((laneBlock (transposeOutBits n c planes m) i)[j]).getLsbD b.val
      = (planes.getD (8 * j.val + b.val) 0).getLsbD i := by
  rw [laneBlock_of_lt _ (by omega), transposeOutBits, Vector.getElem_ofFn, Nat.min_eq_left hc,
    if_pos hi, Fin.getElem_fin, Vector.getElem_ofFn, byteOf_getLsbD _ b.isLt]

/-- From `c` on a block stays (R163). -/
theorem transposeOutBits_of_le {i : Nat} (hi : c ≤ i) :
    laneBlock (transposeOutBits n c planes m) i = laneBlock m i :=
  laneBlock_congr fun h => by
    simp only [transposeOutBits, Vector.getElem_ofFn, Nat.min_eq_left hc, if_neg (Nat.not_lt.mpr hi),
      Fin.getElem_fin]

theorem transposeInBytes_getElem (i : Fin maxLanes) (j : Fin 8) :
    (transposeInBytes n c m slices)[j][i] = if i.val < c then m[i][j] else slices[j][i] := by
  simp only [transposeInBytes, Fin.getElem_fin, Vector.getElem_ofFn, Nat.min_eq_left hc]

/-- Below `c` a block takes its bytes from the slices (R165). -/
theorem transposeOutBytes_getElem (i : Fin maxLanes) (hi : i.val < c) (j : Fin 8) :
    (laneBlock (transposeOutBytes n c slices m) i.val)[j] = slices[j][i] := by
  rw [laneBlock_of_lt _ i.isLt, transposeOutBytes, Vector.getElem_ofFn, Nat.min_eq_left hc,
    if_pos hi, Fin.getElem_fin, Vector.getElem_ofFn]

/-- From `c` on a block stays (R165). -/
theorem transposeOutBytes_of_le {i : Nat} (hi : c ≤ i) :
    laneBlock (transposeOutBytes n c slices m) i = laneBlock m i :=
  laneBlock_congr fun h => by
    simp only [transposeOutBytes, Vector.getElem_ofFn, Nat.min_eq_left hc, if_neg (Nat.not_lt.mpr hi),
      Fin.getElem_fin]

/-! ## Transposer: there and back (R166) -/

variable (out : Vector Block maxLanes)

/-- Blocks come out of the planes as they went in. -/
theorem transposeOutBits_transposeInBits (hn : n ≤ maxLanes) {i : Nat} (hi : i < c) :
    laneBlock (transposeOutBits n c (transposeInBits n c m planes) out) i = laneBlock m i := by
  refine Vector.ext fun j hj => BitVec.eq_of_getLsbD_eq fun b hb => ?_
  exact (transposeOutBits_getLsbD hc out _ hn hi ⟨j, hj⟩ ⟨b, hb⟩).trans
    (transposeInBits_plane hc m planes hn hi ⟨j, hj⟩ ⟨b, hb⟩)

/-- Blocks come out of the slices as they went in. -/
theorem transposeOutBytes_transposeInBytes (hn : n ≤ maxLanes) {i : Nat} (hi : i < c) :
    laneBlock (transposeOutBytes n c (transposeInBytes n c m slices) out) i = laneBlock m i := by
  have hlane : i < maxLanes := by omega
  refine Vector.ext fun j hj => ?_
  calc (laneBlock (transposeOutBytes n c (transposeInBytes n c m slices) out) i)[j]
      = (transposeInBytes n c m slices)[j][i] :=
        transposeOutBytes_getElem hc out _ ⟨i, hlane⟩ hi ⟨j, hj⟩
    _ = m[i][j] :=
        (transposeInBytes_getElem hc m slices ⟨i, hlane⟩ ⟨j, hj⟩).trans (if_pos hi)
    _ = (laneBlock m i)[j] := by rw [laneBlock_of_lt m hlane]

end

/-! ## Transposer: the banks -/

/-- A bank that is written reads back. -/
@[simp] theorem State.readBank_writeBank_self (s : State) (b : SliceBank) (v : Vector Slice 8) :
    (s.writeBank b v).readBank b = v := by
  cases b with
  | slices => rfl
  | br base => exact BlockRegs.bank_setBank _ _ _

/-- Slots of the block register outside the bank stay. -/
theorem BlockRegs.setBank_br_outside (bk : BlockRegs) (base : Fin 57) (v : Vector Slice 8) (m : Fin 64)
    (h : m.val < base.val ∨ base.val + 8 ≤ m.val) : (bk.setBank base v).br[m] = bk.br[m] := by
  simp only [Fin.getElem_fin, BlockRegs.setBank_br]
  rw [dif_neg (by omega)]

/-- Writing a bank leaves the lane count operand alone. -/
@[simp] theorem State.writeBank_count (s : State) (b : SliceBank) (v : Vector Slice 8) :
    (s.writeBank b v).pr.count = s.pr.count := by
  cases b <;> rfl

/-- T_OUT_BYTES into the working blocks `out` reads the selected bank (R165, log 10). -/
theorem exec_tOutBytes_into (t : State) (out : BlockBank) :
    ∃ u, exec .tOutBytes { t with opnd := { t.opnd with blocks := out } } = .next u
      ∧ u.readBlocks out = transposeOutBytes t.cfg.n t.pr.count (t.readBank t.opnd.bank)
          (t.readBlocks out) :=
  ⟨_, rfl, State.readBlocks_writeBlocks_self _ _ _⟩

/-- Settles O29, from the lanes of the two bit transposers. -/
theorem transposeBits : Obligations.TransposeBits := by
  intro s hc
  have hn := Build.n_le s.cfg
  refine ⟨⟨_, rfl, fun i j b hi => transposeInBits_plane hc _ _ hn hi j b, fun i m hi => ?_, rfl,
      fun _ => rfl⟩,
    ⟨_, rfl, fun i j b hi => ?_,
      s.writeBlocks_onlyBlocks _ _ _ fun _ => transposeOutBits_of_le hc _ _⟩⟩
  · exact (transposeInBits_getLsbD hc _ _ hn m.val m.isLt i).trans (if_neg (Nat.not_lt.mpr hi))
  · rw [State.readBlocks_writeBlocks_self]
    exact transposeOutBits_getLsbD hc _ _ hn hi j b

/-- Settles O30, from the lanes of the two byte transposers and the rules of the bank that is written. -/
theorem transposeBytes : Obligations.TransposeBytes := by
  intro s hc
  refine ⟨⟨_, rfl, fun i j hi => ?_, fun i j hi => ?_, ?_, fun a => ?_⟩,
    ⟨_, rfl, fun i j hi => ?_,
      s.writeBlocks_onlyBlocks _ _ _ fun _ => transposeOutBytes_of_le hc _ _⟩⟩
  · rw [State.readBank_writeBank_self, transposeInBytes_getElem hc, if_pos hi,
      laneBlock_of_lt _ i.isLt]
    rfl
  · rw [State.readBank_writeBank_self, transposeInBytes_getElem hc, if_neg (Nat.not_lt.mpr hi)]
  · cases s.opnd.bank with
    | slices => rfl
    | br base => exact ⟨rfl, BlockRegs.setBank_br_outside s.bk base _⟩
  · rw [State.writeBank_mem]
  · rw [State.readBlocks_writeBlocks_self]
    exact transposeOutBytes_getElem hc _ _ i hi j

/-- Settles O31: the second operation reads the planes or the bank that the first one wrote. -/
theorem transposeRoundTrip : Obligations.TransposeRoundTrip := by
  intro s out hc
  have hn := Build.n_le s.cfg
  obtain ⟨u, run, blocks⟩ := exec_tOutBytes_into (s.writeBank s.opnd.bank
    (transposeInBytes s.cfg.n s.pr.count (s.readBlocks s.opnd.blocks) (s.readBank s.opnd.bank))) out
  rw [State.writeBank_opnd, State.readBank_writeBank_self, State.writeBank_cfg,
    State.writeBank_count] at blocks
  refine ⟨⟨_, _, rfl, rfl, fun i hi => ?_⟩, ⟨_, u, rfl, run, fun i hi => ?_⟩⟩
  · rw [State.readBlocks_writeBlocks_self]
    exact transposeOutBits_transposeInBits hc _ _ _ hn hi
  · rw [blocks]
    exact transposeOutBytes_transposeInBytes hc _ _ _ hn hi

end Sys2Proof.Machine
end

section
/-!
The key scheduler (spec/41_key_schedule.md R180 to R186): the stream key nibble by nibble, `perm64` bit by
bit from KEY_PERM being a permutation, and the broadcast of both schedules to the lanes.
-/

namespace Sys2Proof.Machine

/-! ## K_STREAM (R180) -/

section
variable (bytes : Fin 4 → Byte) (m : Fin 4)

/-- The even nibbles are the high nibbles. -/
theorem nibbles_getD_even : (nibbles bytes).getD (2 * m.val) 0 = (bytes m).extractLsb' 4 4 := by
  have byte : 2 * m.val / 2 = m.val := by omega
  simp only [vector_getD_of_lt _ _ _ (show 2 * m.val < 8 by omega), nibbles, Vector.getElem_ofFn, byte,
    Nat.mul_mod_right, if_true]

/-- The odd nibbles are the low nibbles. -/
theorem nibbles_getD_odd : (nibbles bytes).getD (2 * m.val + 1) 0 = (bytes m).extractLsb' 0 4 := by
  have byte : (2 * m.val + 1) / 2 = m.val := by omega
  have odd : (2 * m.val + 1) % 2 ≠ 0 := by omega
  simp only [vector_getD_of_lt _ _ _ (show 2 * m.val + 1 < 8 by omega), nibbles, Vector.getElem_ofFn,
    byte, if_neg odd]

end

/-- Settles O32: both halves of the control word go through `nibbles`. -/
theorem streamKeySchedule : Obligations.StreamKeySchedule := by
  refine ⟨decodeEngine_of_encode rfl, fun s => ⟨_, rfl, fun m => ?_, rfl, fun _ => rfl⟩⟩
  have low : m.val < 8 := by omega
  have high : 4 + m.val < 8 := by omega
  rw [vector_getD_of_lt s.ks.cw _ _ low, vector_getD_of_lt s.ks.cw _ _ high]
  simp only [KeySched.stream, streamKeyA, streamKeyB, nibbles_getD_even, nibbles_getD_odd, and_self]

/-! ## K_BLOCK (R181 to R184) -/

/-- An output bit of `perm64` is the input bit that KEY_PERM moves there (R182). -/
theorem keyBit_perm64 (t : Tables) (kb : Bytes 8) {o : Nat} (ho : o < 64) :
    keyBit (perm64 t kb) o = keyBit kb (permSource t o) := by
  have position : 8 * (o / 8) + (7 - (7 - o % 8)) = o := by omega
  rw [keyBit, vector_getD_of_lt _ _ _ (by omega), perm64, Vector.getElem_ofFn,
    byteOf_getLsbD _ (by omega), position]

/-- No other input bit moves to where bit `m` moves, as KEY_PERM repeats no entry (R181). -/
theorem permSource_keyPerm (t : Tables) {m : Nat} (hm : m < 64) :
    t.keyPerm.getD m 0 - 1 < 64 ∧ permSource t (t.keyPerm.getD m 0 - 1) = m := by
  obtain ⟨length, nodup, range⟩ := t.keyPerm_shape
  have hm : m < t.keyPerm.length := by omega
  rw [List.getD_eq_getElem _ _ hm]
  obtain ⟨pos, le⟩ := range _ (List.getElem_mem hm)
  refine ⟨by omega, ?_⟩
  rw [permSource, Nat.sub_add_cancel pos]
  exact nodup.idxOf_getElem m hm

/-- `perm64` moves bit `m` to position `KEY_PERM[m] - 1` (R182). -/
theorem keyBit_perm64_keyPerm (t : Tables) (kb : Bytes 8) {m : Nat} (hm : m < 64) :
    keyBit (perm64 t kb) (t.keyPerm.getD m 0 - 1) = keyBit kb m := by
  obtain ⟨inRange, source⟩ := permSource_keyPerm t hm
  rw [keyBit_perm64 t kb inRange, source]

/-- kb[i], stage 6 - i, is one permutation past kb[i + 1] (R184). -/
theorem keyStage_of_lt (t : Tables) (cw : Bytes 8) {i : Nat} (hi : i < 6) :
    keyStage t cw (6 - i) = perm64 t (keyStage t cw (6 - (i + 1))) := by
  have count : 6 - i = (6 - (i + 1)) + 1 := by omega
  rw [count, keyStage]

/-- Byte `j` of group `i` of the block key (R184). -/
theorem blockKey_getD (t : Tables) (cw : Bytes 8) {i j : Nat} (hi : i < 7) (hj : j < 8) :
    (blockKey t cw).getD (8 * i + j) 0
      = (keyStage t cw (6 - i)).getD j 0 ^^^ BitVec.ofNat 8 i := by
  have group : (8 * i + j) / 8 = i := by omega
  have byte : (8 * i + j) % 8 = j := by omega
  rw [vector_getD_of_lt _ _ _ (by omega), blockKey, Vector.getElem_ofFn, group, byte]

/-- Settles O33: kb[i] is stage 6 - i of the key. -/
theorem blockKeySchedule : Obligations.BlockKeySchedule := by
  refine ⟨decodeEngine_of_encode rfl, fun s => ⟨_, rfl,
    ⟨fun i => keyStage s.cfg.tables s.ks.cw (6 - i), rfl, fun i m hi hm => ?_,
      fun i j hi hj => blockKey_getD _ _ hi hj⟩, rfl, fun _ => rfl⟩⟩
  dsimp only
  rw [keyStage_of_lt _ _ hi, keyBit_perm64_keyPerm _ _ hm]

/-! ## K_BCAST (R186) -/

/-- A sequence of `k` bytes is its own first `k` bytes. -/
theorem toBytes_toList {k : Nat} (v : Bytes k) : toBytes k v.toList = v := by
  refine Vector.ext fun i hi => ?_
  rw [toBytes, Vector.getElem_ofFn, List.getD_eq_getElem _ _ (by simpa using hi),
    Vector.getElem_toList]

/-- The key schedule that K_BCAST leaves in `ks` for the key of 8 bytes it finds latched. -/
theorem State.bcastKey_ks {s : State} {p : Parity} {key : Bytes 8}
    (latched : s.pending.cw.get p = key.toList) :
    (s.bcastKey p).ks.a = streamKeyA key ∧ (s.bcastKey p).ks.b = streamKeyB key
      ∧ (s.bcastKey p).ks.kk = blockKey s.cfg.tables key := by
  simp only [State.bcastKey, KeySched.stream, KeySched.block, latched, toBytes_toList, and_self]

section
variable (s : State) (p : Parity) {i : Nat} (hi : i < s.cfg.n)
include hi

/-- Every lane of iA and iB holds the nibbles of the stream key (R54). -/
theorem State.bcastKey_streamKey_lane (m : Fin 8) :
    ((s.bcastKey p).st.iA[m]).lane i = (s.bcastKey p).ks.a[m]
      ∧ ((s.bcastKey p).st.iB[m]).lane i = (s.bcastKey p).ks.b[m] := by
  simp only [State.bcastKey, StreamRegs.loadKey, Fin.getElem_fin, Vector.getElem_ofFn,
    nibbleBcast_lane (Build.n_le _) _ hi, and_self]

/-- Every lane of KK holds the bytes of the block key (R55). -/
theorem State.bcastKey_kk_getElem (k : Fin 56) (h : i < maxLanes) :
    ((s.bcastKey p).bk.kk[k])[i] = (s.bcastKey p).ks.kk[k] := by
  simp only [State.bcastKey, BlockRegs.loadKey, Fin.getElem_fin, Vector.getElem_ofFn,
    sliceBcast_getElem, if_pos hi]

end

/-- Settles O34: the lanes hold what `ks` holds, and `ks` the two schedules of the key. -/
theorem keyBroadcast : Obligations.KeyBroadcast := by
  intro s p key latched
  obtain ⟨a, b, kk⟩ := State.bcastKey_ks latched
  refine ⟨_, rfl, fun m i hi => ?_, fun k i hi => ?_, rfl, fun _ => rfl⟩
  · rw [← a, ← b]
    exact s.bcastKey_streamKey_lane p hi m
  · rw [← kk]
    exact s.bcastKey_kk_getElem p hi k i.isLt

end Sys2Proof.Machine
end

section
/-!
One internal step of the stream cipher, S_LOAD and S_ADVANCE (spec/42_stream_cipher.md R200 to R214,
R222): the logical registers of a lane as a window on the rings, and the lane law (R224) of each of them.
-/

namespace Sys2Proof.Machine

/-! ## The logical registers of a lane (R201) -/

/-- A[1..10] or B[1..10] of lane `i`, read from its ring at the offset `o` (R201). -/
def ringLane (ring : Vector NibbleG 42) (o i : Nat) : Vector Nib 10 :=
  Vector.ofFn fun m => (ring.getD (o + (m.val + 1) - 1) .zero).lane i

section
variable (st : StreamRegs) (i : Nat)

theorem StreamRegs.laneState_a : (st.laneState i).a = ringLane st.sa st.soff.val i := rfl

theorem StreamRegs.laneState_b : (st.laneState i).b = ringLane st.sb st.soff.val i := rfl

/-- Entry `m` of a lane's A is A[m + 1]. -/
theorem StreamRegs.laneState_a_getElem {m : Nat} (hm : m < 10) :
    (st.laneState i).a[m] = (st.regA (m + 1)).lane i := by
  simp only [StreamRegs.laneState, Vector.getElem_ofFn]

/-- Entry `m` of a lane's B is B[m + 1]. -/
theorem StreamRegs.laneState_b_getElem {m : Nat} (hm : m < 10) :
    (st.laneState i).b[m] = (st.regB (m + 1)).lane i := by
  simp only [StreamRegs.laneState, Vector.getElem_ofFn]

end

/-- Two windows with the same slots hold the same nibbles. -/
theorem ringLane_congr {ring ring' : Vector NibbleG 42} {o o' : Nat} (i : Nat)
    (h : ∀ m, m < 10 → ring.getD (o + m) .zero = ring'.getD (o' + m) .zero) :
    ringLane ring o i = ringLane ring' o' i := by
  refine Vector.ext fun m hm => ?_
  simp only [ringLane, Vector.getElem_ofFn, Nat.add_succ_sub_one, h m hm]

/-- A push shifts the window by one place (R213). -/
theorem ringLane_push (ring : Vector NibbleG 42) (v : NibbleG) {o : Nat} (i : Nat) (pos : 1 ≤ o)
    (le : o ≤ 32) :
    ringLane (ring.set (o - 1) v) (o - 1) i = shiftIn (v.lane i) (ringLane ring o i) := by
  refine Vector.ext fun m hm => ?_
  simp only [ringLane, shiftIn, Vector.getElem_ofFn, Nat.add_succ_sub_one]
  rw [vector_getD_of_lt _ _ _ (show o - 1 + m < 42 by omega)]
  by_cases first : m = 0
  · subst first
    simp
  · have slot : o - 1 + m = o + (m - 1) := by omega
    rw [if_neg first, vector_getD_of_lt _ _ _ (show m - 1 < 10 by omega), Vector.getElem_ofFn,
      vector_getD_of_lt _ _ _ (show o + (m - 1) < 42 by omega),
      Vector.getElem_set_ne _ _ (by omega)]
    simp only [slot]

/-! ## One internal step (R205 to R213) -/

/-- Two states of a lane with the same registers are the same. -/
theorem LaneStream.eq_of_fields {u v : LaneStream} (a : u.a = v.a) (b : u.b = v.b) (x : u.x = v.x)
    (y : u.y = v.y) (z : u.z = v.z) (d : u.d = v.d) (e : u.e = v.e) (f : u.f = v.f) (p : u.p = v.p)
    (q : u.q = v.q) (r : u.r = v.r) : u = v := by
  cases u
  cases v
  simp_all only

/-- The nibble of a lane from the lane's bits of its four groups. -/
theorem NibbleG.lane_eq_nibOf {v : NibbleG} {i : Nat} {b3 b2 b1 b0 : Bool}
    (h3 : v.b3.getLsbD i = b3) (h2 : v.b2.getLsbD i = b2) (h1 : v.b1.getLsbD i = b1)
    (h0 : v.b0.getLsbD i = b0) : v.lane i = nibOf b3 b2 b1 b0 := by
  rw [NibbleG.lane_eq, h3, h2, h1, h0]

section
variable (st : StreamRegs) (mode : StepMode) (i : Nat)

/-- The new A[1] in a lane (R207). -/
theorem StreamRegs.newA_lane (aIn : NibbleG) :
    (st.newA mode aIn).lane i = (st.laneState i).nextA mode (aIn.lane i) := by
  cases mode <;>
    simp only [StreamRegs.newA, LaneStream.nextA, NibbleG.xor_lane, StreamRegs.laneState_a_getElem] <;>
    rfl

/-- The new B[1] in a lane (R208). -/
theorem StreamRegs.newB_lane (bIn : NibbleG) :
    (st.newB mode bIn).lane i = (st.laneState i).nextB mode (bIn.lane i) := by
  cases mode <;>
    simp only [StreamRegs.newB, LaneStream.nextB, LaneStream.turnB, NibbleG.sel_lane, NibbleG.rotl_lane,
      NibbleG.xor_lane, StreamRegs.laneState_b_getElem] <;> rfl

end

section
variable (c : Build) (st : StreamRegs) (mode : StepMode) (aIn bIn : NibbleG)

theorem StreamRegs.step_soff : (st.step c mode aIn bIn).soff.val = st.soff.val - 1 := rfl

theorem StreamRegs.step_iA : (st.step c mode aIn bIn).iA = st.iA := rfl

theorem StreamRegs.step_iB : (st.step c mode aIn bIn).iB = st.iB := rfl

/-- A step writes no slot but the one that SOFF then names (R213). -/
theorem StreamRegs.step_slot_ne {m : Fin 42} (hm : m.val ≠ st.soff.val - 1) :
    (st.step c mode aIn bIn).sa[m] = st.sa[m] ∧ (st.step c mode aIn bIn).sb[m] = st.sb[m] :=
  ⟨Vector.getElem_set_ne (by omega) m.isLt hm.symm, Vector.getElem_set_ne (by omega) m.isLt hm.symm⟩

/-- The output of a step in a lane is that of the lane's new D (R212). -/
theorem StreamRegs.step_out (i : Nat) :
    BitVec.ofBool ((st.step c mode aIn bIn).out1.getLsbD i)
        ++ BitVec.ofBool ((st.step c mode aIn bIn).out0.getLsbD i)
      = ((st.step c mode aIn bIn).laneState i).out := by
  have bit (b : Nat) (hb : b < 4) : (((st.step c mode aIn bIn).laneState i).d).getLsbD b
      = ((st.step c mode aIn bIn).d.bit b).getLsbD i := NibbleG.lane_getLsbD _ _ _ hb
  rw [LaneStream.out, bit 3 (by omega), bit 2 (by omega), bit 1 (by omega), bit 0 (by omega),
    ← BitVec.getLsbD_xor, ← BitVec.getLsbD_xor]
  rfl

/-- The lane law of one internal step (R224). -/
theorem StreamRegs.step_laneState {i : Nat} (pos : 1 ≤ st.soff.val) (hi : i < c.n) :
    (st.step c mode aIn bIn).laneState i
      = (st.laneState i).step c.tables mode (aIn.lane i) (bIn.lane i) := by
  have o := st.sbox_getLsbD c hi
  obtain ⟨sum, carry⟩ := addNibble_lane st.z st.e st.r i
  apply LaneStream.eq_of_fields
  case a =>
    refine (StreamRegs.laneState_a _ i).trans ((ringLane_push _ _ i pos (by omega)).trans ?_)
    exact congrArg (shiftIn · _) (st.newA_lane mode i aIn)
  case b =>
    refine (StreamRegs.laneState_b _ i).trans ((ringLane_push _ _ i pos (by omega)).trans ?_)
    exact congrArg (shiftIn · _) (st.newB_lane mode i bIn)
  case x => exact NibbleG.lane_eq_nibOf (o 3 0) (o 2 0) (o 1 1) (o 0 1)
  case y => exact NibbleG.lane_eq_nibOf (o 5 0) (o 4 0) (o 3 1) (o 2 1)
  case z => exact NibbleG.lane_eq_nibOf (o 1 0) (o 0 0) (o 5 1) (o 4 1)
  case d =>
    exact (NibbleG.xor_lane _ _ i).trans
      (congrArg₂ (· ^^^ ·) (NibbleG.xor_lane _ _ i) (st.extra_lane c.tables i))
  case e => rfl
  case f => exact (NibbleG.sel_lane _ _ _ i).trans (if_congr Iff.rfl sum rfl)
  case p => exact o 6 1
  case q => exact o 6 0
  case r => exact (groupSel_getLsbD _ _ _ i).trans (if_congr Iff.rfl carry rfl)

end

section
variable (c : Build) (st : StreamRegs) {i : Nat} (pos : 1 ≤ st.soff.val) (hi : i < c.n)
include pos hi

/-- The lane law of a generate step (R224). -/
theorem StreamRegs.genStep_laneState :
    (st.genStep c).laneState i = (st.laneState i).genStep c.tables := by
  rw [StreamRegs.genStep, StreamRegs.step_laneState _ _ _ _ _ pos hi, NibbleG.lane_zero]
  rfl

/-- The lane law of an initializing step: the lane takes the nibbles of its own seed (R214, R224). -/
theorem StreamRegs.initStep_laneState (si : Vector Block maxLanes) (k : Nat) (jOdd : Bool) :
    (st.initStep c si k jOdd).laneState i
      = (st.laneState i).seedStep c.tables (laneBlock si i) k jOdd := by
  obtain ⟨high, low⟩ := seedNibble_lane (Build.n_le c) si k hi
  rw [StreamRegs.initStep, StreamRegs.step_laneState _ _ _ _ _ pos hi]
  cases jOdd <;> simp only [Bool.not_false, Bool.not_true, high, low] <;> rfl

end

/-! ## S_STEP -/

section
variable {s : State} (jOdd : Bool) (pos : 1 ≤ s.st.soff.val)
include pos

theorem exec_sStep_generating :
    exec (.sStep .generating jOdd) s = .next { s with st := s.st.genStep s.cfg } :=
  if_neg (by omega)

theorem exec_sStep_initializing :
    exec (.sStep .initializing jOdd) s
      = .next { s with st := s.st.initStep s.cfg s.wb.si s.st.extIter jOdd } :=
  if_neg (by omega)

end

/-- Settles O36: each mode's step is one group-form step. -/
theorem streamStep : Obligations.StreamStep := by
  intro s mode jOdd pos
  cases mode with
  | generating =>
    exact ⟨_, exec_sStep_generating jOdd pos, StreamRegs.step_soff .., fun i hi =>
      ⟨s.st.genStep_laneState s.cfg pos hi, StreamRegs.step_out ..⟩,
      fun _ hm => StreamRegs.step_slot_ne _ _ _ _ _ hm, rfl, StreamRegs.step_iA ..,
      StreamRegs.step_iB .., fun _ => rfl⟩
  | initializing =>
    exact ⟨_, exec_sStep_initializing jOdd pos, StreamRegs.step_soff .., fun i hi =>
      ⟨s.st.initStep_laneState s.cfg pos hi .., StreamRegs.step_out ..⟩,
      fun _ hm => StreamRegs.step_slot_ne _ _ _ _ _ hm, rfl, StreamRegs.step_iA ..,
      StreamRegs.step_iB .., fun _ => rfl⟩

/-! ## S_LOAD (R202) -/

theorem StreamRegs.load_iA (st : StreamRegs) : st.load.iA = st.iA := by rw [StreamRegs.load]

theorem StreamRegs.load_iB (st : StreamRegs) : st.load.iB = st.iB := by rw [StreamRegs.load]

/-- The window on a ring that S_LOAD has filled: the eight key nibbles, then zeros. -/
theorem ringLane_load (ring : Vector NibbleG 42) (key : Vector NibbleG 8) (i : Nat) :
    ringLane (Vector.ofFn fun k => if k.val < 32 then ring[k] else key.getD (k.val - 32) .zero) 32 i
      = Vector.ofFn fun m => (Vector.ofFn fun k : Fin 8 => (key[k]).lane i).getD m.val 0 := by
  refine Vector.ext fun m hm => ?_
  have slot : ¬ 32 + m < 32 := by omega
  simp only [ringLane, Vector.getElem_ofFn, Nat.add_succ_sub_one,
    vector_getD_of_lt _ _ _ (show 32 + m < 42 by omega), if_neg slot, Nat.add_sub_cancel_left]
  by_cases nibble : m < 8
  · simp [Vector.getD, nibble]
  · simp [Vector.getD, nibble]

/-- Settles O35: the window at SOFF = 32 holds the key nibbles and two zeros. -/
theorem streamLoad : Obligations.StreamLoad := by
  refine ⟨decodeEngine_of_encode rfl, fun s => ⟨_, rfl, rfl, fun i => ?_, rfl,
    s.st.load_iA, s.st.load_iB, fun _ => rfl⟩⟩
  apply LaneStream.eq_of_fields
  case a => exact (StreamRegs.laneState_a _ i).trans (ringLane_load s.st.sa s.st.iA i)
  case b => exact (StreamRegs.laneState_b _ i).trans (ringLane_load s.st.sb s.st.iB i)
  case x | y | z | d | e | f => exact NibbleG.lane_zero i
  case p | q | r => exact BitVec.getLsbD_zero

/-! ## S_ADVANCE (R222) -/

section
variable (st : StreamRegs)

theorem StreamRegs.advance_iA : st.advance.iA = st.iA := by rw [StreamRegs.advance]

theorem StreamRegs.advance_iB : st.advance.iB = st.iB := by rw [StreamRegs.advance]

/-- Slots 32 to 41 take slots 0 to 9. -/
theorem StreamRegs.advance_slot_high {k : Nat} (low : 32 ≤ k) (high : k < 42) :
    st.advance.sa.getD k .zero = st.sa.getD (k - 32) .zero
      ∧ st.advance.sb.getD k .zero = st.sb.getD (k - 32) .zero := by
  have copied : k - 32 < 42 := by omega
  simp only [StreamRegs.advance, vector_getD_of_lt _ _ _ high, vector_getD_of_lt _ _ _ copied,
    Vector.getElem_ofFn, dif_pos low, and_self]

/-- The slots below 32 stay. -/
theorem StreamRegs.advance_slot_low {k : Fin 42} (hk : k.val < 32) :
    st.advance.sa[k] = st.sa[k] ∧ st.advance.sb[k] = st.sb[k] := by
  have low : ¬ 32 ≤ k.val := by omega
  simp only [StreamRegs.advance, Fin.getElem_fin, Vector.getElem_ofFn, dif_neg low, and_self]

/-- After the last push of a call, S_ADVANCE moves the window and no lane's registers (R222). -/
theorem StreamRegs.advance_laneState (bottom : st.soff.val = 0) (i : Nat) :
    st.advance.laneState i = st.laneState i := by
  have window (m : Nat) (hm : m < 10) := st.advance_slot_high (k := 32 + m) (by omega) (by omega)
  apply LaneStream.eq_of_fields
  case a =>
    rw [StreamRegs.laneState_a, StreamRegs.laneState_a]
    refine ringLane_congr i fun m hm => (window m hm).1.trans ?_
    rw [bottom, Nat.add_sub_cancel_left, Nat.zero_add]
  case b =>
    rw [StreamRegs.laneState_b, StreamRegs.laneState_b]
    refine ringLane_congr i fun m hm => (window m hm).2.trans ?_
    rw [bottom, Nat.add_sub_cancel_left, Nat.zero_add]
  case x | y | z | d | e | f | p | q | r => simp only [StreamRegs.laneState, StreamRegs.advance]

end

/-- Settles O38: the copied slots are the window at SOFF = 0. -/
theorem streamAdvance : Obligations.StreamAdvance :=
  ⟨decodeEngine_of_encode rfl, fun s => ⟨_, rfl, rfl,
    fun k low => s.st.advance_slot_high low k.isLt, fun _ hk => s.st.advance_slot_low hk,
    s.st.advance_laneState, rfl, fun _ => rfl⟩⟩

end Sys2Proof.Machine
end

section
/-!
The calls of the stream cipher (spec/42_stream_cipher.md R220, R221, R224 to R226): S_INIT and S_GEN as
32 internal steps one after another, which every lane takes as the scalar rules say, and the keystream of
a lane.
-/

namespace Sys2Proof.Machine

/-! ## Runs of a list of instructions -/

section
variable {s t : State}

theorem runInstrs_cons {i : Instr} (run : exec i s = .next t) (rest : List Instr) :
    runInstrs (i :: rest) s = runInstrs rest t := by rw [runInstrs, run]

theorem runInstrs_append {first : List Instr} (run : runInstrs first s = .next t) (rest : List Instr) :
    runInstrs (first ++ rest) s = runInstrs rest t := by
  induction first generalizing s with
  | nil =>
    cases run
    rfl
  | cons i first ih =>
    rw [runInstrs] at run
    split at run
    · next u step => exact (runInstrs_cons step _).trans (ih run)
    · next stop => exact absurd run (stop t)

end

/-! ## The steps of S_INIT -/

/-- Internal steps k, k + 1, ..., `n` of them, of S_INIT: step 4i + j is step j of external iteration i
(R220). -/
def StreamRegs.initSteps (c : Build) (si : Vector Block maxLanes) (k n : Nat) (st : StreamRegs) :
    StreamRegs :=
  (List.range' k n).foldl (fun st k => st.initStep c si (k / 4) (decide (k % 2 = 1))) st

section
variable (c : Build) (si : Vector Block maxLanes) (st : StreamRegs)

theorem StreamRegs.initSteps_succ (k n : Nat) :
    st.initSteps c si k (n + 1)
      = (st.initStep c si (k / 4) (decide (k % 2 = 1))).initSteps c si (k + 1) n := rfl

/-- Four steps make an external iteration. -/
theorem StreamRegs.initIter_eq_initSteps (i : Nat) :
    st.initIter c si i = st.initSteps c si (4 * i) 4 := by
  have quot : 4 * i / 4 = i ∧ (4 * i + 1) / 4 = i ∧ (4 * i + 1 + 1) / 4 = i
      ∧ (4 * i + 1 + 1 + 1) / 4 = i := by omega
  have parity : ¬ 4 * i % 2 = 1 ∧ (4 * i + 1) % 2 = 1 ∧ ¬ (4 * i + 1 + 1) % 2 = 1
      ∧ (4 * i + 1 + 1 + 1) % 2 = 1 := by omega
  simp only [StreamRegs.initSteps_succ, quot, parity, decide_true, decide_false]
  rfl

theorem StreamRegs.initSteps_add (k m n : Nat) :
    st.initSteps c si k (m + n) = (st.initSteps c si k m).initSteps c si (k + m) n := by
  simp only [StreamRegs.initSteps, ← List.foldl_append, List.range'_append_1]

theorem StreamRegs.initIters_eq_initSteps (i k : Nat) :
    st.initIters c si i k = st.initSteps c si (4 * i) (4 * k) := by
  induction k generalizing i st with
  | zero => rfl
  | succ k ih =>
    rw [StreamRegs.initIters, ih, StreamRegs.initIter_eq_initSteps, Nat.mul_succ 4 k, Nat.add_comm _ 4,
      StreamRegs.initSteps_add, Nat.mul_succ]

/-- S_INIT is its 32 internal steps and S_ADVANCE (R220). -/
theorem StreamRegs.init_eq_initSteps : st.init c si = (st.initSteps c si 0 32).advance := by
  rw [StreamRegs.init, StreamRegs.initIters_eq_initSteps]

/-- SOFF moves down by one for each step, and the key stays. -/
theorem StreamRegs.initSteps_frame (k n : Nat) :
    (st.initSteps c si k n).soff.val = st.soff.val - n
      ∧ (st.initSteps c si k n).iA = st.iA ∧ (st.initSteps c si k n).iB = st.iB := by
  induction n generalizing k st with
  | zero => exact ⟨rfl, rfl, rfl⟩
  | succ n ih =>
    obtain ⟨soff, keyA, keyB⟩ := ih (st.initStep c si (k / 4) (decide (k % 2 = 1))) (k + 1)
    rw [StreamRegs.initSteps_succ, soff, keyA, keyB]
    refine ⟨?_, StreamRegs.step_iA .., StreamRegs.step_iB ..⟩
    rw [StreamRegs.initStep, StreamRegs.step_soff]
    omega

/-- The lane law of the steps of S_INIT (R224). -/
theorem StreamRegs.initSteps_laneState {i : Nat} (hi : i < c.n) (k n : Nat) (hn : n ≤ st.soff.val) :
    (st.initSteps c si k n).laneState i
      = (List.range' k n).foldl
          (fun v k => v.seedStep c.tables (laneBlock si i) (k / 4) (decide (k % 2 = 1)))
          (st.laneState i) := by
  induction n generalizing k st with
  | zero => rfl
  | succ n ih =>
    have soff := st.step_soff c .initializing (seedNibble c.n si (k / 4) !decide (k % 2 = 1))
      (seedNibble c.n si (k / 4) (decide (k % 2 = 1)))
    rw [StreamRegs.initSteps_succ, ih _ _ (by rw [StreamRegs.initStep, soff]; omega),
      st.initStep_laneState c (by omega) hi, List.range'_succ, List.foldl_cons]

/-- The lane law of S_INIT from SOFF = 32 (R220, R224). -/
theorem StreamRegs.init_laneState (full : st.soff.val = 32) {i : Nat} (hi : i < c.n) :
    (st.init c si).laneState i = (st.laneState i).init c.tables (laneBlock si i) := by
  have soff := (st.initSteps_frame c si 0 32).1
  rw [StreamRegs.init_eq_initSteps, StreamRegs.advance_laneState _ (by omega),
    st.initSteps_laneState c si hi 0 32 (by omega), LaneStream.init, List.range_eq_range']

end

/-- The S_STEP words of steps k, ..., k + n - 1 of S_INIT do those steps: SOFF tells each its external
iteration (R213, R214). -/
theorem runInstrs_initSteps {s : State} {k : Nat} (n : Nat) (hn : k + n ≤ 32)
    (soff : s.st.soff.val = 32 - k) :
    runInstrs ((List.range' k n).map fun k => .sStep .initializing (decide (k % 2 = 1))) s
      = .next { s with st := s.st.initSteps s.cfg s.wb.si k n } := by
  induction n generalizing k s with
  | zero => rfl
  | succ n ih =>
    have iter : s.st.extIter = k / 4 := by rw [StreamRegs.extIter]; omega
    have step := exec_sStep_initializing (s := s) (decide (k % 2 = 1)) (by omega)
    rw [List.range'_succ, List.map_cons, runInstrs_cons step, ih (by omega) ?_,
      StreamRegs.initSteps_succ, iter]
    rw [StreamRegs.initStep, StreamRegs.step_soff]
    omega

/-! ## The steps of S_GEN -/

/-- The registers after `k` generate steps. -/
def StreamRegs.genSteps (c : Build) (st : StreamRegs) : Nat → StreamRegs
  | 0 => st
  | k + 1 => (st.genSteps c k).genStep c

theorem LaneStream.genSteps_add (t : Tables) (v : LaneStream) (j k : Nat) :
    v.genSteps t (j + k) = (v.genSteps t j).genSteps t k := by
  induction k with
  | zero => rfl
  | succ k ih => rw [Nat.add_succ, LaneStream.genSteps, ih, LaneStream.genSteps]

section
variable (c : Build) (st : StreamRegs)

theorem StreamRegs.genSteps_add (j k : Nat) :
    st.genSteps c (j + k) = (st.genSteps c j).genSteps c k := by
  induction k with
  | zero => rfl
  | succ k ih => rw [Nat.add_succ, StreamRegs.genSteps, ih, StreamRegs.genSteps]

/-- SOFF moves down by one for each step, and the key stays. -/
theorem StreamRegs.genSteps_frame (k : Nat) :
    (st.genSteps c k).soff.val = st.soff.val - k
      ∧ (st.genSteps c k).iA = st.iA ∧ (st.genSteps c k).iB = st.iB := by
  induction k with
  | zero => exact ⟨rfl, rfl, rfl⟩
  | succ k ih =>
    obtain ⟨soff, keyA, keyB⟩ := ih
    refine ⟨?_, (StreamRegs.step_iA ..).trans keyA, (StreamRegs.step_iB ..).trans keyB⟩
    rw [StreamRegs.genSteps, StreamRegs.genStep, StreamRegs.step_soff, soff]
    omega

/-- The lane law of the steps of S_GEN (R224). -/
theorem StreamRegs.genSteps_laneState {i : Nat} (hi : i < c.n) (k : Nat) (hk : k ≤ st.soff.val) :
    (st.genSteps c k).laneState i = (st.laneState i).genSteps c.tables k := by
  induction k with
  | zero => rfl
  | succ k ih =>
    have soff := (st.genSteps_frame c k).1
    rw [StreamRegs.genSteps, StreamRegs.genStep_laneState _ _ (by omega) hi, ih (by omega),
      LaneStream.genSteps]

/-- The output of a step of S_GEN in a lane is the lane's own (R212, R224). -/
theorem StreamRegs.genSteps_out {i : Nat} (hi : i < c.n) {k : Nat} (hk : k < st.soff.val) :
    BitVec.ofBool ((st.genSteps c (k + 1)).out1.getLsbD i)
        ++ BitVec.ofBool ((st.genSteps c (k + 1)).out0.getLsbD i)
      = ((st.laneState i).genSteps c.tables (k + 1)).out :=
  (StreamRegs.step_out ..).trans (congrArg LaneStream.out (st.genSteps_laneState c hi (k + 1) hk))

/-- S_GEN's external iterations are four steps each, and iteration j gives slice j (R221). -/
theorem StreamRegs.genIters_eq (k : Nat) :
    st.genIters c k
      = (st.genSteps c (4 * k),
          (List.range k).map fun j => ((st.genSteps c (4 * j)).genIter c).2) := by
  induction k generalizing st with
  | zero => rfl
  | succ k ih =>
    have first : (st.genIter c).1 = st.genSteps c 4 := rfl
    have later (j : Nat) : (st.genSteps c 4).genSteps c (4 * j) = st.genSteps c (4 * (j + 1)) := by
      rw [← StreamRegs.genSteps_add, Nat.mul_succ, Nat.add_comm]
    simp only [StreamRegs.genIters, first, ih, later, List.range_succ_eq_map, List.map_cons,
      List.map_map]
    rfl

/-- S_GEN's registers are those of its 32 internal steps and S_ADVANCE (R221). -/
theorem StreamRegs.gen_fst : (st.gen c).1 = (st.genSteps c 32).advance := by
  rw [StreamRegs.gen, StreamRegs.genIters_eq]

end

/-! ## The keystream block -/

/-- Four 2-bit outputs accumulated from 0, the first the most significant (R221). -/
theorem accum_outputs : ∀ a1 a0 b1 b0 c1 c0 d1 d0 : Bool,
    let out (o1 o0 : Bool) : Byte := (if o1 then 2 else 0) ||| (if o0 then 1 else 0)
    (((0#8 <<< 2 ||| out a1 a0) <<< 2 ||| out b1 b0) <<< 2 ||| out c1 c0) <<< 2 ||| out d1 d0
      = (BitVec.ofBool a1 ++ BitVec.ofBool a0) ++ (BitVec.ofBool b1 ++ BitVec.ofBool b0)
        ++ (BitVec.ofBool c1 ++ BitVec.ofBool c0) ++ (BitVec.ofBool d1 ++ BitVec.ofBool d0) := by
  decide

section
variable (c : Build) (st : StreamRegs)

/-- The byte that an external iteration of S_GEN gives a lane is the lane's four outputs (R221). -/
theorem StreamRegs.genIter_byte {i : Nat} (hi : i < c.n) (h : i < maxLanes) (hs : 4 ≤ st.soff.val) :
    (st.genIter c).2[i]
      = ((st.laneState i).genSteps c.tables 1).out ++ ((st.laneState i).genSteps c.tables 2).out
        ++ ((st.laneState i).genSteps c.tables 3).out
        ++ ((st.laneState i).genSteps c.tables 4).out := by
  rw [← st.genSteps_out c hi (k := 0) (by omega), ← st.genSteps_out c hi (k := 1) (by omega),
    ← st.genSteps_out c hi (k := 2) (by omega), ← st.genSteps_out c hi (k := 3) (by omega),
    ← accum_outputs]
  simp only [StreamRegs.genIter, StreamRegs.accum, StreamRegs.outLane, sliceOf_getElem,
    sliceBcast_getElem, Fin.getElem_fin, if_pos hi]
  rfl

/-- The lane law of S_GEN's registers from SOFF = 32 (R221, R224). -/
theorem StreamRegs.gen_laneState (full : st.soff.val = 32) {i : Nat} (hi : i < c.n) :
    (st.gen c).1.laneState i = (st.laneState i).gen c.tables := by
  have soff := (st.genSteps_frame c 32).1
  rw [StreamRegs.gen_fst, StreamRegs.advance_laneState _ (by omega),
    st.genSteps_laneState c hi 32 (by omega), LaneStream.gen]

/-- The lane law of S_GEN's keystream block from SOFF = 32 (R221, R224). -/
theorem StreamRegs.gen_block (full : st.soff.val = 32) {i : Nat} (hi : i < c.n) :
    laneBlock (st.gen c).2 i = (st.laneState i).block c.tables := by
  have lane : i < maxLanes := hi.trans_le (Build.n_le c)
  refine Vector.ext fun j hj => ?_
  have soff := (st.genSteps_frame c (4 * j)).1
  have slice : j < ((List.range 8).map fun j => ((st.genSteps c (4 * j)).genIter c).2).length := by
    simpa using hj
  rw [laneBlock_of_lt _ lane, StreamRegs.gen, StreamRegs.genIters_eq]
  simp only [blocksOf, Vector.getElem_ofFn, Fin.getElem_fin, List.getD_eq_getElem _ _ slice,
    List.getElem_map, List.getElem_range]
  rw [StreamRegs.genIter_byte c _ hi lane (by omega), st.genSteps_laneState c hi _ (by omega)]
  simp only [LaneStream.block, Vector.getElem_ofFn, LaneStream.genSteps_add]

end

/-! ## S_INIT and S_GEN -/

section
variable {s : State} (full : s.st.soff.val = 32)
include full

theorem exec_sInit : exec .sInit s = .next { s with st := s.st.init s.cfg s.wb.si } :=
  if_neg (by omega)

theorem exec_sGen : exec .sGen s
    = .next { s with st := (s.st.gen s.cfg).1, wb := { s.wb with so := (s.st.gen s.cfg).2 } } :=
  if_neg (by omega)

/-- S_INIT and its 33 operations do the same (R220). -/
theorem runInstrs_init :
    runInstrs
        ((List.range 32).map (fun k => .sStep .initializing (decide (k % 2 = 1))) ++ [.sAdvance]) s
      = .next { s with st := s.st.init s.cfg s.wb.si } := by
  rw [List.range_eq_range', runInstrs_append (runInstrs_initSteps 32 (by omega) full),
    StreamRegs.init_eq_initSteps]
  rfl

end

/-- Settles O37: both calls are 32 internal steps and S_ADVANCE. -/
theorem streamCalls : Obligations.StreamCalls := by
  intro s full
  refine ⟨⟨_, exec_sInit full, rfl, runInstrs_init full,
    fun i hi => s.st.init_laneState s.cfg s.wb.si full hi, rfl, ?_⟩,
    ⟨_, exec_sGen full, rfl,
      fun i hi => ⟨s.st.gen_laneState s.cfg full hi, s.st.gen_block s.cfg full hi⟩, rfl, ?_⟩⟩
  · obtain ⟨_, keyA, keyB⟩ := s.st.initSteps_frame s.cfg s.wb.si 0 32
    dsimp only
    rw [StreamRegs.init_eq_initSteps, StreamRegs.advance_iA, StreamRegs.advance_iB]
    exact ⟨keyA, keyB, fun _ => rfl⟩
  · obtain ⟨_, keyA, keyB⟩ := s.st.genSteps_frame s.cfg 32
    dsimp only
    rw [StreamRegs.gen_fst, StreamRegs.advance_iA, StreamRegs.advance_iB]
    exact ⟨keyA, keyB, fun _ => rfl⟩

/-! ## The keystream of a lane (R224, R226) -/

/-- After `k` S_GENs from SOFF = 32, SOFF is 32 again and every lane is `k` scalar S_GENs further. -/
theorem runInstrs_gens {s : State} (full : s.st.soff.val = 32) (k : Nat) :
    ∃ t, runInstrs (List.replicate k .sGen) s = .next t ∧ t.cfg = s.cfg ∧ t.st.soff.val = 32
      ∧ ∀ i, i < s.cfg.n → t.st.laneState i = (s.st.laneState i).gens s.cfg.tables k := by
  induction k with
  | zero => exact ⟨s, rfl, rfl, full, fun _ _ => rfl⟩
  | succ k ih =>
    obtain ⟨t, run, cfg, soff, lanes⟩ := ih
    have last : runInstrs [.sGen] t = .next _ := runInstrs_cons (exec_sGen soff) []
    rw [List.replicate_succ']
    refine ⟨_, (runInstrs_append run _).trans last, cfg, rfl, fun i hi => ?_⟩
    dsimp only
    rw [cfg, StreamRegs.gen_laneState _ _ soff hi, lanes i hi, LaneStream.gens]

/-- K_BCAST, S_LOAD and S_INIT bring every lane to the scalar state of the key and its own seed (R225). -/
theorem runInstrs_seeded {s : State} {p : Parity} {key : Bytes 8}
    (latched : s.pending.cw.get p = key.toList) :
    ∃ t, runInstrs [.kBcast p, .sLoad, .sInit] s = .next t ∧ t.cfg = s.cfg ∧ t.st.soff.val = 32
      ∧ ∀ i, i < s.cfg.n → t.st.laneState i
          = (LaneStream.load (streamKeyA key) (streamKeyB key)).init s.cfg.tables
              (laneBlock s.wb.si i) := by
  obtain ⟨keyed, bcast, keyLanes, _, keyedFrame, _⟩ := keyBroadcast s p key latched
  obtain ⟨loaded, load, full, loadLanes, loadedFrame, _⟩ := streamLoad.2 keyed
  obtain ⟨⟨t, init, soff, _, initLanes, initFrame, _⟩, _⟩ := streamCalls loaded full
  have cfg : loaded.cfg = s.cfg := by rw [loadedFrame, keyedFrame]
  have wb : loaded.wb = s.wb := by rw [loadedFrame, keyedFrame]
  refine ⟨t, ?_, (congrArg State.cfg initFrame).trans cfg, soff, fun i hi => ?_⟩
  · rw [runInstrs_cons bcast, runInstrs_cons load, runInstrs_cons init]
    rfl
  · have keyA : (Vector.ofFn fun m => (keyed.st.iA[m]).lane i) = streamKeyA key :=
      Vector.ext fun m hm => (Vector.getElem_ofFn hm).trans (keyLanes ⟨m, hm⟩ i hi).1
    have keyB : (Vector.ofFn fun m => (keyed.st.iB[m]).lane i) = streamKeyB key :=
      Vector.ext fun m hm => (Vector.getElem_ofFn hm).trans (keyLanes ⟨m, hm⟩ i hi).2
    rw [initLanes i (by rwa [cfg]), loadLanes i, keyA, keyB, cfg, wb]

/-- Settles O39: the last S_GEN gives the block of the scalar state that `k - 1` S_GENs have left. -/
theorem keystreamOfALane : Obligations.KeystreamOfALane := by
  intro s p key k latched pos
  obtain ⟨j, rfl⟩ : ∃ j, k = j + 1 := ⟨k - 1, by omega⟩
  obtain ⟨seeded, seed, cfg, full, seededLanes⟩ := runInstrs_seeded latched
  obtain ⟨u, gens, genCfg, soff, lanes⟩ := runInstrs_gens full j
  have last : runInstrs [.sGen] u = .next _ := runInstrs_cons (exec_sGen soff) []
  rw [List.replicate_succ']
  refine ⟨_, (runInstrs_append seed _).trans ((runInstrs_append gens _).trans last), fun i hi => ?_⟩
  rw [cfg] at genCfg lanes
  dsimp only
  rw [genCfg, StreamRegs.gen_block _ _ soff hi, lanes i hi, seededLanes i hi, keystream,
    Nat.add_sub_cancel]

end Sys2Proof.Machine
end

section
/-!
Where an engine operation stops by name (log 12, log 13, log 32): a push with no slot left, and an access
of which a byte is not valid (spec/20_memory.md R80).
-/

namespace Sys2Proof.Machine

/-! ## A push with no slot left (R213, R220, R221, R245, R250) -/

section
variable {s : State}

theorem exec_sStep_underflow (h : s.st.soff.val = 0) (mode : StepMode) (jOdd : Bool) :
    exec (.sStep mode jOdd) s = .fault .ringUnderflow := if_pos h

theorem exec_bcRound_underflow (h : s.bk.boff.val = 0) (t : Fin 56) :
    exec (.bcRound t) s = .fault .ringUnderflow := if_pos h

theorem exec_bcDecipher_underflow (h : s.bk.boff.val < 56) :
    exec .bcDecipher s = .fault .ringUnderflow := if_pos h

/-- The operations that push 32 times. -/
theorem exec_stream_underflow (h : s.st.soff.val < 32) :
    exec .sInit s = .fault .ringUnderflow ∧ exec .sGen s = .fault .ringUnderflow
      ∧ ∀ it, exec (.scRound it) s = .fault .ringUnderflow :=
  ⟨if_pos h, if_pos h, fun _ => if_pos h⟩

end

/-! ## An access to a byte that is not valid (R80) -/

/-- An access is refused when one of its bytes is not valid. -/
theorem accessOk_eq_false {c : Build} {a n k : Nat} (hk : k < n) (invalid : memValid c (a + k) = false) :
    accessOk c a n = false :=
  Bool.eq_false_of_not_eq_true fun ok => by
    simpa [invalid] using (accessOk_iff c a n).mp ok k hk

/-- A check of all slots of a list fails when that of one of them does. -/
theorem all_slots_eq_false {slots : List Nat} {ok : Nat → Bool} {g : Nat} (hg : g ∈ slots)
    (bad : ok g = false) : slots.all ok = false :=
  List.all_eq_false.mpr ⟨g, hg, by simp [bad]⟩

section
variable {s : State}

/-- A packet operation stops when a byte of its blocks is not valid (R376 to R378). -/
theorem State.packetOp_invalid {b : Nat} (dec : Bytes b → Bytes b) {a : Nat}
    (low : s.ecb.op.pkt + s.ecb.op.off ≤ a)
    (high : a < s.ecb.op.pkt + s.ecb.op.off + b * s.ecb.op.nb) (invalid : memValid s.cfg a = false) :
    s.packetOp b dec = .fault .invalidAccess := by
  obtain ⟨k, rfl⟩ := Nat.exists_eq_add_of_le low
  have refused := accessOk_eq_false (n := b * s.ecb.op.nb) (by omega) invalid
  simp only [State.packetOp, refused, Bool.false_eq_true, if_false]

/-- SC_ROUND0 stops when a byte of an admitted packet's first block is not valid (R300). -/
theorem exec_scRound0_invalid {g k : Nat} (hg : g < s.sc.grouped) (hk : k < 8)
    (invalid : memValid s.cfg (s.sc.payloadAt g + k) = false) :
    exec .scRound0 s = .fault .invalidAccess := by
  have refused : round0AccessOk s = false :=
    all_slots_eq_false (List.mem_range.mpr hg) (accessOk_eq_false hk invalid)
  exact if_neg (by simp [refused])

/-- SC_ROUND23 stops when a byte of the last block of a slot it drains is not valid (R308). -/
theorem exec_scRound23_invalid {g k : Nat} (low : s.sc.alive[23] ≤ g) (high : g < s.sc.alive[22])
    (hk : k < 8) (invalid : memValid s.cfg (s.sc.encpAt g - 8 + k) = false) :
    exec .scRound23 s = .fault .invalidAccess := by
  have refused : drainAccessOk s = false :=
    all_slots_eq_false (List.mem_range'_1.mpr ⟨low, by omega⟩)
      (by rw [accessOk_eq_false hk invalid, Bool.and_false])
  exact if_neg (by simp [refused])

/-- SC_ROUND stops when a slot that it works has no block before `encp`, or a byte of its part of the
round is not valid (R302). -/
theorem exec_scRound_invalid (it : SchedRound) {g : Nat} (full : s.st.soff.val = 32)
    (hg : g < max (s.sc.aliveBefore it.val) (s.sc.aliveAfter it.val))
    (bad : s.sc.encpAt g < 8 ∨ ∃ k, k < roundWidth s (s.sc.aliveAfter it.val) g
      ∧ memValid s.cfg (s.sc.encpAt g - 8 + k) = false) :
    exec (.scRound it) s = .fault .invalidAccess := by
  have slot : (decide (8 ≤ s.sc.encpAt g) && accessOk s.cfg (s.sc.encpAt g - 8)
      (roundWidth s (s.sc.aliveAfter it.val) g)) = false := by
    rcases bad with below | ⟨k, hk, invalid⟩
    · rw [decide_eq_false (by omega), Bool.false_and]
    · rw [accessOk_eq_false hk invalid, Bool.and_false]
  have refused : roundAccessOk s it.val = false := all_slots_eq_false (List.mem_range.mpr hg) slot
  exact (if_neg (by omega)).trans (if_neg (by simp [refused]))

/-- SC_SCAN stops at the first packet when its byte 3 is not valid (R270, R280). -/
theorem exec_scScan_invalid {r : Range} {rest : List Range} (ranges : s.pending.ranges = r :: rest)
    (nonempty : r.start.toNat < r.stop.toNat) (invalid : memValid s.cfg (r.start.toNat + 3) = false) :
    exec .scScan s = .fault .invalidAccess := by
  have unread : classify s.cfg s.mem r.start.toNat = none := by
    simp [classify, frame, readByte?, invalid]
  obtain ⟨k, count⟩ : ∃ k, rangePackets r.start.toNat r.stop.toNat = k + 1 :=
    Nat.exists_eq_add_one.mpr (by unfold rangePackets pktBytes; omega)
  have scan : scanAll s.cfg s.mem s.pending.ranges s.sc = none := by
    simp [ranges, scanAll, scanRanges, count, scanPackets, SchedRegs.scanInit, nonempty, unread]
  simp only [exec, execScScan, scan]

end

/-- Settles O60: each operation's check fails, and the check comes before any effect. -/
theorem stopsOutsideThePreconditions : Obligations.StopsOutsideThePreconditions := fun _ =>
  ⟨fun mode jOdd h => exec_sStep_underflow h mode jOdd, exec_stream_underflow,
    fun t h => exec_bcRound_underflow h t, exec_bcDecipher_underflow,
    fun _ low invalid => ⟨fun high => State.packetOp_invalid _ low high invalid, fun high =>
      ⟨State.packetOp_invalid _ low high invalid, State.packetOp_invalid _ low high invalid⟩⟩,
    fun _ _ hg hk invalid => exec_scRound0_invalid hg hk invalid,
    fun _ _ low high hk _ invalid => exec_scRound23_invalid low high hk invalid,
    fun it _ full hg bad => exec_scRound_invalid it full hg bad,
    fun _ _ ranges nonempty invalid => exec_scScan_invalid ranges nonempty invalid⟩

end Sys2Proof.Machine
end

section
/-!
The block cipher (spec/43_block_cipher.md R240 to R252): the slots of the block register as one lane reads
them, the round in ring form as the scalar round of every lane, and BC_DECIPHER as its 56 rounds one after
another.
-/

namespace Sys2Proof.Machine

/-! ## The registers and the key of a lane (R241) -/

section
variable (bk : BlockRegs) (g : Fin maxLanes)

theorem BlockRegs.laneRegs_getElem {m : Nat} (hm : m < 8) :
    (bk.laneRegs g)[m] = bk.br[bk.boff.val + m][g] := Vector.getElem_ofFn hm

theorem BlockRegs.laneKey_getD {i : Nat} (hi : i < 56) : (bk.laneKey g).getD i 0 = bk.kk[i][g] := by
  rw [vector_getD_of_lt _ _ _ hi]
  exact Vector.getElem_ofFn hi

/-- With BOFF = 0 the logical register is BR[0..7] (R251). -/
theorem BlockRegs.laneRegs_of_bottom (bottom : bk.boff.val = 0) (j : Fin 8) :
    (bk.laneRegs g)[j] = (bk.br.getD j.val (Vector.replicate maxLanes 0))[g] := by
  have slot : bk.boff.val + j.val = j.val := by omega
  rw [Fin.getElem_fin, laneRegs_getElem _ _ j.isLt, vector_getD_of_lt _ _ _ (by omega)]
  simp only [slot]

end

/-! ## BC_LOAD and BC_STORE (R242, R251) -/

theorem BlockRegs.load_kk (n c : Nat) (ib : Vector Block maxLanes) (bk : BlockRegs) :
    (bk.load n c ib).kk = bk.kk := by rw [BlockRegs.load, BlockRegs.setBank]

section
variable {n c : Nat} (hc : c ≤ n) (bk : BlockRegs)
include hc

/-- What a lane reads in a slot after BC_LOAD: the bytes of its block if it is below `c` and the slot is in
BR[56..63], and what the slot held otherwise (log 31). -/
theorem BlockRegs.load_br_getElem (ib : Vector Block maxLanes) {m : Nat} (hm : m < 64)
    (g : Fin maxLanes) :
    ((bk.load n c ib).br[m])[g]
      = if 56 ≤ m ∧ g.val < c then ib[g][m - 56]'(by omega) else bk.br[m][g] := by
  have base : (56 : Fin 57).val = 56 := rfl
  have slots := setBank_br bk 56 (transposeInBytes n c ib (bk.bank 56)) m hm
  by_cases bank : 56 ≤ m
  · have hj : m - 56 < 8 := by omega
    have slot : 56 + (m - 56) = m := by omega
    have byte := transposeInBytes_getElem hc ib (bk.bank 56) g ⟨m - 56, hj⟩
    simp only [Fin.getElem_fin, bank_getElem _ _ _ hj, base, slot] at byte
    rw [dif_pos (by omega)] at slots
    simp only [bank, true_and]
    exact (congrArg (·[g]) slots).trans byte
  · rw [dif_neg (by omega)] at slots
    rw [if_neg (by omega)]
    exact congrArg (·[g]) slots

/-- BC_LOAD puts the block of a lane below `c` in the lane's registers. -/
theorem BlockRegs.load_laneRegs (ib : Vector Block maxLanes) {g : Fin maxLanes} (hg : g.val < c) :
    (bk.load n c ib).laneRegs g = ib[g] := by
  refine Vector.ext fun m hm => ?_
  have boff : (bk.load n c ib).boff.val = 56 := rfl
  have byte : 56 + m - 56 = m := by omega
  simp only [laneRegs_getElem _ _ hm, boff]
  rw [load_br_getElem hc bk ib (by omega), if_pos (by omega)]
  simp only [byte]

/-- BC_LOAD keeps the slots below 56 and the lanes from `c` on (R242, log 31). -/
theorem BlockRegs.load_br_kept (ib : Vector Block maxLanes) (m : Fin 64) (g : Fin maxLanes)
    (h : m.val < 56 ∨ c ≤ g.val) : ((bk.load n c ib).br[m])[g] = (bk.br[m])[g] :=
  (load_br_getElem hc bk ib m.isLt g).trans (if_neg (by omega))

/-- BC_STORE takes the block of a lane below `c` from BR[0..7]. -/
theorem BlockRegs.store_getElem (bo : Vector Block maxLanes) {g : Fin maxLanes} (hg : g.val < c)
    (j : Fin 8) :
    ((bk.store n c bo)[g])[j] = (bk.br.getD j.val (Vector.replicate maxLanes 0))[g] := by
  have out := transposeOutBytes_getElem hc bo (bk.bank 0) g hg j
  rw [laneBlock_of_lt _ g.isLt, Fin.getElem_fin (bk.bank 0), bank_getElem _ _ _ j.isLt] at out
  rw [BlockRegs.store, vector_getD_of_lt _ _ _ (by omega)]
  simpa using out

/-- BC_STORE keeps the blocks of the lanes from `c` on. -/
theorem BlockRegs.store_of_le (bo : Vector Block maxLanes) {g : Fin maxLanes} (hg : c ≤ g.val) :
    (bk.store n c bo)[g] = bo[g] := by
  have kept := transposeOutBytes_of_le hc bo (bk.bank 0) hg
  rwa [laneBlock_of_lt _ g.isLt, laneBlock_of_lt _ g.isLt] at kept

end

/-- A state that differs in the block registers, but not in the key, differs in BR and BOFF. -/
theorem State.blockRegs_frame (s : State) {bk : BlockRegs} (kk : bk.kk = s.bk.kk) :
    ({ s with bk := bk } : State)
      = { s with bk := { s.bk with br := bk.br, boff := bk.boff } } := by
  simp only [← kk]

/-- Settles O40, from the two byte transposers on the banks BR[56..63] and BR[0..7]. -/
theorem blockLoadAndStore : Obligations.BlockLoadAndStore := fun s hc =>
  ⟨⟨_, rfl, rfl, fun _ hg => s.bk.load_laneRegs hc _ hg, s.bk.load_br_kept hc _,
      s.blockRegs_frame (s.bk.load_kk _ _ _), fun _ => rfl⟩,
    ⟨_, rfl, fun _ j hg => s.bk.store_getElem hc _ hg j, fun _ hg => s.bk.store_of_le hc _ hg, rfl,
      fun _ => rfl⟩⟩

/-! ## One round in ring form (R245) -/

/-- The slots with `v` XORed into slot `i`. -/
def xorSlot (n : Nat) (br : Vector Slice 64) (i : Nat) (v : Slice) (hi : i < 64 := by omega) :
    Vector Slice 64 := br.set i (sliceXor n br[i] v)

theorem xorSlot_getElem (n : Nat) (br : Vector Slice 64) {i m : Nat} (v : Slice) (hi : i < 64)
    (hm : m < 64) : (xorSlot n br i v hi)[m] = if i = m then sliceXor n br[m] v else br[m] := by
  rw [xorSlot, Vector.getElem_set]
  split
  · next same => simp only [same]
  · rfl

section
variable (c : Build) (k : Slice) (br : Vector Slice 64) (b : Fin 56)

/-- `so` of R245, b' = `b`: the substitution of the old R[7] with the key slice. -/
def roundSub : Slice := sliceSbox c.tables c.n (sliceXor c.n k br[b.val + 7])

/-- The new R[1] of R245. -/
def roundFirst : Slice := sliceXor c.n br[b.val + 8] (roundSub c k br b)

/-- A round puts the new R[1] in slot b', XORs PERM of `so` into slot b' + 6, and XORs the new R[1] into
slots b' + 4, b' + 3 and b' + 2 (R245). -/
theorem roundSlots_eq :
    roundSlots c k br b
      = xorSlot c.n (xorSlot c.n (xorSlot c.n (xorSlot c.n (br.set b.val (roundFirst c k br b))
          (b.val + 6) (slicePerm c (roundSub c k br b)))
          (b.val + 4) (roundFirst c k br b))
          (b.val + 3) (roundFirst c k br b))
          (b.val + 2) (roundFirst c k br b) := by
  simp [roundSlots, xorSlot, roundFirst, roundSub]

/-- A round leaves a slot alone that it does not write. -/
theorem roundSlots_outside {m : Nat} (hm : m < 64) (h : m < b.val ∨ b.val + 6 < m) :
    (roundSlots c k br b)[m] = br[m] := by
  rw [roundSlots_eq, xorSlot_getElem, if_neg (by omega), xorSlot_getElem, if_neg (by omega),
    xorSlot_getElem, if_neg (by omega), xorSlot_getElem, if_neg (by omega),
    Vector.getElem_set_ne _ _ (by omega)]

end

section
variable (c : Build) (t : Fin 56) (bk : BlockRegs)

theorem BlockRegs.round_boff : (bk.round c t).boff.val = bk.boff.val - 1 := rfl

theorem BlockRegs.round_kk : (bk.round c t).kk = bk.kk := rfl

theorem BlockRegs.round_laneKey (g : Fin maxLanes) : (bk.round c t).laneKey g = bk.laneKey g := rfl

/-- Slots outside the old and the new logical register stay (log 31). -/
theorem BlockRegs.round_br_outside (m : Fin 64)
    (h : m.val < bk.boff.val - 1 ∨ bk.boff.val + 7 ≤ m.val) : (bk.round c t).br[m] = bk.br[m] :=
  have outside : m.val < bk.boff.val - 1 ∨ bk.boff.val - 1 + 6 < m.val := by omega
  roundSlots_outside _ _ _ _ m.isLt outside

/-- The lane law of one round (R243, R245). -/
theorem BlockRegs.round_laneRegs (pos : 1 ≤ bk.boff.val) {g : Fin maxLanes} (hg : g.val < c.n) :
    (bk.round c t).laneRegs g
      = roundBlock c.tables ((bk.laneKey g).getD (55 - t.val) 0) (bk.laneRegs g) := by
  obtain ⟨b, boff⟩ : ∃ b : Fin 56, b.val + 1 = bk.boff.val :=
    ⟨⟨bk.boff.val - 1, by omega⟩, Nat.sub_add_cancel pos⟩
  have old (m : Nat) (hm : m < 8) : (bk.laneRegs g)[m] = bk.br[b.val + (m + 1)][g] := by
    have slot : bk.boff.val + m = b.val + (m + 1) := by omega
    simp only [laneRegs_getElem _ _ hm, slot]
  have new (m : Nat) (hm : m < 8) : ((bk.round c t).laneRegs g)[m]
      = (roundSlots c bk.kk[55 - t.val] bk.br b)[b.val + m][g] := by
    have slot : bk.boff.val - 1 = b.val := by omega
    simp only [laneRegs_getElem _ _ hm, BlockRegs.round, slot]
  rw [laneKey_getD _ _ (by omega)]
  refine Vector.ext fun m hm => ?_
  rw [new m hm, roundSlots_eq]
  match m, hm with
  | 0, _ | 1, _ | 2, _ | 3, _ | 4, _ | 5, _ | 6, _ | 7, _ =>
    simp [xorSlot_getElem, roundFirst, roundSub, slicePerm_getElem, hg, roundBlock, old,
      BitVec.xor_assoc]

end

theorem exec_bcRound {s : State} (pos : 1 ≤ s.bk.boff.val) (t : Fin 56) :
    exec (.bcRound t) s = .next { s with bk := s.bk.round s.cfg t } := if_neg (by omega)

/-- Settles O41, by the lane law of one round. -/
theorem blockRound : Obligations.BlockRound := fun s i pos =>
  ⟨_, exec_bcRound pos i, s.bk.round_boff s.cfg i, fun _ hg => s.bk.round_laneRegs s.cfg i pos hg,
    s.bk.round_br_outside s.cfg i, s.blockRegs_frame (s.bk.round_kk s.cfg i), fun _ => rfl⟩

/-! ## The 56 rounds (R249, R250) -/

section
variable (c : Build) (bk : BlockRegs)

/-- BOFF moves down by one for each round, and the key stays. -/
theorem BlockRegs.rounds_frame (k : Nat) (hk : k ≤ 56) :
    (bk.rounds c k hk).boff.val = bk.boff.val - k ∧ (bk.rounds c k hk).kk = bk.kk := by
  induction k generalizing bk with
  | zero => exact ⟨rfl, rfl⟩
  | succ k ih =>
    obtain ⟨boff, kk⟩ := ih (bk.round c ⟨55 - k, by omega⟩) (by omega)
    rw [BlockRegs.rounds, boff, kk, round_boff, round_kk]
    exact ⟨by omega, rfl⟩

/-- The lane law of the last `k` rounds, 56 - k to 55. -/
theorem BlockRegs.rounds_laneRegs {g : Fin maxLanes} (hg : g.val < c.n) (k : Nat) (hk : k ≤ 56)
    (room : k ≤ bk.boff.val) :
    (bk.rounds c k hk).laneRegs g
      = (List.range' (56 - k) k).foldl
          (fun r i => roundBlock c.tables ((bk.laneKey g).getD (55 - i) 0) r) (bk.laneRegs g) := by
  induction k generalizing bk with
  | zero => rfl
  | succ k ih =>
    have first : 56 - (k + 1) = 55 - k := by omega
    have next : 55 - k + 1 = 56 - k := by omega
    rw [BlockRegs.rounds, ih _ (by omega) (by rw [round_boff]; omega), round_laneKey,
      round_laneRegs _ _ _ (by omega) hg, List.range'_succ, List.foldl_cons, first, next]

/-- BC_DECIPHER from BOFF = 56 leaves D of the lane's key bytes and registers in every lane. -/
theorem BlockRegs.decipher_laneRegs (full : bk.boff.val = 56) {g : Fin maxLanes} (hg : g.val < c.n) :
    (bk.decipher c).laneRegs g = decipherBlock c.tables (bk.laneKey g) (bk.laneRegs g) := by
  rw [decipher, rounds_laneRegs c bk hg 56 _ (by omega), decipherBlock, List.range_eq_range']

end

/-- The BC_ROUND words of the last `k` rounds do those rounds. -/
theorem runInstrs_rounds {s : State} (k : Nat) (hk : k ≤ 56) (room : k ≤ s.bk.boff.val) :
    runInstrs (((List.finRange 56).drop (56 - k)).map .bcRound) s
      = .next { s with bk := s.bk.rounds s.cfg k hk } := by
  induction k generalizing s with
  | zero => rfl
  | succ k ih =>
    have head : (List.finRange 56).drop (56 - (k + 1))
        = ⟨55 - k, by omega⟩ :: (List.finRange 56).drop (56 - k) := by
      have first : 56 - (k + 1) = 55 - k := by omega
      have next : 55 - k + 1 = 56 - k := by omega
      rw [first, List.drop_eq_getElem_cons (by simp; omega), List.getElem_finRange, next]
      rfl
    rw [head, List.map_cons, runInstrs_cons (exec_bcRound (by omega) _),
      ih (by omega) (by rw [BlockRegs.round_boff]; omega), BlockRegs.rounds]

theorem exec_bcDecipher {s : State} (full : s.bk.boff.val = 56) :
    exec .bcDecipher s = .next { s with bk := s.bk.decipher s.cfg } := if_neg (by omega)

/-- Settles O42: the 56 rounds run one after another, and each is the scalar round in every lane. -/
theorem blockDecipher : Obligations.BlockDecipher := by
  intro s full
  obtain ⟨boff, kk⟩ := s.bk.rounds_frame s.cfg 56 (by omega)
  exact ⟨_, exec_bcDecipher full, runInstrs_rounds 56 (by omega) (by omega), boff.trans (by omega),
    fun _ hg => s.bk.decipher_laneRegs s.cfg full hg, s.blockRegs_frame kk, fun _ => rfl⟩

/-! ## The lane law of the block cipher (R252) -/

/-- Settles O43: the effects of the three operations one after another, as O40 and O42 give them. -/
theorem blockCipherOfALane : Obligations.BlockCipherOfALane := by
  intro s hc
  obtain ⟨⟨loaded, load, full, loadLanes, _, loadFrame, loadMem⟩, _⟩ := blockLoadAndStore s hc
  obtain ⟨u, decipher, _, bottom, lanes, frame, mem⟩ := blockDecipher loaded full
  have cfg : u.cfg = s.cfg := by rw [frame, loadFrame]
  have pr : u.pr = s.pr := by rw [frame, loadFrame]
  have wb : u.wb = s.wb := by rw [frame, loadFrame]
  have key (g : Fin maxLanes) : loaded.bk.laneKey g = s.bk.laneKey g := by rw [loadFrame]; rfl
  have loadedCfg : loaded.cfg = s.cfg := by rw [loadFrame]
  obtain ⟨_, t, store, storeLanes, kept, _, storeMem⟩ := blockLoadAndStore u (by rwa [cfg, pr])
  rw [pr] at storeLanes kept
  refine ⟨t, ?_, fun g hg => ?_, fun g hg => (kept g hg).trans (by rw [wb]),
    fun a => (storeMem a).trans ((mem a).trans (loadMem a))⟩
  · rw [runInstrs_cons load, runInstrs_cons decipher, runInstrs_cons store]
    rfl
  · calc t.wb.bo[g]
        = u.bk.laneRegs g := Vector.ext fun j hj =>
          (storeLanes g ⟨j, hj⟩ hg).trans (u.bk.laneRegs_of_bottom g bottom ⟨j, hj⟩).symm
      _ = decipherBlock s.cfg.tables (s.bk.laneKey g) s.wb.ib[g] := by
          rw [lanes g (by rw [loadedCfg]; omega), loadLanes g hg, key, loadedCfg]

end Sys2Proof.Machine
end

section
/-!
The sequencer's moves in a CSA completion (spec/44_batch_scheduler.md R298, R310, R313, spec/45_commands.md
R352), and SC_COMPACT (R283, R311), which ends it.
-/

namespace Sys2Proof.Machine

/-! ## The order of the operations (R310, R352) -/

/-- With no operation issued, a completion in work takes the sequencer's next move. -/
theorem step_eq_sequence {s : State} (uops : s.uops = []) (phase : s.phase ≠ .idle) :
    step s = s.sequence := by
  simp only [step, uops, if_pos phase]

/-- A completion that is due begins. -/
theorem step_due {s : State} (uops : s.uops = []) (phase : s.phase = .idle)
    (due : s.completionDue = true) : step s = .next s.beginCompletion := by
  simp [step, uops, phase, due]

section
variable {s : State} (uops : s.uops = [])
include uops

/-- The key check comes after the scan (R298). -/
theorem step_scan_csa (phase : s.phase = .scan) (csa : s.pending.kind = .csa) :
    step s = .next s.afterScan := by
  rw [step_eq_sequence uops (by simp [phase])]
  simp only [State.sequence, phase, csa, if_true]

theorem step_sort (phase : s.phase = .sort) : step s = s.afterSort := by
  rw [step_eq_sequence uops (by simp [phase])]
  simp only [State.sequence, phase]

/-- The next round comes after a round (R310). -/
theorem step_rounds_csa (phase : s.phase = .rounds) (csa : s.pending.kind = .csa) :
    step s = s.afterRound := by
  rw [step_eq_sequence uops (by simp [phase])]
  simp only [State.sequence, phase, csa, if_true]

end

section
variable {s : State}

/-- Without a missing key, SC_SORT and SC_ALIVE follow the scan. -/
theorem State.afterScan_keyed (key : s.sc.grouped = 0 ∨ s.pending.valid.get s.sc.gpar = true) :
    s.afterScan = { s with phase := .sort, uops := [0x5100, 0x5200] } := by
  have present : ¬ (s.sc.grouped > 0 ∧ s.pending.valid.get s.sc.gpar = false) := by
    rintro ⟨pos, missing⟩
    rcases key with none | valid
    · omega
    · simp [valid] at missing
  exact if_neg present

/-- A batch goes to the rounds. -/
theorem State.afterSort_batch (pos : 0 < s.sc.grouped) :
    s.afterSort = .next { s with phase := .rounds, iter := 0, uops := [0x5300] } := if_pos pos

/-- Without TSC_CLEAR, entering the write-back only issues SC_COMPACT. -/
theorem State.enterWriteback_of_not_tscClear (clear : s.cfg.tscClear = false) :
    s.enterWriteback = .next { s with phase := .writeback, uops := [0x5600] } := by
  simp only [State.enterWriteback, clear, Bool.false_eq_true, if_false]
  rfl

/-- With an empty batch, entering the write-back only issues SC_COMPACT: there is no packet to mark. -/
theorem State.enterWriteback_of_empty (empty : s.sc.grouped = 0) :
    s.enterWriteback = .next { s with phase := .writeback, uops := [0x5600] } := by
  cases clear : s.cfg.tscClear with
  | false => exact State.enterWriteback_of_not_tscClear clear
  | true =>
    simp only [State.enterWriteback, clear, empty, List.range_zero, List.all_nil, clearSlots, if_true]
    rfl

/-- An empty batch has no rounds (R310). -/
theorem State.afterSort_empty (empty : s.sc.grouped = 0) :
    s.afterSort = .next { s with phase := .writeback, uops := [0x5600] } :=
  (if_neg (by omega)).trans (State.enterWriteback_of_empty empty)

/-- After SC_ROUND0 to SC_ROUND(21), the next SC_ROUND. -/
theorem State.afterRound_of_lt {it : Fin 24} (iter : s.iter = it) (more : it.val < 22) :
    s.afterRound = .next { s with
      iter := it + 1, uops := [0x54#8 ++ BitVec.ofNat 8 (it.val + 1)] } := by
  subst iter
  have succ : s.iter + 1 = ⟨s.iter.val + 1, by omega⟩ :=
    Fin.ext (by simp only [Fin.val_add]; exact Nat.mod_eq_of_lt (by omega))
  rw [State.afterRound, dif_pos more, succ]
  rfl

/-- After SC_ROUND(22), SC_ROUND23. -/
theorem State.afterRound_22 (iter : s.iter = 22) :
    s.afterRound = .next { s with iter := 23, uops := [0x5500] } := by
  simp only [State.afterRound, iter]
  rfl

/-- After SC_ROUND23, the write-back. -/
theorem State.afterRound_23 (iter : s.iter = 23) : s.afterRound = s.enterWriteback := by
  simp only [State.afterRound, iter]
  rfl

end

/-- Settles O53: the sequencer's move in each phase. -/
theorem sequencerOrder : Obligations.SequencerOrder := by
  intro s uops
  refine ⟨fun phase due => step_due uops phase due, fun phase csa key => ?_, fun phase pos => ?_,
    fun phase empty => ?_, fun phase csa it iter more => ?_, fun phase csa iter => ?_,
    fun phase csa iter clear => ?_⟩
  · rw [step_scan_csa uops phase csa, State.afterScan_keyed key]
  · rw [step_sort uops phase, State.afterSort_batch pos]
  · rw [step_sort uops phase, State.afterSort_empty empty]
  · rw [step_rounds_csa uops phase csa, State.afterRound_of_lt iter more]
  · rw [step_rounds_csa uops phase csa, State.afterRound_22 iter]
  · rw [step_rounds_csa uops phase csa, State.afterRound_23 iter,
      State.enterWriteback_of_not_tscClear clear]

/-! ## A missing key (R298, R412) -/

/-- Fault entry by a completion, field by field (R396). -/
theorem State.completionFault_eq (s : State) (c : Status) :
    s.completionFault c = { s with
      faulted := true,
      faultCode := if s.faulted then s.faultCode else statusCode c,
      faultOpcode := if s.faulted then s.faultOpcode else opcDecrypt,
      busy := false, phase := .idle, uops := [],
      resp := s.resp ++ [⟨opcDecrypt, statusCode c, []⟩] } := by
  cases faulted : s.faulted <;>
    simp [State.completionFault, State.recordFault, State.respond, faulted]

/-- Settles O54: the key check after the scan takes the fault of the completion. -/
theorem missingKeyFaults : Obligations.MissingKeyFaults := by
  intro s uops phase csa pos missing
  rw [step_scan_csa uops phase csa, State.afterScan, if_pos ⟨pos, missing⟩, State.completionFault_eq,
    uops]
  rfl

/-! ## TSC_CLEAR (R313) -/

/-- Clearing the two top bits again changes nothing. -/
theorem clearTop_idem (v : Byte) : (v &&& 0x3F) &&& 0x3F = v &&& 0x3F := by
  rw [BitVec.and_assoc, BitVec.and_self]

/-- A byte after its packet, or another one, is marked clear. -/
theorem get_clearTsc (m : Memory) {a b : Nat} (valid : a + 3 < memSize) :
    (clearTsc m a).get b = if b = a + 3 then m.get b &&& 0x3F else m.get b := by
  rw [clearTsc, Memory.get_set]
  by_cases same : b = a + 3
  · rw [if_pos ⟨same, valid⟩, if_pos same, same]
  · rw [if_neg fun h => same h.1, if_neg same]

/-- The slots g, ..., g + k - 1 are marked clear: byte 3 of each of their packets loses its two top bits, also
where two slots have the same packet. -/
theorem get_clearSlots (sc : SchedRegs) (m : Memory) (g k b : Nat)
    (valid : ∀ h ∈ List.range' g k, (sc.slot h).pkt + 3 < memSize) :
    (clearSlots sc g k m).get b
      = if ∃ h ∈ List.range' g k, b = (sc.slot h).pkt + 3 then m.get b &&& 0x3F else m.get b := by
  induction k generalizing g m with
  | zero => rfl
  | succ k ih =>
    simp only [List.range'_succ, List.forall_mem_cons] at valid
    rw [clearSlots, ih _ _ valid.2, get_clearTsc m valid.1]
    simp only [List.range'_succ, List.exists_mem_cons_iff]
    by_cases first : b = (sc.slot g).pkt + 3
    · simp only [if_pos first, if_pos (Or.inl first), clearTop_idem, ite_self]
    · simp only [first, if_false, false_or]

/-- With TSC_CLEAR and valid bytes, entering the write-back marks the batch and issues SC_COMPACT. -/
theorem State.enterWriteback_tscClear {s : State} (clear : s.cfg.tscClear = true)
    (valid : ∀ g, g < s.sc.grouped → ValidBytes s.cfg ((s.sc.slot g).pkt + 3) 1) :
    s.enterWriteback = .next { s with
      mem := clearSlots s.sc 0 s.sc.grouped s.mem, phase := .writeback, uops := [0x5600] } := by
  have access : ((List.range s.sc.grouped).all fun g => accessOk s.cfg ((s.sc.slot g).pkt + 3) 1)
      = true :=
    List.all_eq_true.mpr fun g hg => (accessOk_iff _ _ _).mpr (valid g (List.mem_range.mp hg))
  rw [State.enterWriteback, if_pos clear, if_pos access]
  rfl

/-- Settles O55: the step after SC_ROUND23 enters the write-back, which marks the slots below grouped. -/
theorem tscClearMarksThePackets : Obligations.TscClearMarksThePackets := by
  intro s uops phase csa iter clear valid
  have bytes (b : Nat) := get_clearSlots s.sc s.mem 0 s.sc.grouped b fun g hg =>
    (valid g (by simpa using hg)).bound Nat.one_pos
  simp only [← List.range_eq_range', List.mem_range] at bytes
  have run : step s = .next { s with
      mem := clearSlots s.sc 0 s.sc.grouped s.mem, phase := .writeback, uops := [0x5600] } := by
    rw [step_rounds_csa uops phase csa, State.afterRound_23 iter,
      State.enterWriteback_tscClear clear valid]
  exact ⟨_, run, fun g hg => (bytes _).trans (if_pos ⟨g, hg, rfl⟩),
    fun a outside => (bytes a).trans (if_neg outside), rfl⟩

/-! ## SC_COMPACT (R283, R311) -/

/-- The remaining list keeps each range that is not consumed, with its updated start (R283). -/
theorem remainingRanges_eq (ranges : List Range) (starts : List Nat) :
    remainingRanges ranges starts
      = ((ranges.zip starts).filter fun rs => decide (rs.2 < rs.1.stop.toNat)).map
          (fun rs => ⟨BitVec.ofNat 64 rs.2, rs.1.stop⟩) := by
  induction ranges generalizing starts with
  | nil => rfl
  | cons r ranges ih =>
    cases starts with
    | nil => rfl
    | cons a starts =>
      rw [remainingRanges, ih, List.zip_cons_cons, List.filter_cons]
      by_cases left : a < r.stop.toNat <;> simp [left]

/-- Settles O50, by the form of the remaining list. -/
theorem compactKeepsWhatRemains : Obligations.CompactKeepsWhatRemains := fun s =>
  ⟨_, rfl, rfl, remainingRanges_eq s.pending.ranges s.sc.starts, rfl, fun _ => rfl⟩

end Sys2Proof.Machine
end

section
/-!
SC_SORT and SC_ALIVE (spec/44_batch_scheduler.md R290 to R294): the sort as swaps of slots, which permute
whole descriptors, and the live slots of a round as the first of a sorted batch.
-/

namespace Sys2Proof.Machine

/-! ## Swaps of slots (R290) -/

/-- The descriptor of slot `g` of a file of descriptors. -/
def slotOf (d : Vector Desc maxLanes) (g : Nat) : Desc := d.getD g ⟨0, 0, 0, 0, 0⟩

theorem SchedRegs.slot_eq_slotOf (sc : SchedRegs) (g : Nat) : sc.slot g = slotOf sc.desc g := rfl

theorem slotN_eq_slotOf (d : Vector Desc maxLanes) (g : Nat) : slotN d g = (slotOf d g).n := rfl

/-- What an entry of a vector is after one entry is written. -/
theorem vector_getD_setIfInBounds {α : Type} {n : Nat} (v : Vector α n) (i : Nat) (x d : α) (g : Nat) :
    (v.setIfInBounds i x).getD g d = if g = i ∧ i < n then x else v.getD g d := by
  by_cases hg : g < n
  · rw [vector_getD_of_lt _ _ _ hg, vector_getD_of_lt _ _ _ hg, Vector.getElem_setIfInBounds]
    exact if_congr ⟨fun h => ⟨h.symm, h ▸ hg⟩, fun h => h.1.symm⟩ rfl rfl
  · simp [Vector.getD, hg]
    omega

/-- A swap exchanges two slots. -/
theorem slotOf_swapSlots (d : Vector Desc maxLanes) {i k : Nat} (hi : i < maxLanes) (hk : k < maxLanes)
    (g : Nat) : slotOf (swapSlots d i k) g = slotOf d (Equiv.swap i k g) := by
  have swap : slotOf (swapSlots d i k) g
      = if g = k then slotOf d i else if g = i then slotOf d k else slotOf d g :=
    (vector_getD_setIfInBounds _ k _ _ g).trans (if_congr (and_iff_left hk) rfl
      ((vector_getD_setIfInBounds _ i _ _ g).trans (if_congr (and_iff_left hi) rfl rfl)))
  rw [swap, Equiv.swap_apply_def]
  split_ifs <;> simp_all

/-- The slots from `lo` to `hi - 1` of `d'` are those of `d` in another order, and the other slots are the
same. -/
def PermutesSlots (lo hi : Nat) (d d' : Vector Desc maxLanes) : Prop :=
  ∃ σ : Equiv.Perm Nat, (∀ g, g < lo ∨ hi ≤ g → σ g = g) ∧ ∀ g, slotOf d' g = slotOf d (σ g)

section
variable {lo hi : Nat} {d d' d'' : Vector Desc maxLanes}

theorem PermutesSlots.refl (lo hi : Nat) (d : Vector Desc maxLanes) : PermutesSlots lo hi d d :=
  ⟨1, fun _ _ => rfl, fun _ => rfl⟩

theorem PermutesSlots.trans (h : PermutesSlots lo hi d d') (h' : PermutesSlots lo hi d' d'') :
    PermutesSlots lo hi d d'' := by
  obtain ⟨σ, fixed, slots⟩ := h
  obtain ⟨τ, fixed', slots'⟩ := h'
  refine ⟨σ * τ, fun g hg => ?_, fun g => ?_⟩
  · rw [Equiv.Perm.mul_apply, fixed' g hg, fixed g hg]
  · rw [Equiv.Perm.mul_apply, slots', slots]

theorem PermutesSlots.widen (h : PermutesSlots lo hi d d') {lo' : Nat} (le : lo' ≤ lo) :
    PermutesSlots lo' hi d d' := by
  obtain ⟨σ, fixed, slots⟩ := h
  exact ⟨σ, fun g hg => fixed g (by omega), slots⟩

theorem PermutesSlots.swap {i k : Nat} (hi' : hi ≤ maxLanes) (loi : lo ≤ i) (ihi : i < hi)
    (lok : lo ≤ k) (khi : k < hi) : PermutesSlots lo hi d (swapSlots d i k) :=
  ⟨Equiv.swap i k, fun _ _ => Equiv.swap_apply_of_ne_of_ne (by omega) (by omega),
    slotOf_swapSlots d (by omega) (by omega)⟩

/-- The slots outside are kept. -/
theorem PermutesSlots.outside (h : PermutesSlots lo hi d d') {g : Nat} (hg : g < lo ∨ hi ≤ g) :
    slotOf d' g = slotOf d g := by
  obtain ⟨σ, fixed, slots⟩ := h
  rw [slots, fixed g hg]

/-- What all the permuted slots have they keep. -/
theorem PermutesSlots.forall_slots (h : PermutesSlots lo hi d d') {P : Desc → Prop}
    (all : ∀ g, lo ≤ g → g < hi → P (slotOf d g)) : ∀ g, lo ≤ g → g < hi → P (slotOf d' g) := by
  obtain ⟨σ, fixed, slots⟩ := h
  intro g low high
  have inside : ¬ (σ g < lo ∨ hi ≤ σ g) := fun out => by
    have := σ.injective (fixed (σ g) out)
    omega
  rw [slots]
  exact all _ (by omega) (by omega)

/-- The lists of the descriptors are permutations of each other. -/
theorem PermutesSlots.perm (h : PermutesSlots 0 hi d d') :
    ((List.range hi).map (slotOf d')).Perm ((List.range hi).map (slotOf d)) := by
  obtain ⟨σ, fixed, slots⟩ := h
  have below (g : Nat) (hg : g < hi) : σ g < hi := by
    by_contra out
    have := σ.injective (fixed (σ g) (.inr (by omega)))
    omega
  have order : ((List.range hi).map σ).Perm (List.range hi) :=
    (List.subperm_of_subset (List.nodup_range.map σ.injective) fun x hx => by
      obtain ⟨g, hg, rfl⟩ := List.mem_map.mp hx
      exact List.mem_range.mpr (below g (List.mem_range.mp hg))).perm_of_length_le (by simp)
  rw [List.map_congr_left fun g _ => slots g]
  simpa [Function.comp_def] using order.map (slotOf d)

end

/-! ## The partition: slots of 23 blocks first (R290) -/

/-- The slots below `t` have 23 blocks. -/
def FullBelow (d : Vector Desc maxLanes) (t : Nat) : Prop := ∀ g, g < t → slotN d g = 23

section
variable {d : Vector Desc maxLanes} {grouped : Nat}

/-- The upward pointer passes slots of 23 blocks only, and does not pass `grouped`. -/
theorem skipFull_spec (fuel : Nat) {t : Nat} (full : FullBelow d t) (le : t ≤ grouped) :
    FullBelow d (skipFull d grouped fuel t) ∧ skipFull d grouped fuel t ≤ grouped := by
  induction fuel generalizing t with
  | zero => exact ⟨full, le⟩
  | succ fuel ih =>
    rw [skipFull]
    split
    · next next =>
      refine ih (fun g hg => ?_) next.1
      obtain below | last : g < t ∨ g = t := by omega
      · exact full g below
      · rw [last]
        exact next.2
    · exact ⟨full, le⟩

/-- The downward pointer stops above a slot of 23 blocks, or at the bottom. -/
theorem skipShort_spec (t : Nat) :
    skipShort d t ≤ t ∧ (0 < skipShort d t → slotN d (skipShort d t - 1) = 23) := by
  induction t with
  | zero => exact ⟨le_rfl, fun h => absurd h (Nat.lt_irrefl 0)⟩
  | succ t ih =>
    rw [skipShort]
    split
    · exact ⟨ih.1.trans (Nat.le_succ t), ih.2⟩
    · next full => exact ⟨le_rfl, fun _ => not_not.mp full⟩

/-- The partition permutes the slots below `grouped` and puts slots of 23 blocks below the pointer it
returns. -/
theorem partitionFull_spec (cap : grouped ≤ maxLanes) (fuel : Nat) {t23 ts1 : Nat}
    (full : FullBelow d t23) (le : t23 ≤ grouped) (le' : ts1 ≤ grouped) :
    PermutesSlots 0 grouped d (partitionFull grouped fuel t23 ts1 d).2
      ∧ FullBelow (partitionFull grouped fuel t23 ts1 d).2 (partitionFull grouped fuel t23 ts1 d).1
      ∧ (partitionFull grouped fuel t23 ts1 d).1 ≤ grouped := by
  induction fuel generalizing t23 ts1 d with
  | zero => exact ⟨.refl .., full, le⟩
  | succ fuel ih =>
    obtain ⟨low, lowLe⟩ := skipFull_spec grouped full le
    obtain ⟨highLe, high⟩ := skipShort_spec (d := d) ts1
    rw [partitionFull]
    generalize skipFull d grouped grouped t23 = i at low lowLe
    generalize skipShort d ts1 = k at highLe high
    split
    · exact ⟨.refl .., low, lowLe⟩
    · have swapped := slotOf_swapSlots d (i := i) (k := k - 1) (by omega) (by omega)
      have full' : FullBelow (swapSlots d i (k - 1)) (i + 1) := fun g hg => by
        rw [slotN_eq_slotOf, swapped]
        obtain below | last : g < i ∨ g = i := by omega
        · rw [Equiv.swap_apply_of_ne_of_ne (by omega) (by omega)]
          exact low g below
        · rw [last, Equiv.swap_apply_left]
          exact high (by omega)
      obtain ⟨perm, rest⟩ := ih full' (ts1 := k - 1) (by omega) (by omega)
      exact ⟨(PermutesSlots.swap cap (by omega) (by omega) (by omega) (by omega)).trans perm, rest⟩

/-! ## The exchange sort (R290) -/

/-- One row of the exchange sort permutes the slots from `i` on, and leaves in slot `i` as many blocks as in
any of the slots after it up to the row's end. -/
theorem exchangeRow_spec (cap : grouped ≤ maxLanes) (m : Nat) {i k : Nat} (ik : i < k)
    (row : k + m = grouped) (largest : ∀ g, i < g → g < k → slotN d g ≤ slotN d i) :
    PermutesSlots i grouped d (exchangeRow i m k d)
      ∧ ∀ g, i < g → g < grouped → slotN (exchangeRow i m k d) g ≤ slotN (exchangeRow i m k d) i := by
  induction m generalizing k d with
  | zero => exact ⟨.refl .., fun g hig hg => largest g hig (by omega)⟩
  | succ m ih =>
    rw [exchangeRow]
    have swapped := slotOf_swapSlots d (i := i) (k := k) (by omega) (by omega)
    split
    · next more =>
      obtain ⟨perm, rest⟩ := ih (d := swapSlots d i k) (k := k + 1) (by omega) (by omega)
        fun g hig hg => by
          rw [slotN_eq_slotOf, slotN_eq_slotOf, swapped, swapped, Equiv.swap_apply_left]
          obtain below | last : g < k ∨ g = k := by omega
          · rw [Equiv.swap_apply_of_ne_of_ne (by omega) (by omega)]
            exact (largest g hig below).trans (Nat.le_of_lt more)
          · rw [last, Equiv.swap_apply_right]
            exact Nat.le_of_lt more
      exact ⟨(PermutesSlots.swap cap le_rfl (by omega) (by omega) (by omega)).trans perm, rest⟩
    · next less =>
      refine ih (by omega) (by omega) fun g hig hg => ?_
      obtain below | last : g < k ∨ g = k := by omega
      · exact largest g hig below
      · rw [last]
        exact Nat.le_of_not_lt less

/-- The exchange sort permutes the slots from `i` on and leaves them in non-increasing order. -/
theorem exchangeSort_spec (cap : grouped ≤ maxLanes) (m : Nat) {i : Nat} (rows : i + m = grouped) :
    PermutesSlots i grouped d (exchangeSort grouped m i d)
      ∧ ∀ g h, i ≤ g → g < h → h < grouped →
          slotN (exchangeSort grouped m i d) h ≤ slotN (exchangeSort grouped m i d) g := by
  induction m generalizing i d with
  | zero => exact ⟨.refl .., fun g h _ _ _ => by omega⟩
  | succ m ih =>
    rw [exchangeSort]
    obtain ⟨row, largest⟩ := exchangeRow_spec (d := d) cap (grouped - (i + 1)) (Nat.lt_succ_self i)
      (by omega) fun g _ _ => by omega
    obtain ⟨perm, sorted⟩ := ih (d := exchangeRow i (grouped - (i + 1)) (i + 1) d) (i := i + 1)
      (by omega)
    refine ⟨row.trans (perm.widen (Nat.le_succ i)), fun g h low gh high => ?_⟩
    obtain first | later : g = i ∨ i + 1 ≤ g := by omega
    · rw [first, slotN_eq_slotOf _ i, perm.outside (.inl (Nat.lt_succ_self i))]
      exact perm.forall_slots (P := fun v => v.n ≤ _) (fun g low high => largest g low high) h
        (by omega) high
    · exact sorted g h later gh high

/-- SC_SORT permutes the slots below `grouped` and leaves them in non-increasing order of their blocks. -/
theorem sortSlots_spec (cap : grouped ≤ maxLanes) (bound : ∀ g, g < grouped → slotN d g ≤ 23) :
    PermutesSlots 0 grouped d (sortSlots grouped d)
      ∧ ∀ g h, g < h → h < grouped → slotN (sortSlots grouped d) h ≤ slotN (sortSlots grouped d) g := by
  obtain ⟨first, full, le⟩ := partitionFull_spec (d := d) cap (grouped + 1) (t23 := 0)
    (fun g hg => by omega) (Nat.zero_le _) le_rfl
  rw [sortSlots]
  generalize partitionFull grouped (grouped + 1) 0 grouped d = r at first full le
  obtain ⟨rest, sorted⟩ := exchangeSort_spec (d := r.2) cap (grouped - r.1) (i := r.1) (by omega)
  have perm := first.trans (rest.widen (Nat.zero_le _))
  refine ⟨perm, fun g h gh high => ?_⟩
  obtain below | above : g < r.1 ∨ r.1 ≤ g := by omega
  · have most := perm.forall_slots (P := fun v => v.n ≤ 23) (fun g _ hg => bound g hg) h
      (Nat.zero_le h) high
    rw [slotN_eq_slotOf _ g, rest.outside (.inl below)]
    exact most.trans (full g below).ge
  · exact sorted g h above gh high

end

/-- Settles O45: the sort's swaps permute whole descriptors, and its two passes order them. -/
theorem sortOrdersTheBatch : Obligations.SortOrdersTheBatch := fun _ cap bound =>
  have ⟨perm, sorted⟩ := sortSlots_spec cap bound
  ⟨_, rfl, perm.perm, sorted, fun _ hg => perm.outside (.inr hg), rfl, fun _ => rfl⟩

/-! ## The live slots of a round (R293, R294) -/

/-- alive[i] is the number of slots with more than `i` blocks. -/
theorem aliveCount_eq_card (d : Vector Desc maxLanes) (grouped i : Nat) :
    aliveCount d grouped i = ((Finset.range grouped).filter fun g => i < slotN d g).card := rfl

/-- Of the numbers below `n`, those with a property that passes down are the numbers below their count. -/
theorem lt_card_filter_range_iff {p : Nat → Prop} [DecidablePred p] {n g : Nat}
    (down : ∀ g h, g < h → h < n → p h → p g) (hg : g < n) :
    g < ((Finset.range n).filter p).card ↔ p g := by
  constructor
  · intro lt
    by_contra no
    have sub : (Finset.range n).filter p ⊆ Finset.range g := fun h hh => by
      obtain ⟨hn, hp⟩ := Finset.mem_filter.mp hh
      rw [Finset.mem_range] at hn ⊢
      by_contra ge
      obtain same | above : h = g ∨ g < h := by omega
      · exact no (same ▸ hp)
      · exact no (down g h above hn hp)
    have := Finset.card_le_card sub
    rw [Finset.card_range] at this
    omega
  · intro yes
    have sub : Finset.range (g + 1) ⊆ (Finset.range n).filter p := fun h hh => by
      rw [Finset.mem_range] at hh
      rw [Finset.mem_filter, Finset.mem_range]
      obtain same | below : h = g ∨ h < g := by omega
      · exact ⟨by omega, same ▸ yes⟩
      · exact ⟨by omega, down h g below hg yes⟩
    have := Finset.card_le_card sub
    rwa [Finset.card_range] at this

/-- Of a sorted batch, the slots with more than `i` blocks are the first ones, as many as their number. -/
theorem lt_aliveCount_iff {blocks : Nat → Nat} {grouped : Nat}
    (sorted : ∀ g h, g < h → h < grouped → blocks h ≤ blocks g) (i : Nat) {g : Nat} (hg : g < grouped) :
    g < ((Finset.range grouped).filter fun g => i < blocks g).card ↔ i < blocks g :=
  lt_card_filter_range_iff (fun g h gh hh more => more.trans_le (sorted g h gh hh)) hg

/-- Settles O46: a count of slots, and of a sorted batch the length of their initial segment. -/
theorem aliveCountsTheSlots : Obligations.AliveCountsTheSlots := by
  intro s
  refine ⟨_, rfl, fun i => ?_, fun sorted it g pos le hg => ?_, rfl, fun _ => rfl⟩
  · exact (Vector.getElem_ofFn i.isLt).trans (aliveCount_eq_card ..)
  · rw [vector_getD_of_lt _ _ _ (by omega)]
    dsimp only [aliveCounts]
    rw [Vector.getElem_ofFn, aliveCount_eq_card]
    exact (lt_aliveCount_iff sorted (it - 1) hg).trans (by omega)

end Sys2Proof.Machine
end

section
/-!
The operations of the round loop (spec/44_batch_scheduler.md R300, R302, R308): what the passes of the block
and the stream cipher leave in a lane, and the work on the slots, each of which reads and writes its own part
of memory only.
-/

namespace Sys2Proof.Machine

/-! ## Memory -/

/-- A byte after a write depends on that byte alone. -/
theorem Memory.get_write_congr {m m' : Memory} {b : Nat} (h : m.get b = m'.get b) (a : Nat)
    (l : List Byte) : (m.write a l).get b = (m'.write a l).get b := by
  induction l generalizing m m' a with
  | nil => exact h
  | cons x l ih => exact ih (by rw [Memory.get_set, Memory.get_set, h]) _

/-- The residue of a finishing slot: byte `m` and the `k - 1` bytes after it are XORed with those of SO
(R302). -/
theorem get_residue (so : Block) (a m k : Nat) (mem : Memory) (valid : a + m + k ≤ memSize) (b : Nat) :
    (residue so a m k mem).get b
      = if a + m ≤ b ∧ b < a + m + k then mem.get b ^^^ so.getD (b - a) 0 else mem.get b := by
  induction k generalizing m mem with
  | zero => exact (if_neg (by omega)).symm
  | succ k ih =>
    rw [residue, ih _ _ (by omega)]
    by_cases first : b = a + m
    · have byte : b - a = m := by omega
      rw [if_neg (by omega), if_pos (by omega), byte, first, Memory.get_set_self _ _ _ (by omega)]
    · rw [Memory.get_set_ne _ _ first]
      exact if_congr (by omega) rfl rfl

/-! ## The passes (R302, R308) -/

/-- The block pass is BC_LOAD, BC_DECIPHER and BC_STORE on `c` lanes. -/
theorem State.runInstrs_blockPass (s : State) (c : Nat) :
    runInstrs [.bcLoad, .bcDecipher, .bcStore] { s with pr := { s.pr with count := c } }
      = .next (s.blockPass c) := by
  rw [runInstrs_cons rfl, runInstrs_cons (exec_bcDecipher rfl), runInstrs_cons rfl, runInstrs,
    State.blockPass]

/-- The block pass deciphers the block of every lane below `c` (R252). -/
theorem State.blockPass_bo {s : State} {c : Nat} (hc : c ≤ s.cfg.n) {g : Nat} (hg : g < c) :
    laneBlock (s.blockPass c).wb.bo g
      = decipherBlock s.cfg.tables (s.bk.laneKey ⟨g, by have := Build.n_le s.cfg; omega⟩)
          (laneBlock s.wb.ib g) := by
  have lane : g < maxLanes := by have := Build.n_le s.cfg; omega
  obtain ⟨t, run, lanes, -⟩ := blockCipherOfALane { s with pr := { s.pr with count := c } } hc
  obtain rfl : t = s.blockPass c :=
    Host.Outcome.next.inj (run.symm.trans (s.runInstrs_blockPass c))
  rw [laneBlock_of_lt _ lane, laneBlock_of_lt _ lane]
  exact lanes ⟨g, lane⟩ hg

/-- The block pass keeps the key. -/
theorem State.blockPass_kk (s : State) (c : Nat) : (s.blockPass c).bk.kk = s.bk.kk :=
  ((s.bk.load s.cfg.n c s.wb.ib).rounds_frame s.cfg 56 le_rfl).2.trans (s.bk.load_kk ..)

/-- S_GEN keeps the key and leaves SOFF = 32. -/
theorem StreamRegs.gen_frame (c : Build) (st : StreamRegs) :
    (st.gen c).1.soff.val = 32 ∧ (st.gen c).1.iA = st.iA ∧ (st.gen c).1.iB = st.iB := by
  obtain ⟨-, keyA, keyB⟩ := st.genSteps_frame c 32
  rw [StreamRegs.gen_fst, StreamRegs.advance_iA, StreamRegs.advance_iB]
  exact ⟨rfl, keyA, keyB⟩

/-- The registers of the lanes after the stream pass (R221, R302). -/
theorem State.streamPass_st (s : State) : s.streamPass.st = (s.st.gen s.cfg).1 := rfl

theorem State.streamPass_wb (s : State) :
    s.streamPass.wb = { s.wb with so := (s.st.gen s.cfg).2 } := rfl

/-! ## SC_ROUND0 (R300) -/

/-- The seeds of the batch are the first blocks of its packets. -/
theorem laneBlock_loadSeeds (m : Memory) (sc : SchedRegs) {g : Nat} (lane : g < maxLanes)
    (hg : g < sc.grouped) : laneBlock (loadSeeds m sc) g = m.read (sc.payloadAt g) 8 := by
  rw [laneBlock_of_lt _ lane, loadSeeds, Vector.getElem_ofFn, if_pos hg]

/-- The stream and key part of SC_ROUND0 is K_BCAST, S_LOAD and S_INIT on the seeds of the batch. -/
theorem State.runInstrs_round0Seed (s : State) :
    runInstrs [.kBcast s.sc.gpar, .sLoad, .sInit]
        { s with wb := { s.wb with si := loadSeeds s.mem s.sc } } = .next s.round0Seed := rfl

theorem exec_scRound0 {s : State}
    (valid : ∀ g, g < s.sc.grouped → ValidBytes s.cfg (s.sc.payloadAt g) 8) :
    exec .scRound0 s = .next s.round0Seed.round0Load :=
  if_pos (List.all_eq_true.mpr fun g hg => (accessOk_iff _ _ _).mpr (valid g (List.mem_range.mp hg)))

/-- SC_ROUND0 writes the key schedules, the stream cipher's registers, SI, IB and encp. -/
theorem State.round0_eq (s : State) :
    s.round0Seed.round0Load = { s with
      ks := s.round0Seed.ks, st := s.round0Seed.st,
      bk := { s.bk with kk := (s.bcastKey s.sc.gpar).bk.kk },
      wb := { s.wb with
        si := loadSeeds s.mem s.sc,
        ib := Vector.ofFn fun g =>
          if g.val < s.sc.alive[0] then (loadSeeds s.mem s.sc)[g] else s.wb.ib[g] },
      sc := { s.sc with
        encp := Vector.ofFn fun g =>
          if g.val < s.sc.alive[0] then s.sc.payloadAt g.val + 8 else s.sc.encp[g] } } := by
  unfold State.round0Load State.round0Seed State.bcastKey BlockRegs.loadKey
  rfl

/-- Settles O47: the lane law of K_BCAST, S_LOAD and S_INIT on the seeds, and then the load of IB. -/
theorem roundZero : Obligations.RoundZero := by
  intro s key latched cap aliveLe valid
  obtain ⟨t, run, -, soff, lanes⟩ :=
    runInstrs_seeded (s := { s with wb := { s.wb with si := loadSeeds s.mem s.sc } }) latched
  obtain rfl : t = s.round0Seed := Host.Outcome.next.inj (run.symm.trans s.runInstrs_round0Seed)
  have seed (g : Fin maxLanes) (hg : g.val < s.sc.grouped) :=
    laneBlock_loadSeeds s.mem s.sc g.isLt hg
  refine ⟨_, (exec_scRound0 valid).trans (congrArg _ s.round0_eq), ?_⟩
  dsimp only
  refine ⟨fun g hg => ⟨?_, ?_⟩, soff, fun g => ?_, fun k g hg => ?_, rfl, fun _ => rfl⟩
  · rw [← seed g hg, laneBlock_of_lt _ g.isLt]
    rfl
  · rw [← seed g hg]
    exact lanes g.val (hg.trans_le cap)
  · simp only [Fin.getElem_fin, Vector.getElem_ofFn]
    split <;> exact ⟨rfl, rfl⟩
  · rw [← (State.bcastKey_ks latched).2.2]
    exact s.bcastKey_kk_getElem s.sc.gpar hg k g.isLt

/-! ## Work on one slot after another -/

theorem State.forSlots_succ (f : State → Nat → State) (g k : Nat) (s : State) :
    State.forSlots f g (k + 1) s = f (State.forSlots f g k s) (g + k) := by
  induction k generalizing g s with
  | zero => rfl
  | succ k ih =>
    have next : g + 1 + k = g + (k + 1) := by omega
    rw [State.forSlots, ih, next, State.forSlots]

theorem State.forSlots_add (f : State → Nat → State) (g j k : Nat) (s : State) :
    State.forSlots f g (j + k) s = State.forSlots f (g + j) k (State.forSlots f g j s) := by
  induction k with
  | zero => rfl
  | succ k ih =>
    rw [← Nat.add_assoc, State.forSlots_succ, ih, State.forSlots_succ, Nat.add_assoc]

theorem State.forSlots_congr {f f' : State → Nat → State} {g k : Nat}
    (same : ∀ h, g ≤ h → h < g + k → ∀ u, f u h = f' u h) (s : State) :
    State.forSlots f g k s = State.forSlots f' g k s := by
  induction k with
  | zero => rfl
  | succ k ih =>
    rw [State.forSlots_succ, State.forSlots_succ, ih fun h low high => same h low (by omega),
      same _ (by omega) (by omega)]

/-- What the round operations write of slot `g` but memory: IB and encp. -/
def State.slotRegs (s : State) (g : Nat) : Block × Nat := (laneBlock s.wb.ib g, s.sc.encpAt g)

/-- `u` is `s` with another memory, IB and encp. -/
def SlotFrame (s u : State) : Prop :=
  ∃ m ib e, u = { s with mem := m, wb := { s.wb with ib := ib }, sc := { s.sc with encp := e } }

theorem SlotFrame.refl (s : State) : SlotFrame s s := ⟨_, _, _, rfl⟩

theorem SlotFrame.trans {s t u : State} (h : SlotFrame s t) (h' : SlotFrame t u) : SlotFrame s u := by
  obtain ⟨m, ib, e, rfl⟩ := h
  obtain ⟨m', ib', e', rfl⟩ := h'
  exact ⟨m', ib', e', rfl⟩

/-- `u` is `s` but for the work on other slots: slot `g` has its registers and its own part of memory, `w g`
bytes from the block before encp on. -/
structure SlotUntouched (w : Nat → Nat) (g : Nat) (s u : State) : Prop where
  frame : SlotFrame s u
  regs : u.slotRegs g = s.slotRegs g
  bytes : ∀ a, InSlot s w g a → u.mem.get a = s.mem.get a

/-- The work `f` on slot `g` of `s` does not see whether other slots were worked before it, and does nothing
to them. -/
structure SlotLocal (f : State → Nat → State) (w : Nat → Nat) (s : State) (g : Nat) : Prop where
  frame : ∀ u, SlotUntouched w g s u → SlotFrame u (f u g)
  otherRegs : ∀ u, SlotUntouched w g s u → ∀ h, h ≠ g → (f u g).slotRegs h = u.slotRegs h
  ownRegs : ∀ u, SlotUntouched w g s u → (f u g).slotRegs g = (f s g).slotRegs g
  outside : ∀ u, SlotUntouched w g s u → ∀ a, ¬ InSlot s w g a → (f u g).mem.get a = u.mem.get a
  inside : ∀ u, SlotUntouched w g s u → ∀ a, InSlot s w g a → (f u g).mem.get a = (f s g).mem.get a

/-- `t` is `s` after the work `f` on the slots from `lo` to `hi - 1`, each as if it were worked alone. -/
structure SlotsWorked (f : State → Nat → State) (w : Nat → Nat) (lo hi : Nat) (s t : State) : Prop where
  frame : SlotFrame s t
  regs : ∀ g, lo ≤ g → g < hi → t.slotRegs g = (f s g).slotRegs g
  otherRegs : ∀ g, ¬ (lo ≤ g ∧ g < hi) → t.slotRegs g = s.slotRegs g
  inside : ∀ g, lo ≤ g → g < hi → ∀ a, InSlot s w g a → t.mem.get a = (f s g).mem.get a
  outside : ∀ a, (∀ g, lo ≤ g → g < hi → ¬ InSlot s w g a) → t.mem.get a = s.mem.get a

/-- Local work on slots whose parts do not overlap works each slot as if it were alone. -/
theorem forSlots_worked {f : State → Nat → State} {w : Nat → Nat} {lo k : Nat} {s : State}
    (work : ∀ g, lo ≤ g → g < lo + k → SlotLocal f w s g)
    (disjoint : ∀ g h, lo ≤ g → g < lo + k → lo ≤ h → h < lo + k → g ≠ h →
      ∀ a, InSlot s w g a → ¬ InSlot s w h a) :
    SlotsWorked f w lo (lo + k) s (State.forSlots f lo k s) := by
  induction k with
  | zero =>
    exact ⟨.refl s, fun g _ _ => by omega, fun _ _ => rfl, fun g _ _ => by omega, fun _ _ => rfl⟩
  | succ k ih =>
    have done := ih (fun g low high => work g low (by omega))
      fun g h gl gh hl hh => disjoint g h gl (by omega) hl (by omega)
    rw [State.forSlots_succ]
    generalize State.forSlots f lo k s = u at done
    have untouched : SlotUntouched w (lo + k) s u :=
      ⟨done.frame, done.otherRegs _ (by omega), fun a own => done.outside a fun g low high other =>
        disjoint g (lo + k) low (by omega) (by omega) (by omega) (by omega) a other own⟩
    have slot := work (lo + k) (by omega) (by omega)
    refine ⟨done.frame.trans (slot.frame u untouched), fun g low high => ?_, fun g out => ?_,
      fun g low high a own => ?_, fun a out => ?_⟩
    · obtain last | before : g = lo + k ∨ g < lo + k := by omega
      · exact last ▸ slot.ownRegs u untouched
      · exact (slot.otherRegs u untouched g (by omega)).trans (done.regs g low before)
    · exact (slot.otherRegs u untouched g (by omega)).trans (done.otherRegs g (by omega))
    · obtain last | before : g = lo + k ∨ g < lo + k := by omega
      · subst last
        exact slot.inside u untouched a own
      · exact (slot.outside u untouched a
          (disjoint g _ low high (by omega) (by omega) (by omega) a own)).trans
          (done.inside g low before a own)
    · exact (slot.outside u untouched a (out _ (by omega) (by omega))).trans
        (done.outside a fun g low high => out g low (by omega))

/-! ## The work of SC_ROUND and SC_ROUND23 on a slot (R302, R308) -/

section
variable (s : State) (g : Nat)

/-- The block-cipher input that a continuing slot takes: its next block XORed with its keystream. -/
def State.nextInput : Block := blockXor (s.mem.read (s.sc.encpAt g) 8) (laneBlock s.wb.so g)

theorem State.continueSlot_mem :
    (s.continueSlot g).mem
      = s.mem.write (s.sc.encpAt g - 8) (blockXor (s.nextInput g) (laneBlock s.wb.bo g)).toList := rfl

/-- A continuing slot's registers move on to the next block. -/
theorem State.continueSlot_regs (lane : g < maxLanes) :
    (s.continueSlot g).slotRegs g = (s.nextInput g, s.sc.encpAt g + 8) :=
  Prod.ext ((vector_getD_setIfInBounds ..).trans (if_pos ⟨rfl, lane⟩))
    ((vector_getD_setIfInBounds ..).trans (if_pos ⟨rfl, lane⟩))

theorem State.continueSlot_otherRegs {h : Nat} (ne : h ≠ g) :
    (s.continueSlot g).slotRegs h = s.slotRegs h :=
  Prod.ext ((vector_getD_setIfInBounds ..).trans (if_neg fun e => ne e.1))
    ((vector_getD_setIfInBounds ..).trans (if_neg fun e => ne e.1))

theorem State.finishSlot_mem :
    (s.finishSlot g).mem = residue (laneBlock s.wb.so g) (s.sc.encpAt g) 0 (s.sc.slot g).res
      (s.mem.write (s.sc.encpAt g - 8) (laneBlock s.wb.bo g).toList) := rfl

theorem State.finishSlot_regs (h : Nat) : (s.finishSlot g).slotRegs h = s.slotRegs h := rfl

theorem State.drainSlot_mem_eq :
    (s.drainSlot g).mem = s.mem.write (s.sc.encpAt g - 8) (laneBlock s.wb.bo g).toList := rfl

end

section
variable {s : State} {g : Nat} {w : Nat → Nat}

/-- A slot that others left alone has its encp. -/
theorem SlotUntouched.encp {u : State} (h : SlotUntouched w g s u) : u.sc.encpAt g = s.sc.encpAt g :=
  congrArg Prod.snd h.regs

/-- A slot that others left alone has its next block. -/
theorem SlotUntouched.nextInput {u : State} (h : SlotUntouched w g s u) (width : w g = 8 + 8) :
    u.nextInput g = s.nextInput g := by
  have so : u.wb.so = s.wb.so := by
    obtain ⟨m, ib, e, rfl⟩ := h.frame
    rfl
  rw [State.nextInput, State.nextInput, so, h.encp]
  exact congrArg (blockXor · _)
    (Memory.read_congr fun i hi => h.bytes _ ⟨by omega, by rw [width]; omega⟩)

/-- The blocks of the passes are not slot registers. -/
theorem SlotFrame.passes {u : State} (h : SlotFrame s u) :
    u.wb.bo = s.wb.bo ∧ u.wb.so = s.wb.so ∧ ∀ g, u.sc.slot g = s.sc.slot g := by
  obtain ⟨m, ib, e, rfl⟩ := h
  exact ⟨rfl, rfl, fun _ => rfl⟩

/-- A continuing slot reads and writes the block before encp and the block at it. -/
theorem continueSlot_local (width : w g = 8 + 8) (lane : g < maxLanes) :
    SlotLocal State.continueSlot w s g where
  frame u _ := ⟨_, _, _, rfl⟩
  otherRegs u _ h ne := u.continueSlot_otherRegs g ne
  ownRegs u same := by
    rw [u.continueSlot_regs g lane, s.continueSlot_regs g lane, same.nextInput width, same.encp]
  outside u same a out := by
    rw [State.continueSlot_mem, same.encp, Memory.get_write_outside]
    simp only [InSlot, width] at out
    simp only [Vector.length_toList]
    omega
  inside u same a own := by
    rw [State.continueSlot_mem, State.continueSlot_mem, same.encp, same.nextInput width,
      same.frame.passes.1]
    exact Memory.get_write_congr (same.bytes a own) _ _

/-- A finishing slot reads and writes the block before encp and the residue at it. -/
theorem finishSlot_local (width : w g = 8 + (s.sc.slot g).res) (pos : 8 ≤ s.sc.encpAt g)
    (valid : s.sc.encpAt g + (s.sc.slot g).res ≤ memSize) : SlotLocal State.finishSlot w s g where
  frame u _ := ⟨_, _, _, rfl⟩
  otherRegs u _ h _ := u.finishSlot_regs g h
  ownRegs u same := same.regs
  outside u same a out := by
    simp only [InSlot, width] at out
    rw [State.finishSlot_mem, same.encp, same.frame.passes.2.2, get_residue _ _ _ _ _ (by omega),
      if_neg (by omega), Memory.get_write_outside _ _ _ _ (by simp only [Vector.length_toList]; omega)]
  inside u same a own := by
    obtain ⟨bo, so, slot⟩ := same.frame.passes
    rw [State.finishSlot_mem, State.finishSlot_mem, same.encp, bo, so, slot,
      get_residue _ _ _ _ _ (by omega), get_residue _ _ _ _ _ (by omega),
      Memory.get_write_congr (same.bytes a own)]

/-- A drained slot writes the block before encp. -/
theorem drainSlot_local (width : w g = 8) : SlotLocal State.drainSlot w s g where
  frame u _ := ⟨_, _, _, rfl⟩
  otherRegs _ _ _ _ := rfl
  ownRegs u same := same.regs
  outside u same a out := by
    simp only [InSlot, width] at out
    rw [State.drainSlot_mem_eq, same.encp,
      Memory.get_write_outside _ _ _ _ (by simp only [Vector.length_toList]; omega)]
  inside u same a own := by
    rw [State.drainSlot_mem_eq, State.drainSlot_mem_eq, same.encp, same.frame.passes.1]
    exact Memory.get_write_congr (same.bytes a own) _ _

end

/-! ## SC_ROUND (R302) -/

/-- The work of a round on one slot: those below `after` continue, the others finish. -/
def State.roundSlot (after : Nat) (s : State) (g : Nat) : State :=
  if g < after then s.continueSlot g else s.finishSlot g

/-- The state of SC_ROUND `it` before its slots are worked. -/
def State.roundPasses (s : State) (it : Nat) : State := (s.blockPass (s.sc.aliveBefore it)).streamPass

/-- SC_ROUND works one slot after another. -/
theorem State.schedRound_eq_forSlots (s : State) (it : Nat)
    (le : s.sc.aliveAfter it ≤ s.sc.aliveBefore it) :
    s.schedRound it
      = State.forSlots (State.roundSlot (s.sc.aliveAfter it)) 0 (s.sc.aliveBefore it)
          (s.roundPasses it) := by
  obtain ⟨k, split⟩ := Nat.exists_eq_add_of_le le
  rw [State.schedRound, split, State.forSlots_add, Nat.add_sub_cancel_left, Nat.zero_add,
    ← split,
    State.forSlots_congr (f' := State.roundSlot (s.sc.aliveAfter it)) (g := s.sc.aliveAfter it)
      (fun h low _ u => (if_neg (by omega)).symm),
    State.forSlots_congr (f' := State.roundSlot (s.sc.aliveAfter it)) (g := 0)
      (fun h _ high u => (if_pos (by omega)).symm)]
  rfl

section
variable {s : State} {it : Nat}

theorem exec_scRound {it : SchedRound} (full : s.st.soff.val = 32)
    (le : s.sc.aliveAfter it.val ≤ s.sc.aliveBefore it.val)
    (sound : SlotsSound s (roundWidth s (s.sc.aliveAfter it.val)) 0 (s.sc.aliveBefore it.val)) :
    exec (.scRound it) s = .next (s.schedRound it.val) := by
  have access : roundAccessOk s it.val = true := by
    refine List.all_eq_true.mpr fun g hg => ?_
    have hg : g < max (s.sc.aliveBefore it.val) (s.sc.aliveAfter it.val) := List.mem_range.mp hg
    obtain ⟨pos, valid⟩ := sound.1 g (Nat.zero_le g) (by omega)
    simp only [Bool.and_eq_true, decide_eq_true_eq]
    exact ⟨pos, (accessOk_iff _ _ _).mpr valid⟩
  exact (if_neg (by omega)).trans (if_pos access)

end

section
variable {s : State} {it : Nat}

@[simp] theorem State.roundPasses_mem (s : State) (it : Nat) : (s.roundPasses it).mem = s.mem := by
  simp [State.roundPasses]

@[simp] theorem State.roundPasses_sc (s : State) (it : Nat) : (s.roundPasses it).sc = s.sc := by
  simp [State.roundPasses]

@[simp] theorem State.roundPasses_st (s : State) (it : Nat) :
    (s.roundPasses it).st = (s.st.gen s.cfg).1 := by
  simp [State.roundPasses, State.streamPass_st]

theorem State.roundPasses_kk (s : State) (it : Nat) : (s.roundPasses it).bk.kk = s.bk.kk := by
  rw [State.roundPasses, State.streamPass_bk, State.blockPass_kk]

theorem State.roundPasses_ib (s : State) (it : Nat) : (s.roundPasses it).wb.ib = s.wb.ib := by
  rw [State.roundPasses, State.streamPass_wb, State.blockPass]

/-- BO of a live slot is its deciphered block. -/
theorem State.roundPasses_bo (cap : s.sc.aliveBefore it ≤ s.cfg.n) (g : Fin maxLanes)
    (live : g.val < s.sc.aliveBefore it) :
    laneBlock (s.roundPasses it).wb.bo g.val
      = decipherBlock s.cfg.tables (s.bk.laneKey g) s.wb.ib[g] := by
  rw [State.roundPasses, State.streamPass_wb]
  exact (State.blockPass_bo cap live).trans (congrArg _ (laneBlock_of_lt _ g.isLt))

/-- SO of a lane is its next keystream block. -/
theorem State.roundPasses_so (full : s.st.soff.val = 32) {g : Nat} (hg : g < s.cfg.n) :
    laneBlock (s.roundPasses it).wb.so g = (s.st.laneState g).block s.cfg.tables := by
  rw [State.roundPasses, State.streamPass_wb, State.blockPass_st, State.blockPass_cfg]
  exact s.st.gen_block s.cfg full hg

/-- Work that does the same on slot `g` is local there too. -/
theorem SlotLocal.congr {f f' : State → Nat → State} {w : Nat → Nat} {u : State} {g : Nat}
    (h : SlotLocal f w u g) (same : ∀ v, f' v g = f v g) : SlotLocal f' w u g := by
  constructor <;> simp only [same]
  exacts [h.frame, h.otherRegs, h.ownRegs, h.outside, h.inside]

/-- SC_ROUND works every live slot as if it were alone. -/
theorem State.schedRound_worked (le : s.sc.aliveAfter it ≤ s.sc.aliveBefore it)
    (cap : s.sc.aliveBefore it ≤ s.cfg.n)
    (sound : SlotsSound s (roundWidth s (s.sc.aliveAfter it)) 0 (s.sc.aliveBefore it)) :
    SlotsWorked (State.roundSlot (s.sc.aliveAfter it)) (roundWidth s (s.sc.aliveAfter it)) 0
      (s.sc.aliveBefore it) (s.roundPasses it) (s.schedRound it) := by
  obtain ⟨valid, disjoint⟩ := sound
  have lanes := Build.n_le s.cfg
  have worked := forSlots_worked (f := State.roundSlot (s.sc.aliveAfter it))
    (w := roundWidth s (s.sc.aliveAfter it)) (lo := 0) (k := s.sc.aliveBefore it)
    (s := s.roundPasses it)
  simp only [InSlot, State.roundPasses_sc, Nat.zero_add] at worked
  rw [State.schedRound_eq_forSlots s it le]
  refine worked (fun g _ live => ?_) disjoint
  obtain ⟨pos, bytes⟩ := valid g (Nat.zero_le g) live
  by_cases more : g < s.sc.aliveAfter it
  · exact (continueSlot_local (by simp [roundWidth, more]) (by omega)).congr fun u => if_pos more
  · have width : roundWidth s (s.sc.aliveAfter it) g = 8 + (s.sc.slot g).res := by
      simp [roundWidth, more]
    rw [width] at bytes
    have bound := bytes.bound (by omega)
    exact (finishSlot_local (by simpa using width) (by simpa using pos)
      (by rw [State.roundPasses_sc]; omega)).congr fun u => if_neg more

end

section
variable {s : State} {g : Nat}

/-- A continuing slot leaves the plaintext of the block before encp. -/
theorem State.continueSlot_read (bound : s.sc.encpAt g - 8 + 8 ≤ memSize) :
    (s.continueSlot g).mem.read (s.sc.encpAt g - 8) 8
      = blockXor (s.nextInput g) (laneBlock s.wb.bo g) := by
  rw [State.continueSlot_mem, Memory.read_write _ _ _ bound]

/-- A continuing slot leaves the bytes outside the block before encp alone. -/
theorem State.continueSlot_get {a : Nat} (out : ¬ (s.sc.encpAt g - 8 ≤ a ∧ a < s.sc.encpAt g - 8 + 8)) :
    (s.continueSlot g).mem.get a = s.mem.get a := by
  rw [State.continueSlot_mem, Memory.get_write_outside _ _ _ _
    (by simp only [Vector.length_toList]; omega)]

section
variable (pos : 8 ≤ s.sc.encpAt g) (bound : s.sc.encpAt g + (s.sc.slot g).res ≤ memSize)
include pos bound

/-- A finishing slot leaves its last block before encp. -/
theorem State.finishSlot_read :
    (s.finishSlot g).mem.read (s.sc.encpAt g - 8) 8 = laneBlock s.wb.bo g := by
  rw [← Memory.read_write s.mem (s.sc.encpAt g - 8) (laneBlock s.wb.bo g) (by omega)]
  refine Memory.read_congr fun i hi => ?_
  rw [State.finishSlot_mem, get_residue _ _ _ _ _ (by omega), if_neg (by omega)]

/-- A finishing slot XORs its residue with its keystream. -/
theorem State.finishSlot_residue {m : Nat} (hm : m < (s.sc.slot g).res) :
    (s.finishSlot g).mem.get (s.sc.encpAt g + m)
      = s.mem.get (s.sc.encpAt g + m) ^^^ (laneBlock s.wb.so g).getD m 0 := by
  rw [State.finishSlot_mem, get_residue _ _ _ _ _ (by omega), if_pos (by omega),
    Nat.add_sub_cancel_left,
    Memory.get_write_outside _ _ _ _ (by simp only [Vector.length_toList]; omega)]

end

/-- A drained slot leaves its last block before encp. -/
theorem State.drainSlot_read (bound : s.sc.encpAt g - 8 + 8 ≤ memSize) :
    (s.drainSlot g).mem.read (s.sc.encpAt g - 8) 8 = laneBlock s.wb.bo g := by
  rw [State.drainSlot_mem_eq, Memory.read_write _ _ _ bound]

/-- What is read in a slot's part is what the work on that slot alone leaves there. -/
theorem SlotsWorked.read {f : State → Nat → State} {w : Nat → Nat} {lo hi : Nat} {t : State}
    (h : SlotsWorked f w lo hi s t) (low : lo ≤ g) (high : g < hi) (n : Nat) (width : n ≤ w g) :
    t.mem.read (s.sc.encpAt g - 8) n = (f s g).mem.read (s.sc.encpAt g - 8) n :=
  Memory.read_congr fun i hi => h.inside g low high _ ⟨by omega, by omega⟩

/-- The block of slot `g` in IB and the slot's encp, as entries. -/
theorem State.slotRegs_eq_iff {s t : State} (g : Fin maxLanes) :
    t.slotRegs g.val = s.slotRegs g.val ↔ t.wb.ib[g] = s.wb.ib[g] ∧ t.sc.encp[g] = s.sc.encp[g] := by
  simp only [State.slotRegs, SchedRegs.encpAt, Prod.mk.injEq, laneBlock_of_lt _ g.isLt,
    vector_getD_of_lt _ _ _ g.isLt, Fin.getElem_fin]

end

/-! ### What SC_ROUND leaves -/

section
variable {s : State} {it : Nat} (le : s.sc.aliveAfter it ≤ s.sc.aliveBefore it)
  (cap : s.sc.aliveBefore it ≤ s.cfg.n)
  (sound : SlotsSound s (roundWidth s (s.sc.aliveAfter it)) 0 (s.sc.aliveBefore it))

/-- A live slot has a block before encp, and its part of memory exists. -/
theorem SlotsSound.bound {w : Nat → Nat} {lo hi : Nat} (h : SlotsSound s w lo hi) {g : Nat} (low : lo ≤ g)
    (high : g < hi) (width : 8 ≤ w g) : 8 ≤ s.sc.encpAt g ∧ s.sc.encpAt g - 8 + w g ≤ memSize :=
  ⟨(h.1 g low high).1, (h.1 g low high).2.bound (by omega)⟩

theorem roundWidth_of_lt {after g : Nat} (more : g < after) : roundWidth s after g = 8 + 8 := by
  rw [roundWidth, if_pos more]

theorem roundWidth_of_le {after g : Nat} (fin : after ≤ g) :
    roundWidth s after g = 8 + (s.sc.slot g).res := by
  rw [roundWidth, if_neg (by omega)]

theorem le_roundWidth (s : State) (after g : Nat) : 8 ≤ roundWidth s after g := Nat.le_add_right ..

include le cap sound

/-- A continuing slot has its block before encp decrypted, takes its next block and moves on. -/
theorem State.schedRound_continue (full : s.st.soff.val = 32) (g : Fin maxLanes)
    (more : g.val < s.sc.aliveAfter it) :
    let input := blockXor (s.mem.read (s.sc.encpAt g.val) 8)
      ((s.st.laneState g.val).block s.cfg.tables)
    (s.schedRound it).slotRegs g.val = (input, s.sc.encpAt g.val + 8)
      ∧ (s.schedRound it).mem.read (s.sc.encpAt g.val - 8) 8
        = blockXor input (decipherBlock s.cfg.tables (s.bk.laneKey g) s.wb.ib[g]) := by
  have live : g.val < s.sc.aliveBefore it := by omega
  have worked := State.schedRound_worked le cap sound
  have alone : State.roundSlot (s.sc.aliveAfter it) (s.roundPasses it) g.val
      = (s.roundPasses it).continueSlot g.val := if_pos more
  have input : (s.roundPasses it).nextInput g.val
      = blockXor (s.mem.read (s.sc.encpAt g.val) 8) ((s.st.laneState g.val).block s.cfg.tables) := by
    rw [State.nextInput, State.roundPasses_so full (by omega), State.roundPasses_mem,
      State.roundPasses_sc]
  have regs := worked.regs g.val (Nat.zero_le _) live
  have read := worked.read (Nat.zero_le _) live 8 (le_roundWidth ..)
  rw [alone, State.continueSlot_regs _ _ g.isLt, input, State.roundPasses_sc] at regs
  rw [alone, State.continueSlot_read (by
      have := (sound.bound (Nat.zero_le _) live (le_roundWidth ..)).2
      have := le_roundWidth s (s.sc.aliveAfter it) g.val
      rw [State.roundPasses_sc]; omega), input, State.roundPasses_bo cap g live,
    State.roundPasses_sc] at read
  exact ⟨regs, read⟩

/-- A finishing slot has its last block and its residue decrypted. -/
theorem State.schedRound_finish (full : s.st.soff.val = 32) (g : Fin maxLanes)
    (fin : s.sc.aliveAfter it ≤ g.val) (live : g.val < s.sc.aliveBefore it) :
    (s.schedRound it).mem.read (s.sc.encpAt g.val - 8) 8
        = decipherBlock s.cfg.tables (s.bk.laneKey g) s.wb.ib[g]
      ∧ ∀ m, m < (s.sc.slot g.val).res →
        (s.schedRound it).mem.get (s.sc.encpAt g.val + m)
          = s.mem.get (s.sc.encpAt g.val + m)
            ^^^ ((s.st.laneState g.val).block s.cfg.tables).getD m 0 := by
  have worked := State.schedRound_worked le cap sound
  obtain ⟨pos, bound⟩ := sound.bound (Nat.zero_le _) live (le_roundWidth ..)
  rw [roundWidth_of_le fin] at bound
  have alone : State.roundSlot (s.sc.aliveAfter it) (s.roundPasses it) g.val
      = (s.roundPasses it).finishSlot g.val := if_neg (by omega)
  have pos' : 8 ≤ (s.roundPasses it).sc.encpAt g.val := by rwa [State.roundPasses_sc]
  have bound' : (s.roundPasses it).sc.encpAt g.val + ((s.roundPasses it).sc.slot g.val).res
      ≤ memSize := by
    rw [State.roundPasses_sc]; omega
  constructor
  · have read := worked.read (Nat.zero_le _) live 8 (le_roundWidth ..)
    rwa [alone, State.finishSlot_read pos' bound', State.roundPasses_bo cap g live,
      State.roundPasses_sc] at read
  · intro m hm
    have byte := worked.inside g.val (Nat.zero_le _) live (s.sc.encpAt g.val + m)
      ⟨by rw [State.roundPasses_sc]; omega,
        by rw [State.roundPasses_sc, roundWidth_of_le fin]; omega⟩
    have residue := State.finishSlot_residue pos' bound' (m := m) (by rwa [State.roundPasses_sc])
    rw [State.roundPasses_so full (by omega), State.roundPasses_sc, State.roundPasses_mem] at residue
    rw [byte, alone, residue]

/-- IB and encp of the slots that do not continue are kept. -/
theorem State.schedRound_regs_kept {g : Nat} (fin : s.sc.aliveAfter it ≤ g) :
    (s.schedRound it).slotRegs g = s.slotRegs g := by
  have worked := State.schedRound_worked le cap sound
  have passes : (s.roundPasses it).slotRegs g = s.slotRegs g := by
    rw [State.slotRegs, State.slotRegs, State.roundPasses_ib, State.roundPasses_sc]
  rw [← passes]
  by_cases live : g < s.sc.aliveBefore it
  · rw [worked.regs g (Nat.zero_le g) live, State.roundSlot, if_neg (by omega),
      State.finishSlot_regs]
  · exact worked.otherRegs g (by omega)

/-- A byte is kept that is in no block before encp of a live slot and in no residue of a finishing one. -/
theorem State.schedRound_outside {a : Nat}
    (out : ¬ ∃ g, g < s.sc.aliveBefore it ∧ s.sc.encpAt g - 8 ≤ a
      ∧ a < s.sc.encpAt g + (if g < s.sc.aliveAfter it then 0 else (s.sc.slot g).res)) :
    (s.schedRound it).mem.get a = s.mem.get a := by
  have worked := State.schedRound_worked le cap sound
  rw [← State.roundPasses_mem s it]
  by_cases own : ∃ g, g < s.sc.aliveBefore it
      ∧ InSlot (s.roundPasses it) (roundWidth s (s.sc.aliveAfter it)) g a
  · obtain ⟨g, live, part⟩ := own
    have pos := (sound.bound (Nat.zero_le _) live (le_roundWidth ..)).1
    have away : ¬ _ := fun h => out ⟨g, live, h⟩
    rw [worked.inside g (Nat.zero_le g) live a part]
    rw [InSlot, State.roundPasses_sc] at part
    by_cases more : g < s.sc.aliveAfter it
    · rw [if_pos more] at away
      rw [State.roundSlot, if_pos more,
        State.continueSlot_get (by rw [State.roundPasses_sc]; omega)]
    · rw [roundWidth_of_le (by omega)] at part
      rw [if_neg more] at away
      omega
  · exact worked.outside a fun g _ live part => own ⟨g, live, part⟩

end

/-- Settles O48: the passes in every lane, and then the work on the slots, each on its own part of
memory. -/
theorem schedulerRound : Obligations.SchedulerRound := by
  intro s it full before after le cap sound
  have regs (g : Fin maxLanes) (v : Block × Nat) (h : (s.schedRound it.val).slotRegs g.val = v) :
      (s.schedRound it.val).wb.ib[g] = v.1 ∧ (s.schedRound it.val).sc.encpAt g.val = v.2 :=
    ⟨(laneBlock_of_lt _ g.isLt).symm.trans (congrArg Prod.fst h), congrArg Prod.snd h⟩
  refine ⟨_, exec_scRound full le sound, fun g more => ?_,
    fun g fin live => State.schedRound_finish le cap sound full g fin live, fun g fin =>
      (State.slotRegs_eq_iff g).mp (State.schedRound_regs_kept le cap sound fin), ?_⟩
  · obtain ⟨moved, read⟩ := State.schedRound_continue le cap sound full g more
    exact ⟨(regs g _ moved).1, (regs g _ moved).2, read⟩
  · obtain ⟨m, ib, e, frame⟩ := (State.schedRound_worked le cap sound).frame
    have st : (s.schedRound it.val).st = (s.st.gen s.cfg).1 := by rw [frame, State.roundPasses_st]
    have kk : (s.schedRound it.val).bk.kk = s.bk.kk := by rw [frame, State.roundPasses_kk]
    rw [st]
    refine ⟨fun i hi => s.st.gen_laneState s.cfg full hi, (s.st.gen_frame s.cfg).1,
      fun a out => State.schedRound_outside le cap sound out, ?_, kk, (s.st.gen_frame s.cfg).2⟩
    rw [frame, State.roundPasses, State.streamPass, State.blockPass]

/-! ## SC_ROUND23 (R308) -/

theorem exec_scRound23 {s : State} (sound : SlotsSound s (fun _ => 8) s.sc.alive[23] s.sc.alive[22]) :
    exec .scRound23 s = .next s.schedDrain := by
  refine if_pos (List.all_eq_true.mpr fun g hg => ?_)
  rw [List.mem_range'_1] at hg
  obtain ⟨pos, valid⟩ := sound.1 g hg.1 (by omega)
  exact Bool.and_eq_true_iff.mpr ⟨decide_eq_true pos, (accessOk_iff _ _ _).mpr valid⟩

/-- SC_ROUND23 works every slot that it drains as if it were alone. -/
theorem State.schedDrain_worked {s : State}
    (sound : SlotsSound s (fun _ => 8) s.sc.alive[23] s.sc.alive[22]) :
    SlotsWorked State.drainSlot (fun _ => 8) s.sc.alive[23]
      (s.sc.alive[23] + (s.sc.alive[22] - s.sc.alive[23])) (s.blockPass s.sc.alive[22])
      s.schedDrain := by
  refine forSlots_worked (fun g _ _ => drainSlot_local rfl) fun g h gl gh hl hh ne => ?_
  simp only [InSlot, State.blockPass_sc]
  exact sound.2 g h gl (by omega) hl (by omega) ne

/-- Of the state after the block pass, SC_ROUND23 changes only memory. -/
theorem State.schedDrain_onlyMemory (s : State) :
    s.schedDrain = { s.blockPass s.sc.alive[22] with mem := s.schedDrain.mem } :=
  State.forSlots_induction (P := fun u v => v = { u with mem := v.mem }) (fun _ => rfl)
    (fun u v w huv hvw => by rw [hvw, huv]) (fun _ _ => rfl) _ _ _

/-- Settles O49: the block pass in every lane, and then the last block of each drained slot, on its own part
of memory. -/
theorem schedulerDrain : Obligations.SchedulerDrain := by
  intro s lo hi cap sound
  have worked := State.schedDrain_worked sound
  refine ⟨_, exec_scRound23 sound, fun g low high => ?_, fun a out => ?_, ?_⟩
  · have bound := (sound.bound low high le_rfl).2
    have read := worked.read (g := g.val) low (by omega) 8 le_rfl
    rwa [State.drainSlot_read (by rw [State.blockPass_sc]; exact bound),
      State.blockPass_bo cap high, laneBlock_of_lt _ g.isLt, State.blockPass_sc] at read
  · refine (worked.outside a fun g low high part => ?_).trans (by rw [State.blockPass_mem])
    rw [InSlot, State.blockPass_sc] at part
    exact out ⟨g, low, by omega, part⟩
  · have kk := s.blockPass_kk s.sc.alive[22]
    rw [s.schedDrain_onlyMemory]
    refine ⟨?_, kk⟩
    rw [State.blockPass]

end Sys2Proof.Machine
end

section
/-!
The round loop on a batch (spec/44_batch_scheduler.md R285, R286, R303, R310, R312): the invariant of its
rounds, which each operation moves on by one, and CSA_DEC of the payloads at its end.
-/

namespace Sys2Proof.Machine

/-! ## Payloads in blocks (R84, R285) -/

theorem bytesAt_add (m : Memory) (a j k : Nat) :
    bytesAt m a (j + k) = bytesAt m a j ++ bytesAt m (a + j) k := by
  simp only [bytesAt, List.range_add, List.map_append, List.map_map, Function.comp_def, Nat.add_assoc]

/-- A sequence that is read, as a list. -/
theorem Memory.read_toList (m : Memory) (a n : Nat) : (m.read a n).toList = bytesAt m a n := by
  refine List.ext_getElem (by simp [bytesAt]) fun i hi _ => ?_
  simp [Memory.read, bytesAt]

/-- The bytes of `n` blocks are those of one block after another. -/
theorem bytesAt_blocks (m : Memory) (a n : Nat) :
    bytesAt m a (8 * n) = (List.range n).flatMap fun k => (m.read (a + 8 * k) 8).toList := by
  induction n with
  | zero => rfl
  | succ n ih =>
    rw [Nat.mul_succ, bytesAt_add, ih, List.range_succ, List.flatMap_append, List.flatMap_singleton,
      Memory.read_toList]

/-- Block `k` of a payload in memory. -/
theorem payloadBlock_bytesAt (m : Memory) {a len k : Nat} (inside : 8 * k + 8 ≤ len) :
    payloadBlock (bytesAt m a len) k = m.read (a + 8 * k) 8 := by
  refine Vector.ext fun i hi => ?_
  have byte : 8 * k + i < len := by omega
  simp only [payloadBlock, toBytes, Vector.getElem_ofFn, Memory.read, bytesAt]
  simp [byte, Nat.add_assoc]

/-- The scalar stream state of a key and a payload after S_INIT (R225). -/
def csaStream (t : Tables) (key : Bytes 8) (p : List Byte) : LaneStream :=
  (LaneStream.load (streamKeyA key) (streamKeyB key)).init t (payloadBlock p 0)

/-- The keystream block after `r` S_GENs (R226). -/
theorem csaStream_block (t : Tables) (key : Bytes 8) (p : List Byte) (r : Nat) :
    ((csaStream t key p).gens t r).block t = keystream t key (payloadBlock p 0) (r + 1) := rfl

theorem csaInput_zero (t : Tables) (key : Bytes 8) (p : List Byte) :
    csaInput t key p 0 = payloadBlock p 0 := rfl

theorem csaInput_succ (t : Tables) (key : Bytes 8) (p : List Byte) (r : Nat) :
    csaInput t key p (r + 1)
      = blockXor (payloadBlock p (r + 1)) (keystream t key (payloadBlock p 0) (r + 1)) := rfl

/-- A block that is not the last (R285). -/
theorem csaBlock_of_lt {t : Tables} {key : Bytes 8} {p : List Byte} {n k : Nat} (more : k + 1 < n) :
    csaBlock t key p n k = blockXor (csaInput t key p (k + 1))
      (decipherBlock t (blockKey t key) (csaInput t key p k)) := if_pos more

/-- The last block (R285). -/
theorem csaBlock_last {t : Tables} {key : Bytes 8} {p : List Byte} {n k : Nat} (last : n ≤ k + 1) :
    csaBlock t key p n k = decipherBlock t (blockKey t key) (csaInput t key p k) :=
  if_neg (by omega)

/-- Memory that holds the blocks and the residue of CSA_DEC holds CSA_DEC (R285). -/
theorem bytesAt_eq_csaDec {t : Tables} {key : Bytes 8} {m m' : Memory} {a n res : Nat} (pos : 0 < n)
    (short : res < 8)
    (block : ∀ k, k < n → m'.read (a + 8 * k) 8 = csaBlock t key (bytesAt m a (8 * n + res)) n k)
    (rest : ∀ i, i < res → m'.get (a + 8 * n + i) = m.get (a + 8 * n + i)
      ^^^ (keystream t key (payloadBlock (bytesAt m a (8 * n + res)) 0) n).getD i 0) :
    bytesAt m' a (8 * n + res) = csaDec t key (bytesAt m a (8 * n + res)) := by
  have length : (bytesAt m a (8 * n + res)).length = 8 * n + res := by simp [bytesAt]
  have blocks : (8 * n + res) / 8 = n := by omega
  have left : (8 * n + res) % 8 = res := by omega
  rw [csaDec, length, blocks, left, if_neg (by omega), bytesAt_add, bytesAt_blocks]
  refine congrArg₂ (· ++ ·) (List.flatMap_congr fun k hk => ?_) (List.map_congr_left fun i hi => ?_)
  · rw [block k (List.mem_range.mp hk)]
  · have hi := List.mem_range.mp hi
    rw [rest i hi]
    simp [bytesAt, hi, Nat.add_assoc]

/-! ## The live slots of a batch (R293, R294) -/

section
variable {s : State} (ready : BatchReady s)
include ready

/-- A slot is among the first alive[i] exactly when it is in the batch and has more than `i` blocks. -/
theorem BatchReady.lt_alive_iff {i : Nat} (hi : i < 24) {g : Nat} :
    g < s.sc.alive.getD i 0 ↔ g < s.sc.grouped ∧ i < (s.sc.slot g).n := by
  have count : s.sc.alive[i]
      = ((Finset.range s.sc.grouped).filter fun g => i < (s.sc.slot g).n).card :=
    ready.counts ⟨i, hi⟩
  rw [vector_getD_of_lt _ _ _ hi, count]
  by_cases hg : g < s.sc.grouped
  · rw [lt_aliveCount_iff ready.sorted i hg, and_iff_right hg]
  · have all : ((Finset.range s.sc.grouped).filter fun g => i < (s.sc.slot g).n).card ≤ s.sc.grouped :=
      (Finset.card_filter_le _ _).trans (Finset.card_range _).le
    exact iff_of_false (by omega) fun h => hg h.1

theorem BatchReady.alive_le_grouped {i : Nat} (hi : i < 24) : s.sc.alive.getD i 0 ≤ s.sc.grouped := by
  by_contra more
  exact absurd ((ready.lt_alive_iff hi (g := s.sc.grouped)).mp (by omega)).1 (Nat.lt_irrefl _)

/-- No slot has more than 23 blocks (R272). -/
theorem BatchReady.blocks_le {g : Nat} (hg : g < s.sc.grouped) :
    (s.sc.slot g).len = 8 * (s.sc.slot g).n + (s.sc.slot g).res ∧ (s.sc.slot g).res < 8
      ∧ 1 ≤ (s.sc.slot g).n ∧ 8 * (s.sc.slot g).n + (s.sc.slot g).res ≤ 184 := by
  obtain ⟨n, res, low, high⟩ := ready.shape g hg
  omega

/-- The later count is not larger. -/
theorem BatchReady.alive_antitone {i : Nat} (hi : i + 1 < 24) :
    s.sc.alive.getD (i + 1) 0 ≤ s.sc.alive.getD i 0 := by
  by_contra more
  have last := (ready.lt_alive_iff hi (g := s.sc.alive.getD i 0)).mp (by omega)
  exact Nat.lt_irrefl _ ((ready.lt_alive_iff (i := i) (by omega)).mpr ⟨last.1, by omega⟩)

end

/-! ## The invariant of the rounds (R303) -/

/-- The payload of slot `g`. -/
def State.payload (s : State) (g : Nat) : List Byte := bytesAt s.mem (s.sc.payloadAt g) (s.sc.slot g).len

/-- `u` is `s` after SC_ROUND0 and the rounds 1 to `r`: the first `r` blocks of every payload are decrypted,
and its residue if it has no more; a slot with more blocks has its next block-cipher input and encp behind
it; and the stream of every slot is `r` S_GENs on. -/
structure AfterRound (s : State) (key : Bytes 8) (r : Nat) (u : State) : Prop where
  cfg : u.cfg = s.cfg
  sched : u.sc = { s.sc with encp := u.sc.encp }
  soff : u.st.soff.val = 32
  laneKey : ∀ g : Fin maxLanes, g.val < s.cfg.n → u.bk.laneKey g = blockKey s.cfg.tables key
  stream : ∀ g, g < s.sc.grouped →
    u.st.laneState g = (csaStream s.cfg.tables key (s.payload g)).gens s.cfg.tables r
  input : ∀ g : Fin maxLanes, g.val < s.sc.grouped → r < (s.sc.slot g.val).n →
    u.wb.ib[g] = csaInput s.cfg.tables key (s.payload g.val) r
      ∧ u.sc.encpAt g.val = s.sc.payloadAt g.val + 8 * r + 8
  block : ∀ g, g < s.sc.grouped → ∀ k, k < (s.sc.slot g).n →
    u.mem.read (s.sc.payloadAt g + 8 * k) 8
      = if k < r then csaBlock s.cfg.tables key (s.payload g) (s.sc.slot g).n k
        else s.mem.read (s.sc.payloadAt g + 8 * k) 8
  residue : ∀ g, g < s.sc.grouped → ∀ i, i < (s.sc.slot g).res →
    u.mem.get (s.sc.payloadAt g + 8 * (s.sc.slot g).n + i)
      = if (s.sc.slot g).n ≤ r then
          s.mem.get (s.sc.payloadAt g + 8 * (s.sc.slot g).n + i)
            ^^^ (keystream s.cfg.tables key (payloadBlock (s.payload g) 0) (s.sc.slot g).n).getD i 0
        else s.mem.get (s.sc.payloadAt g + 8 * (s.sc.slot g).n + i)
  outside : SameMemoryOutside (fun a => ∃ g, g < s.sc.grouped ∧ InPayload s g a) s u

section
variable {s : State} {key : Bytes 8}

/-- SC_ROUND0 sets the invariant up. -/
theorem afterRound_zero (ready : BatchReady s) (latched : s.pending.cw.get s.sc.gpar = key.toList) :
    ∃ u, exec .scRound0 s = .next u ∧ AfterRound s key 0 u := by
  have lanes := Build.n_le s.cfg
  have cap := ready.lanes
  have alive : s.sc.alive[0] = s.sc.alive.getD 0 0 :=
    (vector_getD_of_lt _ _ _ (by omega)).symm
  have first (g : Nat) (hg : g < s.sc.grouped) :
      s.mem.read (s.sc.payloadAt g) 8 = payloadBlock (s.payload g) 0 :=
    (payloadBlock_bytesAt s.mem (k := 0) (by have := ready.shape g hg; omega)).symm
  obtain ⟨u, run, seeds, soff, loads, keys, frame, mem⟩ := roundZero s key latched cap
    (alive ▸ ready.alive_le_grouped (by omega))
    fun g hg k hk => ready.valid g hg k (by have := ready.shape g hg; omega)
  refine ⟨u, run, by rw [frame], by rw [frame], soff, fun g hg => ?_, fun g hg => ?_,
    fun g hg more => ?_, fun g hg k hk => ?_, fun g hg i hi => ?_, fun a _ => mem a⟩
  · exact Vector.ext fun k hk => (Vector.getElem_ofFn hk).trans (keys ⟨k, hk⟩ g hg)
  · rw [(seeds ⟨g, by omega⟩ hg).2, first g hg]
    rfl
  · have load := loads g
    rw [if_pos (by rw [alive]; exact (ready.lt_alive_iff (by omega)).mpr ⟨hg, more⟩)] at load
    refine ⟨?_, ?_⟩
    · rw [load.1, (seeds g hg).1, first g hg, csaInput_zero]
    · rw [SchedRegs.encpAt, vector_getD_of_lt _ _ _ g.isLt]
      exact load.2
  · exact Memory.read_congr fun i _ => mem _
  · rw [if_neg (by have := ready.shape g hg; omega)]
    exact mem _

end

/-! ## One round (R302, R303) -/

theorem BlockRegs.laneKey_congr {bk bk' : BlockRegs} (kk : bk'.kk = bk.kk) (g : Fin maxLanes) :
    bk'.laneKey g = bk.laneKey g := by rw [BlockRegs.laneKey, BlockRegs.laneKey, kk]

section
variable {s u : State} {key : Bytes 8} {r : Nat}

theorem AfterRound.slot (inv : AfterRound s key r u) (g : Nat) : u.sc.slot g = s.sc.slot g :=
  (congrArg (fun sc : SchedRegs => sc.slot g) inv.sched).trans rfl

theorem AfterRound.alive (inv : AfterRound s key r u) : u.sc.alive = s.sc.alive :=
  (congrArg SchedRegs.alive inv.sched).trans rfl

/-- Of a payload in memory, a block not yet decrypted. -/
theorem AfterRound.encryptedBlock (ready : BatchReady s) (inv : AfterRound s key r u) {g k : Nat}
    (hg : g < s.sc.grouped) (later : r ≤ k) (hk : k < (s.sc.slot g).n) :
    u.mem.read (s.sc.payloadAt g + 8 * k) 8 = payloadBlock (s.payload g) k := by
  have shape := ready.blocks_le hg
  rw [inv.block g hg k hk, if_neg (by omega), State.payload, payloadBlock_bytesAt _ (by omega)]

section
variable (ready : BatchReady s) (inv : AfterRound s key r u)
include ready inv

/-- A live slot has encp behind its block `r`. -/
theorem AfterRound.encp {g : Nat} (hg : g < s.sc.grouped) (more : r < (s.sc.slot g).n) :
    u.sc.encpAt g = s.sc.payloadAt g + 8 * r + 8 :=
  (inv.input ⟨g, by have := ready.lanes; have := Build.n_le s.cfg; omega⟩ hg more).2

variable (hr : r < 22)
include hr

/-- The slots of SC_ROUND(r + 1): those with a block `r`. -/
theorem AfterRound.lt_aliveBefore_iff {g : Nat} :
    g < u.sc.aliveBefore (r + 1) ↔ g < s.sc.grouped ∧ r < (s.sc.slot g).n := by
  rw [SchedRegs.aliveBefore, inv.alive]
  exact ready.lt_alive_iff (by omega)

/-- The slots that continue in SC_ROUND(r + 1): those with a block `r + 1`. -/
theorem AfterRound.lt_aliveAfter_iff {g : Nat} :
    g < u.sc.aliveAfter (r + 1) ↔ g < s.sc.grouped ∧ r + 1 < (s.sc.slot g).n := by
  rw [SchedRegs.aliveAfter, inv.alive]
  exact ready.lt_alive_iff (by omega)

/-- A slot whose block `r` is its last finishes. -/
theorem AfterRound.aliveAfter_le {g : Nat} (last : (s.sc.slot g).n ≤ r + 1) :
    u.sc.aliveAfter (r + 1) ≤ g :=
  Nat.le_of_not_lt fun h => by
    have := (inv.lt_aliveAfter_iff ready hr).mp h
    omega

/-- What SC_ROUND(r + 1) may write of a live slot is its block `r`, and its residue if that is its last. -/
theorem AfterRound.written {g a : Nat} (live : g < u.sc.aliveBefore (r + 1))
    (low : u.sc.encpAt g - 8 ≤ a)
    (high : a < u.sc.encpAt g + (if g < u.sc.aliveAfter (r + 1) then 0 else (u.sc.slot g).res)) :
    g < s.sc.grouped ∧ r < (s.sc.slot g).n ∧ InPayload s g a ∧ s.sc.payloadAt g + 8 * r ≤ a
      ∧ (a < s.sc.payloadAt g + 8 * r + 8 ∨ (s.sc.slot g).n = r + 1) := by
  obtain ⟨hg, more⟩ := (inv.lt_aliveBefore_iff ready hr).mp live
  have shape := ready.blocks_le hg
  have encp := inv.encp ready hg more
  have cont := inv.lt_aliveAfter_iff ready hr (g := g)
  rw [inv.slot] at high
  refine ⟨hg, more, ?_⟩
  split at high
  · exact ⟨⟨by omega, by omega⟩, by omega, by omega⟩
  · exact ⟨⟨by omega, by omega⟩, by omega, by omega⟩

/-- The part of a live slot in SC_ROUND(r + 1) lies in its payload. -/
theorem AfterRound.roundWidth_le {g : Nat} (live : g < u.sc.aliveBefore (r + 1)) :
    8 * r + roundWidth u (u.sc.aliveAfter (r + 1)) g ≤ (s.sc.slot g).len := by
  obtain ⟨hg, more⟩ := (inv.lt_aliveBefore_iff ready hr).mp live
  have shape := ready.blocks_le hg
  have cont := inv.lt_aliveAfter_iff ready hr (g := g)
  rw [roundWidth, inv.slot]
  split <;> omega

/-- The parts of the live slots in SC_ROUND(r + 1) are valid and disjoint. -/
theorem AfterRound.slotsSound :
    SlotsSound u (roundWidth u (u.sc.aliveAfter (r + 1))) 0 (u.sc.aliveBefore (r + 1)) := by
  have start (g : Nat) (live : g < u.sc.aliveBefore (r + 1)) :
      g < s.sc.grouped ∧ u.sc.encpAt g = s.sc.payloadAt g + 8 * r + 8 := by
    obtain ⟨hg, more⟩ := (inv.lt_aliveBefore_iff ready hr).mp live
    exact ⟨hg, inv.encp ready hg more⟩
  have inside (g : Nat) (live : g < u.sc.aliveBefore (r + 1)) {a : Nat}
      (own : InSlot u (roundWidth u (u.sc.aliveAfter (r + 1))) g a) : InPayload s g a := by
    have width := inv.roundWidth_le ready hr live
    have := (start g live).2
    obtain ⟨low, high⟩ := own
    exact ⟨by omega, by omega⟩
  refine ⟨fun g _ live => ?_, fun g h _ gl _ hl ne a own other => ?_⟩
  · obtain ⟨hg, encp⟩ := start g live
    have width := inv.roundWidth_le ready hr live
    refine ⟨by omega, fun k hk => ?_⟩
    have byte : u.sc.encpAt g - 8 + k = s.sc.payloadAt g + (8 * r + k) := by omega
    rw [byte, inv.cfg]
    exact ready.valid g hg _ (by omega)
  · exact ready.disjoint g h (start g gl).1 (start h hl).1 ne a (inside g gl own) (inside h hl other)

/-- SC_ROUND(r + 1) has no more continuing slots than live ones, and those are lanes of the build. -/
theorem AfterRound.aliveAfter_le_aliveBefore :
    u.sc.aliveAfter (r + 1) ≤ u.sc.aliveBefore (r + 1) ∧ u.sc.aliveBefore (r + 1) ≤ u.cfg.n := by
  rw [SchedRegs.aliveBefore, SchedRegs.aliveAfter, inv.alive, inv.cfg]
  exact ⟨ready.alive_antitone (by omega), (ready.alive_le_grouped (by omega)).trans ready.lanes⟩

/-! ### What SC_ROUND(r + 1) leaves of a payload -/

/-- A continuing slot has its next block-cipher input, and encp behind it. -/
theorem AfterRound.schedRound_input {g : Fin maxLanes} (hg : g.val < s.sc.grouped)
    (more : r + 1 < (s.sc.slot g.val).n) :
    (u.schedRound (r + 1)).slotRegs g.val
      = (csaInput s.cfg.tables key (s.payload g.val) (r + 1), s.sc.payloadAt g.val + 8 * (r + 1) + 8) := by
  obtain ⟨le, cap⟩ := inv.aliveAfter_le_aliveBefore ready hr
  have next : u.sc.encpAt g.val = s.sc.payloadAt g.val + 8 * (r + 1) := by
    rw [inv.encp ready hg (by omega)]; omega
  obtain ⟨regs, -⟩ := State.schedRound_continue le cap (inv.slotsSound ready hr) inv.soff g
    ((inv.lt_aliveAfter_iff ready hr).mpr ⟨hg, more⟩)
  rw [regs, next, inv.encryptedBlock ready hg (by omega) more, inv.stream g.val hg, inv.cfg,
    csaInput_succ, csaStream_block]

/-- A live slot has its block `r` decrypted. -/
theorem AfterRound.schedRound_block {g : Fin maxLanes} (hg : g.val < s.sc.grouped)
    (more : r < (s.sc.slot g.val).n) :
    (u.schedRound (r + 1)).mem.read (s.sc.payloadAt g.val + 8 * r) 8
      = csaBlock s.cfg.tables key (s.payload g.val) (s.sc.slot g.val).n r := by
  obtain ⟨le, cap⟩ := inv.aliveAfter_le_aliveBefore ready hr
  have sound := inv.slotsSound ready hr
  have before : u.sc.encpAt g.val - 8 = s.sc.payloadAt g.val + 8 * r := by
    rw [inv.encp ready hg more]; omega
  have input := (inv.input g hg more).1
  have keyed := inv.laneKey g (hg.trans_le ready.lanes)
  by_cases last : (s.sc.slot g.val).n ≤ r + 1
  · obtain ⟨read, -⟩ := State.schedRound_finish le cap sound inv.soff g
      (inv.aliveAfter_le ready hr last) ((inv.lt_aliveBefore_iff ready hr).mpr ⟨hg, more⟩)
    rw [← before, read, csaBlock_last last, input, keyed, inv.cfg]
  · have next : u.sc.encpAt g.val = s.sc.payloadAt g.val + 8 * (r + 1) := by
      rw [inv.encp ready hg more]; omega
    obtain ⟨-, read⟩ := State.schedRound_continue le cap sound inv.soff g
      ((inv.lt_aliveAfter_iff ready hr).mpr ⟨hg, by omega⟩)
    rw [← before, read, csaBlock_of_lt (by omega), input, keyed, inv.cfg, next,
      inv.encryptedBlock ready hg (by omega) (by omega), inv.stream g.val hg, csaInput_succ,
      csaStream_block]

/-- A finishing slot has its residue decrypted. -/
theorem AfterRound.schedRound_residue {g : Fin maxLanes} (hg : g.val < s.sc.grouped)
    (last : (s.sc.slot g.val).n = r + 1) {i : Nat} (hi : i < (s.sc.slot g.val).res) :
    (u.schedRound (r + 1)).mem.get (s.sc.payloadAt g.val + 8 * (r + 1) + i)
      = s.mem.get (s.sc.payloadAt g.val + 8 * (r + 1) + i)
        ^^^ (keystream s.cfg.tables key (payloadBlock (s.payload g.val) 0) (r + 1)).getD i 0 := by
  obtain ⟨le, cap⟩ := inv.aliveAfter_le_aliveBefore ready hr
  have behind : u.sc.encpAt g.val = s.sc.payloadAt g.val + 8 * (r + 1) := by
    rw [inv.encp ready hg (by omega)]; omega
  have residue := (State.schedRound_finish le cap (inv.slotsSound ready hr) inv.soff g
    (inv.aliveAfter_le ready hr last.le)
    ((inv.lt_aliveBefore_iff ready hr).mpr ⟨hg, by omega⟩)).2 i (by rwa [inv.slot])
  have kept := inv.residue g.val hg i hi
  rw [if_neg (by omega), last] at kept
  rwa [behind, kept, inv.stream g.val hg, inv.cfg, csaStream_block] at residue

/-- A byte is kept that the slot whose payload it is in does not write. -/
theorem AfterRound.schedRound_kept {g a : Nat} (hg : g < s.sc.grouped) (own : InPayload s g a)
    (away : r < (s.sc.slot g).n → s.sc.payloadAt g + 8 * r ≤ a →
      ¬ (a < s.sc.payloadAt g + 8 * r + 8 ∨ (s.sc.slot g).n = r + 1)) :
    (u.schedRound (r + 1)).mem.get a = u.mem.get a := by
  obtain ⟨le, cap⟩ := inv.aliveAfter_le_aliveBefore ready hr
  refine State.schedRound_outside le cap (inv.slotsSound ready hr) ?_
  rintro ⟨h, live, low, high⟩
  obtain ⟨hh, more, part, behind, upto⟩ := inv.written ready hr live low high
  obtain rfl : g = h := by
    by_contra ne
    exact ready.disjoint g h hg hh ne a own part
  exact away more behind upto

end

end

/-- SC_ROUND(r + 1) moves the invariant on by one round. -/
theorem afterRound_succ {s u : State} {key : Bytes 8} {r : Nat} (ready : BatchReady s)
    (inv : AfterRound s key r u) (hr : r < 22) :
    ∃ t, exec (.scRound ⟨r + 1, by omega⟩) u = .next t ∧ AfterRound s key (r + 1) t := by
  have lanes := Build.n_le s.cfg
  have cap := ready.lanes
  have sound := inv.slotsSound ready hr
  obtain ⟨le, cap'⟩ := inv.aliveAfter_le_aliveBefore ready hr
  obtain ⟨t, run, -, -, -, streams, soff, kept, frame, kk, -⟩ :=
    schedulerRound u ⟨r + 1, by omega⟩ inv.soff le cap' sound
  obtain rfl : t = u.schedRound (r + 1) :=
    Host.Outcome.next.inj (run.symm.trans (exec_scRound (it := ⟨r + 1, by omega⟩) inv.soff le sound))
  have block (g : Nat) (hg : g < s.sc.grouped) (more : r < (s.sc.slot g).n) :=
    inv.schedRound_block ready hr (g := ⟨g, by omega⟩) hg more
  have residue (g : Nat) (hg : g < s.sc.grouped) :=
    inv.schedRound_residue ready hr (g := ⟨g, by omega⟩) hg
  refine ⟨_, run, (congrArg State.cfg frame).trans inv.cfg, ?_, soff, fun g hg => ?_, fun g hg => ?_,
    fun g hg more => ?_, fun g hg k hk => ?_, fun g hg i hi => ?_, fun a out => ?_⟩
  · have sched := congrArg State.sc frame
    rw [inv.sched] at sched
    exact sched
  · rw [BlockRegs.laneKey_congr kk, inv.laneKey g hg]
  · rw [streams g (by rw [inv.cfg]; omega), inv.stream g hg, inv.cfg, LaneStream.gens]
  · have regs := inv.schedRound_input ready hr hg more
    exact ⟨(laneBlock_of_lt _ g.isLt).symm.trans (congrArg Prod.fst regs), congrArg Prod.snd regs⟩
  · by_cases work : k = r
    · rw [if_pos (by omega), work, block g hg (by omega)]
    · have shape := ready.blocks_le hg
      have same : (u.schedRound (r + 1)).mem.read (s.sc.payloadAt g + 8 * k) 8
          = u.mem.read (s.sc.payloadAt g + 8 * k) 8 := Memory.read_congr fun i hi =>
        inv.schedRound_kept ready hr hg ⟨by omega, by omega⟩ (by omega)
      rw [same, inv.block g hg k hk]
      exact if_congr (by omega) rfl rfl
  · have shape := ready.blocks_le hg
    by_cases last : (s.sc.slot g).n = r + 1
    · rw [if_pos last.le, last]
      exact residue g hg last hi
    · rw [inv.schedRound_kept ready hr hg ⟨by omega, by omega⟩ (by omega), inv.residue g hg i hi]
      exact if_congr (by omega) rfl rfl
  · refine (kept a ?_).trans (inv.outside a out)
    rintro ⟨h, live, low, high⟩
    obtain ⟨hh, -, part, -⟩ := inv.written ready hr live low high
    exact out ⟨h, hh, part⟩

/-! ## The rounds together (R310) -/

/-- SC_ROUND0 and the rounds 1 to `r`. -/
def firstRounds (r : Nat) : List Instr :=
  .scRound0 :: ((List.finRange 22).take r).map fun k => .scRound ⟨k.val + 1, by omega⟩

theorem firstRounds_succ {r : Nat} (hr : r < 22) :
    firstRounds (r + 1) = firstRounds r ++ [.scRound ⟨r + 1, by omega⟩] := by
  rw [firstRounds, List.take_succ_eq_append_getElem (by simpa using hr), List.map_append]
  simp [firstRounds]

theorem roundLoop_eq : roundLoop = firstRounds 22 ++ [.scRound23] := rfl

/-- The rounds 1 to `r` keep the invariant. -/
theorem runInstrs_firstRounds {s : State} {key : Bytes 8} (ready : BatchReady s)
    (latched : s.pending.cw.get s.sc.gpar = key.toList) {r : Nat} (hr : r ≤ 22) :
    ∃ u, runInstrs (firstRounds r) s = .next u ∧ AfterRound s key r u := by
  induction r with
  | zero =>
    obtain ⟨u, run, inv⟩ := afterRound_zero ready latched
    exact ⟨u, runInstrs_cons run [], inv⟩
  | succ r ih =>
    obtain ⟨u, run, inv⟩ := ih (by omega)
    obtain ⟨t, step, inv'⟩ := afterRound_succ ready inv hr
    exact ⟨t, by rw [firstRounds_succ hr, runInstrs_append run, runInstrs_cons step]; rfl, inv'⟩

/-! ## The drain (R308) -/

section
variable {s u : State} {key : Bytes 8} (ready : BatchReady s) (inv : AfterRound s key 22 u)
include ready inv

/-- SC_ROUND23 drains the slots of 23 blocks, which have no residue. -/
theorem AfterRound.drained_iff {g : Nat} :
    u.sc.alive[23] ≤ g ∧ g < u.sc.alive[22] ↔ g < s.sc.grouped ∧ (s.sc.slot g).n = 23 := by
  have last := ready.lt_alive_iff (i := 22) (by omega) (g := g)
  have none := ready.lt_alive_iff (i := 23) (by omega) (g := g)
  rw [vector_getD_of_lt _ _ _ (by omega)] at last none
  simp only [inv.alive]
  constructor
  · rintro ⟨-, live⟩
    have live := last.mp live
    have shape := ready.blocks_le live.1
    exact ⟨live.1, by omega⟩
  · rintro ⟨hg, full⟩
    exact ⟨Nat.le_of_not_lt fun h => by have := none.mp h; omega, last.mpr ⟨hg, by omega⟩⟩

/-- The block that SC_ROUND23 writes in a drained slot is the last of its payload. -/
theorem AfterRound.drained_part {g : Nat} (low : u.sc.alive[23] ≤ g) (high : g < u.sc.alive[22]) :
    g < s.sc.grouped ∧ (s.sc.slot g).n = 23 ∧ u.sc.encpAt g - 8 = s.sc.payloadAt g + 8 * 22
      ∧ 8 ≤ u.sc.encpAt g ∧ (s.sc.slot g).len = 8 * 22 + 8 := by
  obtain ⟨hg, full⟩ := (inv.drained_iff ready).mp ⟨low, high⟩
  have shape := ready.blocks_le hg
  have encp := inv.encp ready hg (by omega)
  exact ⟨hg, full, by omega, by omega, by omega⟩

/-- The last blocks of the drained slots are valid and disjoint. -/
theorem AfterRound.drainSound : SlotsSound u (fun _ => 8) u.sc.alive[23] u.sc.alive[22] := by
  refine ⟨fun g low high => ?_, fun g h gl gh hl hh ne a own other => ?_⟩
  · obtain ⟨hg, full, before, pos, len⟩ := inv.drained_part ready low high
    refine ⟨pos, fun k (hk : k < 8) => ?_⟩
    rw [before, inv.cfg, Nat.add_assoc]
    exact ready.valid g hg _ (by omega)
  · obtain ⟨hg, -, before, -, len⟩ := inv.drained_part ready gl gh
    obtain ⟨hh, -, before', -, len'⟩ := inv.drained_part ready hl hh
    simp only [InSlot] at own other
    exact ready.disjoint g h hg hh ne a ⟨by omega, by omega⟩ ⟨by omega, by omega⟩

end

/-- `t` is `s` with every payload of the batch decrypted: its blocks and its residue (R285). -/
structure BatchDecrypted (s : State) (key : Bytes 8) (t : State) : Prop where
  block : ∀ g, g < s.sc.grouped → ∀ k, k < (s.sc.slot g).n →
    t.mem.read (s.sc.payloadAt g + 8 * k) 8
      = csaBlock s.cfg.tables key (s.payload g) (s.sc.slot g).n k
  residue : ∀ g, g < s.sc.grouped → ∀ i, i < (s.sc.slot g).res →
    t.mem.get (s.sc.payloadAt g + 8 * (s.sc.slot g).n + i)
      = s.mem.get (s.sc.payloadAt g + 8 * (s.sc.slot g).n + i)
        ^^^ (keystream s.cfg.tables key (payloadBlock (s.payload g) 0) (s.sc.slot g).n).getD i 0
  outside : SameMemoryOutside (fun a => ∃ g, g < s.sc.grouped ∧ InPayload s g a) s t

/-- SC_ROUND23 finishes the batch. -/
theorem batchDecrypted_of_afterRound {s u : State} {key : Bytes 8} (ready : BatchReady s)
    (inv : AfterRound s key 22 u) : ∃ t, exec .scRound23 u = .next t ∧ BatchDecrypted s key t := by
  have lanes := Build.n_le s.cfg
  have cap := ready.lanes
  have live : u.sc.alive[22] ≤ u.cfg.n := by
    have := ready.alive_le_grouped (i := 22) (by omega)
    rw [vector_getD_of_lt _ _ _ (by omega)] at this
    simp only [inv.alive, inv.cfg]
    omega
  obtain ⟨t, run, drained, kept, -, -⟩ := schedulerDrain u live (inv.drainSound ready)
  have keep {g a : Nat} (hg : g < s.sc.grouped) (own : InPayload s g a)
      (away : (s.sc.slot g).n = 23 → a < s.sc.payloadAt g + 8 * 22) : t.mem.get a = u.mem.get a := by
    refine kept a ?_
    rintro ⟨h, low, high, behind, upto⟩
    obtain ⟨hh, full, before, -, len⟩ := inv.drained_part ready low high
    obtain rfl : g = h := by
      by_contra ne
      exact ready.disjoint g h hg hh ne a own ⟨by omega, by omega⟩
    have := away full
    omega
  refine ⟨t, run, fun g hg k hk => ?_, fun g hg i hi => ?_, fun a out => ?_⟩
  · have shape := ready.blocks_le hg
    by_cases last : k = 22
    · obtain ⟨low, high⟩ := (inv.drained_iff ready).mpr ⟨hg, by omega⟩
      obtain ⟨-, full, before, -, -⟩ := inv.drained_part ready low high
      have read := drained ⟨g, by omega⟩ low high
      have input := (inv.input ⟨g, by omega⟩ hg (show 22 < (s.sc.slot g).n by omega)).1
      rw [before, input, inv.laneKey _ (hg.trans_le cap), inv.cfg] at read
      rw [last, csaBlock_last full.le]
      exact read
    · have same : t.mem.read (s.sc.payloadAt g + 8 * k) 8 = u.mem.read (s.sc.payloadAt g + 8 * k) 8 :=
        Memory.read_congr fun i hi => keep hg ⟨by omega, by omega⟩ (by omega)
      rw [same, inv.block g hg k hk, if_pos (by omega)]
  · have shape := ready.blocks_le hg
    rw [keep hg ⟨by omega, by omega⟩ (by omega), inv.residue g hg i hi, if_pos (by omega)]
  · refine (kept a ?_).trans (inv.outside a out)
    rintro ⟨h, low, high, behind, upto⟩
    obtain ⟨hh, -, before, -, len⟩ := inv.drained_part ready low high
    exact out ⟨h, hh, by omega, by omega⟩

/-- Settles O51: SC_ROUND0 sets the invariant of the rounds up, each SC_ROUND moves it on, SC_ROUND23
finishes the slots of 23 blocks, and blocks and residue together are CSA_DEC of the payload. -/
theorem roundLoopDecryptsTheBatch : Obligations.RoundLoopDecryptsTheBatch := by
  intro s key latched ready
  obtain ⟨u, rounds, inv⟩ := runInstrs_firstRounds ready latched le_rfl
  obtain ⟨t, drain, done⟩ := batchDecrypted_of_afterRound ready inv
  refine ⟨t, ?_, fun g hg => ?_, done.outside⟩
  · rw [roundLoop_eq, runInstrs_append rounds, runInstrs_cons drain]
    rfl
  · obtain ⟨len, short, pos, -⟩ := ready.blocks_le hg
    have block := done.block g hg
    have residue := done.residue g hg
    rw [State.payload, len] at block residue
    rw [len]
    exact bytesAt_eq_csaDec pos short block residue

end Sys2Proof.Machine
end

section
/-!
The scan (spec/44_batch_scheduler.md R270 to R284): the class of a packet, one packet of the scan, and the
invariant that the scan keeps over the packets of a range and over the ranges.
-/

namespace Sys2Proof.Machine

/-! ## The class of a packet (R270 to R274) -/

/-- The TSC field is the two top bits of byte 3. -/
theorem extractTsc_eq_iff (h3 : Byte) {v : Nat} (hv : v < 4) :
    h3.extractLsb' 6 2 = BitVec.ofNat 2 v ↔ h3.toNat / 64 = v := by
  have byte := h3.isLt
  rw [← BitVec.toNat_inj, BitVec.extractLsb'_toNat, BitVec.toNat_ofNat, Nat.shiftRight_eq_div_pow]
  omega

theorem getLsbD_eq_decide (h3 : Byte) (i : Nat) : h3.getLsbD i = decide (h3.toNat / 2 ^ i % 2 = 1) :=
  Nat.testBit_eq_decide_div_mod_eq

/-- The parity of an encrypted packet. -/
theorem headerParity_eq {m : Memory} {a : Nat} (enc : 2 ≤ tscAt m a) :
    headerParity (m.get (a + 3)) = parityAt m a := by
  have byte := (m.get (a + 3)).isLt
  rw [headerParity, getLsbD_eq_decide, parityAt]
  unfold tscAt at enc ⊢
  exact if_congr (by rw [decide_eq_true_iff]; omega) rfl rfl

/-- The class of the packet at `a` by its fields (R274). -/
def classOf (m : Memory) (a : Nat) : Cls :=
  if tscAt m a = 0 then .clear
  else if tscAt m a = 1 then .reserved
  else if 188 < offsetAt m a then .malformed
  else if (188 - offsetAt m a) / 8 = 0 then .zero
  else .cand (parityAt m a) (offsetAt m a) ((188 - offsetAt m a) / 8) ((188 - offsetAt m a) % 8)

/-- The framing of a packet of valid bytes reads its fields. -/
theorem classify_eq {c : Build} {m : Memory} {a : Nat} (valid : ValidBytes c a 188) :
    classify c m a = some (classOf m a) := by
  have h3 : readByte? c m (a + 3) = some (m.get (a + 3)) := if_pos (valid 3 (by omega))
  have h4 : readByte? c m (a + 4) = some (m.get (a + 4)) := if_pos (valid 4 (by omega))
  have off : (if (m.get (a + 3)).getLsbD 5 then (readByte? c m (a + 4)).map (fun b => 4 + 1 + b.toNat)
      else some 4) = some (offsetAt m a) := by
    rw [getLsbD_eq_decide, h4, offsetAt]
    by_cases flag : (m.get (a + 3)).toNat / 32 % 2 = 1 <;> simp [flag]
  have zero : (m.get (a + 3)).extractLsb' 6 2 = 0 ↔ tscAt m a = 0 :=
    extractTsc_eq_iff (v := 0) _ (by omega)
  have one : (m.get (a + 3)).extractLsb' 6 2 = 1 ↔ tscAt m a = 1 :=
    extractTsc_eq_iff (v := 1) _ (by omega)
  rw [classify, frame, h3]
  dsimp only
  rw [off, classOf]
  by_cases clear : tscAt m a = 0
  · rw [if_pos (zero.mpr clear), if_pos clear]
    rfl
  rw [if_neg (mt zero.mp clear), if_neg clear]
  by_cases reserved : tscAt m a = 1
  · rw [if_pos (one.mpr reserved), if_pos reserved]
    rfl
  rw [if_neg (mt one.mp reserved), if_neg reserved, headerParity_eq (by omega)]
  by_cases past : 188 < offsetAt m a
  · simp only [if_pos past, if_neg (show ¬ offsetAt m a ≤ pktBytes from Nat.not_le.mpr past)]
    rfl
  · simp only [if_neg past, if_pos (show offsetAt m a ≤ pktBytes from Nat.le_of_not_lt past)]
    rfl

theorem classOf_of_hasBlock {m : Memory} {a : Nat} (block : hasBlock 8 m a = true) :
    classOf m a
      = .cand (parityAt m a) (offsetAt m a) ((188 - offsetAt m a) / 8) ((188 - offsetAt m a) % 8) := by
  obtain ⟨enc, inside, whole⟩ := of_decide_eq_true block
  rw [classOf, if_neg (by omega), if_neg (by omega), if_neg (by omega), if_neg (by omega)]

theorem classOf_of_isMalformed {m : Memory} {a : Nat} (bad : isMalformed m a = true) :
    classOf m a = .malformed := by
  obtain ⟨enc, past⟩ := of_decide_eq_true bad
  rw [classOf, if_neg (by omega), if_neg (by omega), if_pos past]

theorem hasBlock_eq_false_of_isMalformed {m : Memory} {a : Nat} (bad : isMalformed m a = true) :
    hasBlock 8 m a = false :=
  decide_eq_false fun block => absurd (of_decide_eq_true bad).2 (by omega)

/-- A packet that is neither admitted nor malformed is passed over (R280). -/
theorem scanPacket_of_plain {m : Memory} {a : Nat} (noBlock : hasBlock 8 m a = false)
    (good : isMalformed m a = false) (n : Nat) (sc : SchedRegs) :
    sc.scanPacket n (classOf m a) = sc.advancePacket n := by
  have noBlock := of_decide_eq_false noBlock
  have good := of_decide_eq_false good
  unfold classOf
  split
  · rfl
  split
  · rfl
  rw [if_neg (by omega), if_pos (by omega)]
  rfl

/-! ## One packet of the scan (R280, R281) -/

/-- The batch among the packets `done`. -/
def batchOf (m : Memory) (done : List Nat) : List Nat := done.filter (hasBlock 8 m)

/-- The scan has advanced the packets `done` and has `rest` before it; `base` are the registers it began
with. -/
structure Scanned (c : Build) (m : Memory) (base : SchedRegs) (done rest : List Nat) (sc : SchedRegs) :
    Prop where
  adv : sc.adv = BitVec.ofNat 32 done.length
  grouped : sc.grouped = (batchOf m done).length
  cap : sc.grouped ≤ c.n
  slot : ∀ g, g < sc.grouped → sc.slot g = descAt m ((batchOf m done).getD g 0)
  otherSlot : ∀ g, sc.grouped ≤ g → sc.slot g = base.slot g
  parity : ∀ a ∈ batchOf m done, parityAt m a = sc.gpar
  malformed : sc.diagInc = (done.filter (isMalformed m)).length
  full : sc.grouped = c.n → ∃ a, done.getLast? = some a ∧ hasBlock 8 m a = true
  moving : sc.stop = false → sc.grouped < c.n
  halted : sc.stop = true → sc.grouped = c.n ∨ ∃ a, rest.head? = some a ∧ 0 < sc.grouped
    ∧ hasBlock 8 m a = true ∧ parityAt m a ≠ sc.gpar
  kept : sc.alive = base.alive ∧ sc.encp = base.encp ∧ sc.advanced = base.advanced
    ∧ sc.remaining = base.remaining

/-- The scan position is `a` in the range after those whose updated starts are `pre`. -/
structure ScanCursor (pre : List Nat) (a : Nat) (post : List Nat) (sc : SchedRegs) : Prop where
  range : sc.curRange = pre.length
  addr : sc.curAddr = a
  starts : sc.starts = pre ++ a :: post

/-- Advancing a packet moves the scan position past it. -/
theorem ScanCursor.advance {pre post : List Nat} {a : Nat} {sc : SchedRegs}
    (cur : ScanCursor pre a post sc) (n : Nat) : ScanCursor pre (a + 188) post (sc.advancePacket n) where
  range := cur.range
  addr := congrArg (· + 188) cur.addr
  starts := by
    simp [SchedRegs.advancePacket, cur.range, cur.addr, cur.starts, pktBytes]

section
variable {c : Build} {m : Memory} {base sc : SchedRegs} {done rest : List Nat} {a : Nat}

theorem batchOf_append_of_not (noBlock : hasBlock 8 m a = false) :
    batchOf m (done ++ [a]) = batchOf m done := by simp [batchOf, noBlock]

theorem batchOf_append (block : hasBlock 8 m a = true) :
    batchOf m (done ++ [a]) = batchOf m done ++ [a] := by simp [batchOf, block]

/-- The invariant does not depend on the scan position. -/
theorem Scanned.moveTo (inv : Scanned c m base done rest sc) (j b : Nat) :
    Scanned c m base done rest { sc with curRange := j, curAddr := b } :=
  ⟨inv.adv, inv.grouped, inv.cap, inv.slot, inv.otherSlot, inv.parity, inv.malformed, inv.full,
    inv.moving, inv.halted, inv.kept⟩

/-- The scan begins with nothing advanced. -/
theorem scanned_scanInit (ranges : List Range) (rest : List Nat) :
    Scanned c m base [] rest (base.scanInit ranges) := by
  have lanes := Build.le_n c
  exact ⟨rfl, rfl, Nat.zero_le _, fun g hg => absurd hg (Nat.not_lt_zero g), fun _ _ => rfl,
    fun a ha => absurd ha List.not_mem_nil, rfl, fun (h : 0 = c.n) => by omega,
    fun _ => show 0 < c.n by omega, fun h => absurd h Bool.false_ne_true, rfl, rfl, rfl, rfl⟩

/-- Before a candidate of the other parity the scan stops. -/
theorem Scanned.refuse (inv : Scanned c m base done (a :: rest) sc) (block : hasBlock 8 m a = true)
    (pos : 0 < sc.grouped) (other : parityAt m a ≠ sc.gpar) :
    Scanned c m base done (a :: rest) { sc with stop := true } :=
  ⟨inv.adv, inv.grouped, inv.cap, inv.slot, inv.otherSlot, inv.parity, inv.malformed, inv.full,
    fun h => absurd h Bool.true_eq_false.mp, fun _ => .inr ⟨a, rfl, pos, block, other⟩, inv.kept⟩

variable (inv : Scanned c m base done (a :: rest) sc) (going : sc.stop = false)
include inv going

/-- A packet that is no candidate is advanced, and counted if it is malformed. -/
theorem Scanned.pass (noBlock : hasBlock 8 m a = false) {d : Nat}
    (count : d = sc.diagInc + if isMalformed m a = true then 1 else 0) :
    Scanned c m base (done ++ [a]) rest ({ sc with diagInc := d }.advancePacket c.n) where
  adv := by simp [SchedRegs.advancePacket, inv.adv, BitVec.ofNat_add]
  grouped := by rw [batchOf_append_of_not noBlock]; exact inv.grouped
  cap := inv.cap
  slot := by rw [batchOf_append_of_not noBlock]; exact inv.slot
  otherSlot := inv.otherSlot
  parity := by rw [batchOf_append_of_not noBlock]; exact inv.parity
  malformed := by
    rw [List.filter_append, List.length_append, ← inv.malformed, List.filter_singleton]
    exact count.trans (by split <;> simp_all)
  full h := absurd h (inv.moving going).ne
  moving _ := inv.moving going
  halted h := by
    have full : sc.grouped = c.n := by simpa [SchedRegs.advancePacket, going] using h
    exact .inl full
  kept := inv.kept

/-- A candidate of the batch's parity is advanced into the next slot. -/
theorem Scanned.accept (here : sc.curAddr = a) (block : hasBlock 8 m a = true)
    (same : ¬ (sc.grouped > 0 ∧ parityAt m a ≠ sc.gpar)) :
    Scanned c m base (done ++ [a]) rest
      ((sc.admitPacket (parityAt m a) (offsetAt m a) ((188 - offsetAt m a) / 8)
        ((188 - offsetAt m a) % 8)).advancePacket c.n) := by
  have room := inv.moving going
  have lanes := Build.n_le c
  have length := inv.grouped
  have slots (g : Nat) : (sc.desc.setIfInBounds sc.grouped (descAt m a)).getD g ⟨0, 0, 0, 0, 0⟩
      = if g = sc.grouped then descAt m a else sc.slot g :=
    (vector_getD_setIfInBounds ..).trans (if_congr (and_iff_left (by omega)) rfl rfl)
  have desc : (⟨sc.curAddr, offsetAt m a, pktBytes - offsetAt m a, (188 - offsetAt m a) / 8,
      (188 - offsetAt m a) % 8⟩ : Desc) = descAt m a := by
    rw [here]
    rfl
  constructor <;> simp only [SchedRegs.admitPacket, SchedRegs.advancePacket, SchedRegs.slot, desc, slots,
    batchOf_append block]
  case adv => simp [inv.adv, BitVec.ofNat_add]
  case grouped => simp [length]
  case cap => exact room
  case slot =>
    intro g hg
    by_cases new : g = sc.grouped
    · rw [if_pos new, List.getD_append_right _ _ _ _ (by omega), new, length, Nat.sub_self]
      rfl
    · rw [if_neg new, List.getD_append _ _ _ _ (by omega)]
      exact inv.slot g (by omega)
  case otherSlot =>
    intro g hg
    rw [if_neg (by omega)]
    exact inv.otherSlot g (by omega)
  case parity =>
    intro b hb
    rcases List.mem_append.mp hb with old | new
    · have some : sc.grouped ≠ 0 := by
        rw [length]
        exact (List.length_pos_of_mem old).ne'
      rw [if_neg some, inv.parity b old]
    · rw [List.mem_singleton.mp new]
      split
      · rfl
      · by_contra other
        exact same ⟨by omega, other⟩
  case malformed =>
    have good : isMalformed m a = false := by
      by_contra bad
      rw [hasBlock_eq_false_of_isMalformed (by simpa using bad)] at block
      exact absurd block Bool.false_ne_true
    simp [inv.malformed, good]
  case full => exact fun _ => ⟨a, by simp, block⟩
  case moving => simp only [going, Bool.false_or, decide_eq_false_iff_not]; omega
  case halted => exact fun h => .inl (by simpa [going] using h)
  case kept => exact inv.kept

/-- One packet of the scan: it is advanced, or the scan stops before it. -/
theorem Scanned.scanPacket {pre post : List Nat} (cur : ScanCursor pre a post sc) :
    (Scanned c m base (done ++ [a]) rest (sc.scanPacket c.n (classOf m a))
        ∧ ScanCursor pre (a + 188) post (sc.scanPacket c.n (classOf m a)))
      ∨ (Scanned c m base done (a :: rest) (sc.scanPacket c.n (classOf m a))
        ∧ ScanCursor pre a post (sc.scanPacket c.n (classOf m a))
        ∧ (sc.scanPacket c.n (classOf m a)).stop = true) := by
  by_cases block : hasBlock 8 m a = true
  · rw [classOf_of_hasBlock block, SchedRegs.scanPacket]
    by_cases refused : sc.grouped > 0 ∧ parityAt m a ≠ sc.gpar
    · rw [if_pos refused]
      exact .inr ⟨inv.refuse block refused.1 refused.2, ⟨cur.range, cur.addr, cur.starts⟩, rfl⟩
    · rw [if_neg refused]
      exact .inl ⟨inv.accept going cur.addr block refused,
        ScanCursor.advance (sc := sc.admitPacket _ _ _ _) ⟨cur.range, cur.addr, cur.starts⟩ c.n⟩
  · have noBlock : hasBlock 8 m a = false := by simpa using block
    refine .inl ?_
    by_cases bad : isMalformed m a = true
    · rw [classOf_of_isMalformed bad, SchedRegs.scanPacket]
      exact ⟨inv.pass going noBlock (by rw [if_pos bad]),
        ScanCursor.advance (sc := { sc with diagInc := sc.diagInc + 1 })
          ⟨cur.range, cur.addr, cur.starts⟩ c.n⟩
    · rw [scanPacket_of_plain noBlock (by simpa using bad)]
      exact ⟨inv.pass going noBlock (by rw [if_neg bad]; rfl), cur.advance c.n⟩

end

/-! ## The packets of a range -/

/-- A scan that has stopped stays where it is. -/
theorem scanPackets_of_stop {c : Build} {m : Memory} {sc : SchedRegs} (stopped : sc.stop = true)
    (stop fuel : Nat) : scanPackets c m stop fuel sc = some sc := by
  cases fuel with
  | zero => rfl
  | succ fuel => exact if_neg fun h => absurd (stopped.symm.trans h.1) Bool.true_eq_false.mp

/-- The scan of a range of `q` packets advances the first `k` of them, all unless it stops. -/
theorem scanPackets_scanned {c : Build} {m : Memory} {base sc : SchedRegs}
    {done tail pre post : List Nat} {a q : Nat} (valid : ValidBytes c a (188 * q))
    (inv : Scanned c m base done (List.range' a q 188 ++ tail) sc) (cur : ScanCursor pre a post sc) :
    ∃ sc' k, scanPackets c m (a + 188 * q) q sc = some sc' ∧ k ≤ q
      ∧ Scanned c m base (done ++ List.range' a k 188)
          (List.range' (a + 188 * k) (q - k) 188 ++ tail) sc'
      ∧ ScanCursor pre (a + 188 * k) post sc' ∧ (sc'.stop = false → k = q) := by
  induction q generalizing a done sc with
  | zero => exact ⟨sc, 0, rfl, le_rfl, by simpa using inv, cur, fun _ => rfl⟩
  | succ q ih =>
    by_cases stopped : sc.stop = true
    · exact ⟨sc, 0, scanPackets_of_stop stopped _ _, Nat.zero_le _, by simpa using inv, cur,
        fun going => absurd (stopped.symm.trans going) Bool.true_eq_false.mp⟩
    have going : sc.stop = false := by simpa using stopped
    have last : a + 188 * (q + 1) = a + 188 + 188 * q := by omega
    have step : scanPackets c m (a + 188 * (q + 1)) (q + 1) sc
        = scanPackets c m (a + 188 + 188 * q) q (sc.scanPacket c.n (classOf m a)) := by
      rw [scanPackets, if_pos ⟨going, by rw [cur.addr]; omega⟩, cur.addr,
        classify_eq fun i hi => valid i (by omega), last]
    rw [List.range'_succ, List.cons_append] at inv
    rcases inv.scanPacket going cur with ⟨next, moved⟩ | ⟨same, still, stopped⟩
    · obtain ⟨sc', k, run, le, inv', cur', all⟩ := ih (a := a + 188)
        (fun i hi => by rw [Nat.add_assoc]; exact valid _ (by omega)) next moved
      have behind : a + 188 * (k + 1) = a + 188 + 188 * k := by omega
      refine ⟨sc', k + 1, step.trans run, by omega, ?_, behind ▸ cur', fun h => by rw [all h]⟩
      rwa [behind, Nat.add_sub_add_right, List.range'_succ, List.append_cons]
    · refine ⟨_, 0, step.trans (scanPackets_of_stop stopped _ _), Nat.zero_le _, ?_, still,
        fun going => absurd (stopped.symm.trans going) Bool.true_eq_false.mp⟩
      simpa [List.range'_succ] using same

/-! ## The ranges (R278, R283) -/

theorem packetsOf_eq_range' (r : Range) :
    packetsOf r = List.range' r.start.toNat ((r.stop.toNat - r.start.toNat) / 188) 188 :=
  List.ext_getElem (by simp [packetsOf]) fun i _ _ => by simp [packetsOf]

theorem scanOrder_cons (r : Range) (ranges : List Range) :
    scanOrder (r :: ranges) = packetsOf r ++ scanOrder ranges := List.flatMap_cons

/-- What is left of a range after its first `k` packets. -/
theorem scanOrder_remainingRanges_cons {r : Range} {ranges : List Range} {starts : List Nat} {q k : Nat}
    (whole : r.stop.toNat = r.start.toNat + 188 * q) (le : k ≤ q) :
    scanOrder (remainingRanges (r :: ranges) ((r.start.toNat + 188 * k) :: starts))
      = List.range' (r.start.toNat + 188 * k) (q - k) 188
        ++ scanOrder (remainingRanges ranges starts) := by
  rw [remainingRanges]
  by_cases left : r.start.toNat + 188 * k < r.stop.toNat
  · have start : (BitVec.ofNat 64 (r.start.toNat + 188 * k)).toNat = r.start.toNat + 188 * k :=
      Nat.mod_eq_of_lt (left.trans r.stop.isLt)
    rw [if_pos left, scanOrder_cons, packetsOf_eq_range', start,
      show (r.stop.toNat - (r.start.toNat + 188 * k)) / 188 = q - k by omega]
  · rw [if_neg left, show q - k = 0 by omega]
    rfl

/-- A range of a readable list: whole packets of valid bytes. -/
def ReadableRange (c : Build) (r : Range) : Prop :=
  r.start.toNat ≤ r.stop.toNat ∧ (r.stop.toNat - r.start.toNat) % 188 = 0
    ∧ ∀ a, r.start.toNat ≤ a → a < r.stop.toNat → memValid c a = true

/-- The packets of a readable range, and its bytes. -/
theorem ReadableRange.packets {c : Build} {r : Range} (readable : ReadableRange c r) :
    ∃ q, r.stop.toNat = r.start.toNat + 188 * q ∧ rangePackets r.start.toNat r.stop.toNat = q
      ∧ packetsOf r = List.range' r.start.toNat q 188 ∧ ValidBytes c r.start.toNat (188 * q) := by
  obtain ⟨ordered, whole, valid⟩ := readable
  refine ⟨(r.stop.toNat - r.start.toNat) / 188, by omega, ?_, packetsOf_eq_range' r,
    fun k hk => valid _ (by omega) (by omega)⟩
  unfold rangePackets pktBytes
  omega

/-- The ranges that the scan did not come to remain whole. -/
theorem scanOrder_remainingRanges_starts {c : Build} {ranges : List Range}
    (readable : ∀ r ∈ ranges, ReadableRange c r) :
    scanOrder (remainingRanges ranges (ranges.map fun r => r.start.toNat)) = scanOrder ranges := by
  induction ranges with
  | nil => rfl
  | cons r ranges ih =>
    obtain ⟨first, others⟩ := List.forall_mem_cons.mp readable
    obtain ⟨q, whole, -, packets, -⟩ := first.packets
    have all := scanOrder_remainingRanges_cons (ranges := ranges)
      (starts := ranges.map fun r => r.start.toNat) whole (Nat.zero_le q)
    rw [ih others] at all
    rw [scanOrder_cons, packets]
    exact all

/-- A scan that has stopped changes no more than its position. -/
theorem scanRanges_of_stop {c : Build} {m : Memory} {sc : SchedRegs} (stopped : sc.stop = true)
    (j : Nat) (ranges : List Range) :
    ∃ j' b, scanRanges c m j ranges sc = some { sc with curRange := j', curAddr := b } := by
  induction ranges generalizing j sc with
  | nil => exact ⟨_, _, rfl⟩
  | cons r ranges ih =>
    obtain ⟨j', b, run⟩ := ih (sc := { sc with curRange := j, curAddr := r.start.toNat }) stopped (j + 1)
    exact ⟨j', b, by
      rw [scanRanges, scanPackets_of_stop (by exact stopped)]
      exact run⟩

/-- The scan of the ranges: it advances an initial segment of their packets, all unless it stops, and the updated
starts leave the others. -/
theorem scanRanges_scanned {c : Build} {m : Memory} {base sc : SchedRegs} {ranges : List Range}
    {done pre : List Nat} (readable : ∀ r ∈ ranges, ReadableRange c r)
    (inv : Scanned c m base done (scanOrder ranges) sc)
    (starts : sc.starts = pre ++ ranges.map fun r => r.start.toNat) :
    ∃ sc' done' rest post, scanRanges c m pre.length ranges sc = some sc'
      ∧ done' ++ rest = done ++ scanOrder ranges ∧ Scanned c m base done' rest sc'
      ∧ (sc'.stop = false → rest = []) ∧ sc'.starts = pre ++ post
      ∧ scanOrder (remainingRanges ranges post) = rest := by
  induction ranges generalizing sc done pre with
  | nil => exact ⟨sc, done, [], [], rfl, rfl, inv, fun _ => rfl, starts, rfl⟩
  | cons r ranges ih =>
    obtain ⟨first, others⟩ := List.forall_mem_cons.mp readable
    obtain ⟨q, whole, count, packets, valid⟩ := first.packets
    rw [scanOrder_cons, packets] at inv
    have cursor : ScanCursor pre r.start.toNat (ranges.map fun r => r.start.toNat)
        { sc with curRange := pre.length, curAddr := r.start.toNat } := ⟨rfl, rfl, starts⟩
    obtain ⟨sc', k, run, le, inv', cur, all⟩ := scanPackets_scanned valid (inv.moveTo _ _) cursor
    have left (starts : List Nat) :=
      scanOrder_remainingRanges_cons (ranges := ranges) (starts := starts) whole le
    have advanced : List.range' r.start.toNat k 188
        ++ List.range' (r.start.toNat + 188 * k) (q - k) 188 = packetsOf r := by
      rw [List.range'_append, Nat.add_sub_of_le le, packets]
    have next : scanRanges c m pre.length (r :: ranges) sc
        = scanRanges c m (pre.length + 1) ranges sc' := by
      rw [scanRanges, count, whole, run]
    by_cases stopped : sc'.stop = true
    · obtain ⟨j, b, halt⟩ := scanRanges_of_stop (m := m) (c := c) stopped (pre.length + 1) ranges
      refine ⟨_, _, _, _, next.trans halt, ?_, inv'.moveTo j b, fun going =>
        absurd (stopped.symm.trans going) Bool.true_eq_false.mp, cur.starts, ?_⟩
      · rw [scanOrder_cons, ← advanced]
        simp only [List.append_assoc]
      · rw [left, scanOrder_remainingRanges_starts others]
    · have done := all (by simpa using stopped)
      subst done
      rw [Nat.sub_self, List.range'_zero, List.nil_append] at inv'
      obtain ⟨t, done', rest, post, run', parts, inv', whole', starts', rest'⟩ :=
        ih (pre := pre ++ [r.start.toNat + 188 * k]) others inv' (by rw [cur.starts]; simp)
      refine ⟨t, done', rest, (r.start.toNat + 188 * k) :: post, ?_, ?_, inv', whole', ?_, ?_⟩
      · rw [next, ← run', List.length_append]
        rfl
      · rw [parts, scanOrder_cons, packets, List.append_assoc]
      · rw [starts', List.append_assoc]
        rfl
      · rw [left, Nat.sub_self, rest']
        rfl

/-- The scan of a readable list. -/
theorem scanAll_scanned {c : Build} (m : Memory) {ranges : List Range}
    (readable : ∀ r ∈ ranges, ReadableRange c r) (base : SchedRegs) :
    ∃ sc done rest, scanAll c m ranges base = some sc ∧ done ++ rest = scanOrder ranges
      ∧ Scanned c m base done rest sc ∧ (sc.stop = false → rest = [])
      ∧ scanOrder (remainingRanges ranges sc.starts) = rest := by
  obtain ⟨sc, done, rest, post, run, parts, inv, all, starts, left⟩ :=
    scanRanges_scanned (pre := []) readable (scanned_scanInit ranges (scanOrder ranges)) rfl
  exact ⟨sc, done, rest, run, parts, inv, all, by rwa [starts]⟩

/-! ## SC_SCAN (R278 to R284) -/

section
variable {c : Build} {m : Memory} {base sc : SchedRegs} {done rest : List Nat}
  (inv : Scanned c m base done rest sc)
include inv

/-- A scan that leaves a packet has advanced one (R284). -/
theorem Scanned.done_ne_nil (all : sc.stop = false → rest = []) (some : done ++ rest ≠ []) :
    done ≠ [] := by
  rintro rfl
  have lanes := Build.le_n c
  have none : sc.grouped = 0 := inv.grouped
  by_cases stopped : sc.stop = true
  · rcases inv.halted stopped with full | ⟨a, -, pos, -⟩ <;> omega
  · exact some (all (by simpa using stopped))

/-- Why the scan ended (R281). -/
theorem Scanned.reason (all : sc.stop = false → rest = []) :
    rest = [] ∨ sc.grouped = c.n ∨ ∃ a, rest.head? = some a ∧ 0 < sc.grouped
      ∧ hasBlock 8 m a = true ∧ parityAt m a ≠ sc.gpar := by
  by_cases stopped : sc.stop = true
  · exact .inr (inv.halted stopped)
  · exact .inl (all (by simpa using stopped))

end

/-- Settles O44: the invariant of the scan at its end, where `done` is what it advanced. -/
theorem scanAdmitsOneBatch : Obligations.ScanAdmitsOneBatch := by
  rintro s ⟨readable, few⟩
  obtain ⟨sc, done, rest, run, parts, inv, all, left⟩ := scanAll_scanned s.mem readable s.sc
  have exec_eq : exec .scScan s = .next { s with sc := sc } := by
    simp only [exec, execScScan, run]
  rw [← parts] at few
  have adv : sc.adv.toNat = done.length := by
    rw [inv.adv]
    exact Nat.mod_eq_of_lt (by rw [List.length_append] at few; omega)
  obtain ⟨alive, encp, advanced, remaining⟩ := inv.kept
  refine ⟨_, exec_eq, ?_, inv.otherSlot, alive, encp, advanced, remaining, rfl, fun _ => rfl⟩
  simp only [← parts, adv, List.take_left, List.drop_left, ← List.head?_drop]
  refine ⟨by simp, fun some => List.length_pos_iff.mpr (inv.done_ne_nil all some), inv.grouped, inv.cap,
    inv.slot, inv.parity, inv.malformed, ?_, inv.full, left⟩
  rcases inv.reason all with whole | reason
  · exact .inl (by rw [whole, List.append_nil])
  · exact .inr reason

end Sys2Proof.Machine
end

section
/-!
The host commands (spec/45_commands.md): what a step runs, the four checks of SET_KIND, SET_CW and DECRYPT in
order, the refusal while FAULTED = 1 (R331, R397), `ranges_ok` (R351), the drop of a DECRYPT (R356), and the
latched inputs (R355).
-/

namespace Sys2Proof.Machine

/-! ## What a step runs (R126, R330) -/

section
variable {s : State}

/-- An engine operation at the sequencer comes first. -/
theorem step_engineOp {w : UWord} {rest : List UWord} {i : Instr} (uops : s.uops = w :: rest)
    (decoded : decodeEngine w = some i) : step s = exec i { s with uops := rest } := by
  simp only [step, uops, decoded]

section
variable (uops : s.uops = []) (phase : s.phase = .idle) (due : s.completionDue = false)
include uops phase due

/-- With nothing for the engine to do, the command at the port runs. -/
theorem step_command {i : Instr} {len : Nat} (head : s.portHead = .instr i len) :
    step s = exec i (s.consume len) := by
  simp [step, uops, phase, due, head]

theorem step_reservedOpcode {opc : Byte} (head : s.portHead = .reservedOpcode opc) :
    step s = .next (reservedCommand opc (s.consume 1)) := by
  simp [step, uops, phase, due, head]

end

end

/-- Settles O6: the two branches of `step` that run an instruction. -/
theorem stepRunsTheDecodedInstruction : Obligations.StepRunsTheDecodedInstruction :=
  ⟨fun _ _ _ _ uops decoded => step_engineOp uops decoded,
    fun _ _ _ uops phase due head => step_command uops phase due head⟩

/-! ## The refusal while FAULTED = 1 (R331, R397) -/

/-- A command that is not CSR_READ has no effect while FAULTED = 1, and is answered with its opcode. -/
theorem exec_refused {s : State} {kw : Nat} {w : Word} {ops : List Word} {i : Instr} {len : Nat}
    (head : decodeCommand kw (w :: ops) = .instr i len) (notCsr : w.extractLsb' 24 8 ≠ opcCsrRead)
    (faulted : s.faulted = true) : exec i s = .next (s.refuseFaulted (w.extractLsb' 24 8)) := by
  simp only [decodeCommand] at head
  split at head
  · next opc => -- SET_KIND
    cases head
    rw [opc]
    exact if_pos faulted
  split at head
  · next opc => -- SET_CW
    split at head <;> cases head
    rw [opc]
    exact if_pos faulted
  split at head
  · next opc => -- DECRYPT
    split at head <;> cases head
    rw [opc]
    exact if_pos faulted
  split at head
  · next opc => exact absurd opc notCsr
  · cases head

theorem reservedCommand_refused {s : State} (opc : Byte) (faulted : s.faulted = true) :
    reservedCommand opc s = s.refuseFaulted opc := if_pos faulted

/-- Settles O15: a decoded command is refused by its first check, a reserved opcode as well. -/
theorem faultedRefusesCommands : Obligations.FaultedRefusesCommands := by
  intro s w ops len uops phase due faulted port notCsr head
  rcases head with ⟨i, head⟩ | ⟨head, rfl⟩
  · have opc : w.extractLsb' 24 8 ≠ opcCsrRead := fun h =>
      notCsr ((toNat_opcode w).symm.trans (congrArg BitVec.toNat h))
    rw [step_command uops phase due head]
    rw [State.portHead, port] at head
    exact exec_refused head opc faulted
  · rw [step_reservedOpcode uops phase due head, reservedCommand_refused _ (by simpa using faulted)]
    rfl

/-! ## SET_KIND (R335) -/

/-- The fields of the word of SET_KIND stand side by side (R113). -/
theorem setKindWord_eq (rsvd : BitVec 21) (k : BitVec 3) :
    BitVec.ofNat 32 (0x01 * 2 ^ 24 + rsvd.toNat * 8 + k.toNat) = 1#8 ++ rsvd ++ k := by
  have hr := rsvd.isLt
  have hk := k.isLt
  apply BitVec.eq_of_toNat_eq
  rw [BitVec.toNat_append, BitVec.toNat_append, ← Nat.shiftLeft_add_eq_or_of_lt hk,
    ← Nat.shiftLeft_add_eq_or_of_lt hr, Nat.shiftLeft_eq, Nat.shiftLeft_eq, BitVec.toNat_ofNat,
    BitVec.toNat_ofNat]
  omega

/-- The reserved kind codes (R113). -/
theorem Kind.ofCode_eq_none_iff {k : BitVec 3} :
    Kind.ofCode k = none ↔ k.toNat = 0 ∨ 5 ≤ k.toNat := by
  revert k; decide

/-- A legal kind code is the code of its kind (R31, R113). -/
theorem Kind.code_of_ofCode {k : BitVec 3} {kind : Kind} (h : Kind.ofCode k = some kind) :
    kind.code = k := by
  revert k; cases kind <;> decide

theorem Kind.code_inj {k k' : Kind} : k.code = k'.code ↔ k = k' := by
  cases k <;> cases k' <;> decide

section
variable {s : State} {rsvd : BitVec 21} {k : BitVec 3} (live : s.faulted = false)
include live

theorem execSetKind_bad (bad : rsvd ≠ 0 ∨ k.toNat = 0 ∨ 5 ≤ k.toNat) :
    execSetKind rsvd k s = .next (s.raiseFault .badOperand opcSetKind) := by
  rw [execSetKind, if_neg (by simp [live])]
  split
  · rfl
  · next legal => rw [Kind.ofCode_eq_none_iff.mpr (bad.resolve_left legal)]

theorem execSetKind_legal {kind : Kind} (code : Kind.ofCode k = some kind) :
    execSetKind 0 k s = .next (s.setKindTo kind) := by
  rw [execSetKind, if_neg (by simp [live]), if_neg (by simp), code]

end

/-- SET_KIND in every state (R335, R331). -/
theorem exec_setKind (s : State) (rsvd : BitVec 21) (k : BitVec 3) :
    ∃ t, exec (.setKind rsvd k) s = .next t
      ∧ if s.faulted then t = { s with resp := s.resp ++ [⟨0x01, 0xFF, []⟩] }
        else if rsvd ≠ 0 ∨ k.toNat = 0 ∨ 5 ≤ k.toNat then FaultTaken 0x02 0x01 s t
        else if k = s.kind.code then t = { s with resp := s.resp ++ [⟨0x01, 0x00, []⟩] }
        else if s.busy then FaultTaken 0x04 0x01 s t
        else ∃ kind : Kind, kind.code = k
          ∧ t = { s with
              kind := kind, keyValid := ⟨false, false⟩, resp := s.resp ++ [⟨0x01, 0x00, []⟩] } := by
  split
  · next faulted => exact ⟨_, if_pos faulted, rfl⟩
  next live =>
  have live : s.faulted = false := by simpa using live
  split
  · next bad => exact ⟨_, execSetKind_bad live bad, s.raiseFault_taken .badOperand opcSetKind⟩
  next legal =>
  obtain ⟨hr, hk⟩ := not_or.mp legal
  obtain rfl : rsvd = 0 := not_not.mp hr
  obtain ⟨kind, code⟩ := Option.ne_none_iff_exists'.mp (mt Kind.ofCode_eq_none_iff.mp hk)
  obtain rfl := Kind.code_of_ofCode code
  refine ⟨_, execSetKind_legal live code, ?_⟩
  rw [State.setKindTo]
  simp only [Kind.code_inj]
  split
  · rfl
  split
  · exact s.raiseFault_taken .kindChangeBusy opcSetKind
  · exact ⟨kind, rfl, rfl⟩

/-- Settles O8: the word's fields, the checks in order, and the example of R335. -/
theorem setKindEffect : Obligations.SetKindEffect := by
  refine ⟨fun kw rsvd k rest => ?_, exec_setKind, _, rfl, by decide⟩
  rw [setKindWord_eq, decodeCommand_setKind (highField_append 1#8 rsvd k), midField_append,
    lowField_append]

/-! ## SET_CW (R340) -/

/-- Key byte m is bits [8(m mod 4)+7 : 8(m mod 4)] of word m div 4 (R112). -/
theorem keyBytes_eq (ws : List Word) :
    keyBytes ws
      = (List.range (4 * ws.length)).map fun m => (ws.getD (m / 4) 0).extractLsb' (8 * (m % 4)) 8 := by
  induction ws with
  | nil => rfl
  | cons w ws ih =>
    have later (m : Nat) : ((w :: ws).getD ((4 + m) / 4) 0).extractLsb' (8 * ((4 + m) % 4)) 8
        = (ws.getD (m / 4) 0).extractLsb' (8 * (m % 4)) 8 := by
      rw [show (4 + m) / 4 = m / 4 + 1 by omega, Nat.add_mod_left, List.getD_cons_succ]
    rw [List.length_cons, Nat.mul_succ, Nat.add_comm, List.range_add, List.map_append, List.map_map,
      Function.comp_def, List.map_congr_left fun m _ => later m, ← ih]
    rfl

/-- The bytes of the key in the words from `j` to `j + kw - 1`. -/
theorem keyBytes_slice {keys : List Word} {j kw : Nat} (enough : j + kw ≤ keys.length) :
    keyBytes ((keys.drop j).take kw)
      = (List.range (4 * kw)).map fun m =>
          (keys.getD ((4 * j + m) / 4) 0).extractLsb' (8 * ((4 * j + m) % 4)) 8 := by
  have length : ((keys.drop j).take kw).length = kw := by
    rw [List.length_take, List.length_drop]; omega
  rw [keyBytes_eq, length]
  refine List.map_congr_left fun m hm => ?_
  have word : m / 4 < kw := by have := List.mem_range.mp hm; omega
  rw [show (4 * j + m) / 4 = j + m / 4 by omega, Nat.mul_add_mod, List.getD_eq_getElem?_getD,
    List.getD_eq_getElem?_getD, List.getElem?_take_of_lt word, List.getElem?_drop]

/-- The keys that a PMASK selects (R340). -/
theorem State.setKeys_even (s : State) (keys : List Word) :
    s.setKeys 1 keys = s.setKey .even (keyBytes (keys.take s.keyWords)) := rfl
theorem State.setKeys_odd (s : State) (keys : List Word) :
    s.setKeys 2 keys = s.setKey .odd (keyBytes (keys.take s.keyWords)) := rfl
theorem State.setKeys_both (s : State) (keys : List Word) :
    s.setKeys 3 keys = (s.setKey .even (keyBytes (keys.take s.keyWords))).setKey .odd
      (keyBytes ((keys.drop s.keyWords).take s.keyWords)) := rfl

theorem pmask_cases {pmask : BitVec 2} (some : pmask ≠ 0) : pmask = 1 ∨ pmask = 2 ∨ pmask = 3 := by
  revert pmask; decide

/-- Settles O9: the checks in order, and each selected key as the words from its place. -/
theorem setCwEffect : Obligations.SetCwEffect := by
  intro s rsvd pmask keys count length first second
  simp only [exec, execSetCw]
  split
  · exact ⟨_, rfl, rfl⟩
  split
  · exact ⟨_, rfl, s.raiseFault_taken .badOperand opcSetCw⟩
  next good =>
  split
  · exact ⟨_, rfl, s.raiseFault_taken .noKind opcSetCw⟩
  refine ⟨_, rfl, ?_⟩
  have whole : length = 4 * s.keyWords := (four_mul_keyWords s).symm
  have slice {j : Nat} (enough : j + s.keyWords ≤ keys.length) :
      keyBytes ((keys.drop j).take s.keyWords)
        = (List.range length).map fun m => first (4 * j + m) := by
    rw [whole]; exact keyBytes_slice enough
  have firstKey (enough : s.keyWords ≤ keys.length) :
      keyBytes (keys.take s.keyWords) = (List.range length).map first := by
    simpa using slice (j := 0) (by omega)
  rw [show keylen s.cfg s.kind / 4 = s.keyWords from rfl] at count
  rcases pmask_cases (not_or.mp good).2 with rfl | rfl | rfl
  · rw [State.setKeys_even, firstKey (by simp at count; omega)]
    rfl
  · rw [State.setKeys_odd, firstKey (by simp at count; omega)]
    rfl
  · have two : keys.length = 2 * s.keyWords := count
    rw [State.setKeys_both, firstKey (by omega), slice (by omega), ← whole]
    rfl

/-! ## DECRYPT (R350) -/

/-- Settles O11: the checks of the issue in order. -/
theorem decryptIssueEffect : Obligations.DecryptIssueEffect := by
  intro s rsvd ranges
  simp only [exec, execDecrypt]
  split
  · exact ⟨_, rfl, rfl⟩
  split
  · exact ⟨_, rfl, s.raiseFault_taken .badOperand opcDecrypt⟩
  split
  · exact ⟨_, rfl, s.raiseFault_taken .busyViolation opcDecrypt⟩
  split
  · exact ⟨_, rfl, s.raiseFault_taken .noKind opcDecrypt⟩
  split
  · exact ⟨_, rfl, rfl⟩
  · exact ⟨_, rfl, s.raiseFault_taken .badRange opcDecrypt⟩

/-! ## ranges_ok (R351) -/

/-- Two ranges that both hold a byte do not overlap. -/
def RangesApart (r q : Range) : Prop :=
  r.start ≠ r.stop → q.start ≠ q.stop →
    r.stop.toNat ≤ q.start.toNat ∨ q.stop.toNat ≤ r.start.toNat

theorem RangesApart.symm {r q : Range} (h : RangesApart r q) : RangesApart q r :=
  fun hq hr => (h hr hq).symm

theorem rangesDisjoint_iff {r q : Range} : rangesDisjoint r q = true ↔ RangesApart r q := by
  simp only [rangesDisjoint, RangesApart, Bool.or_eq_true, decide_eq_true_eq]
  tauto

theorem pairwiseDisjoint_iff {ranges : List Range} :
    pairwiseDisjoint ranges = true ↔ ranges.Pairwise RangesApart := by
  induction ranges with
  | nil => simp [pairwiseDisjoint]
  | cons r ranges ih =>
    simp only [pairwiseDisjoint, Bool.and_eq_true, List.all_eq_true, rangesDisjoint_iff, ih,
      List.pairwise_cons]

/-- A symmetric relation between the entries of a list, by their indices. -/
theorem pairwise_iff_ne {α : Type} {R : α → α → Prop} (symm : ∀ {a b}, R a b → R b a) {l : List α} :
    l.Pairwise R ↔ ∀ j k : Fin l.length, j ≠ k → R l[j] l[k] := by
  rw [List.pairwise_iff_get]
  refine ⟨fun h j k ne => ?_, fun h j k lt => h j k lt.ne⟩
  rcases lt_or_gt_of_ne ne with lt | gt
  · exact h j k lt
  · exact symm (h k j gt)

/-- Checks 1 to 3 of R351 say that the range can be read. -/
theorem rangeOk_iff {c : Build} {r : Range} : rangeOk c r = true ↔ ReadableRange c r := by
  simp only [rangeOk, ReadableRange, Bool.and_eq_true, decide_eq_true_eq, accessOk_iff, and_assoc]
  refine and_congr_right fun ordered => and_congr_right fun _ =>
    ⟨fun valid a low high => ?_, fun valid k hk => valid _ (by omega) (by omega)⟩
  rw [← Nat.add_sub_of_le low]
  exact valid _ (by omega)

theorem rangesOk_iff {c : Build} {ranges : List Range} :
    rangesOk c ranges = true ↔ (∀ r ∈ ranges, ReadableRange c r) ∧ ranges.Pairwise RangesApart
      ∧ packetCount ranges < 2 ^ 32 := by
  simp only [rangesOk, Bool.and_eq_true, List.all_eq_true, rangeOk_iff, pairwiseDisjoint_iff,
    decide_eq_true_eq, and_assoc]

/-- Settles O12: checks 1 to 3 range by range, check 4 pair by pair. -/
theorem rangesOkIsTheFiveChecks : Obligations.RangesOkIsTheFiveChecks := by
  intro c ranges
  simp only [rangesOk_iff, ReadableRange, pairwise_iff_ne RangesApart.symm, forall_and, and_assoc]
  rfl

/-! ## The drop of a DECRYPT (R356) -/

/-- Settles O14: the named fields of `dropDecrypt`, and its memory byte by byte. -/
theorem dropOfADecrypt : Obligations.DropOfADecrypt := by
  intro s
  have bytes := get_scrambleRanges s.draws s.pending.ranges s.mem
  refine ⟨rfl, rfl, rfl, by simp [ContextKept], rfl, rfl, rfl, fun a latched => ?_, fun a outside => ?_⟩
  · exact (bytes a).trans (if_pos latched)
  · exact (bytes a).trans (if_neg outside)

/-! ## The latched inputs (R355) -/

/-- Settles O21: of the effects of `step_effect`, those that write PENDING begin or end with BUSY = 0. -/
theorem pendingIsLatched : Obligations.PendingIsLatched := by
  intro s t h busy still
  cases step_effect h with
  | engine hi run => exact (SameContext.of_engine hi run).frame.pending
  | quiet hq | answer hq => exact hq.frame.pending
  | completionFault hq => exact (State.completionFault_pending ..).trans hq.frame.pending
  | fault => exact absurd ((State.raiseFault_busy ..).symm.trans still) Bool.false_ne_true
  | finish => exact absurd still Bool.false_ne_true
  | setCw => exact State.setKeys_keeps _ State.setKey_pending ..
  | setKind | take => rfl
  | issue _ _ idle => exact absurd (idle.symm.trans busy) Bool.false_ne_true
  | reset => exact absurd still Bool.false_ne_true

end Sys2Proof.Machine
end

section
/-!
The end of a completion (spec/45_commands.md R352, R359; spec/20_memory.md R80, R94): from every state in which
one is due the sequencer runs to its response, for kind CSA through the scan, the sort, the rounds and the
write-back, for the ECB kinds through the scan and the work list, and writes only bytes of the latched ranges.
-/

namespace Sys2Proof.Machine

/-! ## Steps to the end -/

/-- Some number of steps from `s` ends the completion: the sequencer is idle, there is one response more, OK or
KEY_NOT_SET, and no byte outside `ranges` has changed. -/
def CompletionEnds (ranges : List Range) (s : State) : Prop :=
  ∃ (k : Nat) (t : State), stepN k s = .next t
    ∧ t.busy = false ∧ t.phase = .idle ∧ t.uops = []
    ∧ (∃ r, t.resp = s.resp ++ [r] ∧ r.opc = 0x03 ∧ (r.status = 0x00 ∨ r.status = 0x07))
    ∧ SameMemoryOutside (fun a => inRanges ranges a = true) s t

section
variable {ranges : List Range} {s u : State}

/-- A step before the end makes no response and writes only bytes of the ranges. -/
theorem CompletionEnds.of_step (run : step s = .next u) (ends : CompletionEnds ranges u)
    (resp : u.resp = s.resp := by rfl)
    (mem : SameMemoryOutside (fun a => inRanges ranges a = true) s u := by exact fun _ _ => rfl) :
    CompletionEnds ranges s := by
  obtain ⟨k, t, steps, busy, phase, uops, answer, outside⟩ := ends
  refine ⟨k + 1, t, by rw [stepN, run]; exact steps, busy, phase, uops, resp ▸ answer, fun a out => ?_⟩
  exact (outside a out).trans (mem a out)

/-- An engine operation keeps what of the state is not datapath or memory. -/
theorem EngineFrame.of_exec {w : UWord} {i : Instr} (word : encode i = .engine w)
    (run : exec i s = .next u) : EngineFrame s u :=
  (exec_engine (decodeEngine_not_command (decodeEngine_of_encode word)) run).1

/-- An engine operation before the end. -/
theorem CompletionEnds.of_engineOp {w : UWord} {rest : List UWord} {i : Instr}
    (uops : s.uops = w :: rest) (word : encode i = .engine w)
    (run : exec i { s with uops := rest } = .next u) (ends : CompletionEnds ranges u)
    (mem : SameMemoryOutside (fun a => inRanges ranges a = true) s u := by exact fun _ _ => rfl) :
    CompletionEnds ranges s :=
  .of_step ((step_engineOp uops (decodeEngine_of_encode word)).trans run) ends
    (by rw [EngineFrame.of_exec word run]) mem

/-- A missing key ends the completion (R298, R374). -/
theorem completionEnds_of_fault (run : step s = .next (u.completionFault .keyNotSet))
    (resp : u.resp = s.resp := by rfl) (mem : u.mem = s.mem := by rfl) : CompletionEnds ranges s := by
  refine ⟨1, _, by rw [stepN, run]; rfl, rfl, rfl, rfl, ⟨_, by rw [State.completionFault_resp, resp], rfl,
    .inr rfl⟩, fun a _ => by rw [State.completionFault_mem, mem]⟩

/-- The write-back ends the completion (R352). -/
theorem completionEnds_of_writeback (uops : s.uops = []) (phase : s.phase = .writeback) :
    CompletionEnds ranges s :=
  ⟨1, s.finishCompletion, by rw [stepN, step_writeback uops phase]; rfl, rfl, rfl, uops,
    ⟨_, rfl, rfl, .inl rfl⟩, fun _ _ => rfl⟩

/-- SC_COMPACT comes last (R352). -/
theorem completionEnds_of_compact (uops : s.uops = [0x5600]) (phase : s.phase = .writeback) :
    CompletionEnds ranges s :=
  .of_engineOp (i := .scCompact) uops rfl rfl (completionEnds_of_writeback rfl phase)

end

/-! ## The packets of the latched ranges -/

/-- The bytes of the packet at `a` are valid, and they are latched. -/
def LatchedPacket (c : Build) (ranges : List Range) (a : Nat) : Prop :=
  ∀ i, i < 188 → memValid c (a + i) = true ∧ inRanges ranges (a + i) = true

theorem inRanges_of_mem {ranges : List Range} {r : Range} (hr : r ∈ ranges) {a : Nat}
    (low : r.start.toNat ≤ a) (high : a < r.stop.toNat) : inRanges ranges a = true :=
  List.any_eq_true.mpr ⟨r, hr, by simp [low, high]⟩

/-- A packet of a range lies in it. -/
theorem bounds_of_mem_packetsOf {r : Range} {a : Nat} (ha : a ∈ packetsOf r) :
    r.start.toNat ≤ a ∧ a + 188 ≤ r.stop.toNat := by
  obtain ⟨k, hk, rfl⟩ := List.mem_map.mp ha
  have := List.mem_range.mp hk
  omega

theorem latchedPacket_of_mem_packetsOf {c : Build} {ranges : List Range} {r : Range} {a : Nat}
    (hr : r ∈ ranges) (readable : ReadableRange c r) (ha : a ∈ packetsOf r) :
    LatchedPacket c ranges a := fun i hi => by
  obtain ⟨low, high⟩ := bounds_of_mem_packetsOf ha
  obtain ⟨-, -, valid⟩ := readable
  exact ⟨valid _ (by omega) (by omega), inRanges_of_mem hr (by omega) (by omega)⟩

/-- Two packets that do not overlap. -/
def PacketsApart (a b : Nat) : Prop := a + 188 ≤ b ∨ b + 188 ≤ a

theorem packetsOf_pairwise (r : Range) : (packetsOf r).Pairwise PacketsApart :=
  List.pairwise_map.mpr (List.pairwise_lt_range.imp fun h => .inl (by omega))

/-- No two packets of ranges that passed the checks overlap (R351). -/
theorem scanOrder_pairwise {ranges : List Range} (apart : ranges.Pairwise RangesApart) :
    (scanOrder ranges).Pairwise PacketsApart := by
  refine List.pairwise_flatMap.mpr ⟨fun r _ => packetsOf_pairwise r, apart.imp fun h a ha b hb => ?_⟩
  have boundsA := bounds_of_mem_packetsOf ha
  have boundsB := bounds_of_mem_packetsOf hb
  have disjoint := h (fun empty => by rw [empty] at boundsA; omega)
    fun empty => by rw [empty] at boundsB; omega
  unfold PacketsApart
  omega

theorem length_scanOrder (ranges : List Range) : (scanOrder ranges).length = packetCount ranges := by
  simp [scanOrder, packetsOf, packetCount, List.length_flatMap]

/-- Ranges that passed the checks can be read. -/
theorem readableRanges_of_rangesOk {c : Build} {ranges : List Range} (ok : rangesOk c ranges = true) :
    ReadableRanges c ranges := by
  obtain ⟨readable, -, few⟩ := rangesOk_iff.mp ok
  exact ⟨readable, (length_scanOrder ranges).trans_lt few⟩

theorem latchedPacket_of_mem_scanOrder {c : Build} {ranges : List Range} (ok : rangesOk c ranges = true)
    {a : Nat} (ha : a ∈ scanOrder ranges) : LatchedPacket c ranges a := by
  obtain ⟨r, hr, packet⟩ := List.mem_flatMap.mp ha
  exact latchedPacket_of_mem_packetsOf hr ((rangesOk_iff.mp ok).1 r hr) packet

/-! ## The batch of a CSA completion -/

/-- `d` describes a packet of the latched ranges whose payload has a block (R57, R272). -/
structure LatchedDesc (c : Build) (ranges : List Range) (d : Desc) : Prop where
  packet : LatchedPacket c ranges d.pkt
  payload : d.off + d.len = 188
  len : 8 ≤ d.len ∧ d.len ≤ 184
  blocks : d.n = d.len / 8 ∧ d.res = d.len % 8

theorem four_le_offsetAt (m : Memory) (a : Nat) : 4 ≤ offsetAt m a := by
  unfold offsetAt
  split <;> omega

theorem latchedDesc_descAt {c : Build} {ranges : List Range} {m : Memory} {a : Nat}
    (packet : LatchedPacket c ranges a) (block : hasBlock 8 m a = true) :
    LatchedDesc c ranges (descAt m a) := by
  obtain ⟨-, inside, whole⟩ := of_decide_eq_true block
  have low := four_le_offsetAt m a
  exact ⟨packet, Nat.add_sub_of_le inside, ⟨whole, by simp only [descAt]; omega⟩, rfl, rfl⟩

/-- The descriptors of the batch. -/
def SchedRegs.batch (sc : SchedRegs) : List Desc := (List.range sc.grouped).map sc.slot

/-- The batch is one of latched packets that do not overlap. -/
structure LatchedBatch (c : Build) (ranges : List Range) (sc : SchedRegs) : Prop where
  lanes : sc.grouped ≤ c.n
  desc : ∀ d ∈ sc.batch, LatchedDesc c ranges d
  apart : sc.batch.Pairwise fun d e => PacketsApart d.pkt e.pkt

section
variable {c : Build} {ranges : List Range} {sc sc' : SchedRegs}

/-- The batch in another order is one too (R291). -/
theorem LatchedBatch.perm (h : LatchedBatch c ranges sc) (grouped : sc'.grouped = sc.grouped)
    (perm : sc'.batch.Perm sc.batch) : LatchedBatch c ranges sc' where
  lanes := grouped ▸ h.lanes
  desc d hd := h.desc d (perm.mem_iff.mp hd)
  apart := (perm.pairwise_iff Or.symm).mpr h.apart

variable (batch : LatchedBatch c ranges sc)
include batch

/-- Every slot of the batch describes a latched packet. -/
theorem LatchedBatch.slot {g : Nat} (hg : g < sc.grouped) : LatchedDesc c ranges (sc.slot g) :=
  batch.desc _ (List.mem_map_of_mem (List.mem_range.mpr hg))

theorem LatchedBatch.slots_apart {g h : Nat} (hg : g < sc.grouped) (hh : h < sc.grouped) (ne : g ≠ h) :
    PacketsApart (sc.slot g).pkt (sc.slot h).pkt := by
  have apart := List.pairwise_iff_getElem.mp (List.pairwise_map.mp batch.apart)
  simp only [List.length_range, List.getElem_range] at apart
  rcases lt_or_gt_of_ne ne with lt | gt
  · exact apart g h hg hh lt
  · exact (apart h g hh hg gt).symm

end

/-- SC_SCAN leaves a latched batch (R278 to R284). -/
theorem exec_scScan_latched {s : State} (ok : rangesOk s.cfg s.pending.ranges = true) :
    ∃ t, exec .scScan s = .next t ∧ LatchedBatch s.cfg s.pending.ranges t.sc
      ∧ t = { s with sc := t.sc } := by
  obtain ⟨t, run, ⟨-, -, grouped, lanes, slots, -⟩, -, -, -, -, -, frame, -⟩ :=
    scanAdmitsOneBatch s (readableRanges_of_rangesOk ok)
  refine ⟨t, run, ?_, frame⟩
  have sub : (((scanOrder s.pending.ranges).take t.sc.adv.toNat).filter (hasBlock 8 s.mem)).Sublist
      (scanOrder s.pending.ranges) := List.filter_sublist.trans (List.take_sublist ..)
  have block : ∀ a ∈ ((scanOrder s.pending.ranges).take t.sc.adv.toNat).filter (hasBlock 8 s.mem),
      hasBlock 8 s.mem a = true := fun a ha => (List.mem_filter.mp ha).2
  generalize ((scanOrder s.pending.ranges).take t.sc.adv.toNat).filter (hasBlock 8 s.mem) = packets
    at grouped slots sub block
  have batch : t.sc.batch = packets.map (descAt s.mem) := by
    refine List.ext_getElem (by simp [SchedRegs.batch, grouped]) fun g hg _ => ?_
    have hg : g < t.sc.grouped := by simpa [SchedRegs.batch] using hg
    simp [SchedRegs.batch, slots g hg, ← grouped, hg]
  refine ⟨lanes, fun d hd => ?_, ?_⟩
  · rw [batch] at hd
    obtain ⟨a, ha, rfl⟩ := List.mem_map.mp hd
    exact latchedDesc_descAt (latchedPacket_of_mem_scanOrder ok (sub.subset ha)) (block a ha)
  · rw [batch]
    exact List.pairwise_map.mpr ((scanOrder_pairwise (rangesOk_iff.mp ok).2.1).sublist sub)

/-- SC_SORT leaves the latched batch sorted (R290, R291). -/
theorem exec_scSort_latched {s : State} {ranges : List Range} (batch : LatchedBatch s.cfg ranges s.sc) :
    ∃ t, exec .scSort s = .next t ∧ LatchedBatch s.cfg ranges t.sc
      ∧ (∀ g h, g < h → h < t.sc.grouped → (t.sc.slot h).n ≤ (t.sc.slot g).n)
      ∧ t = { s with sc := { s.sc with desc := t.sc.desc } } := by
  have bound (g : Nat) (hg : g < s.sc.grouped) : (s.sc.slot g).n ≤ 23 := by
    have desc := batch.slot hg
    have := desc.len
    have := desc.blocks
    omega
  obtain ⟨t, run, perm, sorted, -, frame, -⟩ :=
    sortOrdersTheBatch s (batch.lanes.trans (Build.n_le _)) bound
  have grouped : t.sc.grouped = s.sc.grouped := by rw [frame]
  refine ⟨t, run, batch.perm grouped ?_, grouped ▸ sorted, frame⟩
  rw [SchedRegs.batch, grouped]
  exact perm

/-- SC_ALIVE on a sorted latched batch leaves one for the rounds (R293). -/
theorem exec_scAlive_ready {s : State} {ranges : List Range} (batch : LatchedBatch s.cfg ranges s.sc)
    (sorted : ∀ g h, g < h → h < s.sc.grouped → (s.sc.slot h).n ≤ (s.sc.slot g).n) :
    ∃ t, exec .scAlive s = .next t ∧ LatchedBatch s.cfg ranges t.sc ∧ BatchReady t
      ∧ t = { s with sc := { s.sc with alive := t.sc.alive } } := by
  obtain ⟨t, run, counts, -, frame, -⟩ := aliveCountsTheSlots s
  generalize t.sc.alive = alive at counts frame
  subst frame
  refine ⟨_, run, ⟨batch.lanes, batch.desc, batch.apart⟩, ⟨batch.lanes, fun g hg => ?_,
    fun g hg k hk => ?_, fun g h hg hh ne a own other => ?_, sorted, counts⟩, rfl⟩
  · have desc := batch.slot hg
    exact ⟨desc.blocks.1, desc.blocks.2, desc.len⟩
  · have desc := batch.slot hg
    have inside := desc.payload
    simp only [SchedRegs.payloadAt, Nat.add_assoc]
    exact (desc.packet _ (Nat.lt_of_lt_of_eq (Nat.add_lt_add_left hk _) inside)).1
  · have apart := batch.slots_apart hg hh ne
    have payloadG := (batch.slot hg).payload
    have payloadH := (batch.slot hh).payload
    simp only [InPayload, SchedRegs.payloadAt, SchedRegs.slot, PacketsApart] at *
    omega

/-! ## The write-back of a CSA completion -/

/-- The bytes that TSC_CLEAR marks are latched (R313). -/
theorem completionEnds_of_enterWriteback {ranges : List Range} {s : State}
    (run : step s = s.enterWriteback) (batch : LatchedBatch s.cfg ranges s.sc) :
    CompletionEnds ranges s := by
  cases clear : s.cfg.tscClear with
  | false =>
    exact .of_step (run.trans (State.enterWriteback_of_not_tscClear clear))
      (completionEnds_of_compact rfl rfl)
  | true =>
    have valid (g : Nat) (hg : g < s.sc.grouped) : ValidBytes s.cfg ((s.sc.slot g).pkt + 3) 1 :=
      fun k hk => by
        rw [Nat.add_assoc]
        exact ((batch.slot hg).packet _ (by omega)).1
    refine .of_step (run.trans (State.enterWriteback_tscClear clear valid))
      (completionEnds_of_compact rfl rfl) rfl fun a out => ?_
    refine (get_clearSlots _ _ _ _ _ fun g hg => ?_).trans (if_neg ?_)
    · exact (valid g (by simpa using hg)).bound Nat.one_pos
    · rintro ⟨g, hg, rfl⟩
      exact out ((batch.slot (g := g) (by simpa using hg)).packet 3 (by omega)).2

/-! ## The rounds of a CSA completion -/

section
variable {ranges : List Range} {b u t : State} {key : Bytes 8} {r r' : Nat}

/-- The payloads of a latched batch are latched. -/
theorem LatchedBatch.payload_inRanges (batch : LatchedBatch b.cfg ranges b.sc) {a : Nat}
    (own : ∃ g, g < b.sc.grouped ∧ InPayload b g a) : inRanges ranges a = true := by
  obtain ⟨g, hg, low, high⟩ := own
  have desc := batch.slot hg
  have payload := desc.payload
  rw [SchedRegs.payloadAt] at low high
  rw [← Nat.add_sub_of_le (show (b.sc.slot g).pkt ≤ a by omega)]
  exact (desc.packet _ (by omega)).2

/-- States that differ from the start of the rounds in payloads only differ in latched bytes only. -/
theorem LatchedBatch.sameMemory (batch : LatchedBatch b.cfg ranges b.sc)
    (before : SameMemoryOutside (fun a => ∃ g, g < b.sc.grouped ∧ InPayload b g a) b u)
    (after : SameMemoryOutside (fun a => ∃ g, g < b.sc.grouped ∧ InPayload b g a) b t) :
    SameMemoryOutside (fun a => inRanges ranges a = true) u t := fun a out => by
  have away := mt batch.payload_inRanges out
  exact (after a away).trans (before a away).symm

/-- The invariant of the rounds does not depend on the sequencer. -/
theorem AfterRound.withSequencer (inv : AfterRound b key r u) (iter : Fin 24) (uops : List UWord) :
    AfterRound b key r { u with iter := iter, uops := uops } :=
  ⟨inv.cfg, inv.sched, inv.soff, inv.laneKey, inv.stream, inv.input, inv.block, inv.residue, inv.outside⟩

/-- The rounds keep the batch. -/
theorem AfterRound.latchedBatch (inv : AfterRound b key r u) (batch : LatchedBatch b.cfg ranges b.sc) :
    LatchedBatch u.cfg ranges u.sc := by
  rw [inv.cfg, inv.sched]
  exact ⟨batch.lanes, batch.desc, batch.apart⟩

theorem State.schedDrain_sc (s : State) : s.schedDrain.sc = s.sc := by
  rw [State.schedDrain_onlyMemory, State.blockPass]

/-- SC_ROUND23 and the write-back come after round 22 (R310). -/
theorem completionEnds_of_round22 (ready : BatchReady b) (batch : LatchedBatch b.cfg ranges b.sc)
    (inv : AfterRound b key 22 u) (uops : u.uops = []) (phase : u.phase = .rounds)
    (csa : u.pending.kind = .csa) (iter : u.iter = 22) : CompletionEnds ranges u := by
  have inv' := inv.withSequencer 23 []
  obtain ⟨t, run, done⟩ := batchDecrypted_of_afterRound ready inv'
  refine .of_step ((step_rounds_csa uops phase csa).trans (State.afterRound_22 iter))
    (.of_engineOp (i := .scRound23) rfl rfl run ?_ (batch.sameMemory inv'.outside done.outside))
  obtain rfl := Host.Outcome.next.inj ((exec_scRound23 (inv'.drainSound ready)).symm.trans run)
  have frame := EngineFrame.of_exec (i := .scRound23) rfl run
  refine completionEnds_of_enterWriteback ?_ ?_
  · rw [step_rounds_csa (by rw [frame]) (by rw [frame]; exact phase) (by rw [frame]; exact csa)]
    exact State.afterRound_23 (by rw [frame])
  · rw [State.schedDrain_sc, frame]
    exact inv'.latchedBatch batch

/-- The rounds after round `r`, `n` of them before SC_ROUND23 (R310). -/
theorem completionEnds_of_rounds (ready : BatchReady b) (batch : LatchedBatch b.cfg ranges b.sc) (n : Nat)
    (left : r + n = 22) (inv : AfterRound b key r u) (uops : u.uops = []) (phase : u.phase = .rounds)
    (csa : u.pending.kind = .csa) (iter : u.iter.val = r) : CompletionEnds ranges u := by
  induction n generalizing r u with
  | zero =>
    obtain rfl : r = 22 := left
    exact completionEnds_of_round22 ready batch inv uops phase csa (Fin.ext iter)
  | succ n ih =>
    have more : r < 22 := by omega
    have inv' := inv.withSequencer (u.iter + 1) []
    obtain ⟨t, run, next⟩ := afterRound_succ ready inv' more
    have move := State.afterRound_of_lt (s := u) rfl (by rwa [iter])
    rw [iter] at move
    refine .of_step ((step_rounds_csa uops phase csa).trans move)
      (.of_engineOp (i := .scRound ⟨r + 1, by omega⟩) rfl rfl run ?_
        (batch.sameMemory inv'.outside next.outside))
    have frame := EngineFrame.of_exec (i := .scRound ⟨r + 1, by omega⟩) rfl run
    refine ih (by omega) next (by rw [frame]) (by rw [frame]; exact phase) (by rw [frame]; exact csa) ?_
    have count : (u.iter + 1).val = r + 1 := by
      rw [Fin.val_add, iter]
      exact Nat.mod_eq_of_lt (by omega)
    rw [frame]
    exact count

end

/-! ## The completion of kind CSA -/

/-- The latched inputs of a CSA completion: checked ranges, and valid keys of 8 bytes (R32, R350). -/
structure CsaLatched (s : State) : Prop where
  csa : s.pending.kind = .csa
  ok : rangesOk s.cfg s.pending.ranges = true
  key : ∀ p, s.pending.valid.get p = true → ∃ key : Bytes 8, s.pending.cw.get p = key.toList

section
variable {s : State} (uops : s.uops = [])
include uops

/-- After SC_ALIVE: the rounds, or the write-back of an empty batch. -/
theorem completionEnds_of_sorted (latched : CsaLatched s) (phase : s.phase = .sort)
    (batch : LatchedBatch s.cfg s.pending.ranges s.sc) (ready : BatchReady s)
    (keyed : s.sc.grouped = 0 ∨ s.pending.valid.get s.sc.gpar = true) :
    CompletionEnds s.pending.ranges s := by
  rcases Nat.eq_zero_or_pos s.sc.grouped with empty | pos
  · exact .of_step ((step_sort uops phase).trans (State.afterSort_empty empty))
      (completionEnds_of_compact rfl rfl)
  obtain ⟨key, hkey⟩ := latched.key _ (keyed.resolve_left (by omega))
  have ready' : BatchReady { s with phase := .rounds, iter := 0, uops := [] } :=
    ⟨ready.lanes, ready.shape, ready.valid, ready.disjoint, ready.sorted, ready.counts⟩
  obtain ⟨u, run, inv⟩ := afterRound_zero ready' hkey
  have frame := EngineFrame.of_exec (i := .scRound0) rfl run
  refine .of_step ((step_sort uops phase).trans (State.afterSort_batch pos))
    (.of_engineOp (i := .scRound0) rfl rfl run
      (completionEnds_of_rounds ready' batch 22 rfl inv ?_ ?_ ?_ ?_)
      (LatchedBatch.sameMemory (b := { s with phase := .rounds, iter := 0, uops := [] }) batch
        (fun _ _ => rfl) inv.outside))
  all_goals rw [frame]
  · exact latched.csa
  · rfl

/-- After SC_SCAN: the key check, then SC_SORT and SC_ALIVE. -/
theorem completionEnds_of_scanned (latched : CsaLatched s) (phase : s.phase = .scan)
    (batch : LatchedBatch s.cfg s.pending.ranges s.sc) : CompletionEnds s.pending.ranges s := by
  have move := step_scan_csa uops phase latched.csa
  by_cases keyed : s.sc.grouped = 0 ∨ s.pending.valid.get s.sc.gpar = true
  · obtain ⟨u, sort, batch, sorted, frame⟩ :=
      exec_scSort_latched (s := { s with phase := .sort, uops := [0x5200] }) batch
    generalize u.sc.desc = desc at frame
    subst frame
    obtain ⟨v, alive, batch, ready, frame⟩ := exec_scAlive_ready
      (s := { s with phase := .sort, uops := [], sc := { s.sc with desc := desc } }) batch sorted
    generalize v.sc.alive = counts at frame
    subst frame
    refine .of_step (move.trans (congrArg _ (State.afterScan_keyed keyed)))
      (.of_engineOp (i := .scSort) rfl rfl sort (.of_engineOp (i := .scAlive) rfl rfl alive ?_))
    exact completionEnds_of_sorted rfl ⟨latched.csa, latched.ok, latched.key⟩ rfl batch ready keyed
  · obtain ⟨pos, missing⟩ := not_or.mp keyed
    refine completionEnds_of_fault (u := s) (move.trans (congrArg _ (if_pos ⟨?_, ?_⟩)))
    · omega
    · simpa using missing

end

/-- From SC_SCAN on. -/
theorem completionEnds_of_csa {s : State} (latched : CsaLatched s) (uops : s.uops = [0x5000])
    (phase : s.phase = .scan) : CompletionEnds s.pending.ranges s := by
  obtain ⟨u, run, batch, frame⟩ := exec_scScan_latched (s := { s with uops := [] }) latched.ok
  generalize u.sc = sc at batch frame
  subst frame
  exact .of_engineOp (i := .scScan) uops rfl run
    (completionEnds_of_scanned rfl ⟨latched.csa, latched.ok, latched.key⟩ phase batch)

/-! ## The scan of an ECB completion -/

/-- The item `w` of the work list is a latched packet, and its blocks of `b` bytes lie in it (R374). -/
structure LatchedWork (c : Build) (ranges : List Range) (b : Nat) (w : Work) : Prop where
  packet : LatchedPacket c ranges w.pkt
  blocks : w.off + b * w.nb ≤ 188

/-- The framing of a packet of valid bytes reads no others. -/
theorem exists_frame {c : Build} {ranges : List Range} (m : Memory) {a : Nat}
    (packet : LatchedPacket c ranges a) : ∃ f, frame c m a = some f := by
  have cls := classify_eq (m := m) fun i hi => (packet i hi).1
  obtain ⟨f, framed, -⟩ := Option.map_eq_some_iff.mp cls
  exact ⟨f, framed⟩

/-- The payload offset of a packet lies in it (R274). -/
theorem off_le_of_frame {c : Build} {m : Memory} {a off : Nat} {p : Parity}
    (framed : frame c m a = some (.payload p off)) : off ≤ 188 := by
  unfold frame at framed
  split at framed
  · cases framed
  split at framed
  · cases framed
  split at framed
  · cases framed
  split at framed
  · cases framed
  split at framed <;> cases framed
  assumption

section
variable {c : Build} {ranges : List Range} {m : Memory} {b : Nat}

/-- A packet puts at most itself on the work list. -/
theorem ecbPacket_latched {a diag : Nat} {work : List Work} {f : Frame}
    (packet : LatchedPacket c ranges a) (framed : frame c m a = some f)
    (latched : ∀ w ∈ work, LatchedWork c ranges b w) :
    ∀ w ∈ (ecbPacket b a f diag work).2, LatchedWork c ranges b w := by
  cases f with
  | clear | reserved | malformed => exact latched
  | payload p off =>
    have inside := off_le_of_frame framed
    rw [ecbPacket]
    split
    · exact latched
    · intro w hw
      rcases List.mem_append.mp hw with old | new
      · exact latched w old
      · rw [List.mem_singleton.mp new]
        refine ⟨packet, ?_⟩
        have blocks := Nat.mul_div_le (pktBytes - off) b
        unfold pktBytes at blocks ⊢
        dsimp only
        omega

theorem ecbPackets_latched {k a : Nat} {e : EcbScan}
    (packets : ∀ j, j < k → LatchedPacket c ranges (a + 188 * j))
    (latched : ∀ w ∈ e.work, LatchedWork c ranges b w) :
    ∃ e', ecbPackets c m b k a e = some e' ∧ ∀ w ∈ e'.work, LatchedWork c ranges b w := by
  induction k generalizing a e with
  | zero => exact ⟨e, rfl, latched⟩
  | succ k ih =>
    have packet : LatchedPacket c ranges a := packets 0 (Nat.succ_pos k)
    obtain ⟨f, framed⟩ := exists_frame m packet
    rw [ecbPackets, framed]
    refine ih (fun j hj => ?_) (ecbPacket_latched packet framed latched)
    have next := packets (j + 1) (by omega)
    rwa [Nat.mul_succ, Nat.add_comm (188 * j), ← Nat.add_assoc] at next

theorem ecbRanges_latched {rs : List Range} {e : EcbScan}
    (packets : ∀ r ∈ rs, ∀ a ∈ packetsOf r, LatchedPacket c ranges a)
    (latched : ∀ w ∈ e.work, LatchedWork c ranges b w) :
    ∃ e', ecbRanges c m b rs e = some e' ∧ ∀ w ∈ e'.work, LatchedWork c ranges b w := by
  induction rs generalizing e with
  | nil => exact ⟨e, rfl, latched⟩
  | cons r rs ih =>
    obtain ⟨first, others⟩ := List.forall_mem_cons.mp packets
    obtain ⟨e', run, latched'⟩ := ecbPackets_latched (m := m) (a := r.start.toNat)
      (k := (r.stop.toNat - r.start.toNat) / pktBytes)
      (fun j hj => first _ (List.mem_map_of_mem (List.mem_range.mpr hj))) latched
    rw [ecbRanges, run]
    exact ih others latched'

/-- The ECB scan of checked ranges reads valid bytes only, and its work is on latched packets. -/
theorem ecbScan_latched (m : Memory) (b : Nat) (ok : rangesOk c ranges = true) :
    ∃ e, ecbScan c m b ranges = some e ∧ ∀ w ∈ e.work, LatchedWork c ranges b w :=
  ecbRanges_latched (fun r hr _ ha => latchedPacket_of_mem_packetsOf hr ((rangesOk_iff.mp ok).1 r hr) ha)
    nofun

end

/-! ## The work of an ECB completion -/

/-- The blocks that a packet operation deciphers are all that it writes (R376 to R378). -/
theorem get_decipherBlocks_outside {b : Nat} (dec : Bytes b → Bytes b) {a nb x : Nat} (m : Memory)
    (out : x < a ∨ a + b * nb ≤ x) : (decipherBlocks b dec a nb m).get x = m.get x := by
  induction nb generalizing a m with
  | zero => rfl
  | succ nb ih =>
    rw [Nat.mul_succ] at out
    rw [decipherBlocks, ih _ (by omega), Memory.get_write_outside _ _ _ _ (by
      rw [Vector.length_toList]; omega)]

section
variable {ranges : List Range} {s : State}

/-- A packet operation on latched work runs, and writes latched bytes only. -/
theorem State.packetOp_latched {b : Nat} (dec : Bytes b → Bytes b) {w : Work} {key : List Byte}
    (op : s.ecb.op = ⟨w.pkt, w.off, w.nb, key⟩) (latched : LatchedWork s.cfg ranges b w) :
    ∃ m, s.packetOp b dec = .next { s with mem := m }
      ∧ SameMemoryOutside (fun a => inRanges ranges a = true) s { s with mem := m } := by
  have inside := latched.blocks
  have access : accessOk s.cfg (w.pkt + w.off) (b * w.nb) = true := (accessOk_iff ..).mpr fun k hk => by
    rw [Nat.add_assoc]
    exact (latched.packet _ (by omega)).1
  refine ⟨_, by simp only [State.packetOp, op]; exact if_pos access, fun a out => ?_⟩
  refine get_decipherBlocks_outside dec s.mem ?_
  by_contra part
  have own := (latched.packet (a - w.pkt) (by omega)).2
  rw [Nat.add_sub_of_le (by omega)] at own
  exact out own

/-- The packet operation of an ECB kind is one engine operation, on blocks of the kind's size (R370). -/
theorem exists_packetOp {kind : Kind} (some : kind ≠ .none) (ecb : kind ≠ .csa) :
    ∃ w i, engineWords (packetInstr kind) = [w] ∧ encode i = .engine w
      ∧ ∀ s : State, ∃ dec, exec i s = s.packetOp (blockSize kind) dec := by
  cases kind with
  | none => exact absurd rfl some
  | csa => exact absurd rfl ecb
  | desNcb => exact ⟨_, .pDesNcb, rfl, rfl, fun _ => ⟨_, rfl⟩⟩
  | aesEcb => exact ⟨_, .pAesEcb, rfl, rfl, fun _ => ⟨_, rfl⟩⟩
  | aes128Ecb => exact ⟨_, .pAes128Ecb, rfl, rfl, fun _ => ⟨_, rfl⟩⟩

/-- The operation of an item of the work list, and then the end. -/
theorem CompletionEnds.of_packetOp {w : Work} {key : List Byte} (some : s.pending.kind ≠ .none)
    (ecb : s.pending.kind ≠ .csa) (uops : s.uops = engineWords (packetInstr s.pending.kind))
    (op : s.ecb.op = ⟨w.pkt, w.off, w.nb, key⟩)
    (latched : LatchedWork s.cfg ranges (blockSize s.pending.kind) w)
    (ends : ∀ m, CompletionEnds ranges { s with uops := [], mem := m }) : CompletionEnds ranges s := by
  obtain ⟨word, i, words, encoded, run⟩ := exists_packetOp some ecb
  obtain ⟨dec, packet⟩ := run { s with uops := [] }
  obtain ⟨m, deciphered, mem⟩ := State.packetOp_latched (s := { s with uops := [] }) dec op latched
  exact .of_engineOp (uops.trans words) encoded (packet.trans deciphered) (ends m) mem

/-- TSC_CLEAR on the packet in work marks a latched byte, and the next item follows (R313, R374). -/
theorem State.ecbStep_latched (worked : s.ecb.active = true → LatchedPacket s.cfg ranges s.ecb.op.pkt) :
    ∃ m, s.ecbStep = .next { s with mem := m }.ecbNext
      ∧ SameMemoryOutside (fun a => inRanges ranges a = true) s { s with mem := m } := by
  rw [State.ecbStep]
  split
  · next mark =>
    obtain ⟨valid, own⟩ := worked (Bool.and_eq_true_iff.mp mark).1 3 (by omega)
    have byte : ValidBytes s.cfg (s.ecb.op.pkt + 3) 1 := fun k hk => by
      obtain rfl : k = 0 := by omega
      exact valid
    refine ⟨_, if_pos ((accessOk_iff ..).mpr byte), fun a out => ?_⟩
    refine (get_clearTsc _ (byte.bound Nat.one_pos)).trans (if_neg ?_)
    rintro rfl
    exact out own
  · exact ⟨s.mem, rfl, fun _ _ => rfl⟩

theorem step_rounds_ecb (uops : s.uops = []) (phase : s.phase = .rounds) (ecb : s.pending.kind ≠ .csa) :
    step s = s.ecbStep := by
  rw [step_eq_sequence uops (by simp [phase]), State.sequence]
  simp only [phase, ecb, if_false]

theorem step_scan_ecb (uops : s.uops = []) (phase : s.phase = .scan) (ecb : s.pending.kind ≠ .csa) :
    step s = s.ecbBegin := by
  rw [step_eq_sequence uops (by simp [phase]), State.sequence]
  simp only [phase, ecb, if_false]

theorem State.ecbNext_nil (work : s.ecb.work = []) :
    s.ecbNext = { s with
      phase := .writeback,
      sc := { s.sc with advanced := s.sc.adv, remaining := [] },
      ecb := { s.ecb with active := false } } := by
  simp only [State.ecbNext, work]

theorem State.ecbNext_cons {w : Work} {rest : List Work} (work : s.ecb.work = w :: rest) :
    s.ecbNext = { s with
      ecb := ⟨rest, ⟨w.pkt, w.off, w.nb, s.pending.cw.get w.par⟩, true⟩,
      uops := engineWords (packetInstr s.pending.kind) } := by
  simp only [State.ecbNext, work]

/-- The work list runs to its end, and then the write-back (R374). -/
theorem completionEnds_of_work {items : List Work} (some : s.pending.kind ≠ .none)
    (ecb : s.pending.kind ≠ .csa) (uops : s.uops = []) (phase : s.phase = .rounds)
    (work : s.ecb.work = items)
    (latched : ∀ w ∈ items, LatchedWork s.cfg ranges (blockSize s.pending.kind) w)
    (worked : s.ecb.active = true → LatchedPacket s.cfg ranges s.ecb.op.pkt) :
    CompletionEnds ranges s := by
  induction items generalizing s with
  | nil =>
    obtain ⟨m, next, mem⟩ := State.ecbStep_latched worked
    rw [State.ecbNext_nil (by exact work)] at next
    exact .of_step ((step_rounds_ecb uops phase ecb).trans next)
      (completionEnds_of_writeback uops rfl) rfl mem
  | cons w items ih =>
    obtain ⟨m, next, mem⟩ := State.ecbStep_latched worked
    rw [State.ecbNext_cons (by exact work)] at next
    obtain ⟨first, others⟩ := List.forall_mem_cons.mp latched
    exact .of_step ((step_rounds_ecb uops phase ecb).trans next)
      (.of_packetOp some ecb rfl rfl first fun _ =>
        ih some ecb rfl phase rfl others fun _ => first.packet) rfl mem

/-- From the ECB scan on. -/
theorem completionEnds_of_ecb (some : s.pending.kind ≠ .none) (ecb : s.pending.kind ≠ .csa)
    (ok : rangesOk s.cfg s.pending.ranges = true) (uops : s.uops = []) (phase : s.phase = .scan) :
    CompletionEnds s.pending.ranges s := by
  obtain ⟨e, scan, latched⟩ := ecbScan_latched s.mem (blockSize s.pending.kind) ok
  have move := step_scan_ecb uops phase ecb
  rw [State.ecbBegin, scan] at move
  dsimp only at move
  split at move
  · exact completionEnds_of_fault move
  · exact .of_step move (completionEnds_of_work some ecb uops rfl rfl latched nofun)

end

/-! ## Every completion -/

/-- Settles O59: the completion begins, and runs to its end by the operations of its kind. -/
theorem everyCompletionEnds : Obligations.EveryCompletionEnds := by
  intro s inv uops phase due
  have busy : s.busy = true := (Bool.and_eq_true_iff.mp due).1
  obtain ⟨kind, some, ok, keys⟩ := inv.busyPending busy
  rw [← kind] at some keys
  have begins := (sequencerOrder s uops).1 phase due
  by_cases csa : s.pending.kind = .csa
  · rw [if_pos csa] at begins
    refine CompletionEnds.of_step begins (completionEnds_of_csa ⟨csa, ok, fun p valid => ?_⟩ rfl rfl)
    have length := keys p valid
    rw [csa, keylen] at length
    exact ⟨⟨(s.pending.cw.get p).toArray, length⟩, rfl⟩
  · rw [if_neg csa] at begins
    exact CompletionEnds.of_step begins (completionEnds_of_ecb some csa ok rfl rfl)

end Sys2Proof.Machine
end

section
/-!
The single-packet ciphers (spec/46_single_packet_ciphers.md): the packet operations block by block (R376 to R378),
the scan and key check of an ECB completion (R372 to R374, R412), and the order of its work (R373, R374, R313).
-/

namespace Sys2Proof.Machine

/-! ## The packet operations (R371, R376 to R378) -/

/-- Each block is deciphered on its own: the writes of the others do not touch it. -/
theorem read_decipherBlocks {b : Nat} (dec : Bytes b → Bytes b) {a nb k : Nat} (m : Memory)
    (bound : a + b * nb ≤ memSize) (hk : k < nb) :
    (decipherBlocks b dec a nb m).read (a + b * k) b = dec (m.read (a + b * k) b) := by
  induction nb generalizing a k m with
  | zero => exact absurd hk (Nat.not_lt_zero k)
  | succ nb ih =>
    rw [Nat.mul_succ] at bound
    rw [decipherBlocks]
    cases k with
    | zero =>
      rw [Nat.mul_zero, Nat.add_zero]
      calc (decipherBlocks b dec (a + b) nb (m.write a (dec (m.read a b)).toList)).read a b
        _ = (m.write a (dec (m.read a b)).toList).read a b :=
          Memory.read_congr fun i hi => get_decipherBlocks_outside dec _ (.inl (by omega))
        _ = dec (m.read a b) := Memory.read_write m a _ (by omega)
    | succ k =>
      rw [show a + b * (k + 1) = a + b + b * k by rw [Nat.mul_succ]; omega,
        ih _ (by omega) (Nat.lt_of_succ_lt_succ hk)]
      exact congrArg dec (Memory.read_congr fun i _ => Memory.get_write_outside _ _ _ _ (.inr (by
        rw [Vector.length_toList]; omega)))

/-- A packet operation on valid bytes. -/
theorem State.packetOp_valid (s : State) {b : Nat} (pos : 0 < b) (dec : Bytes b → Bytes b)
    (valid : ValidBytes s.cfg (s.ecb.op.pkt + s.ecb.op.off) (b * s.ecb.op.nb)) :
    ∃ t, s.packetOp b dec = .next t
      ∧ (∀ k, k < s.ecb.op.nb → t.mem.read (s.ecb.op.pkt + s.ecb.op.off + b * k) b
          = dec (s.mem.read (s.ecb.op.pkt + s.ecb.op.off + b * k) b))
      ∧ SameMemoryOutside (fun x => s.ecb.op.pkt + s.ecb.op.off ≤ x
          ∧ x < s.ecb.op.pkt + s.ecb.op.off + b * s.ecb.op.nb) s t
      ∧ t = { s with mem := t.mem } := by
  refine ⟨_, if_pos ((accessOk_iff ..).mpr valid), fun k hk => ?_, fun x out => ?_, rfl⟩
  · exact read_decipherBlocks dec s.mem (valid.bound (Nat.mul_pos pos (by omega))) hk
  · exact get_decipherBlocks_outside dec s.mem (by omega)

/-- Settles O52: the three packet operations differ in the size of a block and the open function only. -/
theorem packetOperations : Obligations.PacketOperations := fun s =>
  ⟨s.packetOp_valid (by omega) _, s.packetOp_valid (by omega) _, s.packetOp_valid (by omega) _⟩

/-! ## One packet of the ECB scan (R372, R374) -/

/-- The item of the work list for the packet at `a`, with blocks of `b` bytes. -/
def workAt (b : Nat) (m : Memory) (a : Nat) : Work :=
  ⟨a, offsetAt m a, (188 - offsetAt m a) / b, parityAt m a⟩

/-- A packet that is neither malformed nor has a block of 8 bytes. -/
theorem classOf_of_plain {m : Memory} {a : Nat} (noBlock : hasBlock 8 m a = false)
    (good : isMalformed m a = false) :
    classOf m a = .clear ∨ classOf m a = .reserved ∨ classOf m a = .zero := by
  have noBlock := of_decide_eq_false noBlock
  have good := of_decide_eq_false good
  unfold classOf
  split
  · exact .inl rfl
  split
  · exact .inr (.inl rfl)
  rw [if_neg (by omega), if_pos (by omega)]
  exact .inr (.inr rfl)

section
variable {b : Nat} {m : Memory} {a : Nat} {f : Frame} (cls : f.cls = classOf m a)
include cls

theorem frame_of_isMalformed (bad : isMalformed m a = true) : f = .malformed := by
  rw [classOf_of_isMalformed bad] at cls
  cases f with
  | malformed => rfl
  | clear | reserved => cases cls
  | payload p off =>
    rw [Frame.cls] at cls
    split at cls <;> cases cls

theorem frame_of_hasBlock (block : hasBlock 8 m a = true) :
    f = .payload (parityAt m a) (offsetAt m a) := by
  rw [classOf_of_hasBlock block] at cls
  cases f with
  | clear | reserved | malformed => cases cls
  | payload p off =>
    rw [Frame.cls] at cls
    split at cls
    · cases cls
    · obtain ⟨rfl, rfl, -, -⟩ := Cls.cand.inj cls
      rfl

/-- A packet that is not malformed and has no block of 8 bytes gives no work, also with larger blocks. -/
theorem ecbPacket_of_plain (large : 8 ≤ b) (noBlock : hasBlock 8 m a = false)
    (good : isMalformed m a = false) (diag : Nat) (work : List Work) :
    ecbPacket b a f diag work = (diag, work) := by
  have plain := classOf_of_plain noBlock good
  rw [← cls] at plain
  cases f with
  | clear | reserved => rfl
  | malformed => simp [Frame.cls] at plain
  | payload p off =>
    by_cases short : (pktBytes - off) / 8 = 0
    · exact if_pos (Nat.div_eq_of_lt (by omega))
    · simp [Frame.cls, short] at plain

/-- A malformed packet is counted, and a packet with a block is listed. -/
theorem ecbPacket_eq (large : 8 ≤ b) (diag : Nat) (work : List Work) :
    ecbPacket b a f diag work
      = (diag + ([a].filter (isMalformed m)).length,
          work ++ ([a].filter (hasBlock b m)).map (workAt b m)) := by
  by_cases bad : isMalformed m a = true
  · have noBlock : hasBlock b m a = false :=
      decide_eq_false fun block => absurd (of_decide_eq_true bad).2 (by omega)
    simp [frame_of_isMalformed cls bad, ecbPacket, bad, noBlock]
  by_cases block : hasBlock b m a = true
  · obtain ⟨enc, inside, whole⟩ := of_decide_eq_true block
    have listed : (pktBytes - offsetAt m a) / b ≠ 0 := Nat.div_ne_zero_iff.mpr ⟨by omega, whole⟩
    rw [frame_of_hasBlock cls (decide_eq_true ⟨enc, inside, large.trans whole⟩), ecbPacket, if_neg listed]
    simp [bad, block, workAt, pktBytes]
  have nothing : ecbPacket b a f diag work = (diag, work) := by
    by_cases encrypted : hasBlock 8 m a = true
    · obtain ⟨enc, inside, -⟩ := of_decide_eq_true encrypted
      have short : pktBytes - offsetAt m a < b :=
        Nat.lt_of_not_le fun whole => block (decide_eq_true ⟨enc, inside, whole⟩)
      rw [frame_of_hasBlock cls encrypted]
      exact if_pos (Nat.div_eq_of_lt short)
    · exact ecbPacket_of_plain cls large (by simpa using encrypted) (by simpa using bad) diag work
  simp [nothing, bad, block]

end

/-- What the scan has gathered after the packets `done`. -/
def ecbScanned (b : Nat) (m : Memory) (done : List Nat) : EcbScan where
  adv := BitVec.ofNat 32 done.length
  diag := (done.filter (isMalformed m)).length
  work := (done.filter (hasBlock b m)).map (workAt b m)

section
variable {b : Nat} {m : Memory} {done : List Nat}

theorem ecbScanned_append (a : Nat) :
    ecbScanned b m (done ++ [a])
      = ⟨(ecbScanned b m done).adv + 1,
          (ecbScanned b m done).diag + ([a].filter (isMalformed m)).length,
          (ecbScanned b m done).work ++ ([a].filter (hasBlock b m)).map (workAt b m)⟩ := by
  simp only [ecbScanned, List.filter_append, List.map_append, List.length_append, BitVec.ofNat_add]
  rfl

/-! ## The ECB scan (R372, R374) -/

/-- The packets of a range. -/
theorem ecbPackets_scanned {c : Build} (large : 8 ≤ b) {k a : Nat} (valid : ValidBytes c a (188 * k)) :
    ecbPackets c m b k a (ecbScanned b m done)
      = some (ecbScanned b m (done ++ List.range' a k 188)) := by
  induction k generalizing a done with
  | zero => rw [List.range'_zero, List.append_nil]; rfl
  | succ k ih =>
    obtain ⟨f, framed, cls⟩ := Option.map_eq_some_iff.mp
      (classify_eq (m := m) fun i hi => valid i (by omega))
    rw [List.range'_succ, List.append_cons, ecbPackets, framed]
    dsimp only
    rw [ecbPacket_eq cls large, ← ecbScanned_append]
    refine ih fun i hi => ?_
    rw [Nat.add_assoc]
    exact valid _ (by unfold pktBytes; omega)

/-- The ranges in order. -/
theorem ecbRanges_scanned {c : Build} (large : 8 ≤ b) {ranges : List Range}
    (readable : ∀ r ∈ ranges, ReadableRange c r) :
    ecbRanges c m b ranges (ecbScanned b m done) = some (ecbScanned b m (done ++ scanOrder ranges)) := by
  induction ranges generalizing done with
  | nil => rw [scanOrder, List.flatMap_nil, List.append_nil]; rfl
  | cons r ranges ih =>
    obtain ⟨first, others⟩ := List.forall_mem_cons.mp readable
    obtain ⟨q, whole, -, packets, valid⟩ := first.packets
    have count : (r.stop.toNat - r.start.toNat) / pktBytes = q := by unfold pktBytes; omega
    rw [ecbRanges, count, ecbPackets_scanned large valid, scanOrder_cons, packets, ← List.append_assoc]
    exact ih others

theorem ecbScan_eq {c : Build} (m : Memory) (large : 8 ≤ b) {ranges : List Range}
    (readable : ∀ r ∈ ranges, ReadableRange c r) :
    ecbScan c m b ranges = some (ecbScanned b m (scanOrder ranges)) :=
  ecbRanges_scanned (done := []) large readable

end

/-! ## The key check (R374, R412) -/

section
variable {kind : Kind} (ecb : kind ∈ [Kind.desNcb, Kind.aesEcb, Kind.aes128Ecb])
include ecb

theorem ecbKind_ne_csa : kind ≠ .csa := by
  rintro rfl
  exact absurd ecb (by decide)

theorem blockSize_of_ecb : blockSize kind = if kind = .desNcb then 8 else 16 := by
  cases kind with
  | none | csa => exact absurd ecb (by decide)
  | desNcb | aesEcb | aes128Ecb => rfl

/-- The word of the packet operation of an ECB kind (R370). -/
theorem packetWords_of_ecb :
    engineWords (packetInstr kind)
      = [if kind = .desNcb then 0x6000 else if kind = .aesEcb then 0x6100 else 0x6200] := by
  cases kind with
  | none | csa => exact absurd ecb (by decide)
  | desNcb | aesEcb | aes128Ecb => rfl

end

/-- The registers after the ECB scan. -/
def State.withEcbScan (s : State) (e : EcbScan) : State :=
  { s with
    sc := { s.sc with adv := e.adv, diagInc := e.diag },
    ecb := { s.ecb with work := e.work, active := false } }

section
variable {s : State} {e : EcbScan}
  (scan : ecbScan s.cfg s.mem (blockSize s.pending.kind) s.pending.ranges = some e)
include scan

/-- With the keys of all listed packets the work begins (R374). -/
theorem State.ecbBegin_keyed (keyed : ∀ w ∈ e.work, s.pending.valid.get w.par = true) :
    s.ecbBegin = .next { s.withEcbScan e with phase := .rounds } := by
  have noneMissing : ¬ (e.work.any fun w => !s.pending.valid.get w.par) = true := by simpa using keyed
  simp only [State.ecbBegin, scan]
  exact if_neg noneMissing

/-- One missing key is the fault of the completion (R374). -/
theorem State.ecbBegin_missing (missing : ¬ ∀ w ∈ e.work, s.pending.valid.get w.par = true) :
    s.ecbBegin = .next ((s.withEcbScan e).completionFault .keyNotSet) := by
  have oneMissing : (e.work.any fun w => !s.pending.valid.get w.par) = true := by simpa using missing
  simp only [State.ecbBegin, scan]
  exact if_pos oneMissing

end

/-- Settles O57: the scan gathers all packets in order, and the key check reads the parities of the listed ones. -/
theorem ecbScanAndKeyCheck : Obligations.EcbScanAndKeyCheck := by
  intro s uops phase ecb readable b packets worked
  have scan : ecbScan s.cfg s.mem (blockSize s.pending.kind) s.pending.ranges
      = some (ecbScanned b s.mem packets) := by
    rw [blockSize_of_ecb ecb]
    exact ecbScan_eq s.mem (by split <;> omega) readable.1
  have keys : (∀ w ∈ (ecbScanned b s.mem packets).work, s.pending.valid.get w.par = true)
      ↔ ∀ a ∈ worked, s.pending.valid.get (parityAt s.mem a) = true := List.forall_mem_map
  rw [step_scan_ecb uops phase (ecbKind_ne_csa ecb)]
  by_cases keyed : ∀ a ∈ worked, s.pending.valid.get (parityAt s.mem a) = true
  · exact ⟨_, State.ecbBegin_keyed scan (keys.mpr keyed), fun _ => rfl, by rw [if_pos keyed]; rfl⟩
  · refine ⟨_, State.ecbBegin_missing scan (mt keys.mp keyed), fun _ => by
      rw [State.completionFault_mem]; rfl, ?_⟩
    rw [if_neg keyed, State.completionFault_eq]
    simp only [State.withEcbScan, uops]
    rfl

/-! ## The work (R373, R374, R313) -/

/-- A packet operation of a TSC_CLEAR build is followed by the mark on its packet, and then the next item. -/
theorem State.ecbStep_marks {s : State}
    (valid : s.ecb.active = true → s.cfg.tscClear = true → memValid s.cfg (s.ecb.op.pkt + 3) = true) :
    ∃ m, s.ecbStep = .next { s with mem := m }.ecbNext
      ∧ if s.ecb.active = true ∧ s.cfg.tscClear = true then
          m.get (s.ecb.op.pkt + 3) = s.mem.get (s.ecb.op.pkt + 3) &&& 0x3F
            ∧ ∀ a, a ≠ s.ecb.op.pkt + 3 → m.get a = s.mem.get a
        else m = s.mem := by
  by_cases mark : s.ecb.active = true ∧ s.cfg.tscClear = true
  · have byte : ValidBytes s.cfg (s.ecb.op.pkt + 3) 1 := fun k hk => by
      obtain rfl : k = 0 := by omega
      exact valid mark.1 mark.2
    have bytes (a : Nat) := get_clearTsc s.mem (b := a) (byte.bound Nat.one_pos)
    refine ⟨clearTsc s.mem s.ecb.op.pkt, ?_, ?_⟩
    · rw [State.ecbStep, if_pos (Bool.and_eq_true_iff.mpr mark), if_pos ((accessOk_iff ..).mpr byte)]
    · rw [if_pos mark]
      exact ⟨(bytes _).trans (if_pos rfl), fun a other => (bytes a).trans (if_neg other)⟩
  · refine ⟨s.mem, ?_, by rw [if_neg mark]⟩
    rw [State.ecbStep, if_neg (mt Bool.and_eq_true_iff.mp mark)]

/-- Settles O58: the mark on the packet that was worked, then the head of the list or the write-back. -/
theorem ecbWorkOrder : Obligations.EcbWorkOrder := by
  intro s uops phase ecb valid
  obtain ⟨m, run, mark⟩ := State.ecbStep_marks valid
  rw [← step_rounds_ecb uops phase (ecbKind_ne_csa ecb)] at run
  cases work : s.ecb.work with
  | nil =>
    rw [State.ecbNext_nil (by exact work)] at run
    exact ⟨_, run, mark, rfl⟩
  | cons w rest =>
    rw [State.ecbNext_cons (by exact work)] at run
    exact ⟨_, run, mark, by rw [← packetWords_of_ecb ecb]⟩

end Sys2Proof.Machine
end

section
/-!
Faults (spec/60_exceptions.md): the reserved opcode (R390), fault entry by a command and by a completion (R396),
and the check order of one command (R398).
-/

namespace Sys2Proof.Machine

/-! ## A reserved opcode (R390) -/

theorem reservedCommand_faults {s : State} (opc : Byte) (live : s.faulted = false) :
    reservedCommand opc s = s.raiseFault .illegalCommand opc := if_neg (by simp [live])

/-- The one word of a reserved opcode is consumed (R118), and the port answers it (R390). -/
theorem step_reservedWord {s : State} {w : Word} {ops : List Word} (uops : s.uops = [])
    (phase : s.phase = .idle) (due : s.completionDue = false) (port : s.port = w :: ops)
    (reserved : ¬(1 ≤ w.toNat / 2 ^ 24 ∧ w.toNat / 2 ^ 24 ≤ 4)) :
    step s = .next (reservedCommand (BitVec.ofNat 8 (w.toNat / 2 ^ 24)) (s.consume 1)) := by
  apply step_reservedOpcode uops phase due
  rw [State.portHead, port, decodeCommand_reserved reserved, opcode_eq_ofNat rfl]

/-- Settles O7: the decoder takes the word for a reserved opcode, and the port refuses it or faults. -/
theorem reservedOpcodeFaults : Obligations.ReservedOpcodeFaults := by
  intro s w ops uops phase due port reserved opc s'
  have consumed : s.consume 1 = s' := by rw [State.consume, port]; rfl
  refine ⟨_, step_reservedWord uops phase due port (by omega), ?_⟩
  rw [consumed]
  split
  · next faulted =>
    rw [reservedCommand_refused (s := s') opc faulted]
    rfl
  · next live =>
    rw [reservedCommand_faults (s := s') opc (by simpa using live)]
    exact s'.raiseFault_taken .illegalCommand opc

/-! ## Fault entry (R396) -/

/-- The record of the first fault, as one update of the state (R38, R396). -/
theorem State.recordFault_eq (s : State) (code opc : Byte) :
    s.recordFault code opc =
      { s with
        faulted := true,
        faultCode := if s.faulted then s.faultCode else code,
        faultOpcode := if s.faulted then s.faultOpcode else opc } := by
  rw [State.recordFault]
  split
  · next faulted => rw [← faulted]
  · rfl

/-- Settles O13: both raisers record the fault; a command drops the DECRYPT in flight, a completion ends it. -/
theorem faultEntry : Obligations.FaultEntry :=
  ⟨State.raiseFault_taken, fun s st => by
    rw [State.completionFault, State.recordFault_eq]
    rfl⟩

/-! ## The check order of one command (R398) -/

/-- The causes of R398 in the order of its list, with their codes, for the command whose word has the opcode
`opc` and the ARGS `args`. -/
def checkCauses (s : State) (ranges : List Range) (opc args : Nat) : List (Bool × Byte) :=
  [(s.faulted && opc != 4, 0xFF),
   (opc == 0 || decide (5 ≤ opc), 0x01),
   (opc == 1 && (args / 8 != 0 || args % 8 == 0 || decide (5 ≤ args % 8)), 0x02),
   (opc == 2 && (args / 4 != 0 || args % 4 == 0), 0x02),
   (opc == 3 && args / 2 ^ 16 != 0, 0x02),
   (opc == 4 && (args / 2 ^ 8 != 0 || decide (5 ≤ args % 2 ^ 8)), 0x02),
   (opc == 1 && args % 8 != s.kind.code.toNat && s.busy, 0x04),
   (opc == 3 && s.busy, 0x05),
   ((opc == 2 || opc == 3) && s.kind == .none, 0x03),
   (opc == 3 && !rangesOk s.cfg ranges, 0x06)]

/-- `t` answers the command of `s` with the cause found; with none the fault record is as it was, and the
answer is OK, or is still to come for DECRYPT. -/
def Reported (s t : State) (opc : Nat) : Option (Bool × Byte) → Prop
  | some (_, code) => t.resp = s.resp ++ [⟨BitVec.ofNat 8 opc, code, []⟩]
  | none =>
    t.faulted = s.faulted ∧ t.faultCode = s.faultCode ∧ t.faultOpcode = s.faultOpcode
      ∧ (if opc = 3 then t.resp = s.resp
        else ∃ payload, t.resp = s.resp ++ [⟨BitVec.ofNat 8 opc, 0x00, payload⟩])

/-- The command of `s` answers with the first of the causes `causes` that applies. -/
def Reports (s : State) (opc : Nat) (causes : List (Bool × Byte)) (run : CmdResult) : Prop :=
  ∃ t, run = .next t ∧ Reported s t opc (causes.find? (·.1))

/-- The words that a command consumes are no part of its report. -/
theorem Reports.of_consume {s : State} {len opc : Nat} {causes : List (Bool × Byte)} {run : CmdResult}
    (h : Reports (s.consume len) opc causes run) : Reports s opc causes run := by
  obtain ⟨t, next, reported⟩ := h
  refine ⟨t, next, ?_⟩
  cases hf : causes.find? (·.1) <;> rw [hf] at reported <;> exact reported

section
variable {s t : State} {opc : Nat} {code : Byte} {b : Bool} {causes : List (Bool × Byte)}
  {run : CmdResult}

/-- A cause that applies is reported, and one that does not leaves the report to those after it. -/
theorem reports_cons :
    Reports s opc ((b, code) :: causes) run ↔
      if b then ∃ t, run = .next t ∧ t.resp = s.resp ++ [⟨BitVec.ofNat 8 opc, code, []⟩]
      else Reports s opc causes run := by
  cases b <;> rfl

/-- A check of the command is the next cause of the list. -/
theorem Reports.check {p A B : Prop} [Decidable p] (next : run = .next t)
    (effect : if p then A else B) (cause : b = true ↔ p)
    (fails : A → t.resp = s.resp ++ [⟨BitVec.ofNat 8 opc, code, []⟩])
    (passes : B → Reports s opc causes run) : Reports s opc ((b, code) :: causes) run := by
  rw [reports_cons]
  simp only [cause]
  split at effect
  · next hp => exact (if_pos hp).mpr ⟨t, next, fails effect⟩
  · next hp => exact (if_neg hp).mpr (passes effect)

end

/-- Fault entry answers with the fault's code (R396). -/
theorem FaultTaken.resp {code opc : Byte} {s t : State} (h : FaultTaken code opc s t) :
    t.resp = s.resp ++ [⟨opc, code, []⟩] := by
  obtain ⟨-, -, -, -, resp, -⟩ := h
  exact resp

/-- R398's reading of a reserved field, as a number, is that of the commands. -/
theorem toNat_bne_zero {n : Nat} (v : BitVec n) : (v.toNat != 0) = true ↔ v ≠ 0 := by
  rw [bne_iff_ne, ne_eq, ne_eq, ← BitVec.toNat_inj]
  rfl

/-! ## The checks of each command, in order -/

section
variable (s : State)

theorem exec_setKind_reports (rsvd : BitVec 21) (k : BitVec 3) :
    Reports s 1
      [(s.faulted, 0xFF), (rsvd.toNat != 0 || k.toNat == 0 || decide (5 ≤ k.toNat), 0x02),
       (k.toNat != s.kind.code.toNat && s.busy, 0x04)]
      (exec (.setKind rsvd k) s) := by
  obtain ⟨t, next, effect⟩ := exec_setKind s rsvd k
  refine .check next effect .rfl (congrArg State.resp) fun effect => ?_
  refine .check next effect (by simp [-bne_iff_ne, toNat_bne_zero, or_assoc]) FaultTaken.resp
    fun effect => ?_
  by_cases same : k = s.kind.code
  · rw [if_pos same] at effect
    rw [effect] at next
    have passed : (k.toNat != s.kind.code.toNat && s.busy) = false := by simp [same]
    rw [passed]
    exact ⟨_, next, rfl, rfl, rfl, _, rfl⟩
  · rw [if_neg same] at effect
    refine .check next effect (by simp [BitVec.toNat_inj, same]) FaultTaken.resp fun effect => ?_
    obtain ⟨kind, -, rfl⟩ := effect
    exact ⟨_, next, rfl, rfl, rfl, _, rfl⟩

theorem exec_setCw_reports (rsvd : BitVec 22) (pmask : BitVec 2) {keys : List Word}
    (wf : (Instr.setCw rsvd pmask keys).wf s.keyWords = true) :
    Reports s 2
      [(s.faulted, 0xFF), (rsvd.toNat != 0 || pmask.toNat == 0, 0x02), (s.kind == .none, 0x03)]
      (exec (.setCw rsvd pmask keys) s) := by
  have count : keys.length = (pmask.toNat % 2 + pmask.toNat / 2) * (keylen s.cfg s.kind / 4) := by
    have mask : pmaskCount pmask = pmask.toNat % 2 + pmask.toNat / 2 := by
      clear wf; revert pmask; decide
    simpa [Instr.wf, mask, State.keyWords] using wf
  obtain ⟨t, next, effect⟩ := setCwEffect s rsvd pmask keys count
  refine .check next effect .rfl (congrArg State.resp) fun effect => ?_
  refine .check next effect (by simp [← BitVec.toNat_inj]) FaultTaken.resp fun effect => ?_
  refine .check next effect (by simp) FaultTaken.resp fun effect => ?_
  rw [effect] at next
  exact ⟨_, next, rfl, rfl, rfl, _, rfl⟩

theorem exec_decrypt_reports (rsvd : BitVec 8) (ranges : List Range) :
    Reports s 3
      [(s.faulted, 0xFF), (rsvd.toNat != 0, 0x02), (s.busy, 0x05), (s.kind == .none, 0x03),
       (!rangesOk s.cfg ranges, 0x06)]
      (exec (.decrypt rsvd ranges) s) := by
  obtain ⟨t, next, effect⟩ := decryptIssueEffect s rsvd ranges
  refine .check next effect .rfl (congrArg State.resp) fun effect => ?_
  refine .check next effect (toNat_bne_zero rsvd) FaultTaken.resp fun effect => ?_
  refine .check next effect .rfl FaultTaken.resp fun effect => ?_
  refine .check next effect (by simp) FaultTaken.resp fun effect => ?_
  rw [← ite_not] at effect
  refine .check next effect (by simp) FaultTaken.resp fun effect => ?_
  rw [effect] at next
  exact ⟨_, next, rfl, rfl, rfl, rfl⟩

theorem exec_csrRead_reports (rsvd : BitVec 16) (index : BitVec 8) :
    Reports s 4 [(rsvd.toNat != 0 || decide (5 ≤ index.toNat), 0x02)]
      (exec (.csrRead rsvd index) s) := by
  obtain ⟨t, next, effect⟩ := csrReadEffect.1 s rsvd index
  refine .check next effect (by simp [-bne_iff_ne, toNat_bne_zero]) FaultTaken.resp fun effect => ?_
  obtain ⟨v, rfl, -⟩ := effect
  exact ⟨_, next, rfl, rfl, rfl, _, rfl⟩

end

/-! ## The check order from a command's word -/

section
variable (w : Word) {l k : Nat}

/-- The reserved field of a command word is ARGS above its other fields (R113 to R117). -/
theorem toNat_highArgs (h : l + k = 24) :
    (w.extractLsb' l k).toNat = w.toNat % 2 ^ 24 / 2 ^ l := by
  rw [BitVec.extractLsb'_toNat, Nat.shiftRight_eq_div_pow, ← h, Nat.pow_add,
    Nat.mod_mul_right_div_self]

theorem toNat_lowArgs (h : l ≤ 24) :
    (w.extractLsb' 0 l).toNat = w.toNat % 2 ^ 24 % 2 ^ l := by
  rw [BitVec.extractLsb'_toNat, Nat.shiftRight_zero, Nat.mod_mod_of_dvd _ (Nat.pow_dvd_pow 2 h)]

end

section
variable (s : State) (w : Word) (ranges : List Range)

theorem setKindWord_reports :
    Reports s 1 (checkCauses s ranges 1 (w.toNat % 2 ^ 24))
      (exec (.setKind (w.extractLsb' 3 21) (w.extractLsb' 0 3)) s) := by
  have run := exec_setKind_reports s (w.extractLsb' 3 21) (w.extractLsb' 0 3)
  rw [toNat_highArgs w rfl, toNat_lowArgs w (by decide)] at run
  simpa [checkCauses, reports_cons] using run

theorem setCwWord_reports {keys : List Word}
    (wf : (Instr.setCw (w.extractLsb' 2 22) (w.extractLsb' 0 2) keys).wf s.keyWords = true) :
    Reports s 2 (checkCauses s ranges 2 (w.toNat % 2 ^ 24))
      (exec (.setCw (w.extractLsb' 2 22) (w.extractLsb' 0 2) keys) s) := by
  have run := exec_setCw_reports s _ _ wf
  rw [toNat_highArgs w rfl, toNat_lowArgs w (by decide)] at run
  simpa [checkCauses, reports_cons] using run

theorem decryptWord_reports :
    Reports s 3 (checkCauses s ranges 3 (w.toNat % 2 ^ 24))
      (exec (.decrypt (w.extractLsb' 16 8) ranges) s) := by
  have run := exec_decrypt_reports s (w.extractLsb' 16 8) ranges
  rw [toNat_highArgs w rfl] at run
  simpa [checkCauses, reports_cons] using run

theorem csrReadWord_reports :
    Reports s 4 (checkCauses s ranges 4 (w.toNat % 2 ^ 24))
      (exec (.csrRead (w.extractLsb' 8 16) (w.extractLsb' 0 8)) s) := by
  have run := exec_csrRead_reports s (w.extractLsb' 8 16) (w.extractLsb' 0 8)
  rw [toNat_highArgs w rfl, toNat_lowArgs w (by decide)] at run
  simpa [checkCauses, reports_cons] using run

/-- A reserved opcode is always reported, as refused or as illegal. -/
theorem reservedCommand_reports {opc : Nat} (reserved : ¬(1 ≤ opc ∧ opc ≤ 4)) (args : Nat) :
    Reports s opc (checkCauses s ranges opc args)
      (.next (reservedCommand (BitVec.ofNat 8 opc) s)) := by
  have notCsr : (opc != 4) = true := by rw [bne_iff_ne]; omega
  have illegal : (opc == 0 || decide (5 ≤ opc)) = true := by
    rw [Bool.or_eq_true, beq_iff_eq, decide_eq_true_eq]; omega
  rw [checkCauses, notCsr, illegal, Bool.and_true, reports_cons]
  split
  · next faulted => exact ⟨_, rfl, by rw [reservedCommand_refused _ faulted]; rfl⟩
  · next live =>
    rw [reservedCommand_faults _ (by simpa using live)]
    exact ⟨_, rfl, (s.raiseFault_taken .illegalCommand _).resp⟩

end

/-- Settles O16: for each opcode the causes of the list that can apply to it are the checks of its command,
in their order. -/
theorem checkOrder : Obligations.CheckOrder := by
  intro s w ops ranges uops phase due port complete hranges opc args
  suffices Reports s opc (checkCauses s ranges opc args) (step s) from this
  by_cases reserved : ¬(1 ≤ opc ∧ opc ≤ 4)
  · rw [step_reservedWord uops phase due port reserved]
    exact (reservedCommand_reports (s.consume 1) ranges reserved args).of_consume
  have head : s.portHead = decodeCommand s.keyWords (w :: ops) := by rw [State.portHead, port]
  obtain h | h | h | h : opc = 1 ∨ opc = 2 ∨ opc = 3 ∨ opc = 4 := by omega
  all_goals have code := opcode_eq_ofNat h; rw [h]
  · rw [decodeCommand_setKind code] at head
    rw [step_command uops phase due head]
    exact (setKindWord_reports (s.consume _) w ranges).of_consume
  · rw [decodeCommand_setCw code] at head
    split at head
    · exact absurd head complete
    rw [step_command uops phase due head]
    exact (setCwWord_reports (s.consume _) w ranges (decodeCommand_instr_wf head).2).of_consume
  · have taken : takeRanges (w.extractLsb' 0 16).toNat ops = some ranges := by
      rw [toNat_lowArgs w (by decide), Nat.mod_mod_of_dvd _ (by decide)]
      exact hranges h
    rw [decodeCommand_decrypt code taken] at head
    rw [step_command uops phase due head]
    exact (decryptWord_reports (s.consume _) w ranges).of_consume
  · rw [decodeCommand_csrRead code] at head
    rw [step_command uops phase due head]
    exact (csrReadWord_reports (s.consume _) w ranges).of_consume

end Sys2Proof.Machine
end

section
/-!
Reset (spec/70_reset_and_hazards.md): the values it leaves (R430), the invariants there, and the reset of a
block that may be running (R431).
-/

namespace Sys2Proof.Machine

/-! ## The reset state (R430) -/

/-- With no fault, no key, no kind and nothing in flight, every field of STATUS is zero (R42). -/
theorem status_reset : State.reset.status = 0 := rfl

/-- Settles O23: each value is a field of `State.reset`; the CSRs are read through R41's table. -/
theorem resetValues : Obligations.ResetValues :=
  ⟨rfl, rfl, rfl, rfl, rfl, rfl, rfl, rfl, rfl, rfl, rfl, status_reset, State.reset.csrValue_zero,
    State.reset.csrValue_one⟩

/-- No key is valid, no fault is recorded and nothing is in flight, so only the form of the empty memory is
left to say. -/
theorem Inv.reset : Inv State.reset where
  memWf := wf_reset
  keyLength := fun p hp => by cases p <;> cases hp
  faultedIdle := nofun
  faultedCode := nofun
  cleanCode := fun _ => ⟨rfl, rfl⟩
  busyPending := nofun
  legalCodes := nofun
  phaseBusy := fun hp => absurd rfl hp

/-- Every group and byte-slice register of the reset state is zero (log 5). -/
theorem LanesWf.reset : LanesWf State.reset :=
  .of_regs State.reset rfl (.reset _) (.reset _) (.reset _)

/-- Settles O19. -/
theorem invariantsAtReset : Obligations.InvariantsAtReset := ⟨.reset, .reset⟩

/-! ## Reset of a block that may be running (R431) -/

section
variable {s : State}

/-- The host's reset reaches the block with that action used up. -/
theorem State.hostStep_reset {rest : List HostAction} (host : s.host = .reset :: rest) :
    s.hostStep = .next { s with host := rest }.hardReset := by
  simp only [State.hostStep, host]

/-- Packet memory is not state of the block: reset changes at most the latched ranges of the DECRYPT that it
abandons (R46, R430, R431). -/
theorem State.hardReset_memory :
    SameMemoryOutside (fun a => s.busy = true ∧ inRanges s.pending.ranges a = true) s s.hardReset := by
  intro a outside
  have mem : s.hardReset.mem
      = if s.busy then scrambleRanges s.draws s.pending.ranges s.mem else s.mem := rfl
  rw [mem]
  split
  · next busy => exact (get_scrambleRanges ..).trans (if_neg fun latched => outside ⟨busy, latched⟩)
  · rfl

end

/-- Settles O24: the step is the host's, and its fields are those of `hardReset`. -/
theorem resetAction : Obligations.ResetAction := by
  intro s rest uops phase due head host
  have moved : step s = .next { s with host := rest }.hardReset :=
    (step_eq_hostStep uops phase due head).trans (State.hostStep_reset host)
  have memory := State.hardReset_memory (s := { s with host := rest })
  exact ⟨_, moved, rfl, fun a outside => memory a outside⟩

end Sys2Proof.Machine
end
